-- ==== Sys2Proof/Word.lean ====
section
/-!
DEFINITION. The words of the Gectra 2410: bytes, cipher blocks, sectors, and the numbers that name things.

A sector is 512 bytes held as one 4096-bit word, byte b in bits 8b to 8b+7, so that the XOR of R57 is one operation;
a cipher block is 16 bytes held the same way (log 8).
-/

namespace Sys2Proof

/-- One byte of a frame or a block. -/
abbrev Byte := BitVec 8

/-- A cipher block, a key or a check value: 16 bytes, byte b in bits 8b to 8b+7. -/
abbrev Block := BitVec 128

/-- A sector: 512 bytes, byte b in bits 8b to 8b+7 (spec/00 1.7, Sizes). -/
abbrev Sector := BitVec 4096

/-- The number, 0 to 31, that names a queued command (spec/00 1.7). -/
abbrev Tag := Fin 32

/-- A Context Table slot, 0 to 15 (R78). -/
abbrev CtxSlot := Fin 16

/-- A Key Cache slot, 0 to 7 (R127). -/
abbrev KeyNo := Fin 8

/-- A Keystream Pool slot, 0 to 63 (R142). -/
abbrev PoolNo := Fin 64

/-- A Region Table entry number, 0 to 127 (R64). -/
abbrev EntryNo := Fin 128

/-- The greatest value of monotonic time, rights time and the 32-bit counts (spec/00 1.7). -/
abbrev maxSeconds : Nat := 4294967295

/-- One past the greatest LBA, 2^48 (spec/00 1.7). -/
abbrev lbaEnd : Nat := 281474976710656

/-- One past the greatest logical sector, 2^40 (spec/00 1.7). -/
abbrev logicalEnd : Nat := 1099511627776

end Sys2Proof
end

