-- ==== Sys2Proof/Config.lean ====
section
/-!
DEFINITION. What each part fixes and the manual does not give, as constants with no body: nothing in Lean can evaluate them, so
whatever is proved holds for every value.
-/

namespace Sys2Proof

/-- The 128-bit unit key fused at manufacture (R124). Its value is not in the manual (log 7). -/
opaque Config.unitKey : Block

/-- The block transform: for each key a permutation of 128-bit values (spec/00 1.7). Its construction is not part of the
manual; that it is a permutation for each key is the property the manual fixes (log 8). -/
opaque Config.blockTransform : Block → Equiv.Perm Block

/-- The check function under a key over an ordered list of input bytes, the purpose code first (R125, R198). Its construction is
not part of the manual (log 9). -/
opaque Config.checkFunction : Block → List Byte → Block

/-- FREE VALUE (log 12): the contents of a sector that passes for a burst whose tracker entry has ended, while R7 leaves the burst
open. The argument is State's counter of free values. -/
opaque Config.orphanSector : Nat → Sector

/-- FREE VALUE (log 5): whether the upstream port takes its waiting frame before the drive port does, where one event has freed
both. The argument is State's counter of free values. -/
opaque Config.upstreamFirst : Nat → Bool

end Sys2Proof
end

