-- ==== Sys2Proof/Syntax.lean ====
section
/-!
DEFINITION. The commands of the Gectra 2410: the frames of the two links with their fields (spec/12 12.1), the parameters of the bridge
requests (spec/12 12.3), and Instr, one constructor for each row of spec/opcode_table.json.
-/

namespace Sys2Proof

/-- The two link ports (spec/01). -/
inductive Port where
  | upstream
  | drive
  deriving DecidableEq, Repr

/-- A COMMAND frame (12.1): byte 1 operation code, bytes 2-7 start LBA, bytes 8-9 count, byte 10 with the tag in bits 0-4, and bytes
11-19. Bits 5-7 of byte 10 and bytes 11-19 are relayed unchanged. -/
structure CommandFrame where
  op : Byte
  lba : BitVec 48
  count : BitVec 16
  byte10 : Byte
  rest : BitVec 72
  deriving DecidableEq, Repr

/-- A READY frame (12.1): byte 1 with the direction in bit 0 and tag present in bit 1, byte 2 tag, byte 3, bytes 4-5 first sector
offset, bytes 6-7 count. -/
structure ReadyFrame where
  flags : Byte
  tag : Byte
  byte3 : Byte
  offset : BitVec 16
  count : BitVec 16
  deriving DecidableEq, Repr

/-- A DATA frame (12.1): byte 1 gives the number of sectors carried, here the length of the list; bytes 2-3; from byte 4 the sectors. -/
structure DataFrame where
  bytes23 : BitVec 16
  sectors : List Sector
  deriving DecidableEq, Repr

/-- A STATUS frame (12.1): byte 1 outcome (0 ACCEPTED, 1 OK, 2 ERROR), byte 2 detail. -/
structure StatusFrame where
  outcome : Byte
  detail : Byte
  deriving DecidableEq, Repr

/-- A DONE frame (12.1): byte 1 with the abort flag in bit 0, byte 2 the number of failed pairs, here the length of the list, byte 3,
bytes 4-7 the done set, from byte 8 the failed pairs (tag, detail). -/
structure DoneFrame where
  flags : Byte
  byte3 : Byte
  doneSet : BitVec 32
  failed : List (Byte × Byte)
  deriving DecidableEq, Repr

/-- A frame of one of the five classes, or one whose class byte names none of them (R2). -/
inductive Frame where
  | command (c : CommandFrame)
  | ready (r : ReadyFrame)
  | data (d : DataFrame)
  | status (t : StatusFrame)
  | done (d : DoneFrame)
  | unknown (classByte : Byte) (rest : List Byte)
  deriving DecidableEq, Repr

/-- The context blob that LOAD_CONTEXT carries (12.3): serial, class, opening, not_after, W, the wrapped key as wrap value and masked
key, and the check value. -/
structure Blob where
  serial : BitVec 48
  cls : Byte
  opening : Byte
  notAfter : BitVec 32
  window : BitVec 32
  wrapValue : Block
  maskedKey : Block
  check : Block
  deriving DecidableEq, Repr

/-- The parameters of ADD_REGION (12.3). -/
structure RegionParams where
  entry : Byte
  slot : Byte
  base : BitVec 48
  limit : BitVec 48
  logicalStart : BitVec 40
  deriving DecidableEq, Repr

/-- The parameters of WRITE_SETTINGS (12.3): L, the severities in fault-bit order, the attention set and the tick divider. -/
structure SettingsParams where
  lookahead : Byte
  keyParity : Byte
  transform : Byte
  protocol : Byte
  driveLost : Byte
  attentionSet : BitVec 32
  divider : BitVec 32
  deriving DecidableEq, Repr

/-- A bridge request: the operation a request block names, with its parameters (12.3). -/
inductive Request where
  | loadContext (slot : Byte) (blob : Blob)
  | sealContext (slot : Byte)
  | closeContext (slot : Byte)
  | readContext (slot : Byte)
  | readReceipt (slot : Byte)
  | clearUnit
  | addRegion (p : RegionParams)
  | removeRegion (entry : Byte)
  | readRegions (start : Byte)
  | setShiftDepth (slot : Byte) (depth : BitVec 32)
  | pinKey (slot : Byte)
  | unpinKey (slot : Byte)
  | setRightsTime (time : BitVec 32) (check : Block)
  | writeSettings (p : SettingsParams)
  | lockSettings
  | readStatus
  | drain
  | readNotices
  | readHistory
  | clearFaults (set : Byte)
  deriving DecidableEq, Repr

/-- The commands: one constructor for each row of spec/opcode_table.json, in its order. -/
inductive Instr where
  /-- POWER_ON: power is applied (R195). -/
  | powerOn
  /-- UPSTREAM_LINK_UP (R1). -/
  | upstreamLinkUp
  /-- LINK_RESET: a reset or loss of the upstream link (R15). -/
  | linkReset
  /-- DRIVE_LINK_UP (R18). -/
  | driveLinkUp
  /-- DRIVE_LINK_LOST (R17). -/
  | driveLinkLost
  /-- TICK: the divide count reaches the tick divider (R159). -/
  | tick
  /-- READ: a COMMAND frame with operation code 0x2A (R22). -/
  | read (lba : BitVec 48) (count : BitVec 16) (byte10 : Byte) (rest : BitVec 72)
  /-- WRITE: a COMMAND frame with operation code 0x3A (R22). -/
  | write (lba : BitVec 48) (count : BitVec 16) (byte10 : Byte) (rest : BitVec 72)
  /-- QREAD: a COMMAND frame with operation code 0x6A (R21). -/
  | qread (lba : BitVec 48) (count : BitVec 16) (byte10 : Byte) (rest : BitVec 72)
  /-- QWRITE: a COMMAND frame with operation code 0x6B (R21). -/
  | qwrite (lba : BitVec 48) (count : BitVec 16) (byte10 : Byte) (rest : BitVec 72)
  /-- OTHER: a COMMAND frame of any other operation code (R22, R3). -/
  | other (op : Byte) (lba : BitVec 48) (count : BitVec 16) (byte10 : Byte) (rest : BitVec 72)
  /-- BRIDGE: a COMMAND frame with operation code 0xFC (R23). -/
  | bridge (lba : BitVec 48) (count : BitVec 16) (byte10 : Byte) (rest : BitVec 72)
  /-- UNEXPECTED_FRAME: a frame the port's partner may not send, or one with bad counts, tags or outcome (R2). -/
  | unexpectedFrame (port : Port) (f : Frame)
  /-- DATA_FROM_CONTROLLER (R6). -/
  | dataFromController (bytes23 : BitVec 16) (sectors : List Sector)
  /-- READY_FROM_DRIVE (R4). -/
  | readyFromDrive (r : ReadyFrame)
  /-- DATA_FROM_DRIVE (R6). -/
  | dataFromDrive (bytes23 : BitVec 16) (sectors : List Sector)
  /-- STATUS_FROM_DRIVE (R34). -/
  | statusFromDrive (outcome : Byte) (detail : Byte)
  /-- DONE_FROM_DRIVE (R35). -/
  | doneFromDrive (d : DoneFrame)
  /-- SEND_UPSTREAM_FRAME: the transmit arbiter's turn (R8). -/
  | sendUpstreamFrame
  /-- ENGINE_JOB_START: the engine arbiter's turn (R133). -/
  | engineJobStart
  /-- SETUP_COMPLETE: the running SETUP job completes (R134). -/
  | setupComplete
  /-- STREAM_COMPLETE: the running STREAM job completes without a parity failure (R148). -/
  | streamComplete
  /-- PARITY_FAILURE: the parity check fails on the running STREAM job's key slot (R137). -/
  | parityFailure
  /-- UNWRAP_COMPLETE: the running UNWRAP job completes (R84). -/
  | unwrapComplete
  /-- RECEIPT_CHECK_COMPLETE: the running receipt CHECK job completes (R96). -/
  | receiptCheckComplete
  /-- TIME_TOKEN_CHECK_COMPLETE: the running time-token CHECK job completes (R163). -/
  | timeTokenCheckComplete
  /-- LOAD_CONTEXT: the request block that carries it arrives (R82). -/
  | loadContext (slot : Byte) (blob : Blob)
  /-- SEAL_CONTEXT (R88). -/
  | sealContext (slot : Byte)
  /-- CLOSE_CONTEXT (R92). -/
  | closeContext (slot : Byte)
  /-- READ_CONTEXT (R95). -/
  | readContext (slot : Byte)
  /-- READ_RECEIPT (R97). -/
  | readReceipt (slot : Byte)
  /-- CLEAR_UNIT (R98). -/
  | clearUnit
  /-- ADD_REGION (R66). -/
  | addRegion (p : RegionParams)
  /-- REMOVE_REGION (R74). -/
  | removeRegion (entry : Byte)
  /-- READ_REGIONS (R76). -/
  | readRegions (start : Byte)
  /-- SET_SHIFT_DEPTH (R118). -/
  | setShiftDepth (slot : Byte) (depth : BitVec 32)
  /-- PIN_KEY (R131). -/
  | pinKey (slot : Byte)
  /-- UNPIN_KEY (R132). -/
  | unpinKey (slot : Byte)
  /-- SET_RIGHTS_TIME (R162). -/
  | setRightsTime (time : BitVec 32) (check : Block)
  /-- WRITE_SETTINGS (R176). -/
  | writeSettings (p : SettingsParams)
  /-- LOCK_SETTINGS (R179). -/
  | lockSettings
  /-- READ_STATUS (R180). -/
  | readStatus
  /-- DRAIN (R181). -/
  | drain
  /-- READ_NOTICES (R187). -/
  | readNotices
  /-- READ_HISTORY (R27). -/
  | readHistory
  /-- CLEAR_FAULTS (R191). -/
  | clearFaults (set : Byte)
  /-- UNKNOWN_REQUEST_CODE: a request block whose code names no request (R172). -/
  | unknownRequestCode (block : Sector)
  deriving DecidableEq, Repr

end Sys2Proof
end

