-- ==== Sys2Proof/Machine/Bytes.lean ====
section
/-!
DEFINITION. Bytes and fields: a field of a sector by its byte offset, byte lists in both orders, and what the Transform Engine computes from
its inputs (R56, R57, R125, R126, R198).
-/

namespace Sys2Proof.Machine

open Sys2Proof

/-- The field of w bits that starts at byte offset off of a block, least significant byte first (spec/12). -/
def getField (off w : Nat) (b : Sector) : BitVec w :=
  b.extractLsb' (8 * off) w

/-- A block with a field written at byte offset off, least significant byte first; the field's bytes are 0 before (R197). -/
def putField (off : Nat) {w : Nat} (v : BitVec w) (b : Sector) : Sector :=
  b ||| (v.setWidth 4096 <<< (8 * off))

/-- A number written as a field of w bits at byte offset off. -/
def putNat (off w : Nat) (v : Nat) (b : Sector) : Sector :=
  putField off (BitVec.ofNat w v) b

/-- The n bytes of a word, least significant first (spec/12: multi-byte numbers are little-endian). -/
def bytesLE (n : Nat) {w : Nat} (v : BitVec w) : List Byte :=
  (List.range n).map fun i => v.extractLsb' (8 * i) 8

/-- The n bytes of a word, most significant first (R198). -/
def bytesBE (n : Nat) {w : Nat} (v : BitVec w) : List Byte :=
  (bytesLE n v).reverse

/-- The word of w bits whose bytes, least significant first, are given. -/
def ofBytesLE (w : Nat) : List Byte → BitVec w
  | [] => 0
  | b :: rest => b.setWidth w ||| (ofBytesLE w rest <<< 8)

/-- Counter block j of a sector: serial 6 bytes, lap 2, logical sector 5, block index 3, each most significant byte first (R56, R198). -/
def counterBlock (serial : BitVec 48) (lap logical j : Nat) : Block :=
  ofBytesLE 128
    (bytesBE 6 serial ++ bytesBE 2 (BitVec.ofNat 16 lap) ++ bytesBE 5 (BitVec.ofNat 40 logical) ++ bytesBE 3 (BitVec.ofNat 24 j))

/-- A sector's keystream: the block transform of counter blocks 0 to 31 in order, 512 bytes (R57). -/
def keystream (key : Block) (serial : BitVec 48) (lap logical : Nat) : Sector :=
  (List.range 32).foldl
    (fun acc j => putField (16 * j) (Config.blockTransform key (counterBlock serial lap logical j)) acc) 0

/-- The check value of a context blob under the unit key: purpose code 0x01, then blob offsets 0 to 47 (R84, R125, R198). -/
def blobCheck (b : Blob) : Block :=
  Config.checkFunction Config.unitKey
    ([0x01#8] ++ bytesLE 6 b.serial ++ [b.cls, b.opening] ++ bytesLE 4 b.notAfter ++ bytesLE 4 b.window
      ++ bytesLE 16 b.wrapValue ++ bytesLE 16 b.maskedKey)

/-- The check value of a time token: purpose code 0x02, then the 4 bytes of the new time (R125, R198). -/
def tokenCheck (time : BitVec 32) : Block :=
  Config.checkFunction Config.unitKey ([0x02#8] ++ bytesLE 4 time)

/-- The check value of a receipt: purpose code 0x03, then serial, T0 and E (R96, R198). -/
def receiptCheck (serial : BitVec 48) (t0 expiry : Nat) : Block :=
  Config.checkFunction Config.unitKey
    ([0x03#8] ++ bytesLE 6 serial ++ bytesLE 4 (BitVec.ofNat 32 t0) ++ bytesLE 4 (BitVec.ofNat 32 expiry))

/-- The content key recovered from a wrapped key: the masked key XOR the block transform of the wrap value under the unit key (R126). -/
def unwrapKey (b : Blob) : Block :=
  b.maskedKey ^^^ Config.blockTransform Config.unitKey b.wrapValue

end Sys2Proof.Machine
end

