-- ==== Sys2Proof/Machine/State.lean ====
section
/-!
DEFINITION. The state of the Gectra 2410: one structure for each block of spec/00 1.3 that holds state, and State with all of them, as plain data.
State.reset is the power-on state (R19, R64, R78, R127, R142, R158, R175, R189, spec/01 1.1).
-/

namespace Sys2Proof.Machine

open Sys2Proof

/-- The detail, refusal and reason codes of spec/12 12.2, by name. -/
inductive Code where
  | tagInUse | queueBlocked | busy | driveLost | tooFragmented | outOfRange | lockdown | mixedSpan | writeProtected
  | rewrite | ringOrder | lapsExhausted | ringBusy | ringOverrun | malformed | slotTaken | lbaOverlap | wrongState
  | logicalOverlap | ringBound | duplicate | notIdle | pinLimit | locked | aborted | transformFault | protocol
  | closing | expired | noTime | ringUnwritten | ringInFlight | ringDepth | check | rollback | keyParity | transform
  deriving DecidableEq, Repr

/-! ### The ports (spec/01) -/

/-- A port's link state (R1). -/
inductive LinkState where
  | down
  | up
  deriving DecidableEq, Repr

/-- A tracker entry as the owner of a burst, a span or a pool slot: a queued entry by its tag, or the single slot. -/
inductive Owner where
  | tag (t : Tag)
  | single
  deriving DecidableEq, Repr

/-- The direction of a burst (spec/01 1.2). -/
inductive Dir where
  | toDrive
  | toUpstream
  deriving DecidableEq, Repr

/-- An open burst at the upstream port (R5); bridge says that it is the bridge command's own burst and not a relayed one. -/
structure UpBurst where
  owner : Owner
  left : Nat
  bridge : Bool
  deriving DecidableEq, Repr

/-- The open burst at the drive port (R4). -/
structure DriveBurst where
  owner : Owner
  dir : Dir
  left : Nat
  deriving DecidableEq, Repr

/-- A frame on the upstream send list: the owner of the burst it opens or belongs to (READY and DATA), and whether it is a relayed frame
of the drive or one the part originated (spec/01 1.4). -/
structure SendItem where
  frame : Frame
  owner : Option Owner
  relayed : Bool
  deriving DecidableEq, Repr

/-- The drive port's reset state (R16). -/
inductive ResetState where
  | none
  | awaitRelay
  | awaitLocal
  deriving DecidableEq, Repr

/-- What the drive port sends to the drive: a COMMAND, a DATA frame, or a reset of the link (R15, R29). -/
inductive DownFrame where
  | command (c : CommandFrame)
  | data (d : DataFrame)
  | reset
  deriving DecidableEq, Repr

/-- The Upstream Port (spec/01 1.1). held are the frames on the upstream link not yet taken (R9); sent is the model's record of the frames
sent upstream (log 11). -/
structure Upstream where
  link : LinkState
  inBurst : Option UpBurst
  outBurst : Option UpBurst
  discard : Nat
  sendList : List SendItem
  held : List Frame
  sent : List Frame
  deriving DecidableEq, Repr

/-- The Drive Port (spec/01 1.1). held are the frames on the drive link not yet taken (R9); sent is the model's record of what was sent to
the drive (log 11). -/
structure DrivePort where
  link : LinkState
  burst : Option DriveBurst
  discard : Option Nat
  resetState : ResetState
  held : List Frame
  sent : List DownFrame
  deriving DecidableEq, Repr

/-! ### The Command Tracker (spec/02) and plans (spec/03) -/

/-- The kind a COMMAND's operation code places it in (spec/01 1.2). -/
inductive CmdKind where
  | read
  | write
  | qread
  | qwrite
  | bridge
  | other
  deriving DecidableEq, Repr

/-- The state of an entry in use; a FREE entry is none (R20). -/
inductive EntryState where
  | held
  | forwarded
  | burst
  | localBridge
  deriving DecidableEq, Repr

/-- Why a read sector is withheld (spec/03 3.3); TRANSFORM_FAULT is given at data time only. -/
inductive WithheldReason where
  | closing
  | expired
  | noTime
  | lockdown
  | ringUnwritten
  | ringInFlight
  | ringDepth
  | transformFault
  deriving DecidableEq, Repr

/-- The verdict on a sector, or on a run from its first sector (spec/03 3.3), with the context, lap and logical sector it carries. -/
inductive Verdict where
  | clear
  | deliver (ctx : CtxSlot) (lap logical : Nat)
  | encipher (ctx : CtxSlot) (lap logical : Nat)
  | withheld (reason : WithheldReason) (ctx : CtxSlot) (logical : Nat)
  deriving DecidableEq, Repr

/-- A run of a plan (spec/03 3.3); the verdict's logical sector is that of the run's first offset. -/
structure Run where
  first : Nat
  count : Nat
  verdict : Verdict
  deriving DecidableEq, Repr

/-- The burst the drive opened for an entry (R31). -/
structure OpenBurst where
  first : Nat
  count : Nat
  left : Nat
  deriving DecidableEq, Repr

/-- The detail of an entry marked part-failed (R32). -/
inductive PartFail where
  | transformFault
  | protocol
  deriving DecidableEq, Repr

/-- A tracker entry in use (spec/02 2.1). The tag is the entry's own number; start LBA and count are in the COMMAND frame, which is kept to
be sent down unchanged (R2). -/
structure Entry where
  state : EntryState
  kind : CmdKind
  cmd : CommandFrame
  plan : List Run
  touched : List CtxSlot
  ringWrite : Option CtxSlot
  queueWait : Bool
  ringWindow : Bool
  answered : Bool
  openBurst : Option OpenBurst
  passed : Nat
  partFailed : Option PartFail
  withheld : Nat
  firstReason : Option WithheldReason
  firstCtx : Option CtxSlot
  deriving DecidableEq, Repr

/-- The action of an acceptance record (spec/02 2.1). -/
inductive AcceptAction where
  | relay
  | swallow
  deriving DecidableEq, Repr

/-- A record of the acceptance list (R30). -/
structure AcceptRecord where
  tag : Tag
  action : AcceptAction
  deriving DecidableEq, Repr

/-- A record of the refusal history (R26). -/
structure HistoryRecord where
  kind : CmdKind
  tag : Option Tag
  lba : BitVec 48
  count : Nat
  code : Code
  stamp : Nat
  deriving DecidableEq, Repr

/-- The Command Tracker (spec/02). released are the entries whose last hold reason was cleared in the event in hand and whose COMMAND is not
yet sent (R33); it is empty between events. -/
structure Tracker where
  queued : Vector (Option Entry) 32
  single : Option Entry
  accepts : List AcceptRecord
  history : List HistoryRecord
  released : List Owner
  deriving DecidableEq, Repr

/-! ### Contexts, regions and rings (spec/04, spec/05, spec/06) -/

/-- The state of a context slot (spec/05 5.1). -/
inductive CtxState where
  | empty
  | loading
  | recording
  | sealing
  | sealed
  | expired
  | closing
  deriving DecidableEq, Repr

/-- The class of a recording context (R79). -/
inductive CtxClass where
  | keep
  | timed
  | shift
  deriving DecidableEq, Repr

/-- The opening a context is loaded with (R79). -/
inductive Opening where
  | record
  | playback
  deriving DecidableEq, Repr

/-- A context's receipt (R96). -/
inductive Receipt where
  | absent
  | pending
  | ready (value : Block)
  deriving DecidableEq, Repr

/-- A Context Table record (spec/05 5.1). -/
structure Context where
  state : CtxState
  cls : CtxClass
  opening : Opening
  serial : BitVec 48
  key : Block
  notAfter : Option Nat
  window : Nat
  t0 : Option Nat
  expiry : Option Nat
  frontier : Nat
  inFlight : Nat
  withheld : Nat
  pin : Bool
  receipt : Receipt
  deriving DecidableEq, Repr

/-- An EMPTY slot: every field zero or absent (R78). -/
def Context.blank : Context :=
  { state := .empty, cls := .keep, opening := .record, serial := 0, key := 0, notAfter := none, window := 0, t0 := none,
    expiry := none, frontier := 0, inFlight := 0, withheld := 0, pin := false, receipt := .absent }

/-- An enabled Region Table entry (spec/04 4.1); a free entry is none (R64). -/
structure Region where
  base : Nat
  limit : Nat
  ctx : CtxSlot
  logicalStart : Nat
  deriving DecidableEq, Repr

/-- The status of a span (spec/06 6.1). -/
inductive SpanStatus where
  | held
  | forwarded
  | done
  | failed
  deriving DecidableEq, Repr

/-- A span of a ring's span queue (spec/06 6.1). -/
structure Span where
  first : Nat
  count : Nat
  lap : Nat
  owner : Owner
  status : SpanStatus
  deriving DecidableEq, Repr

/-- A ring record (spec/06 6.1), kept under the slot of its context. -/
structure Ring where
  base : Nat
  length : Nat
  logicalStart : Nat
  issue : Nat
  issueLap : Nat
  commit : Nat
  commitLap : Nat
  depth : Nat
  spans : List Span
  deriving DecidableEq, Repr

/-! ### Keys and the Transform Engine (spec/07) -/

/-- The state of a key slot in use: SETUP, or READY with its working key (log 10). -/
inductive KeyPhase where
  | setup
  | ready (workingKey : Block)
  deriving DecidableEq, Repr

/-- A Key Cache slot that is not FREE (spec/07 7.2). -/
structure KeySlot where
  ctx : CtxSlot
  phase : KeyPhase
  pinned : Bool
  users : Nat
  deriving DecidableEq, Repr

/-- The Key Cache: its slots, the LRU order (least recent first, R129) and the key-wait list (R130). -/
structure KeyCache where
  slots : Vector (Option KeySlot) 8
  lru : List KeyNo
  waiting : List CtxSlot
  deriving DecidableEq, Repr

/-- A SETUP job (spec/07 7.4). -/
structure SetupJob where
  slot : KeyNo
  ctx : CtxSlot
  deriving DecidableEq, Repr

/-- A STREAM job (spec/07 7.4). keySlot is the key slot whose users count it; none while it waits for its context's key (R135). -/
structure StreamJob where
  pool : PoolNo
  ctx : CtxSlot
  lap : Nat
  logical : Nat
  retried : Bool
  order : Nat
  keySlot : Option KeyNo
  deriving DecidableEq, Repr

/-- The UNWRAP and CHECK jobs, which share one rank (R133). -/
inductive OtherJob where
  | unwrap (ctx : CtxSlot) (blob : Blob)
  | receipt (ctx : CtxSlot) (serial : BitVec 48) (t0 expiry : Nat)
  | token (time : BitVec 32) (check : Block)
  deriving DecidableEq, Repr

/-- The running job; discard says that its result is to be discarded at its completion (R133, R135, R140). -/
inductive RunningJob where
  | setup (job : SetupJob) (discard : Bool)
  | stream (job : StreamJob) (discard : Bool)
  | other (job : OtherJob)
  deriving DecidableEq, Repr

/-- The Transform Engine: its queued jobs, each kind in the order queued, and its running job (R133). -/
structure Engine where
  setups : List SetupJob
  streams : List StreamJob
  others : List OtherJob
  running : Option RunningJob
  deriving DecidableEq, Repr

/-! ### The Keystream Pool (spec/08) -/

/-- The state of a pool slot that is not FREE (R143); READY holds the keystream. -/
inductive PoolPhase where
  | assigned
  | ready (keystream : Sector)
  | faulted
  deriving DecidableEq, Repr

/-- A pool slot that is not FREE (spec/08 8.1). -/
structure PoolSlot where
  owner : Owner
  offset : Nat
  ctx : CtxSlot
  lap : Nat
  logical : Nat
  order : Nat
  phase : PoolPhase
  deriving DecidableEq, Repr

/-- A sector settled in the frame at the head of a link: with keystream, or with zeros (R149). -/
structure Settled where
  offset : Nat
  keystream : Option Sector
  deriving DecidableEq, Repr

/-- The Keystream Pool: its slots, the next allocation order, and of the open burst the unserved sectors (R144), the sectors marked faulted
without a slot (R144, R155) and those settled in the frame that waits (R149). -/
structure Pool where
  slots : Vector (Option PoolSlot) 64
  nextOrder : Nat
  unserved : List Nat
  marked : List Nat
  settled : List Settled
  deriving DecidableEq, Repr

/-! ### Time, requests, notices and faults (spec/09, spec/10, spec/11) -/

/-- A pending time token (R162). -/
structure TimeToken where
  time : BitVec 32
  check : Block
  deriving DecidableEq, Repr

/-- The Time Unit (R158). The tick divider is the setting of RequestUnit: R175 says that the two are the same value. -/
structure TimeUnit where
  divideCount : Nat
  mono : Nat
  rightsSet : Bool
  rights : Nat
  token : Option TimeToken
  compare : Option Nat
  deriving DecidableEq, Repr

/-- A fault severity (R175). -/
inductive Severity where
  | notice
  | lockdown
  deriving DecidableEq, Repr

/-- The four fault kinds (spec/11 11.3). -/
inductive FaultKind where
  | keyParity
  | transform
  | protocol
  | driveLost
  deriving DecidableEq, Repr

/-- The severity of each fault kind (R175). -/
structure Severities where
  keyParity : Severity
  transform : Severity
  protocol : Severity
  driveLost : Severity
  deriving DecidableEq, Repr

/-- The Request Unit: the unit settings and their lock (R175), the drain flag with its snapshot (R181), and the reply block of a request whose
reply READY is not yet sent (R173). -/
structure RequestUnit where
  lookahead : Nat
  attentionSet : BitVec 16
  severities : Severities
  divider : Nat
  locked : Bool
  drainPending : Bool
  snapshot : List Owner
  snapshotSize : Nat
  reply : Option Sector
  deriving DecidableEq, Repr

/-- The sixteen notice kinds, in the order of R186. -/
inductive NoticeKind where
  | contextReady | keyRejected | sealed | closed | expired | firstView | withheld | ringVoid | ringRewound
  | timeSet | timeHeld | timeRefused | drained | fault | linkReset | driveLost
  deriving DecidableEq, Repr

/-- A notice (R185). -/
structure Notice where
  kind : NoticeKind
  ctx : Option CtxSlot
  tag : Option Tag
  detail : Option Code
  value : Nat
  stamp : Nat
  deriving DecidableEq, Repr

/-- The Notice Queue and the attention line it drives (R185, R188). -/
structure NoticeQueue where
  notices : List Notice
  overflow : Bool
  attention : Bool
  deriving DecidableEq, Repr

/-- The last reset cause (R194). -/
inductive ResetCause where
  | powerOn
  | linkReset
  deriving DecidableEq, Repr

/-- The fault set: each of the four kinds present or not (R189). -/
structure FaultSet where
  keyParity : Bool
  transform : Bool
  protocol : Bool
  driveLost : Bool
  deriving DecidableEq, Repr

/-- The Fault Record (R189). -/
structure FaultRecord where
  set : FaultSet
  first : Option FaultKind
  lockdown : Bool
  cause : ResetCause
  deriving DecidableEq, Repr

/-! ### The whole state -/

/-- The state of the part. pending is the queue of commands that wait, first in first out; choices numbers the free values used so far
(logs 5 and 12). -/
structure State where
  up : Upstream
  drv : DrivePort
  trk : Tracker
  contexts : Vector Context 16
  regions : Vector (Option Region) 128
  rings : Vector (Option Ring) 16
  keys : KeyCache
  eng : Engine
  pool : Pool
  time : TimeUnit
  req : RequestUnit
  nq : NoticeQueue
  faults : FaultRecord
  choices : Nat
  pending : List Instr
  deriving DecidableEq, Repr

/-- Why the machine stops with a fault: it never does. The part's own faults are recorded in its Fault Record and the part goes on (R190), and
every refusal code is an answer to a command; so there is no constructor. -/
inductive Fault where
  deriving DecidableEq, Repr

/-- Why a command has no meaning. -/
inductive Refusal where
  /-- Raised by an arm of exec for a command that the model does not yet give a meaning. Safe: the machine stops. -/
  | notModelled (mnemonic : String)
  deriving DecidableEq, Repr

/-- The Upstream Port after power-on (spec/01 1.1). -/
def Upstream.reset : Upstream :=
  { link := .down, inBurst := none, outBurst := none, discard := 0, sendList := [], held := [], sent := [] }

/-- The Drive Port after power-on (spec/01 1.1). -/
def DrivePort.reset : DrivePort :=
  { link := .down, burst := none, discard := none, resetState := .none, held := [], sent := [] }

/-- The Command Tracker after power-on (R19, R38). -/
def Tracker.reset : Tracker :=
  { queued := Vector.replicate 32 none, single := none, accepts := [], history := [], released := [] }

/-- The Key Cache after power-on: every slot FREE, LRU order by slot number, key-wait list empty (R140). -/
def KeyCache.reset : KeyCache :=
  { slots := Vector.replicate 8 none, lru := [0, 1, 2, 3, 4, 5, 6, 7], waiting := [] }

/-- The Transform Engine after power-on (R133). -/
def Engine.reset : Engine :=
  { setups := [], streams := [], others := [], running := none }

/-- The Keystream Pool after power-on (R142). -/
def Pool.reset : Pool :=
  { slots := Vector.replicate 64 none, nextOrder := 0, unserved := [], marked := [], settled := [] }

/-- The Time Unit after power-on (R158). -/
def TimeUnit.reset : TimeUnit :=
  { divideCount := 0, mono := 0, rightsSet := false, rights := 0, token := none, compare := none }

/-- The Request Unit after power-on (R175, R184). -/
def RequestUnit.reset : RequestUnit :=
  { lookahead := 8, attentionSet := 0xFFFF,
    severities := { keyParity := .notice, transform := .lockdown, protocol := .notice, driveLost := .notice },
    divider := 27000000, locked := false, drainPending := false, snapshot := [], snapshotSize := 0, reply := none }

/-- The Notice Queue after power-on (R195). -/
def NoticeQueue.reset : NoticeQueue :=
  { notices := [], overflow := false, attention := false }

/-- The Fault Record after power-on (R189). -/
def FaultRecord.reset : FaultRecord :=
  { set := { keyParity := false, transform := false, protocol := false, driveLost := false }, first := none, lockdown := false,
    cause := .powerOn }

/-- The part right after power-on, with an empty queue of commands. -/
def State.reset : State :=
  { up := .reset, drv := .reset, trk := .reset, contexts := Vector.replicate 16 .blank, regions := Vector.replicate 128 none,
    rings := Vector.replicate 16 none, keys := .reset, eng := .reset, pool := .reset, time := .reset, req := .reset,
    nq := .reset, faults := .reset, choices := 0, pending := [] }

end Sys2Proof.Machine
end

