-- ==== Sys2Proof/Machine/Operands.lean ====
section
/-!
DEFINITION. The operands of frames and requests, read as the spec reads them: counts, tags, kinds and directions (spec/12 12.1), and which frames a
port accepts (R2).
-/

namespace Sys2Proof.Machine

open Sys2Proof

/-- A 2-byte count field: 0 stands for 65,536 (spec/12). -/
def countOf (field : BitVec 16) : Nat :=
  if field = 0 then 65536 else field.toNat

/-- A count written into a 2-byte field: 65,536 is written 0 (R197). -/
def countField (n : Nat) : BitVec 16 :=
  BitVec.ofNat 16 n

/-- The kind of a COMMAND by its operation code (12.1). -/
def kindOf (op : Byte) : CmdKind :=
  if op = 0x2A#8 then .read
  else if op = 0x3A#8 then .write
  else if op = 0x6A#8 then .qread
  else if op = 0x6B#8 then .qwrite
  else if op = 0xFC#8 then .bridge
  else .other

/-- The kind of a COMMAND frame. -/
def cmdKind (c : CommandFrame) : CmdKind :=
  kindOf c.op

/-- The tag of a COMMAND: bits 0 to 4 of byte 10 (12.1). -/
def cmdTag (c : CommandFrame) : Tag :=
  ⟨c.byte10.toNat % 32, Nat.mod_lt _ (by decide)⟩

/-- The start LBA of a COMMAND. -/
def cmdLba (c : CommandFrame) : Nat :=
  c.lba.toNat

/-- The sector count of a COMMAND, 1 to 65,536. -/
def cmdCount (c : CommandFrame) : Nat :=
  countOf c.count

/-- Whether a kind is held in a queued entry. -/
def kindQueued : CmdKind → Bool
  | .qread | .qwrite => true
  | .read | .write | .bridge | .other => false

/-- Whether a kind is a read of the disk. -/
def kindReads : CmdKind → Bool
  | .read | .qread => true
  | .write | .qwrite | .bridge | .other => false

/-- Whether a kind is a write of the disk. -/
def kindWrites : CmdKind → Bool
  | .write | .qwrite => true
  | .read | .qread | .bridge | .other => false

/-- Whether a command's kind allows a READY's direction (R4). -/
def kindAllows : CmdKind → Dir → Bool
  | .read, d | .qread, d => d = .toUpstream
  | .write, d | .qwrite, d => d = .toDrive
  | .other, _ => true
  | .bridge, _ => false

/-- The owner of the entry a COMMAND asks for: its tag's entry for a queued kind, else the single slot. -/
def cmdOwner (c : CommandFrame) : Owner :=
  if kindQueued (cmdKind c) then .tag (cmdTag c) else .single

/-- A READY's direction: bit 0 of byte 1, 0 to drive and 1 to upstream (12.1). -/
def readyDir (r : ReadyFrame) : Dir :=
  if r.flags.getLsbD 0 then .toUpstream else .toDrive

/-- Whether a READY carries a tag: bit 1 of byte 1 (12.1). -/
def readyHasTag (r : ReadyFrame) : Bool :=
  r.flags.getLsbD 1

/-- The entry a READY names: its tag's queued entry, or the single slot when it has no tag (R4). -/
def readyOwner (r : ReadyFrame) : Owner :=
  if readyHasTag r then .tag ⟨r.tag.toNat % 32, Nat.mod_lt _ (by decide)⟩ else .single

/-- The sector count of a READY's burst, 1 to 65,536 (spec/01 1.2). -/
def readyCount (r : ReadyFrame) : Nat :=
  countOf r.count

/-- Whether a DONE carries the abort flag: bit 0 of byte 1 (12.1). -/
def doneAborts (d : DoneFrame) : Bool :=
  d.flags.getLsbD 0

/-- The tags of a DONE's done set, in ascending order. -/
def doneTags (d : DoneFrame) : List Tag :=
  (List.finRange 32).filter fun t => d.doneSet.getLsbD t

/-- The tag of a failed pair. -/
def pairTag (p : Byte × Byte) : Tag :=
  ⟨p.1.toNat % 32, Nat.mod_lt _ (by decide)⟩

/-- A set of tags as the bits of a done set. -/
def tagBits (l : List Tag) : BitVec 32 :=
  l.foldl (fun acc t => acc ||| BitVec.twoPow 32 t) 0

/-- Whether the port takes the frame: its class is one its partner sends, and its counts, tags and outcome are in range (R2). -/
def acceptable : Port → Frame → Bool
  | .upstream, .command _ => true
  | .upstream, .data d => 1 ≤ d.sectors.length && d.sectors.length ≤ 16
  | .upstream, .ready _ | .upstream, .status _ | .upstream, .done _ | .upstream, .unknown _ _ => false
  | .drive, .ready r => !readyHasTag r || r.tag.toNat ≤ 31
  | .drive, .data d => 1 ≤ d.sectors.length && d.sectors.length ≤ 16
  | .drive, .status t => t.outcome.toNat ≤ 2
  | .drive, .done d => d.failed.length ≤ 32 && d.failed.all fun p => p.1.toNat ≤ 31
  | .drive, .command _ | .drive, .unknown _ _ => false

/-- A context slot parameter: none when its byte is above 15 (R196). -/
def slotOperand (b : Byte) : Option CtxSlot :=
  if h : b.toNat < 16 then some ⟨b.toNat, h⟩ else none

/-- A region entry parameter: none when its byte is above 127 (R196). -/
def entryOperand (b : Byte) : Option EntryNo :=
  if h : b.toNat < 128 then some ⟨b.toNat, h⟩ else none

/-- A class byte: none outside its code list (12.2). -/
def classOperand (b : Byte) : Option CtxClass :=
  if b = 0#8 then some .keep else if b = 1#8 then some .timed else if b = 2#8 then some .shift else none

/-- An opening byte: none outside its code list (12.2). -/
def openingOperand (b : Byte) : Option Opening :=
  if b = 0#8 then some .record else if b = 1#8 then some .playback else none

/-- A severity byte: none outside its code list (12.2). -/
def severityOperand (b : Byte) : Option Severity :=
  if b = 0#8 then some .notice else if b = 1#8 then some .lockdown else none

end Sys2Proof.Machine
end

