-- ==== Sys2Proof/Machine/Formats.lean ====
section
/-!
DEFINITION. The byte layouts of spec/12: the code values (12.2), the link frames (12.1), the request blocks and the records and reply blocks (12.3).
-/

namespace Sys2Proof.Machine

open Sys2Proof

/-! ### Code values (12.2) -/

/-- The byte of each detail code (12.2). -/
def codeByte : Code → Byte
  | .tagInUse => 0x81#8 | .queueBlocked => 0x82#8 | .busy => 0x83#8 | .driveLost => 0x84#8 | .tooFragmented => 0x85#8
  | .outOfRange => 0x86#8 | .lockdown => 0x87#8 | .mixedSpan => 0x88#8 | .writeProtected => 0x89#8 | .rewrite => 0x8A#8
  | .ringOrder => 0x8B#8 | .lapsExhausted => 0x8C#8 | .ringBusy => 0x8D#8 | .ringOverrun => 0x8E#8 | .malformed => 0x8F#8
  | .slotTaken => 0x90#8 | .lbaOverlap => 0x91#8 | .wrongState => 0x92#8 | .logicalOverlap => 0x93#8 | .ringBound => 0x94#8
  | .duplicate => 0x95#8 | .notIdle => 0x96#8 | .pinLimit => 0x97#8 | .locked => 0x98#8 | .aborted => 0x99#8
  | .transformFault => 0x9A#8 | .protocol => 0x9B#8 | .closing => 0x9C#8 | .expired => 0x9D#8 | .noTime => 0x9E#8
  | .ringUnwritten => 0x9F#8 | .ringInFlight => 0xA0#8 | .ringDepth => 0xA1#8 | .check => 0xA2#8 | .rollback => 0xA3#8
  | .keyParity => 0xA4#8 | .transform => 0xA5#8

/-- The code of a withheld reason (12.2). -/
def reasonCode : WithheldReason → Code
  | .closing => .closing
  | .expired => .expired
  | .noTime => .noTime
  | .lockdown => .lockdown
  | .ringUnwritten => .ringUnwritten
  | .ringInFlight => .ringInFlight
  | .ringDepth => .ringDepth
  | .transformFault => .transformFault

/-- The code of a part-failed detail (R32). -/
def partFailCode : PartFail → Code
  | .transformFault => .transformFault
  | .protocol => .protocol

/-- The detail of a FAULT notice (12.2). -/
def faultCode : FaultKind → Code
  | .keyParity => .keyParity
  | .transform => .transform
  | .protocol => .protocol
  | .driveLost => .driveLost

/-- A fault kind's bit in fault sets (12.2). -/
def faultBit : FaultKind → Nat
  | .keyParity => 0
  | .transform => 1
  | .protocol => 2
  | .driveLost => 3

/-- A notice kind's number, in the order of R186 (12.2). -/
def noticeNumber : NoticeKind → Nat
  | .contextReady => 0 | .keyRejected => 1 | .sealed => 2 | .closed => 3 | .expired => 4 | .firstView => 5
  | .withheld => 6 | .ringVoid => 7 | .ringRewound => 8 | .timeSet => 9 | .timeHeld => 10 | .timeRefused => 11
  | .drained => 12 | .fault => 13 | .linkReset => 14 | .driveLost => 15

/-- A class's code (12.2). -/
def classNumber : CtxClass → Nat
  | .keep => 0
  | .timed => 1
  | .shift => 2

/-- An opening's code (12.2). -/
def openingNumber : Opening → Nat
  | .record => 0
  | .playback => 1

/-- A context state's code (12.2). -/
def ctxStateNumber : CtxState → Nat
  | .empty => 0
  | .loading => 1
  | .recording => 2
  | .sealing => 3
  | .sealed => 4
  | .expired => 5
  | .closing => 6

/-- A receipt state's code (12.2). -/
def receiptNumber : Receipt → Nat
  | .absent => 0
  | .pending => 1
  | .ready _ => 2

/-- A severity's code (12.2). -/
def severityNumber : Severity → Nat
  | .notice => 0
  | .lockdown => 1

/-- A fault set as a byte (12.2). -/
def faultSetNumber (f : FaultSet) : Nat :=
  f.keyParity.toNat + 2 * f.transform.toNat + 4 * f.protocol.toNat + 8 * f.driveLost.toNat

/-- The operation code that a history record gives for its kind (12.1, 12.3). -/
def opByte : CmdKind → Byte
  | .read => 0x2A#8
  | .write => 0x3A#8
  | .qread => 0x6A#8
  | .qwrite => 0x6B#8
  | .bridge => 0xFC#8
  | .other => 0x00#8

/-- An absent context or tag is written 0xFF (R197). -/
def optByte {n : Nat} : Option (Fin n) → Byte
  | none => 0xFF#8
  | some i => BitVec.ofNat 8 i

/-- An absent detail is written 0x00 (R197). -/
def detailByte : Option Code → Byte
  | none => 0#8
  | some c => codeByte c

/-! ### Link frames (12.1) -/

/-- A frame as the bytes of its layout (12.1). -/
def frameBytes : Frame → List Byte
  | .command c => [0x01#8, c.op] ++ bytesLE 6 c.lba ++ bytesLE 2 c.count ++ [c.byte10] ++ bytesLE 9 c.rest
  | .ready r => [0x02#8, r.flags, r.tag, r.byte3] ++ bytesLE 2 r.offset ++ bytesLE 2 r.count
  | .data d => [0x05#8, BitVec.ofNat 8 d.sectors.length] ++ bytesLE 2 d.bytes23 ++ d.sectors.flatMap (bytesLE 512)
  | .status t => [0x03#8, t.outcome, t.detail]
  | .done d =>
    [0x04#8, d.flags, BitVec.ofNat 8 d.failed.length, d.byte3] ++ bytesLE 4 d.doneSet ++ d.failed.flatMap fun p => [p.1, p.2]
  | .unknown c rest => c :: rest

/-- The first n sectors of a list of bytes. -/
def sectorsOfBytes : Nat → List Byte → List Sector
  | 0, _ => []
  | n + 1, l => ofBytesLE 4096 (l.take 512) :: sectorsOfBytes n (l.drop 512)

/-- The failed pairs in a list of bytes. -/
def pairsOfBytes : List Byte → List (Byte × Byte)
  | t :: d :: rest => (t, d) :: pairsOfBytes rest
  | _ => []

/-- The frame that bytes spell by the layouts of 12.1; none where their number is not that of their class's layout. -/
def frameOfBytes : List Byte → Option Frame
  | [] => none
  | cls :: l =>
    if cls = 0x01#8 then
      if l.length = 19 then
        some (.command
          { op := l.getD 0 0, lba := ofBytesLE 48 ((l.drop 1).take 6), count := ofBytesLE 16 ((l.drop 7).take 2),
            byte10 := l.getD 9 0, rest := ofBytesLE 72 (l.drop 10) })
      else none
    else if cls = 0x02#8 then
      if l.length = 7 then
        some (.ready
          { flags := l.getD 0 0, tag := l.getD 1 0, byte3 := l.getD 2 0, offset := ofBytesLE 16 ((l.drop 3).take 2),
            count := ofBytesLE 16 (l.drop 5) })
      else none
    else if cls = 0x05#8 then
      if 3 ≤ l.length ∧ l.length = 3 + 512 * (l.getD 0 0).toNat then
        some (.data
          { bytes23 := ofBytesLE 16 ((l.drop 1).take 2), sectors := sectorsOfBytes (l.getD 0 0).toNat (l.drop 3) })
      else none
    else if cls = 0x03#8 then
      if l.length = 2 then some (.status { outcome := l.getD 0 0, detail := l.getD 1 0 }) else none
    else if cls = 0x04#8 then
      if 7 ≤ l.length ∧ l.length = 7 + 2 * (l.getD 1 0).toNat then
        some (.done
          { flags := l.getD 0 0, byte3 := l.getD 2 0, doneSet := ofBytesLE 32 ((l.drop 3).take 4),
            failed := pairsOfBytes (l.drop 7) })
      else none
    else some (.unknown cls l)

/-! ### Request blocks (12.3) -/

/-- A request block: the request code in bytes 0-1 and the parameters at their offsets (12.3). -/
def encodeRequest : Request → Sector
  | .loadContext slot b =>
    putField 0 1#16 <| putField 4 slot <| putField 8 b.serial <| putField 14 b.cls <| putField 15 b.opening <|
    putField 16 b.notAfter <| putField 20 b.window <| putField 24 b.wrapValue <| putField 40 b.maskedKey <|
    putField 56 b.check 0
  | .sealContext slot => putField 0 2#16 <| putField 4 slot 0
  | .closeContext slot => putField 0 3#16 <| putField 4 slot 0
  | .readContext slot => putField 0 4#16 <| putField 4 slot 0
  | .readReceipt slot => putField 0 5#16 <| putField 4 slot 0
  | .clearUnit => putField 0 6#16 0
  | .addRegion p =>
    putField 0 7#16 <| putField 4 p.entry <| putField 5 p.slot <| putField 8 p.base <| putField 14 p.limit <|
    putField 20 p.logicalStart 0
  | .removeRegion entry => putField 0 8#16 <| putField 4 entry 0
  | .readRegions start => putField 0 9#16 <| putField 4 start 0
  | .setShiftDepth slot depth => putField 0 10#16 <| putField 4 slot <| putField 8 depth 0
  | .pinKey slot => putField 0 11#16 <| putField 4 slot 0
  | .unpinKey slot => putField 0 12#16 <| putField 4 slot 0
  | .setRightsTime time check => putField 0 13#16 <| putField 4 time <| putField 8 check 0
  | .writeSettings p =>
    putField 0 14#16 <| putField 4 p.lookahead <| putField 6 p.keyParity <| putField 7 p.transform <|
    putField 8 p.protocol <| putField 9 p.driveLost <| putField 12 p.attentionSet <| putField 16 p.divider 0
  | .lockSettings => putField 0 15#16 0
  | .readStatus => putField 0 16#16 0
  | .drain => putField 0 17#16 0
  | .readNotices => putField 0 18#16 0
  | .readHistory => putField 0 19#16 0
  | .clearFaults set => putField 0 20#16 <| putField 4 set 0

/-- The request that a request block names; none for the codes 0x0000 and 0x0015 to 0xFFFF (R172, R196). Only the bytes that the
request's layout names are read (R196). -/
def decodeRequest (b : Sector) : Option Request :=
  match (getField 0 16 b).toNat with
  | 1 => some (.loadContext (getField 4 8 b)
      { serial := getField 8 48 b, cls := getField 14 8 b, opening := getField 15 8 b, notAfter := getField 16 32 b,
        window := getField 20 32 b, wrapValue := getField 24 128 b, maskedKey := getField 40 128 b,
        check := getField 56 128 b })
  | 2 => some (.sealContext (getField 4 8 b))
  | 3 => some (.closeContext (getField 4 8 b))
  | 4 => some (.readContext (getField 4 8 b))
  | 5 => some (.readReceipt (getField 4 8 b))
  | 6 => some .clearUnit
  | 7 => some (.addRegion
      { entry := getField 4 8 b, slot := getField 5 8 b, base := getField 8 48 b, limit := getField 14 48 b,
        logicalStart := getField 20 40 b })
  | 8 => some (.removeRegion (getField 4 8 b))
  | 9 => some (.readRegions (getField 4 8 b))
  | 10 => some (.setShiftDepth (getField 4 8 b) (getField 8 32 b))
  | 11 => some (.pinKey (getField 4 8 b))
  | 12 => some (.unpinKey (getField 4 8 b))
  | 13 => some (.setRightsTime (getField 4 32 b) (getField 8 128 b))
  | 14 => some (.writeSettings
      { lookahead := getField 4 8 b, keyParity := getField 6 8 b, transform := getField 7 8 b, protocol := getField 8 8 b,
        driveLost := getField 9 8 b, attentionSet := getField 12 32 b, divider := getField 16 32 b })
  | 15 => some .lockSettings
  | 16 => some .readStatus
  | 17 => some .drain
  | 18 => some .readNotices
  | 19 => some .readHistory
  | 20 => some (.clearFaults (getField 4 8 b))
  | _ => none

/-! ### Records (12.3) -/

/-- A notice record of 16 bytes at offset off (12.3). -/
def putNotice (off : Nat) (n : Notice) (b : Sector) : Sector :=
  putNat off 8 (noticeNumber n.kind) <| putField (off + 1) (optByte n.ctx) <| putField (off + 2) (optByte n.tag) <|
  putField (off + 3) (detailByte n.detail) <| putNat (off + 4) 32 n.value <| putNat (off + 8) 32 n.stamp b

/-- A history record of 16 bytes at offset off (12.3); a READ or WRITE has tag 0xFF and a count of 65,536 is written 0 (R197). -/
def putHistory (off : Nat) (h : HistoryRecord) (b : Sector) : Sector :=
  putField off (opByte h.kind) <| putField (off + 1) (optByte h.tag) <| putField (off + 2) (codeByte h.code) <|
  putField (off + 4) h.lba <| putField (off + 10) (countField h.count) <| putNat (off + 12) 32 h.stamp b

/-- A region record of 24 bytes at offset off: entry number, enabled, and the fields, zero where the entry is free (R76). DESIGN CHOICE: the enabled byte
is 1 for yes and 0 for no (log 35). -/
def putRegion (off entry : Nat) (r : Option Region) (b : Sector) : Sector :=
  match r with
  | none => putNat off 8 entry b
  | some r =>
    putNat off 8 entry <| putNat (off + 1) 8 1 <| putNat (off + 4) 48 r.base <| putNat (off + 10) 48 r.limit <|
    putNat (off + 16) 8 r.ctx <| putNat (off + 17) 40 r.logicalStart b

/-- Records written one after another, size bytes apart from offset off. -/
def putRecords {α : Type} (size : Nat) (put : Nat → α → Sector → Sector) : Nat → List α → Sector → Sector
  | _, [], b => b
  | off, a :: rest, b => putRecords size put (off + size) rest (put off a b)

end Sys2Proof.Machine
end

