-- ==== Sys2Proof/Decode.lean ====
section
/-!
DEFINITION. Reading commands from what carries them. spec/opcode_table.json gives no row any bits, so no word of the table's numbering spells a
command (log 1); the bytes of a link frame do, by the layouts of spec/12 12.1.
-/

namespace Sys2Proof

open Sys2Proof.Machine

/-- The command that a word of the table's numbering spells: none, because no row of the table has bits (log 1). -/
def decodeTableWord (_nbits _w : Nat) : Option Instr :=
  none

/-- The row a COMMAND frame belongs to, by its operation code (12.1). -/
def commandRow (c : CommandFrame) : Instr :=
  match kindOf c.op with
  | .read => .read c.lba c.count c.byte10 c.rest
  | .write => .write c.lba c.count c.byte10 c.rest
  | .qread => .qread c.lba c.count c.byte10 c.rest
  | .qwrite => .qwrite c.lba c.count c.byte10 c.rest
  | .bridge => .bridge c.lba c.count c.byte10 c.rest
  | .other => .other c.op c.lba c.count c.byte10 c.rest

/-- The row that the arrival of a frame at a port is: a frame its partner may not send, or one with bad counts, tags or outcome, is
UNEXPECTED_FRAME (R2). -/
def frameRow (port : Port) (f : Frame) : Instr :=
  if acceptable port f then
    match port, f with
    | .upstream, .command c => commandRow c
    | .upstream, .data d => .dataFromController d.bytes23 d.sectors
    | .drive, .ready r => .readyFromDrive r
    | .drive, .data d => .dataFromDrive d.bytes23 d.sectors
    | .drive, .status t => .statusFromDrive t.outcome t.detail
    | .drive, .done d => .doneFromDrive d
    | _, _ => .unexpectedFrame port f
  else .unexpectedFrame port f

/-- The row that the bytes of a frame at a port are; none where their number is not that of their class's layout (12.1). -/
def decodeFrame (port : Port) (bytes : List Byte) : Option Instr :=
  (frameOfBytes bytes).map (frameRow port)

/-- The row of a bridge request (12.3). -/
def requestRow : Request → Instr
  | .loadContext slot b => .loadContext slot b
  | .sealContext slot => .sealContext slot
  | .closeContext slot => .closeContext slot
  | .readContext slot => .readContext slot
  | .readReceipt slot => .readReceipt slot
  | .clearUnit => .clearUnit
  | .addRegion p => .addRegion p
  | .removeRegion entry => .removeRegion entry
  | .readRegions start => .readRegions start
  | .setShiftDepth slot depth => .setShiftDepth slot depth
  | .pinKey slot => .pinKey slot
  | .unpinKey slot => .unpinKey slot
  | .setRightsTime time check => .setRightsTime time check
  | .writeSettings p => .writeSettings p
  | .lockSettings => .lockSettings
  | .readStatus => .readStatus
  | .drain => .drain
  | .readNotices => .readNotices
  | .readHistory => .readHistory
  | .clearFaults set => .clearFaults set

/-- The row that a request block is: the request its code names, or UNKNOWN_REQUEST_CODE (R172). -/
def blockRow (block : Sector) : Instr :=
  match decodeRequest block with
  | none => .unknownRequestCode block
  | some r => requestRow r

/-- The frame whose arrival a row is, with the port that takes it; none for a row that is no frame (12.1, 12.3; log 6). -/
def rowFrame : Instr → Option (Port × Frame)
  | .read lba count byte10 rest => some (.upstream, .command { op := 0x2A#8, lba, count, byte10, rest })
  | .write lba count byte10 rest => some (.upstream, .command { op := 0x3A#8, lba, count, byte10, rest })
  | .qread lba count byte10 rest => some (.upstream, .command { op := 0x6A#8, lba, count, byte10, rest })
  | .qwrite lba count byte10 rest => some (.upstream, .command { op := 0x6B#8, lba, count, byte10, rest })
  | .other op lba count byte10 rest => some (.upstream, .command { op, lba, count, byte10, rest })
  | .bridge lba count byte10 rest => some (.upstream, .command { op := 0xFC#8, lba, count, byte10, rest })
  | .unexpectedFrame port f => some (port, f)
  | .dataFromController bytes23 sectors => some (.upstream, .data { bytes23, sectors })
  | .readyFromDrive r => some (.drive, .ready r)
  | .dataFromDrive bytes23 sectors => some (.drive, .data { bytes23, sectors })
  | .statusFromDrive outcome detail => some (.drive, .status { outcome, detail })
  | .doneFromDrive d => some (.drive, .done d)
  | .powerOn | .upstreamLinkUp | .linkReset | .driveLinkUp | .driveLinkLost | .tick | .sendUpstreamFrame
  | .engineJobStart | .setupComplete | .streamComplete | .parityFailure | .unwrapComplete | .receiptCheckComplete
  | .timeTokenCheckComplete => none
  | .loadContext _ _ | .sealContext _ | .closeContext _ | .readContext _ | .readReceipt _ | .clearUnit | .addRegion _
  | .removeRegion _ | .readRegions _ | .setShiftDepth _ _ | .pinKey _ | .unpinKey _ | .setRightsTime _ _ | .writeSettings _
  | .lockSettings | .readStatus | .drain | .readNotices | .readHistory | .clearFaults _ | .unknownRequestCode _ => none

end Sys2Proof
end

