-- ==== Sys2Proof/Machine/Flags.lean ====
section
/-!
DEFINITION. The part's flags: the notice queue with its overflow flag (R185), the attention line (R188), the fault set and first fault (R190), and the
severities and attention set they are judged by (R175).
-/

namespace Sys2Proof.Machine

open Sys2Proof

/-- The condition under which the attention line is asserted: lockdown holds, or the queue holds a notice of a kind in the attention
set (R188). -/
def attentionDue (attentionSet : BitVec 16) (lockdown : Bool) (notices : List Notice) : Bool :=
  lockdown || notices.any fun n => attentionSet.getLsbD (noticeNumber n.kind)

/-- A notice joins the tail of the queue, and the attention line is judged again; at 32 notices the notice is discarded and the
overflow flag set (R185, R188). -/
def joinQueue (attentionSet : BitVec 16) (lockdown : Bool) (n : Notice) (q : NoticeQueue) : NoticeQueue :=
  if q.notices.length < 32 then
    { q with
      notices := q.notices ++ [n]
      attention := attentionDue attentionSet lockdown (q.notices ++ [n]) }
  else { q with overflow := true }

/-- A block queues a notice, stamped with monotonic time as it stands (R185, R160). -/
def queueNotice (kind : NoticeKind) (ctx : Option CtxSlot) (tag : Option Tag) (detail : Option Code) (value : Nat) (s : State) : State :=
  { s with
    nq := joinQueue s.req.attentionSet s.faults.lockdown
      { kind := kind, ctx := ctx, tag := tag, detail := detail, value := value, stamp := s.time.mono } s.nq }

/-- The attention line is judged again as the state stands (R188). -/
def judgeAttention (s : State) : State :=
  { s with nq := { s.nq with attention := attentionDue s.req.attentionSet s.faults.lockdown s.nq.notices } }

/-- The fault set with a kind added (R190 step 1). -/
def addFault (k : FaultKind) (f : FaultSet) : FaultSet :=
  match k with
  | .keyParity => { f with keyParity := true }
  | .transform => { f with transform := true }
  | .protocol => { f with protocol := true }
  | .driveLost => { f with driveLost := true }

/-- The severity of a fault kind (R175). -/
def severityOf (k : FaultKind) (v : Severities) : Severity :=
  match k with
  | .keyParity => v.keyParity
  | .transform => v.transform
  | .protocol => v.protocol
  | .driveLost => v.driveLost

/-- Steps 1 and 2 of raising a fault: the kind joins the fault set, and becomes the first fault if there is none (R190). -/
def recordFault (k : FaultKind) (f : FaultRecord) : FaultRecord :=
  { f with set := addFault k f.set, first := f.first.or (some k) }

/-- Whether bit faultBit k of a CLEAR_FAULTS parameter names the kind; bits 4 to 7 name nothing (R191, R196). -/
def namesFault (set : Byte) (k : FaultKind) : Bool :=
  set.getLsbD (faultBit k)

/-- The Fault Record after CLEAR_FAULTS: the named kinds leave the fault set, and the first fault becomes absent if it is named (R191). -/
def clearFaultRecord (set : Byte) (f : FaultRecord) : FaultRecord :=
  { f with
    set :=
      { keyParity := f.set.keyParity && !namesFault set .keyParity
        transform := f.set.transform && !namesFault set .transform
        protocol := f.set.protocol && !namesFault set .protocol
        driveLost := f.set.driveLost && !namesFault set .driveLost }
    first := f.first.filter fun k => !namesFault set k }

end Sys2Proof.Machine
end

