-- ==== Sys2Proof/Machine/Ops.lean ====
section
/-!
DEFINITION. The named operations over the tables: tracker entries, context, region and ring records, the upstream send list, and what is sent down.
-/

namespace Sys2Proof.Machine

open Sys2Proof

/-! ### Tables -/

/-- The tracker entry of an owner; none when it is FREE (R19). -/
def entryOf (s : State) : Owner → Option Entry
  | .tag t => s.trk.queued.get t
  | .single => s.trk.single

/-- The Tracker with an owner's entry replaced; none makes it FREE. -/
def putEntry (o : Owner) (e : Option Entry) (t : Tracker) : Tracker :=
  match o with
  | .tag i => { t with queued := t.queued.set i e }
  | .single => { t with single := e }

/-- The state with an owner's entry replaced. -/
def setEntry (o : Owner) (e : Option Entry) (s : State) : State :=
  { s with trk := putEntry o e s.trk }

/-- A change to an entry in use; a FREE entry stays FREE. -/
def updateEntry (o : Owner) (f : Entry → Entry) (s : State) : State :=
  setEntry o ((entryOf s o).map f) s

/-- The context record of a slot. -/
def ctxOf (s : State) (c : CtxSlot) : Context :=
  s.contexts.get c

/-- The state with a context record replaced. -/
def setCtx (c : CtxSlot) (x : Context) (s : State) : State :=
  { s with contexts := s.contexts.set c x }

/-- A change to a context record. -/
def updateCtx (c : CtxSlot) (f : Context → Context) (s : State) : State :=
  setCtx c (f (ctxOf s c)) s

/-- The ring of a context; none when it has none (R101). -/
def ringOf (s : State) (c : CtxSlot) : Option Ring :=
  s.rings.get c

/-- The state with a context's ring replaced; none deletes it. -/
def setRing (c : CtxSlot) (r : Option Ring) (s : State) : State :=
  { s with rings := s.rings.set c r }

/-- The Region Table entry of a number; none when it is free. -/
def regionOf (s : State) (e : EntryNo) : Option Region :=
  s.regions.get e

/-- The enabled Region Table entries, in entry order. -/
def enabledRegions (s : State) : List Region :=
  s.regions.toList.filterMap id

/-! ### The tracker's counts -/

/-- The tags whose queued entries are in use, in ascending order. -/
def tagsInUse (s : State) : List Tag :=
  (List.finRange 32).filter fun t => (s.trk.queued.get t).isSome

/-- The number of tracker entries in use (R19). -/
def entriesInUse (s : State) : Nat :=
  (tagsInUse s).length + if s.trk.single.isSome then 1 else 0

/-- Whether queued work is in hand: a queued entry in use, or a record on the acceptance list (R22, R28). -/
def queuedWork (s : State) : Bool :=
  !(tagsInUse s).isEmpty || !s.trk.accepts.isEmpty

/-! ### The upstream send list and what is sent down -/

/-- A frame that joins the tail of the upstream send list (spec/01 1.4). -/
def placeItem (i : SendItem) (s : State) : State :=
  { s with up := { s.up with sendList := s.up.sendList ++ [i] } }

/-- A part-originated frame that opens no burst. -/
def placePart (f : Frame) (s : State) : State :=
  placeItem { frame := f, owner := none, relayed := false } s

/-- A relayed completion of the drive. -/
def placeRelayed (f : Frame) (s : State) : State :=
  placeItem { frame := f, owner := none, relayed := true } s

/-- A STATUS ACCEPTED of the part (R21, R25). -/
def acceptedFrame : Frame :=
  .status { outcome := 0#8, detail := 0#8 }

/-- A STATUS OK of the part (R173). -/
def okFrame : Frame :=
  .status { outcome := 1#8, detail := 0#8 }

/-- A STATUS ERROR with a code as detail (R25). -/
def errorFrame (c : Code) : Frame :=
  .status { outcome := 2#8, detail := codeByte c }

/-- A tag as the tag byte of a failed pair. -/
def tagByte (t : Tag) : Byte :=
  BitVec.ofNat 8 t

/-- A part-originated DONE with an empty done set, no abort flag and the given failed list (R25, R30, R40). -/
def failingDone (pairs : List (Tag × Byte)) : Frame :=
  .done { flags := 0#8, byte3 := 0#8, doneSet := 0#32, failed := pairs.map fun p => (tagByte p.1, p.2) }

/-- The part's READY for the bridge command: no tag, the direction, offset 0, count 1 (R171, R173, R197). -/
def bridgeReady (d : Dir) : SendItem :=
  { frame := .ready
      { flags := if d = .toUpstream then 1#8 else 0#8, tag := 0#8, byte3 := 0#8, offset := 0#16, count := 1#16 }
    owner := some .single
    relayed := false }

/-- The drive port sends a frame or a reset to the drive (R29, R15). -/
def sendDown (f : DownFrame) (s : State) : State :=
  { s with drv := { s.drv with sent := s.drv.sent ++ [f] } }

/-- Whether the last frame the drive port took is still on the upstream send list (R9): the port takes no new frame meanwhile, so a
relayed frame on the list is that frame. -/
def relayPending (s : State) : Bool :=
  s.up.sendList.any fun i => i.relayed

/-! ### Plans -/

/-- The verdict of the sector n places into a run: its logical sector lies n above the run's first (spec/03 3.3). -/
def verdictFrom (v : Verdict) (n : Nat) : Verdict :=
  match v with
  | .clear => .clear
  | .deliver c l s => .deliver c l (s + n)
  | .encipher c l s => .encipher c l (s + n)
  | .withheld r c s => .withheld r c (s + n)

/-- The verdict a plan gives the sector at an offset; none beyond the plan. -/
def verdictAt (plan : List Run) (off : Nat) : Option Verdict :=
  (plan.find? fun r => r.first ≤ off && off < r.first + r.count).map fun r => verdictFrom r.verdict (off - r.first)

/-- The context, lap and logical sector of a protected sector: one whose verdict is DELIVER or ENCIPHER (R144). -/
def protectedAt (e : Entry) (off : Nat) : Option (CtxSlot × Nat × Nat) :=
  if off < cmdCount e.cmd then
    match verdictAt e.plan off with
    | some (.deliver c l s) | some (.encipher c l s) => some (c, l, s)
    | _ => none
  else none

/-- The context a run names (R24, R47). -/
def verdictCtx : Verdict → Option CtxSlot
  | .clear => none
  | .deliver c _ _ | .encipher c _ _ | .withheld _ c _ => some c

/-- The contexts a plan's runs name, each once (R24), in ascending order (log 17). -/
def touchedBy (plan : List Run) : List CtxSlot :=
  (List.finRange 16).filter fun c => plan.any fun r => verdictCtx r.verdict = some c

/-- The offset of the first sector of a burst that has not yet passed (R31). -/
def nextOffset (b : OpenBurst) : Nat :=
  b.first + (b.count - b.left)

end Sys2Proof.Machine
end

