-- ==== Sys2Proof/Machine/Keys.lean ====
section
/-!
DEFINITION. The Key Cache and the Transform Engine's queue: key requests, eviction, the key-wait list, pins, and the withdrawal of STREAM jobs (spec/07).
-/

namespace Sys2Proof.Machine

open Sys2Proof

/-- A key slot that may be given to another context: READY, not pinned, with no users (R127). -/
def evictable (k : Option KeySlot) : Bool :=
  match k with
  | some { phase := .ready _, pinned := false, users := 0, .. } => true
  | _ => false

/-- The key slot a context has, if it has one (R127). -/
def slotOf (s : State) (c : CtxSlot) : Option KeyNo :=
  (List.finRange 8).find? fun k => (s.keys.slots.get k).map (·.ctx) = some c

/-- The LRU order with a slot moved to its most recent end (R129). -/
def mostRecent (k : KeyNo) (lru : List KeyNo) : List KeyNo :=
  lru.filter (· ≠ k) ++ [k]

/-- Whether a queued STREAM job waits for a context's key: it is counted in no slot's users (R128, R135). -/
def waitsFor (c : CtxSlot) (j : StreamJob) : Bool :=
  j.ctx = c && j.keySlot.isNone

/-- A key slot is allocated to a context: it takes the context's pin flag and as users the number of the context's waiting STREAM jobs,
moves to the most recent end, enters SETUP, and a SETUP job is queued (R128, R130). -/
def allocateSlot (k : KeyNo) (c : CtxSlot) (s : State) : State :=
  { s with
    keys :=
      { s.keys with
        slots := s.keys.slots.set k (some
          { ctx := c, phase := .setup, pinned := (ctxOf s c).pin, users := (s.eng.streams.filter (waitsFor c)).length })
        lru := mostRecent k s.keys.lru }
    eng :=
      { s.eng with
        streams := s.eng.streams.map fun j => if waitsFor c j then { j with keySlot := some k } else j
        setups := s.eng.setups ++ [{ slot := k, ctx := c }] } }

/-- A key slot that has just become FREE or evictable is given to the head of the key-wait list, if the list is not empty (R130). -/
def serveSlot (k : KeyNo) (s : State) : State :=
  match s.keys.waiting with
  | [] => s
  | c :: rest => allocateSlot k c { s with keys := { s.keys with waiting := rest } }

/-- Steps 2 to 5 of a request for the key of a context that has no slot: it stays on the key-wait list, or takes the lowest FREE slot, or the
least recent evictable one, or joins the list (R128). -/
def obtainSlot (c : CtxSlot) (s : State) : State :=
  if s.keys.waiting.contains c then s
  else
    match (List.finRange 8).find? fun k => (s.keys.slots.get k).isNone with
    | some k => allocateSlot k c s
    | none =>
      match s.keys.lru.find? fun k => evictable (s.keys.slots.get k) with
      | some k => allocateSlot k c s
      | none => { s with keys := { s.keys with waiting := s.keys.waiting ++ [c] } }

/-- A change to a key slot in use. -/
def updateSlot (k : KeyNo) (f : KeySlot → KeySlot) (s : State) : State :=
  { s with keys := { s.keys with slots := s.keys.slots.set k ((s.keys.slots.get k).map f) } }

/-- A STREAM job joins the engine's queue, and the Key Cache is asked for its context's key (R128, R145). -/
def queueStream (j : StreamJob) (s : State) : State :=
  match slotOf s j.ctx with
  | some k =>
    updateSlot k (fun x => { x with users := x.users + 1 })
      { s with eng := { s.eng with streams := s.eng.streams ++ [{ j with keySlot := some k }] } }
  | none => obtainSlot j.ctx { s with eng := { s.eng with streams := s.eng.streams ++ [{ j with keySlot := none }] } }

/-- A key slot's users fall by 1; a slot that thereby becomes evictable serves the key-wait list (R130, R135). -/
def dropUser (k : KeyNo) (s : State) : State :=
  let s' := updateSlot k (fun x => { x with users := x.users - 1 }) s
  if evictable (s'.keys.slots.get k) then serveSlot k s' else s'

/-- The users of the slot that counted a job fall by 1; a waiting job was counted nowhere (R135). -/
def dropUserOf (k : Option KeyNo) (s : State) : State :=
  match k with
  | none => s
  | some k => dropUser k s

/-- The queued STREAM job of a pool slot, if there is one, is withdrawn (R135). -/
def withdrawStream (p : PoolNo) (s : State) : State :=
  match s.eng.streams.find? fun j => j.pool = p with
  | none => s
  | some j =>
    dropUserOf j.keySlot { s with eng := { s.eng with streams := s.eng.streams.filter fun j => j.pool ≠ p } }

/-- A running STREAM job with its result to be discarded at its completion (R135). -/
def discardJob (r : RunningJob) : RunningJob :=
  match r with
  | .stream j _ => .stream j true
  | r => r

/-- Whether the running job is the STREAM job of a pool slot. -/
def runsFor (p : PoolNo) (r : RunningJob) : Bool :=
  match r with
  | .stream j false => j.pool = p
  | _ => false

/-- The running STREAM job of a pool slot, if it is that one, is to be discarded at its completion (R135). -/
def discardStream (p : PoolNo) (s : State) : State :=
  { s with eng := { s.eng with running := s.eng.running.map fun r => if runsFor p r then discardJob r else r } }

/-- A key slot's context loses it: a running STREAM job counted there is counted nowhere from now on. -/
def uncountJob (k : KeyNo) (r : RunningJob) : RunningJob :=
  match r with
  | .stream j d => if j.keySlot = some k then .stream { j with keySlot := none } d else .stream j d
  | r => r

/-- A key slot becomes FREE, and serves the key-wait list (R94, R140). -/
def freeKeySlot (k : KeyNo) (s : State) : State :=
  serveSlot k
    { s with
      keys := { s.keys with slots := s.keys.slots.set k none }
      eng := { s.eng with running := s.eng.running.map (uncountJob k) } }

/-- A context leaves the key-wait list. -/
def leaveWaiting (c : CtxSlot) (s : State) : State :=
  { s with keys := { s.keys with waiting := s.keys.waiting.filter (· ≠ c) } }

/-- A parity failure returns a key slot to SETUP with its context, pin and users, and a SETUP job is queued (R137, R138). -/
def returnToSetup (k : KeyNo) (s : State) : State :=
  match s.keys.slots.get k with
  | none => s
  | some x =>
    { s with
      keys := { s.keys with slots := s.keys.slots.set k (some { x with phase := .setup }) }
      eng := { s.eng with setups := s.eng.setups ++ [{ slot := k, ctx := x.ctx }] } }

/-- The number of contexts that are pinned (R131). -/
def pinnedCount (s : State) : Nat :=
  ((List.finRange 16).filter fun c => (ctxOf s c).pin).length

/-- A context is pinned: its slot is pinned, or it stays on the key-wait list, or a slot is requested for it (R131). -/
def pinContext (c : CtxSlot) (s : State) : State :=
  let s := updateCtx c (fun x => { x with pin := true }) s
  match slotOf s c with
  | some k => updateSlot k (fun x => { x with pinned := true }) s
  | none => obtainSlot c s

/-- A context's pin is cleared: its slot may become evictable and serve the list; waiting with no STREAM job for its key, it leaves the list (R132). -/
def unpinContext (c : CtxSlot) (s : State) : State :=
  if (ctxOf s c).pin then
    let s := updateCtx c (fun x => { x with pin := false }) s
    match slotOf s c with
    | some k =>
      let s := updateSlot k (fun x => { x with pinned := false }) s
      if evictable (s.keys.slots.get k) then serveSlot k s else s
    | none => if s.eng.streams.any (waitsFor c) then s else leaveWaiting c s
  else s

/-- The key state of a context as READ_CONTEXT returns it: NONE 0, WAITING 1, SETUP 2, READY 3 (R127, 12.2). -/
def keyStateNumber (s : State) (c : CtxSlot) : Nat :=
  match (slotOf s c).bind fun k => s.keys.slots.get k with
  | some { phase := .setup, .. } => 2
  | some { phase := .ready _, .. } => 3
  | none => if s.keys.waiting.contains c then 1 else 0

/-- Whether a STREAM job is eligible: its context's key slot is READY (R133). -/
def eligible (s : State) (j : StreamJob) : Bool :=
  match j.keySlot.bind fun k => s.keys.slots.get k with
  | some { phase := .ready _, .. } => true
  | _ => false

/-- The STREAM job the arbiter would start: retried jobs first, then the others, each in queue order (R133; log 33). -/
def nextStream (s : State) : Option StreamJob :=
  (s.eng.streams.find? fun j => j.retried && eligible s j).or (s.eng.streams.find? fun j => eligible s j)

/-- The working key a STREAM job reads: that of its key slot (R135). -/
def workingKeyOf (s : State) (j : StreamJob) : Option Block :=
  match j.keySlot.bind fun k => s.keys.slots.get k with
  | some { phase := .ready key, .. } => some key
  | _ => none

end Sys2Proof.Machine
end

