-- ==== Sys2Proof/Machine/Keystream.lean ====
section
/-!
DEFINITION. The Keystream Pool: allocation and refill (R144 to R147), the settling of held frames (R149), release (R156), and entry into lockdown with the
raising of faults (R139, R155, R190, R192).
-/

namespace Sys2Proof.Machine

open Sys2Proof

/-! ### Allocation -/

/-- The number of pool slots an owner's command holds (R142). -/
def slotsHeld (s : State) (o : Owner) : Nat :=
  ((List.finRange 64).filter fun p => (s.pool.slots.get p).map (·.owner) = some o).length

/-- The lowest-numbered FREE pool slot (R145). -/
def freePool (s : State) : Option PoolNo :=
  (List.finRange 64).find? fun p => (s.pool.slots.get p).isNone

/-- A pool slot is allocated to a sector: it becomes ASSIGNED under the next allocation order, and its STREAM job is queued (R145). -/
def assignSlot (o : Owner) (off : Nat) (c : CtxSlot) (lap logical : Nat) (p : PoolNo) (s : State) : State :=
  queueStream
    { pool := p, ctx := c, lap := lap, logical := logical, retried := false, order := s.pool.nextOrder, keySlot := none }
    { s with
      pool :=
        { s.pool with
          slots := s.pool.slots.set p (some
            { owner := o, offset := off, ctx := c, lap := lap, logical := logical, order := s.pool.nextOrder,
              phase := .assigned })
          nextOrder := s.pool.nextOrder + 1 } }

/-- The burst's unserved sectors are allocated slots in offset order while a slot is FREE and the command holds fewer than L (R145). -/
def allocateFrom (o : Owner) (e : Entry) : List Nat → State → State
  | [], s => s
  | off :: rest, s =>
    match freePool s, protectedAt e off with
    | some p, some (c, lap, logical) =>
      if slotsHeld s o < s.req.lookahead then
        allocateFrom o e rest (assignSlot o off c lap logical p { s with pool := { s.pool with unserved := rest } })
      else s
    | _, _ => s

/-- The burst that waits for slots is served again (R146). -/
def refill (s : State) : State :=
  match s.drv.burst with
  | none => s
  | some b =>
    match entryOf s b.owner with
    | none => s
    | some e => allocateFrom b.owner e s.pool.unserved s

/-- The offsets of a burst that need keystream, in ascending order (R144). -/
def protectedOffsets (e : Entry) (first count : Nat) : List Nat :=
  ((List.range count).map (first + ·)).filter fun off => (protectedAt e off).isSome

/-- A burst opens: its protected sectors become unserved and are allocated slots; in lockdown they are marked faulted (R144, R145). -/
def openPoolBurst (e : Entry) (first count : Nat) (s : State) : State :=
  if s.faults.lockdown then
    { s with pool := { s.pool with unserved := [], marked := protectedOffsets e first count, settled := [] } }
  else
    refill { s with pool := { s.pool with unserved := protectedOffsets e first count, marked := [], settled := [] } }

/-! ### Release -/

/-- A pool slot becomes FREE; its STREAM job is withdrawn if queued and discarded at completion if running (R135, R143). -/
def freePoolSlot (p : PoolNo) (s : State) : State :=
  discardStream p (withdrawStream p { s with pool := { s.pool with slots := s.pool.slots.set p none } })

/-- The pool slots of an owner, in slot order. -/
def poolSlotsOf (s : State) (o : Owner) : List PoolNo :=
  (List.finRange 64).filter fun p => (s.pool.slots.get p).map (·.owner) = some o

/-- Every pool slot an owner holds becomes FREE (R156). -/
def freeSlotsOf (o : Owner) (s : State) : State :=
  (poolSlotsOf s o).foldl (fun s p => freePoolSlot p s) s

/-- The open burst's unserved, marked and settled sectors are dropped: none of them will pass (R156). -/
def dropPoolBurst (s : State) : State :=
  { s with pool := { s.pool with unserved := [], marked := [], settled := [] } }

/-- Every pool slot becomes FREE (R157, link reset). -/
def freeAllSlots (s : State) : State :=
  (List.finRange 64).foldl (fun s p => freePoolSlot p s) (dropPoolBurst s)

/-! ### Settling (R149) -/

/-- The pool slot that serves an owner's sector. -/
def slotFor (s : State) (o : Owner) (off : Nat) : Option PoolNo :=
  (List.finRange 64).find? fun p => (s.pool.slots.get p).map (fun x => (x.owner, x.offset)) = some (o, off)

/-- Whether a sector is settled in the frame that waits. -/
def isSettled (s : State) (off : Nat) : Bool :=
  s.pool.settled.any fun x => x.offset = off

/-- A sector is settled with the keystream or the zeros given. -/
def addSettled (off : Nat) (k : Option Sector) (s : State) : State :=
  { s with pool := { s.pool with settled := s.pool.settled ++ [{ offset := off, keystream := k }] } }

/-- A protected sector of the frame at the head of its link is settled, if it can be: with zeros if it is marked faulted or its slot is
FAULTED, with keystream if its slot is READY. The slot becomes FREE and serves refill (R149). -/
def settleSector (o : Owner) (e : Entry) (off : Nat) (s : State) : State :=
  if (protectedAt e off).isNone || isSettled s off then s
  else if s.pool.marked.contains off then
    addSettled off none { s with pool := { s.pool with marked := s.pool.marked.filter (· ≠ off) } }
  else
    match slotFor s o off with
    | none => s
    | some p =>
      match s.pool.slots.get p with
      | some { phase := .ready k, .. } => refill (freePoolSlot p (addSettled off (some k) s))
      | some { phase := .faulted, .. } => refill (freePoolSlot p (addSettled off none s))
      | _ => s

/-- The offsets of the sectors of a DATA frame that its burst still has left (R6, R11). -/
def frameOffsets (e : Entry) (n : Nat) : List Nat :=
  match e.openBurst with
  | none => []
  | some b => (List.range (min n b.left)).map (nextOffset b + ·)

/-- The sectors of a waiting frame of n sectors are settled one by one (R149). DEDUCED: of several that can be settled at one moment the lowest offset goes
first, and each freed slot serves refill before the next is settled (log 39). -/
def settleFrame (o : Owner) (n : Nat) (s : State) : State :=
  match entryOf s o with
  | none => s
  | some e => (frameOffsets e n).foldl (fun s off => settleSector o e off s) s

/-- Whether every protected sector of a frame of n sectors is settled (R149). -/
def frameSettled (o : Owner) (n : Nat) (s : State) : Bool :=
  match entryOf s o with
  | none => true
  | some e => (frameOffsets e n).all fun off => (protectedAt e off).isNone || isSettled s off

/-- The owner of the burst that a frame at the head of the upstream link belongs to, with its number of sectors, where the Pool may hold it: a DATA
frame of a relayed write burst (R149). -/
def upstreamHead (s : State) : Option (Owner × Nat) :=
  match s.up.held, s.up.inBurst with
  | .data d :: _, some b => if b.bridge || !acceptable .upstream (.data d) then none else some (b.owner, d.sectors.length)
  | _, _ => none

/-- The same for the drive link: a DATA frame of a read burst (R149). While the reset state is not NONE the port discards it (R16), so the Pool holds none. -/
def driveHead (s : State) : Option (Owner × Nat) :=
  match s.drv.held, s.drv.burst with
  | .data d :: _, some b =>
    if b.dir = .toDrive || s.drv.resetState ≠ .none || !acceptable .drive (.data d) then none else some (b.owner, d.sectors.length)
  | _, _ => none

/-- The Pool settles what it can in the frame at the head of each link (R149). -/
def settleHeads (s : State) : State :=
  let s := match upstreamHead s with
    | none => s
    | some (o, n) => settleFrame o n s
  match driveHead s with
  | none => s
  | some (o, n) => settleFrame o n s

/-! ### Faults and lockdown -/

/-- A pool slot at entry into lockdown: ASSIGNED and READY become FAULTED (R155). -/
def faultSlot (x : Option PoolSlot) : Option PoolSlot :=
  x.map fun y => { y with phase := .faulted }

/-- Entry into lockdown (R192): the flag is set and the attention line asserted; queued STREAM jobs are withdrawn and a running one is to be
discarded (R139); pool slots become FAULTED and unserved sectors are marked faulted (R155). -/
def enterLockdown (s : State) : State :=
  let s := judgeAttention { s with faults := { s.faults with lockdown := true } }
  let s := (s.eng.streams.map (·.pool)).foldl (fun s p => withdrawStream p s) s
  { s with
    eng := { s.eng with running := s.eng.running.map discardJob }
    pool :=
      { s.pool with
        slots := Vector.ofFn fun p => faultSlot (s.pool.slots.get p)
        marked := s.pool.marked ++ s.pool.unserved
        unserved := [] } }

/-- A fault is raised: recorded, noticed, and lockdown is entered where its severity says so and the flag is not yet set (R190). -/
def raiseFault (k : FaultKind) (s : State) : State :=
  let s := queueNotice .fault none none (some (faultCode k)) 0 { s with faults := recordFault k s.faults }
  if severityOf k s.req.severities = .lockdown ∧ s.faults.lockdown = false then enterLockdown s else s

end Sys2Proof.Machine
end

