-- ==== Sys2Proof/Machine/Rings.lean ====
section
/-!
DEFINITION. The Ring Unit (spec/06): accepting a write, outcome reports with their commits and releases, rewind, binding and deletion; and the ring read check
(R58 to R60).
-/

namespace Sys2Proof.Machine

open Sys2Proof

/-- A ring's span total: the sum of the counts of all spans in its queue (R101). -/
def spanTotal (spans : List Span) : Nat :=
  (spans.map (·.count)).sum

/-- A ring's forwarded count: the number of spans whose status is FORWARDED (R101). -/
def forwardedCount (spans : List Span) : Nat :=
  (spans.filter fun x => x.status = .forwarded).length

/-- A point advanced by a count, with its lap: when it reaches N it becomes 0 and the lap rises by 1 (R106, R112). -/
def advancePoint (n point lap count : Nat) : Nat × Nat :=
  if n ≤ point + count then (0, lap + 1) else (point + count, lap)

/-- A new ring bound to a region (R73). -/
def newRing (r : Region) : Ring :=
  { base := r.base, length := r.limit - r.base + 1, logicalStart := r.logicalStart, issue := 0, issueLap := 0, commit := 0,
    commitLap := 0, depth := r.limit - r.base, spans := [] }

/-- The status a span appended to a ring takes: FORWARDED if the forwarded count is below 4, else HELD (R107). -/
def appendStatus (r : Ring) : SpanStatus :=
  if forwardedCount r.spans < 4 then .forwarded else .held

/-- A ring with a write of count sectors accepted: the span is appended and the issue point advances (R106). DEDUCED: it is appended too where an earlier
span of the same owner has ended and still waits for its commit (log 37). -/
def acceptSpan (o : Owner) (count : Nat) (r : Ring) : Ring :=
  let p := advancePoint r.length r.issue r.issueLap count
  { r with
    issue := p.1
    issueLap := p.2
    spans := r.spans ++ [{ first := r.issue, count := count, lap := r.issueLap, owner := o, status := appendStatus r }] }

/-- The span of an owner with status FORWARDED gets its outcome; none where there is no such span (R111). -/
def markSpan (o : Owner) (ok : Bool) : List Span → Option (List Span)
  | [] => none
  | x :: rest =>
    if x.owner = o ∧ x.status = .forwarded then some ({ x with status := if ok then .done else .failed } :: rest)
    else (markSpan o ok rest).map (x :: ·)

/-- What a commit from the front of the queue leaves: the spans, the commit point and lap, and the spans committed void (R112, R113). -/
structure Committed where
  spans : List Span
  commit : Nat
  commitLap : Nat
  voids : List Span
  deriving DecidableEq, Repr

/-- The commit from the front of the queue: while the front span is DONE or FAILED it is removed and c advances by its count (R112). -/
def commitFront (n : Nat) : List Span → Nat → Nat → Committed
  | [], c, l => { spans := [], commit := c, commitLap := l, voids := [] }
  | x :: rest, c, l =>
    if x.status = .done ∨ x.status = .failed then
      let p := advancePoint n c l x.count
      let r := commitFront n rest p.1 p.2
      { r with voids := if x.status = .failed then x :: r.voids else r.voids }
    else { spans := x :: rest, commit := c, commitLap := l, voids := [] }

/-- The release step: while fewer than 4 spans are FORWARDED, the oldest HELD span becomes FORWARDED. fwd is the forwarded count; the owners
released are given in span order (R109). -/
def releaseSpans (fwd : Nat) : List Span → List Span × List Owner
  | [] => ([], [])
  | x :: rest =>
    if x.status = .held ∧ fwd < 4 then
      let r := releaseSpans (fwd + 1) rest
      ({ x with status := .forwarded } :: r.1, x.owner :: r.2)
    else
      let r := releaseSpans fwd rest
      (x :: r.1, r.2)

/-- An entry that has lost its last hold reason becomes FORWARDED, and its COMMAND is to be sent (R20, R28). -/
def forwardEntry (o : Owner) (s : State) : State :=
  match entryOf s o with
  | none => s
  | some e =>
    if e.state = .held ∧ e.queueWait = false ∧ e.ringWindow = false then
      let s := setEntry o (some { e with state := .forwarded }) s
      { s with trk := { s.trk with released := s.trk.released ++ [o] } }
    else s

/-- The Ring Unit tells the Tracker that an entry's span is released: the entry loses RING_WINDOW (R28, R109). -/
def releaseEntry (o : Owner) (s : State) : State :=
  forwardEntry o (updateEntry o (fun e => { e with ringWindow := false }) s)

/-- The tag of an owner; none for the single slot. -/
def ownerTag : Owner → Option Tag
  | .tag t => some t
  | .single => none

/-- The notice RING_VOID for a span committed void (R113). -/
def noticeVoid (c : CtxSlot) (s : State) (x : Span) : State :=
  queueNotice .ringVoid (some c) (ownerTag x.owner) none x.count s

/-- An outcome report: the span is marked, front spans commit, and HELD spans are released; without a ring or a span it changes nothing (R111, R112, R109). -/
def reportOutcome (c : CtxSlot) (o : Owner) (ok : Bool) (s : State) : State :=
  match ringOf s c with
  | none => s
  | some r =>
    match markSpan o ok r.spans with
    | none => s
    | some spans =>
      let k := commitFront r.length spans r.commit r.commitLap
      let q := releaseSpans (forwardedCount k.spans) k.spans
      let s := setRing c (some { r with spans := q.1, commit := k.commit, commitLap := k.commitLap }) s
      let s := k.voids.foldl (noticeVoid c) s
      q.2.foldl (fun s o => releaseEntry o s) s

/-- A ring rewound: its span queue is emptied and its issue side drawn back to its commit side (R115). -/
def rewound (r : Ring) : Ring :=
  { r with spans := [], issue := r.commit, issueLap := r.commitLap }

/-- The ring of one context is rewound, with its notice, unless its queue is empty (R115). -/
def rewindRing (s : State) (c : CtxSlot) : State :=
  match ringOf s c with
  | none => s
  | some r =>
    if r.spans.isEmpty then s
    else queueNotice .ringRewound (some c) none none (spanTotal r.spans) (setRing c (some (rewound r)) s)

/-- Every ring that exists is rewound, in ascending order of context slot (R115). -/
def rewindRings (s : State) : State :=
  (List.finRange 16).foldl rewindRing s

/-- The owners of a ring's HELD spans, in queue order (R75). -/
def heldOwners (r : Ring) : List Owner :=
  (r.spans.filter fun x => x.status = .held).map (·.owner)

/-- A ring record is deleted with its region: the HELD spans whose entries are in use are released in queue order (R75). -/
def deleteRing (c : CtxSlot) (s : State) : State :=
  match ringOf s c with
  | none => s
  | some r => (heldOwners r).foldl (fun s o => releaseEntry o s) (setRing c none s)

/-! ### The ring read check -/

/-- Whether a position is in flight (R58). -/
def inFlight (r : Ring) (p : Nat) : Bool :=
  if r.spans.isEmpty then false
  else if r.issue = r.commit then true
  else (p + r.length - r.commit) % r.length < (r.issue + r.length - r.commit) % r.length

/-- How far a position lies behind the commit point: (c - 1 - p) mod N (R60). -/
def ringAge (r : Ring) (p : Nat) : Nat :=
  (r.commit + r.length - 1 - p) % r.length

/-- The ring read check for one position with its context and logical sector: RING_IN_FLIGHT, RING_UNWRITTEN, RING_DEPTH, or DELIVER with the
lap it was written on (R58, R59, R60). -/
def ringVerdict (c : CtxSlot) (r : Ring) (p logical : Nat) : Verdict :=
  if inFlight r p then .withheld .ringInFlight c logical
  else if r.commit ≤ p ∧ r.commitLap = 0 then .withheld .ringUnwritten c logical
  else if r.depth ≤ ringAge r p then .withheld .ringDepth c logical
  else .deliver c (if p < r.commit then r.commitLap else r.commitLap - 1) logical

end Sys2Proof.Machine
end

