-- ==== Sys2Proof/Machine/Contexts.lean ====
section
/-!
DEFINITION. The Context Table's transitions (spec/05) and the Time Unit's expiry (spec/09): effective expiry, the expiry compare value, expiry, seals,
closes and first view.
-/

namespace Sys2Proof.Machine

open Sys2Proof

/-- A sum that takes the maximum where it would pass it (spec/00 1.7, Saturation). -/
def satAdd (max a b : Nat) : Nat :=
  if a + b < max then a + b else max

/-! ### Expiry -/

/-- A TIMED context's effective expiry from not_after, W and T0 (R62). -/
def effectiveExpiry (notAfter : Option Nat) (window : Nat) (t0 : Option Nat) : Option Nat :=
  match notAfter, t0 with
  | some a, some t => if 0 < window then some (min a (satAdd maxSeconds t window)) else some a
  | some a, none => some a
  | none, some t => if 0 < window then some (satAdd maxSeconds t window) else none
  | none, none => none

/-- The effective expiry of a context of the compare set: a TIMED context in RECORDING, SEALING or SEALED (R166). -/
def compareEntry (x : Context) : Option Nat :=
  if x.cls = .timed ∧ (x.state = .recording ∨ x.state = .sealing ∨ x.state = .sealed) then x.expiry else none

/-- The least of two values of which either may be absent. -/
def leastOf (a b : Option Nat) : Option Nat :=
  match a, b with
  | none, b => b
  | a, none => a
  | some a, some b => some (min a b)

/-- The expiry compare value over a Context Table: the least E of the compare set, absent when the set is empty (R166). -/
def compareValue (t : Vector Context 16) : Option Nat :=
  (List.finRange 16).foldl (fun acc c => leastOf acc (compareEntry (t.get c))) none

/-- The Time Unit recomputes its expiry compare value (R166). -/
def recomputeCompare (s : State) : State :=
  { s with time := { s.time with compare := compareValue s.contexts } }

/-- A context of the compare set whose E is less than rights time becomes EXPIRED, with its notice (R90, R167). -/
def expireContext (s : State) (c : CtxSlot) : State :=
  match compareEntry (ctxOf s c) with
  | none => s
  | some e =>
    if e < s.time.rights then
      queueNotice .expired (some c) none none e (updateCtx c (fun x => { x with state := .expired }) s)
    else s

/-- The expiry comparison (R167): made while rights time is SET; where it is greater than the compare value, the contexts it has passed expire in
ascending slot order and the value is recomputed. -/
def expiryComparison (s : State) : State :=
  if s.time.rightsSet then
    match s.time.compare with
    | none => s
    | some v => if v < s.time.rights then recomputeCompare ((List.finRange 16).foldl expireContext s) else s
  else s

/-- The tick event: the divide count restarts, monotonic time and (while SET) rights time rise by 1 up to their maximum, and the expiry comparison
is made (R159, R160, R161). -/
def tickEvent (s : State) : State :=
  expiryComparison
    { s with
      time :=
        { s.time with
          divideCount := 0
          mono := satAdd maxSeconds s.time.mono 1
          rights := if s.time.rightsSet then satAdd maxSeconds s.time.rights 1 else s.time.rights } }

/-- One period of the reference clock: the divide count rises by 1, and at the tick divider the tick occurs (R159; log 2). -/
def referencePeriod (s : State) : State :=
  if s.time.divideCount + 1 < s.req.divider then
    { s with time := { s.time with divideCount := s.time.divideCount + 1 } }
  else tickEvent s

/-! ### Jobs of a context, and the close -/

/-- Whether a job is a context's UNWRAP job or the CHECK job of its receipt (R94). -/
def ownJob (c : CtxSlot) (j : OtherJob) : Bool :=
  match j with
  | .unwrap d _ => d = c
  | .receipt d _ _ _ => d = c
  | .token _ _ => false

/-- Whether the running job is one of a context's jobs (R94); a SETUP that CLEAR_UNIT has discarded is none (R140). -/
def runningOwnJob (c : CtxSlot) (r : RunningJob) : Bool :=
  match r with
  | .setup j discard => j.ctx = c && !discard
  | .stream _ _ => false
  | .other j => ownJob c j

/-- Whether a job of a context is queued or running: its UNWRAP job, its receipt's CHECK job, or a SETUP job for its key slot (R94). -/
def hasJob (s : State) (c : CtxSlot) : Bool :=
  s.eng.others.any (ownJob c) || (s.eng.setups.any fun j => j.ctx = c) || s.eng.running.any (runningOwnJob c)

/-- The Region Table without a context's entries (R77). -/
def freeRegionsOf (c : CtxSlot) (t : Vector (Option Region) 128) : Vector (Option Region) 128 :=
  Vector.ofFn fun e => (t.get e).filter fun r => r.ctx ≠ c

/-- A close completes (R94): the regions are freed and a ring among them deleted, the key slot is freed and the context leaves the key-wait list,
CLOSED is queued, and the slot becomes EMPTY. -/
def completeClose (c : CtxSlot) (s : State) : State :=
  let s := setRing c none { s with regions := freeRegionsOf c s.regions }
  let s := leaveWaiting c s
  let s := match slotOf s c with
    | none => s
    | some k => freeKeySlot k s
  let s := queueNotice .closed (some c) none none (ctxOf s c).withheld s
  setCtx c .blank s

/-- A CLOSING context completes its close when its in-flight count is 0 and it has no job (R94). -/
def tryClose (c : CtxSlot) (s : State) : State :=
  if (ctxOf s c).state = .closing ∧ (ctxOf s c).inFlight = 0 ∧ hasJob s c = false then completeClose c s else s

/-- The value of the SEALED notice: the low 32 bits of the write frontier, or for a SHIFT context its ring's commit point, or 0 (spec/05 5.2). -/
def sealedValue (s : State) (c : CtxSlot) : Nat :=
  if (ctxOf s c).cls = .shift then
    match ringOf s c with
    | none => 0
    | some r => r.commit
  else (ctxOf s c).frontier % 4294967296

/-- A context becomes SEALED, with its notice (R80, R88). -/
def completeSeal (c : CtxSlot) (s : State) : State :=
  queueNotice .sealed (some c) none none (sealedValue s c) (updateCtx c (fun x => { x with state := .sealed }) s)

/-- The event "in-flight count reaches 0": a pending seal or close completes (R80). -/
def inFlightZero (c : CtxSlot) (s : State) : State :=
  match (ctxOf s c).state with
  | .sealing => completeSeal c s
  | .closing => tryClose c s
  | _ => s

/-- A context's in-flight count is lowered by 1 (R33, R37). -/
def lowerInFlight (s : State) (c : CtxSlot) : State :=
  let n := (ctxOf s c).inFlight
  let s := updateCtx c (fun x => { x with inFlight := n - 1 }) s
  if n = 1 then inFlightZero c s else s

/-- A context's in-flight count is raised by 1 (R37). -/
def raiseInFlight (s : State) (c : CtxSlot) : State :=
  updateCtx c (fun x => { x with inFlight := x.inFlight + 1 }) s

/-! ### First view -/

/-- First-view capture for one context (R50): T0 is set to rights time, E and the compare value are recomputed, the receipt becomes PENDING with
its CHECK job queued, and FIRST_VIEW is queued. -/
def captureView (s : State) (c : CtxSlot) : State :=
  let t := s.time.rights
  let x := ctxOf s c
  let e := effectiveExpiry x.notAfter x.window (some t)
  let s := setCtx c { x with t0 := some t, expiry := e, receipt := .pending } s
  let s := recomputeCompare s
  let s := { s with eng := { s.eng with others := s.eng.others ++ [.receipt c x.serial t (e.getD 0)] } }
  queueNotice .firstView (some c) none none t s

/-- Whether a read that delivers a context's sectors captures its first view: TIMED, W above 0, no T0 (R50). -/
def viewPending (x : Context) : Bool :=
  x.cls = .timed && 0 < x.window && x.t0.isNone

/-- The context a run delivers. -/
def deliveredCtx (r : Run) : Option CtxSlot :=
  match r.verdict with
  | .deliver c _ _ => some c
  | _ => none

/-- First-view capture for every context that a read's plan delivers and whose first view it is, in the order of first DELIVER offsets (R50). -/
def captureViews (plan : List Run) (s : State) : State :=
  (plan.filterMap deliveredCtx).foldl (fun s c => if viewPending (ctxOf s c) then captureView s c else s) s

end Sys2Proof.Machine
end

