-- ==== Sys2Proof/Machine/Classifier.lean ====
section
/-!
DEFINITION. The Classifier (spec/03): region lookup, read verdicts, the ordered write checks, runs, and the effects of acceptance.
-/

namespace Sys2Proof.Machine

open Sys2Proof

/-- Whether an LBA lies in a region's window (R46). -/
def inWindow (r : Region) (x : Nat) : Bool :=
  r.base ≤ x && x ≤ r.limit

/-- The enabled region whose window contains an LBA; none when it lies in no region (R46, R65). -/
def lookup (s : State) (x : Nat) : Option Region :=
  (enabledRegions s).find? fun r => inWindow r x

/-- The logical sector of an LBA of a region (R46). -/
def logicalOf (r : Region) (x : Nat) : Nat :=
  r.logicalStart + (x - r.base)

/-- The LBAs of a command, in offset order (R46). -/
def lbasOf (c : CommandFrame) : List Nat :=
  (List.range (cmdCount c)).map (cmdLba c + ·)

/-- Whether a command's range passes the top of the LBA space (R45). -/
def passesTop (c : CommandFrame) : Bool :=
  lbaEnd < cmdLba c + cmdCount c

/-- The runs of a list of per-sector verdicts from an offset: a sector joins the run before it when its verdict is that run's, one logical sector
further for each place (R47). -/
def formRuns : Nat → List Verdict → List Run
  | _, [] => []
  | k, v :: rest =>
    match formRuns (k + 1) rest with
    | [] => [{ first := k, count := 1, verdict := v }]
    | r :: rs =>
      if verdictFrom v 1 = r.verdict then { first := k, count := r.count + 1, verdict := v } :: rs
      else { first := k, count := 1, verdict := v } :: r :: rs

/-! ### Reads -/

/-- The verdict on a read sector in a region, by the steps of R49. A SHIFT context that owns a region has a ring (R101). -/
def regionVerdict (s : State) (r : Region) (x : Nat) : Verdict :=
  let c := r.ctx
  let l := logicalOf r x
  if s.faults.lockdown then .withheld .lockdown c l
  else if (ctxOf s c).state = .closing then .withheld .closing c l
  else if (ctxOf s c).state = .expired then .withheld .expired c l
  else if (ctxOf s c).cls = .timed ∧ s.time.rightsSet = false then .withheld .noTime c l
  else if (ctxOf s c).cls = .shift then
    match ringOf s c with
    | none => .withheld .ringUnwritten c l
    | some g => ringVerdict c g (x - r.base) l
  else .deliver c 0 l

/-- The verdict on the read sector at an LBA: CLEAR in no region (R49). -/
def readVerdict (s : State) (x : Nat) : Verdict :=
  match lookup s x with
  | none => .clear
  | some r => regionVerdict s r x

/-- The runs of a read (R49, R47). -/
def readPlan (s : State) (c : CommandFrame) : List Run :=
  formRuns 0 ((lbasOf c).map (readVerdict s))

/-! ### Writes -/

/-- The context all of whose regions hold every sector of a write; none where check 2 fails (R52). -/
def writeCtx (l : List (Option Region)) : Option CtxSlot :=
  match l with
  | some r :: rest => if rest.all fun q => q.map (·.ctx) = some r.ctx then some r.ctx else none
  | _ => none

/-- The logical sectors of a write, in offset order. -/
def writeLogicals (s : State) (c : CommandFrame) : List Nat :=
  (lbasOf c).filterMap fun x => (lookup s x).map fun r => logicalOf r x

/-- The least of a list of logical sectors. -/
def lowest (l : List Nat) : Nat :=
  l.foldl min (l.headD 0)

/-- The greatest of a list of logical sectors. -/
def highest (l : List Nat) : Nat :=
  l.foldl max 0

/-- Checks 5a to 5d, made against the ring record in this order (R51, R103 to R105); none where all pass. -/
def ringRefusal (r : Ring) (start count : Nat) : Option Code :=
  if start ≠ r.base + r.issue then some .ringOrder
  else if r.issueLap = 65536 then some .lapsExhausted
  else if 12 ≤ r.spans.length then some .ringBusy
  else if r.length < spanTotal r.spans + count then some .ringOverrun
  else none

/-- The runs of an accepted write: every sector ENCIPHER under the context and lap (R51). -/
def writePlan (s : State) (c : CommandFrame) (ctx : CtxSlot) (lap : Nat) : List Run :=
  formRuns 0 ((writeLogicals s c).map fun l => .encipher ctx lap l)

/-- What the Classifier answers when it accepts a command: the plan, the context whose ring took a span, whether that span is HELD, and the
state with the effects of the acceptance (R24, R44). -/
structure Accepted where
  plan : List Run
  ringWrite : Option CtxSlot
  heldSpan : Bool
  after : State

/-- An accepted command with a plan and no span. -/
def plainPlan (plan : List Run) (s : State) : Accepted :=
  { plan := plan, ringWrite := none, heldSpan := false, after := s }

/-- A write to a KEEP or TIMED context: check 4, the run limit, and the advance of the frontier to one past the highest logical sector (R51, R48, R53). -/
def classifyFrontier (c : CommandFrame) (ctx : CtxSlot) (s : State) : Except Code Accepted :=
  if lowest (writeLogicals s c) < (ctxOf s ctx).frontier then .error .rewrite
  else if 8 < (writePlan s c ctx 0).length then .error .tooFragmented
  else .ok (plainPlan (writePlan s c ctx 0)
    (updateCtx ctx (fun x => { x with frontier := highest (writeLogicals s c) + 1 }) s))

/-- A write to a SHIFT context: checks 5a to 5d, the run limit, and the span the Ring Unit takes (R51, R48, R54, R106). A SHIFT context that owns a
region has a ring (R101). -/
def classifyRing (o : Owner) (c : CommandFrame) (ctx : CtxSlot) (s : State) : Except Code Accepted :=
  match ringOf s ctx with
  | none => .error .ringOrder
  | some r =>
    match ringRefusal r (cmdLba c) (cmdCount c) with
    | some code => .error code
    | none =>
      if 8 < (writePlan s c ctx r.issueLap).length then .error .tooFragmented
      else .ok
        { plan := writePlan s c ctx r.issueLap
          ringWrite := some ctx
          heldSpan := appendStatus r = .held
          after := setRing ctx (some (acceptSpan o (cmdCount c) r)) s }

/-- A write: all CLEAR where no sector lies in a region, else the ordered checks 1 to 3 and those of the context's class (R51). -/
def classifyWrite (o : Owner) (c : CommandFrame) (s : State) : Except Code Accepted :=
  let l := (lbasOf c).map (lookup s)
  if l.all (·.isNone) then .ok (plainPlan [{ first := 0, count := cmdCount c, verdict := .clear }] s)
  else if s.faults.lockdown then .error .lockdown
  else
    match writeCtx l with
    | none => .error .mixedSpan
    | some ctx =>
      if (ctxOf s ctx).state ≠ .recording then .error .writeProtected
      else if (ctxOf s ctx).cls = .shift then classifyRing o c ctx s
      else classifyFrontier c ctx s

/-- A read: its plan within the run limit, and first-view capture (R48, R49, R50). -/
def classifyRead (c : CommandFrame) (s : State) : Except Code Accepted :=
  if 8 < (readPlan s c).length then .error .tooFragmented
  else .ok (plainPlan (readPlan s c) (captureViews (readPlan s c) s))

/-- The Classifier's answer to a transfer command, in the sequence of R44: the address range check first (R45). -/
def classify (o : Owner) (c : CommandFrame) (s : State) : Except Code Accepted :=
  if passesTop c then .error .outOfRange
  else if kindReads (cmdKind c) then classifyRead c s
  else classifyWrite o c s

end Sys2Proof.Machine
end

