-- ==== Sys2Proof/Machine/Tracker.lean ====
section
/-!
DEFINITION. The Command Tracker (spec/02): admission and refusal (R21 to R26), holding and forwarding (R28), the end of an entry (R33), and the drain
snapshot (R42, R182).
-/

namespace Sys2Proof.Machine

open Sys2Proof

/-! ### Forwarding -/

/-- A COMMAND is passed down for an entry released from HELD: it is sent, and a queued entry adds (tag, SWALLOW) to the acceptance list (R28). -/
def passReleased (s : State) (o : Owner) : State :=
  match entryOf s o with
  | none => s
  | some e =>
    let s := sendDown (.command e.cmd) s
    match o with
    | .single => s
    | .tag t => { s with trk := { s.trk with accepts := s.trk.accepts ++ [{ tag := t, action := .swallow }] } }

/-- The commands released in the event in hand are sent, in order of release (R28, R33). -/
def flushReleased (s : State) : State :=
  s.trk.released.foldl passReleased { s with trk := { s.trk with released := [] } }

/-- QUEUE_WAIT is cleared for the single slot when no queued entry is in use and the acceptance list is empty (R28). -/
def clearQueueWait (s : State) : State :=
  if queuedWork s then s
  else
    match s.trk.single with
    | none => s
    | some e => if e.queueWait then forwardEntry .single (setEntry .single (some { e with queueWait := false }) s) else s

/-! ### The end of an entry -/

/-- An entry leaves the drain snapshot; the last to leave sets the flag DONE and queues DRAINED (R182). -/
def leaveSnapshot (o : Owner) (s : State) : State :=
  if s.req.snapshot.contains o then
    let rest := s.req.snapshot.filter (· ≠ o)
    if rest.isEmpty then
      queueNotice .drained none none none s.req.snapshotSize
        { s with req := { s.req with snapshot := rest, drainPending := false } }
    else { s with req := { s.req with snapshot := rest } }
  else s

/-- The pool slots an ending entry still holds are freed, and its open burst's unserved sectors dropped; the freed slots then serve refill (R156). -/
def releaseEntrySlots (o : Owner) (e : Entry) (s : State) : State :=
  let s := if e.openBurst.isSome then dropPoolBurst s else s
  refill (freeSlotsOf o s)

/-- The notice WITHHELD of an entry whose withheld count is above 0 (R154). -/
def noticeWithheld (o : Owner) (e : Entry) (s : State) : State :=
  if 0 < e.withheld then
    queueNotice .withheld e.firstCtx (ownerTag o) (e.firstReason.map reasonCode) e.withheld s
  else s

/-- Step 1 of an entry's end: the outcome of its span goes to the Ring Unit, unless the end makes no report (R33). -/
def reportEnd (o : Owner) (e : Entry) (outcome : Option Bool) (s : State) : State :=
  match e.ringWrite, outcome with
  | some c, some ok => reportOutcome c o ok s
  | _, _ => s

/-- An entry ends (R33). outcome is whether it ended OK; none at an abort, drive link lost or link reset, which make no report. The pool slots it
holds are freed first (R156; log 19), then the steps of R33 are done in order. -/
def endEntry (o : Owner) (outcome : Option Bool) (s : State) : State :=
  match entryOf s o with
  | none => s
  | some e =>
    let s := releaseEntrySlots o e s
    let s := reportEnd o e outcome s
    let s := noticeWithheld o e s
    let s := e.touched.foldl lowerInFlight s
    let s := leaveSnapshot o s
    let s := setEntry o none s
    match o with
    | .single => s
    | .tag _ => clearQueueWait s

/-! ### Refusal -/

/-- A record at the tail of the refusal history; a full history loses its oldest (R26). -/
def addHistory (r : HistoryRecord) (l : List HistoryRecord) : List HistoryRecord :=
  if l.length < 8 then l ++ [r] else l.drop 1 ++ [r]

/-- A refused transfer command is recorded in the refusal history, with monotonic time at its arrival (R26, R160). DEDUCED: a command that stood on the
upstream link (R16) arrives when the Tracker takes it, and has the time of that moment (log 38). -/
def recordRefusal (c : CommandFrame) (code : Code) (s : State) : State :=
  { s with
    trk :=
      { s.trk with
        history := addHistory
          { kind := cmdKind c, tag := if kindQueued (cmdKind c) then some (cmdTag c) else none, lba := c.lba,
            count := cmdCount c, code := code, stamp := s.time.mono } s.trk.history } }

/-- A queued command is refused: STATUS ACCEPTED, then DONE failing its tag with the code; and a history record (R25, R26). -/
def refuseQueued (c : CommandFrame) (code : Code) (s : State) : State :=
  placePart (failingDone [(cmdTag c, codeByte code)]) (placePart acceptedFrame (recordRefusal c code s))

/-- A READ or WRITE is refused: STATUS ERROR with the code, and a history record (R25, R26). -/
def refuseSingle (c : CommandFrame) (code : Code) (s : State) : State :=
  placePart (errorFrame code) (recordRefusal c code s)

/-- A BRIDGE or OTHER is refused: STATUS ERROR with the code and no history record (R25, R26). -/
def refusePlain (code : Code) (s : State) : State :=
  placePart (errorFrame code) s

/-! ### Admission -/

/-- The entry of an admitted command (R24): the plan as a copy, the contexts its runs name, and nothing passed or withheld yet. -/
def newEntry (c : CommandFrame) (plan : List Run) (ringWrite : Option CtxSlot) (queueWait ringWindow answered : Bool) : Entry :=
  { state := if queueWait || ringWindow then .held else .forwarded
    kind := cmdKind c
    cmd := c
    plan := plan
    touched := touchedBy plan
    ringWrite := ringWrite
    queueWait := queueWait
    ringWindow := ringWindow
    answered := answered
    openBurst := none
    passed := 0
    partFailed := none
    withheld := 0
    firstReason := none
    firstCtx := none }

/-- The entry of a bridge command: LOCAL, with no plan (R23). -/
def bridgeEntry (c : CommandFrame) : Entry :=
  { newEntry c [] none false false false with state := .localBridge }

/-- A command enters the Tracker: its entry is set and the in-flight count of every context it touches is raised (R37). -/
def enter (o : Owner) (e : Entry) (s : State) : State :=
  e.touched.foldl raiseInFlight (setEntry o (some e) s)

/-- An accepted queued command is admitted: forwarded at once with a RELAY record, or held with RING_WINDOW and answered by the part (R21). -/
def enterQueued (c : CommandFrame) (a : Accepted) : State :=
  let s := enter (.tag (cmdTag c)) (newEntry c a.plan a.ringWrite false a.heldSpan a.heldSpan) a.after
  if a.heldSpan then placePart acceptedFrame s
  else
    let s := sendDown (.command c) s
    { s with trk := { s.trk with accepts := s.trk.accepts ++ [{ tag := cmdTag c, action := .relay }] } }

/-- A QREAD or QWRITE arrives: the checks of R21 in order. -/
def takeQueued (c : CommandFrame) (s : State) : State :=
  if (entryOf s (.tag (cmdTag c))).isSome || s.trk.accepts.any fun r => r.tag = cmdTag c then
    refuseQueued c .tagInUse s
  else if s.trk.single.any fun e => e.kind ≠ .bridge then refuseQueued c .queueBlocked s
  else if s.drv.link = .down then refuseQueued c .driveLost s
  else
    match classify (.tag (cmdTag c)) c s with
    | .error code => refuseQueued c code s
    | .ok a => enterQueued c a

/-- An accepted non-queued command is admitted into the single slot: held while queued work is in hand or its span is HELD, else forwarded (R22). -/
def enterSingle (c : CommandFrame) (a : Accepted) : State :=
  let wait := queuedWork a.after
  let s := enter .single (newEntry c a.plan a.ringWrite wait a.heldSpan false) a.after
  if wait || a.heldSpan then s else sendDown (.command c) s

/-- A READ or WRITE arrives: the checks of R22 in order. -/
def takeSingle (c : CommandFrame) (s : State) : State :=
  if s.trk.single.isSome then refuseSingle c .busy s
  else if s.drv.link = .down then refuseSingle c .driveLost s
  else
    match classify .single c s with
    | .error code => refuseSingle c code s
    | .ok a => enterSingle c a

/-- An OTHER command arrives: the checks of R22; it is admitted without a plan (R3, R22). -/
def takeOther (c : CommandFrame) (s : State) : State :=
  if s.trk.single.isSome then refusePlain .busy s
  else if s.drv.link = .down then refusePlain .driveLost s
  else enterSingle c (plainPlan [] s)

/-- A BRIDGE arrives: refused BUSY unless the single slot is FREE; a count other than 1 is answered MALFORMED and its entry ends in the same event;
else it is LOCAL and its request READY is placed (R23, R171). -/
def takeBridge (c : CommandFrame) (s : State) : State :=
  if s.trk.single.isSome then refusePlain .busy s
  else if c.count ≠ 1#16 then placePart (errorFrame .malformed) s
  else placeItem (bridgeReady .toDrive) (setEntry .single (some (bridgeEntry c)) s)

/-- A COMMAND frame reaches the Tracker with its kind (R2). -/
def takeCommand (c : CommandFrame) (s : State) : State :=
  match cmdKind c with
  | .qread | .qwrite => takeQueued c s
  | .read | .write => takeSingle c s
  | .other => takeOther c s
  | .bridge => takeBridge c s

/-! ### Drain -/

/-- Whether an entry forms part of a drain snapshot: a WRITE or QWRITE whose plan holds an ENCIPHER run (R42). -/
def drains (e : Entry) : Bool :=
  kindWrites e.kind && e.plan.any fun r =>
    match r.verdict with
    | .encipher _ _ _ => true
    | _ => false

/-- The entries that form the drain snapshot (R42, R181). -/
def drainEntries (s : State) : List Owner :=
  (((List.finRange 32).filter fun t => (s.trk.queued.get t).any drains).map Owner.tag)
    ++ if s.trk.single.any drains then [.single] else []

end Sys2Proof.Machine
end

