-- ==== Sys2Proof/Machine/Transform.lean ====
section
/-!
DEFINITION. The transform step (spec/08): what each sector of a passing DATA frame becomes, and what its passage counts (R31, R150 to R153); and the closing
of bursts (R6, R7).
-/

namespace Sys2Proof.Machine

open Sys2Proof

/-- What becomes of a sector: the word sent on; for a read sector sent as zeros under a verdict, its reason and context; and whether a write sector was
zeroed for want of keystream. -/
structure Treated where
  out : Sector
  withheld : Option (WithheldReason × CtxSlot)
  zeroedWrite : Bool
  deriving DecidableEq, Repr

/-- A sector that passes with nothing to count. -/
def passes (w : Sector) : Treated :=
  { out := w, withheld := none, zeroedWrite := false }

/-- The keystream a sector is settled with, or none for zeros. -/
def settledWith (s : State) (off : Nat) : Option Sector :=
  (s.pool.settled.find? fun x => x.offset = off).bind (·.keystream)

/-- The treatment of the sector at an offset of a command, by the table of R150: zeros beyond the command's end, else by its verdict. An OTHER
burst's sectors pass unchanged (R3). -/
def treatSector (s : State) (e : Entry) (off : Nat) (w : Sector) : Treated :=
  if e.kind = .other then passes w
  else if cmdCount e.cmd ≤ off then passes 0
  else
    match verdictAt e.plan off with
    | some .clear => passes w
    | some (.withheld reason c _) => { out := 0, withheld := some (reason, c), zeroedWrite := false }
    | some (.deliver c _ _) =>
      match settledWith s off with
      | some k => passes (w ^^^ k)
      | none => { out := 0, withheld := some (.transformFault, c), zeroedWrite := false }
    | some (.encipher _ _ _) =>
      match settledWith s off with
      | some k => passes (w ^^^ k)
      | none => { out := 0, withheld := none, zeroedWrite := true }
    | none => passes 0

/-- A part-failed marking: the first cause stands (R32). -/
def markFailed (p : PartFail) (e : Entry) : Entry :=
  { e with partFailed := e.partFailed.or (some p) }

/-- A withheld sector raises the entry's withheld count, and the first one gives its reason and context (R153). -/
def countWithheld (w : Option (WithheldReason × CtxSlot)) (e : Entry) : Entry :=
  match w with
  | none => e
  | some (reason, c) =>
    { e with
      withheld := satAdd 65536 e.withheld 1
      firstCtx := if e.firstReason.isNone then some c else e.firstCtx
      firstReason := e.firstReason.or (some reason) }

/-- A sector that passes lowers its burst's sectors left, and inside the command raises sectors passed, up to the count (R31). -/
def countPassed (off : Nat) (e : Entry) : Entry :=
  { e with
    openBurst := e.openBurst.map fun b => { b with left := b.left - 1 }
    passed := if off < cmdCount e.cmd then satAdd (cmdCount e.cmd) e.passed 1 else e.passed }

/-- The entry after the passage of a sector (R31, R152, R153). -/
def passedEntry (off : Nat) (t : Treated) (e : Entry) : Entry :=
  let e := countWithheld t.withheld (countPassed off e)
  if t.zeroedWrite then markFailed .transformFault e else e

/-- A withheld sector raises its context's withheld-sector count, saturating (R81, R153). -/
def countCtxWithheld (w : Option (WithheldReason × CtxSlot)) (s : State) : State :=
  match w with
  | none => s
  | some (_, c) => updateCtx c (fun x => { x with withheld := satAdd maxSeconds x.withheld 1 }) s

/-- One sector of the open burst of an entry passes the transform step. Where the burst's entry has ended, what passes is a free value (log 12). -/
def passSector (o : Owner) (w : Sector) (s : State) : Sector × State :=
  match entryOf s o with
  | some e =>
    match e.openBurst with
    | some b =>
      let off := nextOffset b
      let t := treatSector s e off w
      let s := setEntry o (some (passedEntry off t e)) s
      let s := countCtxWithheld t.withheld s
      (t.out, { s with pool := { s.pool with settled := s.pool.settled.filter fun x => x.offset ≠ off } })
    | none => (Config.orphanSector s.choices, { s with choices := s.choices + 1 })
  | none => (Config.orphanSector s.choices, { s with choices := s.choices + 1 })

/-- The sectors of a frame pass in the order it carries them (R150). -/
def passSectors (o : Owner) : List Sector → State → List Sector × State
  | [], s => ([], s)
  | w :: rest, s =>
    let p := passSector o w s
    let q := passSectors o rest p.2
    (p.1 :: q.1, q.2)

/-- The Tracker is told that an entry's burst ended: its open burst is cleared and it returns to FORWARDED (R6, R31). -/
def endEntryBurst (o : Owner) (s : State) : State :=
  updateEntry o (fun e => if e.openBurst.isSome then { e with state := .forwarded, openBurst := none } else e) s

/-- The drive port counts n sectors off its open burst; the burst closes at 0, and the Tracker is told (R6). -/
def countDriveBurst (n : Nat) (s : State) : State :=
  match s.drv.burst with
  | none => s
  | some b =>
    if b.left ≤ n then
      endEntryBurst b.owner (dropPoolBurst { s with drv := { s.drv with burst := none } })
    else { s with drv := { s.drv with burst := some { b with left := b.left - n } } }

/-- An upstream burst with n sectors counted off; it closes at 0 (R6). -/
def countUpBurst (n : Nat) (b : UpBurst) : Option UpBurst :=
  if b.left ≤ n then none else some { b with left := b.left - n }

/-- The number of sectors an item of the send list carries for the outbound burst of an owner. -/
def itemSectors (o : Owner) (i : SendItem) : Nat :=
  match i.frame with
  | .data d => if i.owner = some o then d.sectors.length else 0
  | _ => 0

/-- The number of sectors of an owner's DATA frames on the send list. -/
def sectorsListed (o : Owner) (l : List SendItem) : Nat :=
  (l.map (itemSectors o)).sum

/-- The upstream side of a closed drive burst is closed: an outbound burst when the DATA frames already on the send list have been sent, an inbound
burst at once, with the inbound discard count set to the sectors the controller has still to send in it (R7, R17). -/
def closeUpstreamSide (b : DriveBurst) (s : State) : State :=
  match b.dir with
  | .toUpstream =>
    match s.up.outBurst with
    | none => s
    | some u =>
      if u.bridge = false ∧ u.owner = b.owner then
        let n := sectorsListed b.owner s.up.sendList
        { s with up := { s.up with outBurst := if n = 0 then none else some { u with left := n } } }
      else s
  | .toDrive =>
    match s.up.inBurst with
    | none => s
    | some u =>
      if u.bridge = false ∧ u.owner = b.owner then
        { s with up := { s.up with inBurst := none, discard := u.left } }
      else s

/-- A completion of the burst's owner closes the drive port's burst short (R7): the Pool frees the slots of the sectors that did not pass, the entry
returns to FORWARDED, and the upstream side is closed. -/
def closeShort (b : DriveBurst) (s : State) : State :=
  let s := dropPoolBurst { s with drv := { s.drv with burst := none } }
  let s := freeSlotsOf b.owner s
  let s := endEntryBurst b.owner s
  closeUpstreamSide b s

/-- The drive port's open burst, where its owner satisfies p; whether the owner's entry is still in use does not matter (R7). -/
def ownedBurst (p : Owner → Bool) (s : State) : Option DriveBurst :=
  s.drv.burst.filter fun b => p b.owner

end Sys2Proof.Machine
end

