-- ==== Sys2Proof/Machine/Requests.lean ====
section
/-!
DEFINITION. The bridge requests (spec/10 10.2): what each does when its request block arrives, with its refusals and its reply, and how the answer is
carried (R173).
-/

namespace Sys2Proof.Machine

open Sys2Proof

/-- The answer to a request: refused with a code, accepted with no reply, or accepted with a reply block (R173). -/
inductive Answer where
  | refused (code : Code)
  | accepted
  | reply (block : Sector)
  deriving DecidableEq, Repr

/-- A request's effect on the state, with its answer. -/
structure Executed where
  answer : Answer
  after : State

/-- A refused request changes nothing. -/
def refuses (code : Code) (s : State) : Executed :=
  { answer := .refused code, after := s }

/-- An accepted request with no reply. -/
def accepts (s : State) : Executed :=
  { answer := .accepted, after := s }

/-- An accepted request with a reply block; the state is as the request leaves it. -/
def replies (block : Sector) (s : State) : Executed :=
  { answer := .reply block, after := s }

/-! ### Contexts (spec/05) -/

/-- Whether another slot in a state other than EMPTY holds a serial (R82 step 3). -/
def serialTaken (s : State) (c : CtxSlot) (serial : BitVec 48) : Bool :=
  (List.finRange 16).any fun d => d ≠ c && (ctxOf s d).state ≠ .empty && (ctxOf s d).serial = serial

/-- Whether the rights fields of a blob agree with its class (R82 step 6). -/
def rightsAgree (cls : CtxClass) (b : Blob) : Bool :=
  match cls with
  | .timed => b.notAfter ≠ 0 || b.window ≠ 0
  | .keep | .shift => b.notAfter = 0 && b.window = 0

/-- A LOADING record (R83). -/
def loadingContext (b : Blob) (cls : CtxClass) (opening : Opening) : Context :=
  { Context.blank with
    state := .loading
    cls := cls
    opening := opening
    serial := b.serial
    notAfter := if b.notAfter = 0 then none else some b.notAfter.toNat
    window := b.window.toNat }

/-- LOAD_CONTEXT: the checks of R82 in order; accepted, the slot becomes LOADING and an UNWRAP job is queued (R83). -/
def loadContextRequest (slot : Byte) (b : Blob) (s : State) : Executed :=
  match slotOperand slot with
  | none => refuses .outOfRange s
  | some c =>
    if (ctxOf s c).state ≠ .empty then refuses .slotTaken s
    else if serialTaken s c b.serial then refuses .duplicate s
    else if s.faults.lockdown then refuses .lockdown s
    else
      match classOperand b.cls, openingOperand b.opening with
      | some cls, some opening =>
        if !rightsAgree cls b then refuses .malformed s
        else if cls = .shift ∧ opening ≠ .record then refuses .malformed s
        else
          let s := setCtx c (loadingContext b cls opening) s
          accepts { s with eng := { s.eng with others := s.eng.others ++ [.unwrap c b] } }
      | _, _ => refuses .malformed s

/-- SEAL_CONTEXT (R88). -/
def sealContextRequest (slot : Byte) (s : State) : Executed :=
  match slotOperand slot with
  | none => refuses .outOfRange s
  | some c =>
    if (ctxOf s c).state ≠ .recording then refuses .wrongState s
    else if (ctxOf s c).inFlight = 0 then accepts (completeSeal c s)
    else accepts (updateCtx c (fun x => { x with state := .sealing }) s)

/-- A receipt when its context starts to close: a PENDING one becomes absent, a READY one is kept (R92). -/
def closingReceipt : Receipt → Receipt
  | .pending => .absent
  | r => r

/-- A context starts to close (R92): its queued UNWRAP and receipt CHECK jobs are withdrawn, a PENDING receipt becomes absent, its pin is cleared, the
compare value is recomputed, and the close completes if it can. -/
def startClose (c : CtxSlot) (s : State) : State :=
  let s := updateCtx c (fun x => { x with state := .closing, receipt := closingReceipt x.receipt }) s
  let s := { s with eng := { s.eng with others := s.eng.others.filter fun j => !ownJob c j } }
  let s := unpinContext c s
  let s := recomputeCompare s
  tryClose c s

/-- CLOSE_CONTEXT (R92). -/
def closeContextRequest (slot : Byte) (s : State) : Executed :=
  match slotOperand slot with
  | none => refuses .outOfRange s
  | some c =>
    if (ctxOf s c).state = .empty then refuses .wrongState s
    else if (ctxOf s c).state = .closing then accepts s
    else accepts (startClose c s)

/-- The number of enabled regions that name a context (R95). -/
def regionsOf (s : State) (c : CtxSlot) : Nat :=
  ((enabledRegions s).filter fun r => r.ctx = c).length

/-- The flags byte of a READ_CONTEXT reply (12.3). -/
def contextFlags (x : Context) (ring : Bool) : Nat :=
  x.t0.isSome.toNat + 2 * x.expiry.isSome.toNat + 4 * x.pin.toNat + 8 * ring.toNat

/-- The ring items of a READ_CONTEXT reply (R95, 12.3). -/
def putRing (r : Ring) (b : Sector) : Sector :=
  putNat 48 32 r.length <| putNat 52 32 r.issue <| putNat 56 32 r.issueLap <| putNat 60 32 r.commit <|
  putNat 64 32 r.commitLap <| putNat 68 32 r.depth <| putNat 72 8 r.spans.length <|
  putNat 73 8 (forwardedCount r.spans) <| putNat 76 32 (spanTotal r.spans) b

/-- The reply block of READ_CONTEXT (R95, 12.3). For an EMPTY slot every item is zero (log 16); the ring items are zero without a ring, and the write
frontier is zero for SHIFT. -/
def contextReply (s : State) (c : CtxSlot) : Sector :=
  let x := ctxOf s c
  let head := putField 0 4#16 0
  if x.state = .empty then head
  else
    let b := putNat 4 8 c <| putNat 5 8 (ctxStateNumber x.state) <| putNat 6 8 (classNumber x.cls) <|
      putNat 7 8 (openingNumber x.opening) <| putField 8 x.serial <| putNat 16 32 (x.notAfter.getD 0) <|
      putNat 20 32 x.window <| putNat 24 32 (x.t0.getD 0) <| putNat 28 32 (x.expiry.getD 0) <|
      putNat 32 8 (contextFlags x (ringOf s c).isSome) <| putNat 33 8 (keyStateNumber s c) <|
      putNat 34 8 (receiptNumber x.receipt) <| putNat 35 8 x.inFlight <| putNat 36 32 x.withheld <|
      putNat 40 48 (if x.cls = .shift then 0 else x.frontier) <| putNat 46 8 (regionsOf s c) head
    match ringOf s c with
    | none => b
    | some r => putRing r b

/-- READ_CONTEXT (R95). -/
def readContextRequest (slot : Byte) (s : State) : Executed :=
  match slotOperand slot with
  | none => refuses .outOfRange s
  | some c => replies (contextReply s c) s

/-- The reply block of READ_RECEIPT (R97, 12.3). DEDUCED: in state NONE the slot at byte 4 stands, and T0, E and the check value are zero (log 36). -/
def receiptReply (s : State) (c : CtxSlot) : Sector :=
  let x := ctxOf s c
  let b := putNat 4 8 c <| putNat 5 8 (receiptNumber x.receipt) <| putField 8 x.serial <| putField 0 5#16 0
  match x.receipt with
  | .absent => b
  | .pending => putNat 16 32 (x.t0.getD 0) <| putNat 20 32 (x.expiry.getD 0) b
  | .ready v => putNat 16 32 (x.t0.getD 0) <| putNat 20 32 (x.expiry.getD 0) <| putField 24 v b

/-- READ_RECEIPT (R97). -/
def readReceiptRequest (slot : Byte) (s : State) : Executed :=
  match slotOperand slot with
  | none => refuses .outOfRange s
  | some c =>
    if (ctxOf s c).state = .empty ∨ (ctxOf s c).state = .loading ∨ (ctxOf s c).cls ≠ .timed then refuses .wrongState s
    else replies (receiptReply s c) s

/-- Whether the running job is an UNWRAP or CHECK job (R98). -/
def runsOther : RunningJob → Bool
  | .other _ => true
  | _ => false

/-- Whether CLEAR_UNIT is accepted: every entry but the single slot's is FREE, and no UNWRAP or CHECK job is queued or running (R98). -/
def unitIdle (s : State) : Bool :=
  (tagsInUse s).isEmpty && s.eng.others.isEmpty && !s.eng.running.any runsOther

/-- The running job at CLEAR_UNIT: a SETUP's result is to be discarded, and a STREAM job to be discarded is counted nowhere (R99, R140). -/
def clearedJob : RunningJob → RunningJob
  | .setup j _ => .setup j true
  | .stream j d => .stream { j with keySlot := none } d
  | .other j => .other j

/-- The effects of an accepted CLEAR_UNIT (R99). The LRU order is kept (R129, R140). -/
def clearUnit (s : State) : State :=
  { s with
    contexts := Vector.replicate 16 .blank
    regions := Vector.replicate 128 none
    rings := Vector.replicate 16 none
    keys := { s.keys with slots := Vector.replicate 8 none, waiting := [] }
    eng := { s.eng with setups := [], running := s.eng.running.map clearedJob }
    time := { s.time with compare := none } }

/-- CLEAR_UNIT (R98). -/
def clearUnitRequest (s : State) : Executed :=
  if unitIdle s then accepts (clearUnit s) else refuses .notIdle s

/-! ### The Region Table (spec/04) -/

/-- Whether two windows share an LBA (R68). -/
def windowsMeet (r q : Region) : Bool :=
  r.base ≤ q.limit && q.base ≤ r.limit

/-- The last logical sector of a region. -/
def lastLogical (r : Region) : Nat :=
  r.logicalStart + (r.limit - r.base)

/-- Whether two regions of one context share a logical sector (R70). -/
def logicalsMeet (r q : Region) : Bool :=
  r.ctx = q.ctx && r.logicalStart ≤ lastLogical q && q.logicalStart ≤ lastLogical r

/-- The region an ADD_REGION describes for a context. -/
def regionOfParams (p : RegionParams) (c : CtxSlot) : Region :=
  { base := p.base.toNat, limit := p.limit.toNat, ctx := c, logicalStart := p.logicalStart.toNat }

/-- Steps 8 to 11 of ADD_REGION for a region (R66, R69 to R71); none where all pass. -/
def regionRefusal (s : State) (r : Region) : Option Code :=
  let x := ctxOf s r.ctx
  if ¬(x.state = .recording ∨ x.state = .sealing ∨ x.state = .sealed ∨ x.state = .expired) then some .wrongState
  else if (enabledRegions s).any (logicalsMeet r) then some .logicalOverlap
  else if x.cls = .shift ∧ (enabledRegions s).any (fun q => q.ctx = r.ctx) then some .ringBound
  else if x.cls = .shift ∧ ¬(64 ≤ r.limit - r.base + 1 ∧ r.limit - r.base + 1 ≤ 2147483648) then some .outOfRange
  else none

/-- An accepted ADD_REGION enables the entry (R72), and for a SHIFT context binds the ring (R73). -/
def enableRegion (e : EntryNo) (r : Region) (s : State) : State :=
  let s := { s with regions := s.regions.set e (some r) }
  if (ctxOf s r.ctx).cls = .shift then setRing r.ctx (some (newRing r)) s else s

/-- ADD_REGION: the eleven checks of R66 in order. The limit field's 48 bits keep step 4 (R196: the full value of its field). -/
def addRegionRequest (p : RegionParams) (s : State) : Executed :=
  match entryOperand p.entry with
  | none => refuses .outOfRange s
  | some e =>
    if (regionOf s e).isSome then refuses .slotTaken s
    else if p.limit.toNat < p.base.toNat then refuses .outOfRange s
    else if lbaEnd ≤ p.limit.toNat then refuses .outOfRange s
    else if logicalEnd < p.logicalStart.toNat + (p.limit.toNat - p.base.toNat + 1) then refuses .outOfRange s
    else if (enabledRegions s).any (windowsMeet (regionOfParams p 0)) then refuses .lbaOverlap s
    else
      match slotOperand p.slot with
      | none => refuses .outOfRange s
      | some c =>
        match regionRefusal s (regionOfParams p c) with
        | some code => refuses code s
        | none => accepts (enableRegion e (regionOfParams p c) s)

/-- An enabled entry is freed; a ring's region takes its ring with it, and the commands released are sent (R74, R75). -/
def freeRegion (e : EntryNo) (r : Region) (s : State) : State :=
  let s := { s with regions := s.regions.set e none }
  if (ctxOf s r.ctx).cls = .shift then flushReleased (deleteRing r.ctx s) else s

/-- REMOVE_REGION (R74). -/
def removeRegionRequest (entry : Byte) (s : State) : Executed :=
  match entryOperand entry with
  | none => refuses .outOfRange s
  | some e =>
    match regionOf s e with
    | none => accepts s
    | some r => accepts (freeRegion e r s)

/-- The entries that a READ_REGIONS returns: up to 16 from the start entry upward (R76). -/
def regionWindow (start : EntryNo) : List EntryNo :=
  ((List.finRange 128).drop start).take 16

/-- The reply block of READ_REGIONS (R76, 12.3). -/
def regionsReply (s : State) (start : EntryNo) : Sector :=
  let l := regionWindow start
  putRecords 24 (fun off (e : EntryNo) b => putRegion off e.val (regionOf s e) b) 8 l <|
  putNat 4 8 l.length <| putNat 6 16 (enabledRegions s).length <| putField 0 9#16 0

/-- READ_REGIONS (R76). -/
def readRegionsRequest (start : Byte) (s : State) : Executed :=
  match entryOperand start with
  | none => refuses .outOfRange s
  | some e => replies (regionsReply s e) s

/-! ### Rings, keys and time (spec/06, spec/07, spec/09) -/

/-- A depth clamped into 1 to N - 1 (R118). -/
def clampDepth (n d : Nat) : Nat :=
  if d = 0 then 1 else if n - 1 < d then n - 1 else d

/-- SET_SHIFT_DEPTH (R118). -/
def setShiftDepthRequest (slot : Byte) (depth : BitVec 32) (s : State) : Executed :=
  match slotOperand slot with
  | none => refuses .outOfRange s
  | some c =>
    let x := ctxOf s c
    if ¬(x.cls = .shift ∧ (x.state = .recording ∨ x.state = .sealing ∨ x.state = .sealed ∨ x.state = .closing)) then
      refuses .wrongState s
    else
      match ringOf s c with
      | none => refuses .wrongState s
      | some r => accepts (setRing c (some { r with depth := clampDepth r.length depth.toNat }) s)

/-- PIN_KEY: the checks of R131 in order. -/
def pinKeyRequest (slot : Byte) (s : State) : Executed :=
  match slotOperand slot with
  | none => refuses .outOfRange s
  | some c =>
    let x := ctxOf s c
    if ¬(x.state = .recording ∨ x.state = .sealing ∨ x.state = .sealed ∨ x.state = .expired) then refuses .wrongState s
    else if x.pin then accepts s
    else if 7 ≤ pinnedCount s then refuses .pinLimit s
    else accepts (pinContext c s)

/-- UNPIN_KEY (R132). -/
def unpinKeyRequest (slot : Byte) (s : State) : Executed :=
  match slotOperand slot with
  | none => refuses .outOfRange s
  | some c => accepts (unpinContext c s)

/-- SET_RIGHTS_TIME (R162). -/
def setRightsTimeRequest (time : BitVec 32) (check : Block) (s : State) : Executed :=
  if s.time.token.isSome then refuses .busy s
  else accepts
    { s with
      time := { s.time with token := some { time := time, check := check } }
      eng := { s.eng with others := s.eng.others ++ [.token time check] } }

/-! ### Settings, status and drain (spec/10) -/

/-- L clamped into 1 to 16 (R177). -/
def clampLookahead (n : Nat) : Nat :=
  if n = 0 then 1 else if 16 < n then 16 else n

/-- The tick divider clamped into 1,000,000 to 100,000,000 (R177). -/
def clampDivider (n : Nat) : Nat :=
  if n < 1000000 then 1000000 else if 100000000 < n then 100000000 else n

/-- The severities of a WRITE_SETTINGS; none where one of them is neither NOTICE nor LOCKDOWN (R176 step 2). -/
def severitiesOf (p : SettingsParams) : Option Severities :=
  match severityOperand p.keyParity, severityOperand p.transform, severityOperand p.protocol, severityOperand p.driveLost with
  | some a, some b, some c, some d => some { keyParity := a, transform := b, protocol := c, driveLost := d }
  | _, _, _, _ => none

/-- The four settings are written together, each clamped (R176, R177); the divide count restarts (R159), the attention line is judged under the new
set (R188), and a waiting burst is served under the new L (R146). -/
def applySettings (p : SettingsParams) (v : Severities) (s : State) : State :=
  refill (judgeAttention
    { s with
      req :=
        { s.req with
          lookahead := clampLookahead p.lookahead.toNat
          attentionSet := p.attentionSet.setWidth 16
          severities := v
          divider := clampDivider p.divider.toNat }
      time := { s.time with divideCount := 0 } })

/-- WRITE_SETTINGS (R176). -/
def writeSettingsRequest (p : SettingsParams) (s : State) : Executed :=
  if s.req.locked then refuses .locked s
  else
    match severitiesOf p with
    | none => refuses .outOfRange s
    | some v => accepts (applySettings p v s)

/-- LOCK_SETTINGS (R179). -/
def lockSettingsRequest (s : State) : Executed :=
  accepts { s with req := { s.req with locked := true } }

/-- The number of contexts in a state (R180). -/
def contextsIn (s : State) (t : CtxState) : Nat :=
  ((List.finRange 16).filter fun c => (ctxOf s c).state = t).length

/-- The number of key slots in SETUP (R141). -/
def slotsSetup (s : State) : Nat :=
  ((List.finRange 8).filter fun k => (s.keys.slots.get k).any fun x => x.phase = .setup).length

/-- The number of FREE key slots (R141). -/
def slotsFree (s : State) : Nat :=
  ((List.finRange 8).filter fun k => (s.keys.slots.get k).isNone).length

/-- The number of FREE pool slots (R142). -/
def poolFree (s : State) : Nat :=
  ((List.finRange 64).filter fun p => (s.pool.slots.get p).isNone).length

/-- The settings part of a READ_STATUS reply (12.3). -/
def putSettings (r : RequestUnit) (b : Sector) : Sector :=
  putNat 25 8 r.locked.toNat <| putNat 28 8 r.lookahead <| putNat 30 8 (severityNumber r.severities.keyParity) <|
  putNat 31 8 (severityNumber r.severities.transform) <| putNat 32 8 (severityNumber r.severities.protocol) <|
  putNat 33 8 (severityNumber r.severities.driveLost) <| putField 36 (r.attentionSet.setWidth 32) <|
  putNat 40 32 r.divider b

/-- The counts of contexts in each state, state 0 to 6 (12.3). -/
def putContextCounts (s : State) (b : Sector) : Sector :=
  putNat 44 8 (contextsIn s .empty) <| putNat 45 8 (contextsIn s .loading) <| putNat 46 8 (contextsIn s .recording) <|
  putNat 47 8 (contextsIn s .sealing) <| putNat 48 8 (contextsIn s .sealed) <| putNat 49 8 (contextsIn s .expired) <|
  putNat 50 8 (contextsIn s .closing) b

/-- The reply block of READ_STATUS (R180, 12.3). Of two-valued items the first-named value of R180 is 0: the drive link is 0 when UP (log 27). -/
def statusReply (s : State) : Sector :=
  putNat 4 8 s.faults.lockdown.toNat <| putNat 5 8 s.time.rightsSet.toNat <|
  putNat 6 8 (if s.faults.cause = .linkReset then 1 else 0) <| putNat 7 8 s.req.drainPending.toNat <|
  putNat 8 32 s.time.rights <| putNat 12 32 s.time.mono <| putNat 16 8 (faultSetNumber s.faults.set) <|
  putNat 17 8 ((s.faults.first.map faultBit).getD 255) <| putNat 18 8 (entriesInUse s) <| putNat 19 8 (poolFree s) <|
  putNat 20 8 (slotsFree s) <| putNat 21 8 (slotsSetup s) <| putNat 22 8 (8 - slotsFree s - slotsSetup s) <|
  putNat 23 8 s.nq.notices.length <| putNat 24 8 s.nq.overflow.toNat <|
  putNat 26 8 (if s.drv.link = .up then 0 else 1) <| putSettings s.req <| putContextCounts s <| putField 0 16#16 0

/-- READ_STATUS (R180). -/
def readStatusRequest (s : State) : Executed :=
  replies (statusReply s) s

/-- DRAIN: the snapshot is replaced; an empty one is DONE at once with its notice (R181, R183). -/
def drainRequest (s : State) : Executed :=
  let l := drainEntries s
  let s := { s with req := { s.req with snapshot := l, snapshotSize := l.length, drainPending := !l.isEmpty } }
  if l.isEmpty then accepts (queueNotice .drained none none none 0 s) else accepts s

/-! ### Notices, history and faults (spec/11, spec/02) -/

/-- The reply block of READ_NOTICES (R187, 12.3). DEDUCED: its overflow byte is 0 for clear and 1 for set (log 40). -/
def noticesReply (q : NoticeQueue) : Sector :=
  putRecords 16 putNotice 8 (q.notices.take 15) <|
  putNat 4 8 (q.notices.take 15).length <| putNat 5 8 q.overflow.toNat <| putNat 6 8 (q.notices.drop 15).length <|
  putField 0 18#16 0

/-- READ_NOTICES: up to 15 notices leave the head of the queue, the overflow flag is cleared, and the attention line is judged (R187, R188). -/
def readNoticesRequest (s : State) : Executed :=
  replies (noticesReply s.nq)
    (judgeAttention { s with nq := { s.nq with notices := s.nq.notices.drop 15, overflow := false } })

/-- The reply block of READ_HISTORY (R27, 12.3). -/
def historyReply (l : List HistoryRecord) : Sector :=
  putRecords 16 putHistory 8 l <| putNat 4 8 l.length <| putField 0 19#16 0

/-- READ_HISTORY (R27). -/
def readHistoryRequest (s : State) : Executed :=
  replies (historyReply s.trk.history) s

/-- CLEAR_FAULTS (R191). -/
def clearFaultsRequest (set : Byte) (s : State) : Executed :=
  accepts { s with faults := clearFaultRecord set s.faults }

/-! ### Carriage (R172, R173) -/

/-- A request executed at the block that owns it (R172). -/
def executeRequest (r : Request) (s : State) : Executed :=
  match r with
  | .loadContext slot b => loadContextRequest slot b s
  | .sealContext slot => sealContextRequest slot s
  | .closeContext slot => closeContextRequest slot s
  | .readContext slot => readContextRequest slot s
  | .readReceipt slot => readReceiptRequest slot s
  | .clearUnit => clearUnitRequest s
  | .addRegion p => addRegionRequest p s
  | .removeRegion entry => removeRegionRequest entry s
  | .readRegions start => readRegionsRequest start s
  | .setShiftDepth slot depth => setShiftDepthRequest slot depth s
  | .pinKey slot => pinKeyRequest slot s
  | .unpinKey slot => unpinKeyRequest slot s
  | .setRightsTime time check => setRightsTimeRequest time check s
  | .writeSettings p => writeSettingsRequest p s
  | .lockSettings => lockSettingsRequest s
  | .readStatus => readStatusRequest s
  | .drain => drainRequest s
  | .readNotices => readNoticesRequest s
  | .readHistory => readHistoryRequest s
  | .clearFaults set => clearFaultsRequest set s

/-- A request's outcome is placed on the send list: STATUS ERROR or STATUS OK, with which the bridge's entry ends, or the reply READY, with the
reply block kept until that READY is sent (R173). -/
def answerRequest (x : Executed) : State :=
  match x.answer with
  | .refused code => setEntry .single none (placePart (errorFrame code) x.after)
  | .accepted => setEntry .single none (placePart okFrame x.after)
  | .reply b =>
    placeItem (bridgeReady .toUpstream) { x.after with req := { x.after.req with reply := some b } }

/-- A request block is taken: its code is read, an unknown code is refused MALFORMED, a known one executed in the same event (R172). -/
def takeRequest (block : Sector) (s : State) : State :=
  match decodeRequest block with
  | none => answerRequest (refuses .malformed s)
  | some r => answerRequest (executeRequest r s)

end Sys2Proof.Machine
end

