-- ==== Sys2Proof/Machine/Ports.lean ====
section
/-!
DEFINITION. The two ports (spec/01): what each does with a frame it takes, the protocol slips (R10 to R14), the completions of the drive (R30, R34 to
R36), the holds (R9, R16), the transmit arbiter (R8), and the arrival of a frame.
-/

namespace Sys2Proof.Machine

open Sys2Proof

/-! ### Frames from the controller -/

/-- A DATA frame from the controller with no inbound burst open: n sectors are counted off the inbound discard count; PROTOCOL is raised
for what lies beyond it (R10). -/
def strayDataUp (n : Nat) (s : State) : State :=
  if n ≤ s.up.discard then { s with up := { s.up with discard := s.up.discard - n } }
  else raiseFault .protocol { s with up := { s.up with discard := 0 } }

/-- PROTOCOL is raised for the sectors of a frame beyond those its burst has left (R11). -/
def cutExcess (n left : Nat) (s : State) : State :=
  if left < n then raiseFault .protocol s else s

/-- The request block of the bridge request burst is taken: the burst closes, the request is executed, sectors beyond the first are cut (R171,
R172, R11; log 22). -/
def takeBlock (sectors : List Sector) (s : State) : State :=
  match sectors with
  | [] => s
  | block :: _ =>
    cutExcess sectors.length 1 (takeRequest block { s with up := { s.up with inBurst := none } })

/-- A DATA frame of the relayed inbound burst is taken: its sectors, as many as the burst has left, pass the transform step, go down to the drive, and
count off both bursts (R6, R11; log 22). -/
def passDown (b : UpBurst) (d : DataFrame) (s : State) : State :=
  let n := min d.sectors.length b.left
  let p := passSectors b.owner (d.sectors.take n) s
  let s := sendDown (.data { d with sectors := p.1 }) p.2
  let s := countDriveBurst n { s with up := { s.up with inBurst := countUpBurst n b } }
  cutExcess d.sectors.length b.left s

/-- A DATA frame is taken at the upstream port (R6, R10). -/
def takeDataUp (d : DataFrame) (s : State) : State :=
  match s.up.inBurst with
  | none => strayDataUp d.sectors.length s
  | some b => if b.bridge then takeBlock d.sectors s else passDown b d s

/-- A frame is taken at the upstream port (R2). -/
def takeUp (f : Frame) (s : State) : State :=
  if acceptable .upstream f then
    match f with
    | .command c => takeCommand c s
    | .data d => takeDataUp d s
    | .ready _ | .status _ | .done _ | .unknown _ _ => s
  else raiseFault .protocol s

/-! ### READY and DATA from the drive -/

/-- The entry a READY matches: it is FORWARDED, its kind allows the direction, and the drive port has no open burst (R4). -/
def readyMatch (r : ReadyFrame) (s : State) : Option Entry :=
  if s.drv.burst.isSome then none
  else (entryOf s (readyOwner r)).filter fun e => e.state = .forwarded && kindAllows e.kind (readyDir r)

/-- Whether a READY passes the end of its command; the range of an OTHER is not checked (R13, R3). -/
def readyPastEnd (r : ReadyFrame) (e : Entry) : Bool :=
  e.kind ≠ .other && cmdCount e.cmd < r.offset.toNat + readyCount r

/-- The entry of a matched READY: BURST, with its open burst recorded (R31). -/
def burstEntry (r : ReadyFrame) (e : Entry) : Entry :=
  { e with
    state := .burst
    openBurst := some { first := r.offset.toNat, count := readyCount r, left := readyCount r } }

/-- A matched READY: the drive port's burst opens, its discard burst is removed, the entry moves to BURST, the Pool takes the burst's protected sectors,
and the READY joins the send list (R4, R31, R144). -/
def openBurst (r : ReadyFrame) (e : Entry) (s : State) : State :=
  let o := readyOwner r
  let s :=
    { s with
      drv := { s.drv with burst := some { owner := o, dir := readyDir r, left := readyCount r }, discard := none } }
  let s := openPoolBurst e r.offset.toNat (readyCount r) (setEntry o (some (burstEntry r e)) s)
  placeItem { frame := .ready r, owner := some o, relayed := true } s

/-- A READY that passes the end of its command: the entry is marked part-failed and PROTOCOL is raised (R13). -/
def slipPastEnd (r : ReadyFrame) (s : State) : State :=
  raiseFault .protocol (updateEntry (readyOwner r) (markFailed .protocol) s)

/-- A stray READY: PROTOCOL is raised; with no burst open, one to upstream sets the drive port's discard burst to its count (R12). -/
def strayReady (r : ReadyFrame) (s : State) : State :=
  raiseFault .protocol
    (if s.drv.burst.isNone ∧ readyDir r = .toUpstream then
      { s with drv := { s.drv with discard := some (readyCount r) } }
    else s)

/-- A READY is taken from the drive (R4, R12, R13). -/
def takeReady (r : ReadyFrame) (s : State) : State :=
  match readyMatch r s with
  | none => strayReady r s
  | some e =>
    let s := openBurst r e s
    if readyPastEnd r e then slipPastEnd r s else s

/-- A DATA frame from the drive with no open burst for it: n sectors are counted off the discard burst, which is removed at 0; PROTOCOL is raised for what
lies beyond it (R10; log 13). -/
def strayDataDrive (n : Nat) (s : State) : State :=
  match s.drv.discard with
  | none => raiseFault .protocol s
  | some d =>
    if n < d then { s with drv := { s.drv with discard := some (d - n) } }
    else if n = d then { s with drv := { s.drv with discard := none } }
    else raiseFault .protocol { s with drv := { s.drv with discard := none } }

/-- A DATA frame of a read burst: its sectors, as many as the burst has left, pass the transform step and join the send list (R6, R11; log 22). -/
def passUp (b : DriveBurst) (d : DataFrame) (s : State) : State :=
  let n := min d.sectors.length b.left
  let p := passSectors b.owner (d.sectors.take n) s
  let s := placeItem { frame := .data { d with sectors := p.1 }, owner := some b.owner, relayed := true } p.2
  cutExcess d.sectors.length b.left (countDriveBurst n s)

/-- A DATA frame is taken from the drive (R6, R10). -/
def takeDataDrive (d : DataFrame) (s : State) : State :=
  match s.drv.burst with
  | some b => if b.dir = .toUpstream then passUp b d s else strayDataDrive d.sectors.length s
  | none => strayDataDrive d.sectors.length s

/-! ### STATUS from the drive -/

/-- A drive acceptance: STATUS ACCEPTED matched to the record of an entry in use (R30). -/
def acceptedBy (r : AcceptRecord) (t : StatusFrame) (s : State) : State :=
  match r.action with
  | .relay => placeRelayed (.status t) (updateEntry (.tag r.tag) (fun e => { e with answered := true }) s)
  | .swallow => s

/-- A drive's refusal: STATUS ERROR matched to the record of an entry in use, which ends as failed (R30). -/
def rejectedBy (r : AcceptRecord) (t : StatusFrame) (s : State) : State :=
  let s := endEntry (.tag r.tag) (some false) s
  match r.action with
  | .relay => placeRelayed (.status t) s
  | .swallow => placePart (failingDone [(r.tag, t.detail)]) s

/-- A STATUS ACCEPTED or ERROR matched to the head of the acceptance list: the record is removed; where its entry has ended the STATUS is discarded. Commands
released by it are sent after the frame (R30, R28, R33). -/
def takeAcceptance (r : AcceptRecord) (rest : List AcceptRecord) (t : StatusFrame) (s : State) : State :=
  let s := { s with trk := { s.trk with accepts := rest } }
  flushReleased <|
    if (entryOf s (.tag r.tag)).isNone then clearQueueWait s
    else if t.outcome = 0#8 then clearQueueWait (acceptedBy r t s)
    else rejectedBy r t s

/-- A success is reported for an entry short of its count: it is marked part-failed and PROTOCOL is raised (R32). -/
def checkShort (o : Owner) (s : State) : State :=
  match entryOf s o with
  | none => s
  | some e =>
    if e.kind ≠ .other ∧ e.passed < cmdCount e.cmd then
      raiseFault .protocol (updateEntry o (markFailed .protocol) s)
    else s

/-- The part-failed detail of an entry in use. -/
def partFailedOf (o : Owner) (s : State) : Option PartFail :=
  (entryOf s o).bind (·.partFailed)

/-- A burst that a completion of its owner closes short, if it is open (R7). -/
def closeOwned (p : Owner → Bool) (s : State) : State :=
  match ownedBurst p s with
  | none => s
  | some b => closeShort b s

/-- The STATUS OK or ERROR that completes the single slot: a burst left open is closed short, an OK of a part-failed entry is rewritten to its
detail, the entry ends, and the STATUS is relayed (R7, R32, R34, R33). -/
def completeSingle (t : StatusFrame) (s : State) : State :=
  let s := closeOwned (· = .single) s
  let s := if t.outcome = 1#8 then checkShort .single s else s
  flushReleased <|
    if t.outcome = 1#8 then
      match partFailedOf .single s with
      | none => placeRelayed (.status t) (endEntry .single (some true) s)
      | some p => placeRelayed (errorFrame (partFailCode p)) (endEntry .single (some false) s)
    else placeRelayed (.status t) (endEntry .single (some false) s)

/-- Whether the single slot is FORWARDED or BURST (R34). -/
def singleWithDrive (s : State) : Bool :=
  s.trk.single.any fun e => e.state = .forwarded || e.state = .burst

/-- A STATUS is taken from the drive while the reset state is NONE: an acceptance, the completion of the single slot, or a slip (R30, R34, R14). -/
def takeStatus (t : StatusFrame) (s : State) : State :=
  match s.trk.accepts with
  | r :: rest => if t.outcome = 1#8 then raiseFault .protocol s else takeAcceptance r rest t s
  | [] => if t.outcome ≠ 0#8 ∧ singleWithDrive s then completeSingle t s else raiseFault .protocol s

/-! ### DONE from the drive -/

/-- Whether a tag's entry is FORWARDED or BURST (R14). -/
def tagLive (s : State) (t : Tag) : Bool :=
  (s.trk.queued.get t).any fun e => e.state = .forwarded || e.state = .burst

/-- The first mentions in a failed list of live tags outside the done set; seen are the tags already mentioned (R14). -/
def firstMentions (live : Tag → Bool) : List Tag → List (Byte × Byte) → List (Byte × Byte)
  | _, [] => []
  | seen, p :: rest =>
    if live (pairTag p) && !seen.contains (pairTag p) then p :: firstMentions live (pairTag p :: seen) rest
    else firstMentions live seen rest

/-- A DONE with the removals of R14 made: the tags of its done set and its failed pairs that stay. -/
structure CheckedDone where
  tags : List Tag
  pairs : List (Byte × Byte)
  deriving DecidableEq, Repr

/-- The removals of R14. -/
def checkDone (d : DoneFrame) (s : State) : CheckedDone :=
  { tags := (doneTags d).filter (tagLive s), pairs := firstMentions (tagLive s) (doneTags d) d.failed }

/-- Whether R14 removed a mention. -/
def doneRemoves (d : DoneFrame) (c : CheckedDone) : Bool :=
  c.tags.length ≠ (doneTags d).length || c.pairs.length ≠ d.failed.length

/-- A DONE that names a tag whose RELAY record is still listed: a STATUS ACCEPTED of the part goes ahead of the DONE, and the record becomes
SWALLOW (R32). -/
def answerAhead (t : Tag) (s : State) : State :=
  if s.trk.accepts.any fun r => r.tag = t && r.action = .relay then
    placePart acceptedFrame
      { s with
        trk := { s.trk with accepts := s.trk.accepts.map fun r => if r.tag = t then { r with action := .swallow } else r } }
  else s

/-- The tags of a done set are taken in ascending order: each entry ends OK, or failed where it is part-failed. The answer gives the tags that stay in the
done set and the pairs that move to the failed list (R35 step 1). -/
def endDone : List Tag → State → (List Tag × List (Byte × Byte)) × State
  | [], s => (([], []), s)
  | t :: rest, s =>
    let s := answerAhead t (checkShort (.tag t) s)
    match partFailedOf (.tag t) s with
    | none =>
      let q := endDone rest (endEntry (.tag t) (some true) s)
      ((t :: q.1.1, q.1.2), q.2)
    | some p =>
      let q := endDone rest (endEntry (.tag t) (some false) s)
      ((q.1.1, (tagByte t, codeByte (partFailCode p)) :: q.1.2), q.2)

/-- The drive's failed pairs are taken in frame order: each entry ends as failed (R35 step 2). -/
def endFailed (s : State) (p : Byte × Byte) : State :=
  endEntry (.tag (pairTag p)) (some false) (answerAhead (pairTag p) s)

/-- Whether an entry in use was never seen by the drive: HELD, or released with its COMMAND not yet sent (R36). -/
def neverSeen (s : State) (t : Tag) (e : Entry) : Bool :=
  e.state = .held || s.trk.released.contains (.tag t)

/-- An abort ends one queued entry in use: listed ABORTED where the drive never saw it, covered where it is answered, else answered by the part (R36). -/
def abortEntry (t : Tag) (e : Entry) (s : State) : List (Byte × Byte) × State :=
  if neverSeen s t e then ([(tagByte t, codeByte .aborted)], endEntry (.tag t) none s)
  else if e.answered then ([], endEntry (.tag t) none s)
  else ([], placePart (errorFrame .aborted) (endEntry (.tag t) none s))

/-- An abort ends the queued entries still in use, in ascending tag order; the answer gives the pairs it lists (R36). -/
def abortEntries : List Tag → State → List (Byte × Byte) × State
  | [], s => ([], s)
  | t :: rest, s =>
    match entryOf s (.tag t) with
    | none => abortEntries rest s
    | some e =>
      let p := abortEntry t e s
      let q := abortEntries rest p.2
      (p.1 ++ q.1, q.2)

/-- The abort rule up to the placement of the DONE: the entries end, the acceptance list is emptied, and every ring rewinds (R36, R115). -/
def abortQueued (s : State) : List (Byte × Byte) × State :=
  let p := abortEntries (List.finRange 32) s
  (p.1, rewindRings { p.2 with trk := { p.2.trk with accepts := [] } })

/-- The abort rule after the DONE: a ring WRITE in the single slot ends failed, any other command there loses QUEUE_WAIT (R36, R28). -/
def abortSingle (s : State) : State :=
  match s.trk.single with
  | none => s
  | some e =>
    if e.kind = .write ∧ e.ringWrite.isSome then placePart (errorFrame .aborted) (endEntry .single none s)
    else clearQueueWait s

/-- The DONE with its resulting lists joins the send list, unless its done set, failed list and abort flag are all empty (R35 step 4, R14). -/
def relayDone (d : DoneFrame) (tags : List Tag) (pairs : List (Byte × Byte)) (s : State) : State :=
  if tags.isEmpty && pairs.isEmpty && !doneAborts d then s
  else placeRelayed (.done { d with doneSet := tagBits tags, failed := pairs }) s

/-- A DONE's owner: whether it names a tag or aborts (R7). -/
def doneNames (d : DoneFrame) (o : Owner) : Bool :=
  match o with
  | .single => false
  | .tag t => doneAborts d || d.doneSet.getLsbD t || d.failed.any fun p => pairTag p = t

/-- PROTOCOL is raised once for the frame where R14 removed a mention. -/
def slipDone (removes : Bool) (s : State) : State :=
  if removes then raiseFault .protocol s else s

/-- A DONE is taken from the drive: a burst of an owner it names closes short, then R14 and the steps of R35 (R7, R14, R35, R36, R33). -/
def takeDone (d : DoneFrame) (s : State) : State :=
  let s := closeOwned (doneNames d) s
  let c := checkDone d s
  let q := endDone c.tags (slipDone (doneRemoves d c) s)
  let s := c.pairs.foldl endFailed q.2
  flushReleased <|
    if doneAborts d then
      let a := abortQueued s
      abortSingle (relayDone d q.1.1 (c.pairs ++ q.1.2 ++ a.1) a.2)
    else relayDone d q.1.1 (c.pairs ++ q.1.2) s

/-! ### Every frame from the drive -/

/-- A drive frame taken while the reset state is not NONE: the first STATUS is the reset-completion, relayed in AWAIT_RELAY and consumed in AWAIT_LOCAL; every
other frame is discarded (R16; log 20). -/
def takeInReset (f : Frame) (s : State) : State :=
  match f with
  | .status t =>
    let s' := { s with drv := { s.drv with resetState := .none } }
    if s.drv.resetState = .awaitRelay then placeRelayed (.status t) s' else s'
  | .command _ | .ready _ | .data _ | .done _ | .unknown _ _ => s

/-- A frame is taken at the drive port (R2, R16). -/
def takeDrive (f : Frame) (s : State) : State :=
  if s.drv.resetState ≠ .none then takeInReset f s
  else if acceptable .drive f then
    match f with
    | .ready r => takeReady r s
    | .data d => takeDataDrive d s
    | .status t => takeStatus t s
    | .done d => takeDone d s
    | .command _ | .unknown _ _ => s
  else raiseFault .protocol s

/-! ### Holds (R9, R16) -/

/-- Whether the upstream port can take the frame at the head of its link: a COMMAND other than a BRIDGE waits for the reset state NONE, a DATA frame of a
relayed write burst for its sectors to be settled (R9, R16, R149). -/
def upTakeable (s : State) (f : Frame) : Bool :=
  match f with
  | .command c => s.drv.resetState = .none || cmdKind c = .bridge
  | .data _ =>
    match upstreamHead s with
    | none => true
    | some (o, n) => frameSettled o n s
  | .ready _ | .status _ | .done _ | .unknown _ _ => true

/-- Whether the drive port can take the frame at the head of its link: not while the last frame it took is on the send list, and a DATA frame of a read burst
only with its sectors settled (R9, R149). -/
def driveTakeable (s : State) : Bool :=
  !relayPending s &&
    match driveHead s with
    | none => true
    | some (o, n) => frameSettled o n s

/-- The frame the upstream port can take next. -/
def nextUp (s : State) : Option Frame :=
  s.up.held.head?.filter (upTakeable s)

/-- The frame the drive port can take next. -/
def nextDrive (s : State) : Option Frame :=
  s.drv.held.head?.filter fun _ => driveTakeable s

/-- The upstream port takes the frame at the head of its link. -/
def stepUp (f : Frame) (s : State) : State :=
  takeUp f { s with up := { s.up with held := s.up.held.tail } }

/-- The drive port takes the frame at the head of its link. -/
def stepDrive (f : Frame) (s : State) : State :=
  takeDrive f { s with drv := { s.drv with held := s.drv.held.tail } }

/-- One frame is taken, if a port can take one; where both can, which goes first is a free value (log 5). -/
def takeOne (s : State) : State :=
  match nextUp s, nextDrive s with
  | none, none => s
  | some f, none => stepUp f s
  | none, some g => stepDrive g s
  | some f, some g =>
    if Config.upstreamFirst s.choices then stepUp f { s with choices := s.choices + 1 }
    else stepDrive g { s with choices := s.choices + 1 }

/-- Frames are settled and taken, at most n times: every frame whose hold has ended is taken in the same event (R9; log 4). -/
def pump : Nat → State → State
  | 0, s => settleHeads s
  | n + 1, s => pump n (takeOne (settleHeads s))

/-- The ports take all they can: each time one frame fewer stands on the links. -/
def run (s : State) : State :=
  pump (s.up.held.length + s.drv.held.length) s

/-- A frame arrives on the upstream link: it joins the frames standing there, and the ports take what they can. With the link DOWN it is not
received (R1, R9). -/
def arriveUp (f : Frame) (s : State) : State :=
  if s.up.link = .up then run { s with up := { s.up with held := s.up.held ++ [f] } } else s

/-- A frame arrives on the drive link (R1, R9). -/
def arriveDrive (f : Frame) (s : State) : State :=
  if s.drv.link = .up then run { s with drv := { s.drv with held := s.drv.held ++ [f] } } else s

/-- A request block arrives, as the DATA frame that carries it (R171, R172; log 6). -/
def arriveRequest (r : Request) (s : State) : State :=
  arriveUp (.data { bytes23 := 0#16, sectors := [encodeRequest r] }) s

/-! ### The upstream transmit arbiter (R8) -/

/-- Whether an item is a DATA frame of the open outbound burst. -/
def inOutBurst (u : UpBurst) (i : SendItem) : Bool :=
  match i.frame with
  | .data _ => i.owner = some u.owner && i.relayed = !u.bridge
  | _ => false

/-- Whether an item is eligible while no outbound burst is open: all but a READY to drive while an inbound burst is open (R8). -/
def sendEligible (s : State) (i : SendItem) : Bool :=
  match i.frame with
  | .ready r => readyDir r = .toUpstream || s.up.inBurst.isNone
  | _ => true

/-- Whether the arbiter may choose an item: the next frame of the open outbound burst, or any eligible one where none is open (R8). -/
def mayChoose (s : State) (i : SendItem) : Bool :=
  match s.up.outBurst with
  | some u => inOutBurst u i
  | none => sendEligible s i

/-- A READY is sent upstream: it opens the burst of its direction there; one to drive clears the inbound discard count (R5, R4; log 14). -/
def openUpstream (r : ReadyFrame) (i : SendItem) (s : State) : State :=
  let b : UpBurst := { owner := i.owner.getD .single, left := readyCount r, bridge := !i.relayed }
  match readyDir r with
  | .toUpstream => { s with up := { s.up with outBurst := some b } }
  | .toDrive => { s with up := { s.up with inBurst := some b, discard := 0 } }

/-- The reply READY of a bridge has been sent: the reply block is placed as its DATA (R173). -/
def placeReply (s : State) : State :=
  match s.req.reply with
  | none => s
  | some block =>
    placeItem { frame := .data { bytes23 := 0#16, sectors := [block] }, owner := some .single, relayed := false }
      { s with req := { s.req with reply := none } }

/-- A READY is sent (R5, R173). -/
def sentReady (r : ReadyFrame) (i : SendItem) (s : State) : State :=
  let s := openUpstream r i s
  if i.relayed = false ∧ readyDir r = .toUpstream then placeReply s else s

/-- A DATA frame is sent: it counts off the outbound burst; after the reply block, STATUS OK is placed and the bridge's entry ends (R6, R173;
log 15). -/
def sentData (d : DataFrame) (s : State) : State :=
  match s.up.outBurst with
  | none => s
  | some u =>
    let s := { s with up := { s.up with outBurst := countUpBurst d.sectors.length u } }
    if u.bridge then setEntry .single none (placePart okFrame s) else s

/-- What the sending of an item does at the upstream port. -/
def sentItem (i : SendItem) (s : State) : State :=
  match i.frame with
  | .ready r => sentReady r i s
  | .data d => sentData d s
  | .command _ | .status _ | .done _ | .unknown _ _ => s

/-- An item leaves the send list and is sent upstream. -/
def sendItem (k : Nat) (i : SendItem) (s : State) : State :=
  sentItem i { s with up := { s.up with sendList := s.up.sendList.eraseIdx k, sent := s.up.sent ++ [i.frame] } }

/-- The transmit arbiter's turn: while the link is UP it sends the item it may choose that has been on the list longest (R8). -/
def transmit (s : State) : State :=
  if s.up.link = .up then
    match s.up.sendList.findIdx? (mayChoose s) with
    | none => s
    | some k =>
      match s.up.sendList[k]? with
      | none => s
      | some i => run (sendItem k i s)
  else s

end Sys2Proof.Machine
end

