-- ==== Sys2Proof/Machine/EngineJobs.lean ====
section
/-!
DEFINITION. The Transform Engine's arbiter and the ends of its jobs: SETUP (R134), STREAM (R135, R148), parity failure (R137, R138), UNWRAP (R84 to R86),
the receipt CHECK (R96) and the time-token CHECK (R163).
-/

namespace Sys2Proof.Machine

open Sys2Proof

/-- The running job leaves the engine (R133). -/
def endRunning (s : State) : State :=
  { s with eng := { s.eng with running := none } }

/-! ### The arbiter -/

/-- A queued SETUP job starts: it is the one queued longest. -/
def startSetup (j : SetupJob) (rest : List SetupJob) (s : State) : State :=
  { s with eng := { s.eng with setups := rest, running := some (.setup j false) } }

/-- A STREAM job starts: it leaves the queue, and its key slot moves to the most recent end of the LRU order (R135, R129). -/
def startStream (j : StreamJob) (s : State) : State :=
  { s with
    eng := { s.eng with streams := s.eng.streams.filter fun x => x.pool ≠ j.pool, running := some (.stream j false) }
    keys := { s.keys with lru := (j.keySlot.map fun k => mostRecent k s.keys.lru).getD s.keys.lru } }

/-- An UNWRAP or CHECK job starts. -/
def startOther (j : OtherJob) (rest : List OtherJob) (s : State) : State :=
  { s with eng := { s.eng with others := rest, running := some (.other j) } }

/-- The arbiter's choice while no job is running: the SETUP queued longest, else the first eligible STREAM job, else the UNWRAP or CHECK queued
longest (R133). -/
def startNext (s : State) : State :=
  match s.eng.setups with
  | j :: rest => startSetup j rest s
  | [] =>
    match nextStream s with
    | some j => startStream j s
    | none =>
      match s.eng.others with
      | j :: rest => startOther j rest s
      | [] => s

/-- The engine arbiter's turn (R133). -/
def startJob (s : State) : State :=
  if s.eng.running.isSome then s else startNext s

/-! ### SETUP and STREAM -/

/-- A SETUP completes: the slot is READY with its context's key; evictable, it serves the key-wait list; and a close that waited for the job
completes (R134, R94; log 10). -/
def finishSetup (j : SetupJob) (s : State) : State :=
  let s := updateSlot j.slot (fun x => { x with phase := .ready (ctxOf s j.ctx).key }) s
  let s := if evictable (s.keys.slots.get j.slot) then serveSlot j.slot s else s
  tryClose j.ctx s

/-- SETUP completion; a result to be discarded changes nothing (R134, R140). -/
def setupEvent (s : State) : State :=
  match s.eng.running with
  | some (.setup j discard) => if discard then endRunning s else finishSetup j (endRunning s)
  | _ => s

/-- A pool slot in ASSIGNED takes a phase; any other is left as it is (R148). -/
def putPhase (p : PoolNo) (phase : PoolPhase) (s : State) : State :=
  match s.pool.slots.get p with
  | some x =>
    if x.phase = .assigned then { s with pool := { s.pool with slots := s.pool.slots.set p (some { x with phase := phase }) } }
    else s
  | none => s

/-- The keystream of a STREAM job: its context's serial and the pool slot's lap and logical sector under the working key of the key slot (R135, R56,
R57). A job runs only with its key slot READY (R133). -/
def jobKeystream (s : State) (j : StreamJob) : Option Sector :=
  (workingKeyOf s j).map fun key => keystream key (ctxOf s j.ctx).serial j.lap j.logical

/-- A STREAM job completes without a parity failure: its pool slot becomes READY and may be settled at once, then the key slot's users fall
by 1 (R135, R148, R149). -/
def finishStream (j : StreamJob) (s : State) : State :=
  match jobKeystream s j with
  | none => dropUserOf j.keySlot s
  | some k => dropUserOf j.keySlot (settleHeads (putPhase j.pool (.ready k) s))

/-- STREAM completion; a result to be discarded only lowers the users (R135, R148). -/
def streamEvent (s : State) : State :=
  match s.eng.running with
  | some (.stream j discard) =>
    run (if discard then dropUserOf j.keySlot (endRunning s) else finishStream j (endRunning s))
  | _ => s

/-! ### Parity failures -/

/-- The failing slot returns to SETUP; a job whose slot is no longer its context's changes none (log 21). -/
def failSlot (k : Option KeyNo) (s : State) : State :=
  match k with
  | none => s
  | some k => returnToSetup k s

/-- The users of a failing slot fall by 1; it goes to SETUP, so it serves no waiting context (R138; log 25). -/
def failUser (k : Option KeyNo) (s : State) : State :=
  match k with
  | none => s
  | some k => updateSlot k (fun x => { x with users := x.users - 1 }) s

/-- The stopped job is marked retried and requeued; it keeps its pool slot and stays a user of its key slot (R137 step 3). It joins
the tail of the list, whose retried jobs the arbiter takes ahead of the others: that is the head of the STREAM jobs in the order of R133 (log 33). -/
def requeue (j : StreamJob) (s : State) : State :=
  { s with eng := { s.eng with streams := s.eng.streams ++ [{ j with retried := true }] } }

/-- A first parity failure: slot k returns to SETUP, the job is requeued as retried, KEY_PARITY is raised; a job due for discard is not requeued and its
users fall (R137, R138). -/
def firstFailure (j : StreamJob) (discard : Bool) (s : State) : State :=
  raiseFault .keyParity
    (if discard then failSlot j.keySlot (failUser j.keySlot s) else requeue j (failSlot j.keySlot s))

/-- A second parity failure: the pool slot becomes FAULTED and may be settled at once, the users fall, slot k returns to SETUP and TRANSFORM is raised; a job
due for discard marks no pool slot (R138, R148). -/
def secondFailure (j : StreamJob) (discard : Bool) (s : State) : State :=
  let s := if discard then s else settleHeads (putPhase j.pool .faulted s)
  raiseFault .transform (failSlot j.keySlot (failUser j.keySlot s))

/-- The parity check fails on the key slot of the running STREAM job (R137, R138). -/
def parityEvent (s : State) : State :=
  match s.eng.running with
  | some (.stream j discard) =>
    run (if j.retried then secondFailure j discard (endRunning s) else firstFailure j discard (endRunning s))
  | _ => s

/-! ### UNWRAP -/

/-- The low 32 bits of a serial (spec/05 5.2). -/
def serialLow (x : Context) : Nat :=
  x.serial.toNat % 4294967296

/-- The state an opening gives a loaded context (R85). -/
def openedState : Opening → CtxState
  | .record => .recording
  | .playback => .sealed

/-- E at the unwrap completion: a TIMED context's effective expiry with T0 absent (R85, R62). -/
def loadedExpiry (x : Context) : Option Nat :=
  if x.cls = .timed then effectiveExpiry x.notAfter x.window none else none

/-- A loaded context's record (R85 steps 1 to 3). -/
def loadedContext (key : Block) (x : Context) : Context :=
  { x with key := key, expiry := loadedExpiry x, state := openedState x.opening }

/-- The check gives a match: the context is loaded (R85). -/
def acceptBlob (c : CtxSlot) (b : Blob) (s : State) : State :=
  let s := updateCtx c (loadedContext (unwrapKey b)) s
  let s := if (ctxOf s c).cls = .timed ∧ (ctxOf s c).expiry.isSome then recomputeCompare s else s
  queueNotice .contextReady (some c) none none (serialLow (ctxOf s c)) s

/-- The check gives a mismatch: the load is rejected (R86). -/
def rejectBlob (c : CtxSlot) (s : State) : State :=
  queueNotice .keyRejected (some c) none none (serialLow (ctxOf s c)) (setCtx c .blank s)

/-- An UNWRAP job completes: acted on while its slot is LOADING; a context that has left LOADING discards the result, and its close may complete (R84
to R86, R92, R94). -/
def finishUnwrap (c : CtxSlot) (b : Blob) (s : State) : State :=
  if (ctxOf s c).state = .loading then
    if blobCheck b = b.check then acceptBlob c b s else rejectBlob c s
  else tryClose c s

/-- UNWRAP completion (R136). -/
def unwrapEvent (s : State) : State :=
  match s.eng.running with
  | some (.other (.unwrap c b)) => finishUnwrap c b (endRunning s)
  | _ => s

/-! ### CHECK -/

/-- A receipt CHECK completes: a PENDING receipt becomes READY, a receipt no longer PENDING discards the value, and a close may complete (R96, R94). -/
def finishReceipt (c : CtxSlot) (v : Block) (s : State) : State :=
  tryClose c
    (if (ctxOf s c).receipt = .pending then updateCtx c (fun x => { x with receipt := .ready v }) s else s)

/-- Receipt CHECK completion (R136). -/
def receiptEvent (s : State) : State :=
  match s.eng.running with
  | some (.other (.receipt c serial t0 e)) => finishReceipt c (receiptCheck serial t0 e) (endRunning s)
  | _ => s

/-- Rights time set to a token's time, with its notice (R163). -/
def setTime (t : Nat) (s : State) : State :=
  queueNotice .timeSet none none none t { s with time := { s.time with rightsSet := true, rights := t } }

/-- A matching token's time against rights time while SET: set forward, held within 300 seconds behind, else refused ROLLBACK (R163). -/
def moveTime (t : Nat) (s : State) : State :=
  if s.time.rights ≤ t then setTime t s
  else if s.time.rights - t ≤ 300 then queueNotice .timeHeld none none none (s.time.rights - t) s
  else queueNotice .timeRefused none none (some .rollback) t s

/-- The action of R163 on a token, with its notice. -/
def judgeToken (time : BitVec 32) (check : Block) (s : State) : State :=
  if tokenCheck time ≠ check then queueNotice .timeRefused none none (some .check) time.toNat s
  else if s.time.rightsSet then moveTime time.toNat s
  else setTime time.toNat s

/-- A time-token CHECK completes: the token is no longer pending, R163 acts, and while SET the expiry comparison is made (R163, R167). -/
def finishToken (time : BitVec 32) (check : Block) (s : State) : State :=
  expiryComparison (judgeToken time check { s with time := { s.time with token := none } })

/-- Time-token CHECK completion (R136). -/
def tokenEvent (s : State) : State :=
  match s.eng.running with
  | some (.other (.token time check)) => finishToken time check (endRunning s)
  | _ => s

end Sys2Proof.Machine
end

