-- ==== Sys2Proof/Machine/EngineCommands.lean ====
section
/-!
DEFINITION. The meanings of the rows of the Transform Engine: its arbiter and the ends of its jobs.
-/

namespace Sys2Proof.Machine

open Sys2Proof

/-- ENGINE_JOB_START: the engine arbiter's turn (R133). -/
def execEngineJobStart (s : State) : Host.Outcome State Fault Refusal :=
  .next (startJob s)

/-- SETUP_COMPLETE: the running SETUP job completes (R134). -/
def execSetupComplete (s : State) : Host.Outcome State Fault Refusal :=
  .next (setupEvent s)

/-- STREAM_COMPLETE: the running STREAM job completes without a parity failure (R135, R148). -/
def execStreamComplete (s : State) : Host.Outcome State Fault Refusal :=
  .next (streamEvent s)

/-- PARITY_FAILURE: the parity check fails on the running STREAM job (R137, R138). -/
def execParityFailure (s : State) : Host.Outcome State Fault Refusal :=
  .next (parityEvent s)

/-- UNWRAP_COMPLETE: the running UNWRAP job completes (R84 to R86). -/
def execUnwrapComplete (s : State) : Host.Outcome State Fault Refusal :=
  .next (unwrapEvent s)

/-- RECEIPT_CHECK_COMPLETE: the running receipt CHECK job completes (R96). -/
def execReceiptCheckComplete (s : State) : Host.Outcome State Fault Refusal :=
  .next (receiptEvent s)

/-- TIME_TOKEN_CHECK_COMPLETE: the running time-token CHECK job completes (R163). -/
def execTimeTokenCheckComplete (s : State) : Host.Outcome State Fault Refusal :=
  .next (tokenEvent s)

end Sys2Proof.Machine
end

