-- ==== Sys2Proof/Machine/FrameCommands.lean ====
section
/-!
DEFINITION. The meanings of the rows that are frames of the two links, and of the transmit arbiter.
-/

namespace Sys2Proof.Machine

open Sys2Proof

/-- READ: a COMMAND frame with its operation code arrives from the controller (R22). -/
def execRead (lba : BitVec 48) (count : BitVec 16) (byte10 : Byte) (rest : BitVec 72) (s : State) : Host.Outcome State Fault Refusal :=
  .next (arriveUp (.command { op := 0x2A#8, lba := lba, count := count, byte10 := byte10, rest := rest }) s)

/-- WRITE: a COMMAND frame with its operation code arrives from the controller (R22). -/
def execWrite (lba : BitVec 48) (count : BitVec 16) (byte10 : Byte) (rest : BitVec 72) (s : State) : Host.Outcome State Fault Refusal :=
  .next (arriveUp (.command { op := 0x3A#8, lba := lba, count := count, byte10 := byte10, rest := rest }) s)

/-- QREAD: a COMMAND frame with its operation code arrives from the controller (R21). -/
def execQread (lba : BitVec 48) (count : BitVec 16) (byte10 : Byte) (rest : BitVec 72) (s : State) : Host.Outcome State Fault Refusal :=
  .next (arriveUp (.command { op := 0x6A#8, lba := lba, count := count, byte10 := byte10, rest := rest }) s)

/-- QWRITE: a COMMAND frame with its operation code arrives from the controller (R21). -/
def execQwrite (lba : BitVec 48) (count : BitVec 16) (byte10 : Byte) (rest : BitVec 72) (s : State) : Host.Outcome State Fault Refusal :=
  .next (arriveUp (.command { op := 0x6B#8, lba := lba, count := count, byte10 := byte10, rest := rest }) s)

/-- OTHER: a COMMAND frame of any other operation code arrives from the controller (R22, R3). -/
def execOther (op : Byte) (lba : BitVec 48) (count : BitVec 16) (byte10 : Byte) (rest : BitVec 72) (s : State) : Host.Outcome State Fault Refusal :=
  .next (arriveUp (.command { op := op, lba := lba, count := count, byte10 := byte10, rest := rest }) s)

/-- BRIDGE: a COMMAND frame with the reserved operation code arrives from the controller (R23, R171). -/
def execBridge (lba : BitVec 48) (count : BitVec 16) (byte10 : Byte) (rest : BitVec 72) (s : State) : Host.Outcome State Fault Refusal :=
  .next (arriveUp (.command { op := 0xFC#8, lba := lba, count := count, byte10 := byte10, rest := rest }) s)

/-- UNEXPECTED_FRAME: a frame arrives that its port does not take; it is discarded and PROTOCOL raised (R2). -/
def execUnexpectedFrame (port : Port) (f : Frame) (s : State) : Host.Outcome State Fault Refusal :=
  .next
    (match port with
      | .upstream => arriveUp f s
      | .drive => arriveDrive f s)

/-- DATA_FROM_CONTROLLER: a DATA frame arrives from the controller (R6, R10, R11). -/
def execDataFromController (bytes23 : BitVec 16) (sectors : List Sector) (s : State) : Host.Outcome State Fault Refusal :=
  .next (arriveUp (.data { bytes23 := bytes23, sectors := sectors }) s)

/-- READY_FROM_DRIVE: a READY arrives from the drive (R4, R12, R13). -/
def execReadyFromDrive (r : ReadyFrame) (s : State) : Host.Outcome State Fault Refusal :=
  .next (arriveDrive (.ready r) s)

/-- DATA_FROM_DRIVE: a DATA frame arrives from the drive (R6, R10, R11). -/
def execDataFromDrive (bytes23 : BitVec 16) (sectors : List Sector) (s : State) : Host.Outcome State Fault Refusal :=
  .next (arriveDrive (.data { bytes23 := bytes23, sectors := sectors }) s)

/-- STATUS_FROM_DRIVE: a STATUS arrives from the drive (R16, R30, R34). -/
def execStatusFromDrive (outcome : Byte) (detail : Byte) (s : State) : Host.Outcome State Fault Refusal :=
  .next (arriveDrive (.status { outcome := outcome, detail := detail }) s)

/-- DONE_FROM_DRIVE: a DONE arrives from the drive (R14, R35, R36). -/
def execDoneFromDrive (d : DoneFrame) (s : State) : Host.Outcome State Fault Refusal :=
  .next (arriveDrive (.done d) s)

/-- SEND_UPSTREAM_FRAME: the transmit arbiter's turn (R8). -/
def execSendUpstreamFrame (s : State) : Host.Outcome State Fault Refusal :=
  .next (transmit s)

end Sys2Proof.Machine
end

