-- ==== Sys2Proof/Machine/RequestCommands.lean ====
section
/-!
DEFINITION. The meanings of the bridge requests: each row is the arrival of the request block that carries it.
-/

namespace Sys2Proof.Machine

open Sys2Proof

/-- LOAD_CONTEXT: the request block that carries it arrives (R82, R83; log 6). -/
def execLoadContext (slot : Byte) (blob : Blob) (s : State) : Host.Outcome State Fault Refusal :=
  .next (arriveRequest (.loadContext slot blob) s)

/-- SEAL_CONTEXT: the request block that carries it arrives (R88; log 6). -/
def execSealContext (slot : Byte) (s : State) : Host.Outcome State Fault Refusal :=
  .next (arriveRequest (.sealContext slot) s)

/-- CLOSE_CONTEXT: the request block that carries it arrives (R92, R94; log 6). -/
def execCloseContext (slot : Byte) (s : State) : Host.Outcome State Fault Refusal :=
  .next (arriveRequest (.closeContext slot) s)

/-- READ_CONTEXT: the request block that carries it arrives (R95; log 6). -/
def execReadContext (slot : Byte) (s : State) : Host.Outcome State Fault Refusal :=
  .next (arriveRequest (.readContext slot) s)

/-- READ_RECEIPT: the request block that carries it arrives (R97; log 6). -/
def execReadReceipt (slot : Byte) (s : State) : Host.Outcome State Fault Refusal :=
  .next (arriveRequest (.readReceipt slot) s)

/-- CLEAR_UNIT: the request block that carries it arrives (R98, R99; log 6). -/
def execClearUnit (s : State) : Host.Outcome State Fault Refusal :=
  .next (arriveRequest .clearUnit s)

/-- ADD_REGION: the request block that carries it arrives (R66 to R73; log 6). -/
def execAddRegion (p : RegionParams) (s : State) : Host.Outcome State Fault Refusal :=
  .next (arriveRequest (.addRegion p) s)

/-- REMOVE_REGION: the request block that carries it arrives (R74, R75; log 6). -/
def execRemoveRegion (entry : Byte) (s : State) : Host.Outcome State Fault Refusal :=
  .next (arriveRequest (.removeRegion entry) s)

/-- READ_REGIONS: the request block that carries it arrives (R76; log 6). -/
def execReadRegions (start : Byte) (s : State) : Host.Outcome State Fault Refusal :=
  .next (arriveRequest (.readRegions start) s)

/-- SET_SHIFT_DEPTH: the request block that carries it arrives (R118; log 6). -/
def execSetShiftDepth (slot : Byte) (depth : BitVec 32) (s : State) : Host.Outcome State Fault Refusal :=
  .next (arriveRequest (.setShiftDepth slot depth) s)

/-- PIN_KEY: the request block that carries it arrives (R131; log 6). -/
def execPinKey (slot : Byte) (s : State) : Host.Outcome State Fault Refusal :=
  .next (arriveRequest (.pinKey slot) s)

/-- UNPIN_KEY: the request block that carries it arrives (R132; log 6). -/
def execUnpinKey (slot : Byte) (s : State) : Host.Outcome State Fault Refusal :=
  .next (arriveRequest (.unpinKey slot) s)

/-- SET_RIGHTS_TIME: the request block that carries it arrives (R162; log 6). -/
def execSetRightsTime (time : BitVec 32) (check : Block) (s : State) : Host.Outcome State Fault Refusal :=
  .next (arriveRequest (.setRightsTime time check) s)

/-- WRITE_SETTINGS: the request block that carries it arrives (R176 to R178; log 6). -/
def execWriteSettings (p : SettingsParams) (s : State) : Host.Outcome State Fault Refusal :=
  .next (arriveRequest (.writeSettings p) s)

/-- LOCK_SETTINGS: the request block that carries it arrives (R179; log 6). -/
def execLockSettings (s : State) : Host.Outcome State Fault Refusal :=
  .next (arriveRequest .lockSettings s)

/-- READ_STATUS: the request block that carries it arrives (R180; log 6). -/
def execReadStatus (s : State) : Host.Outcome State Fault Refusal :=
  .next (arriveRequest .readStatus s)

/-- DRAIN: the request block that carries it arrives (R181; log 6). -/
def execDrain (s : State) : Host.Outcome State Fault Refusal :=
  .next (arriveRequest .drain s)

/-- READ_NOTICES: the request block that carries it arrives (R187; log 6). -/
def execReadNotices (s : State) : Host.Outcome State Fault Refusal :=
  .next (arriveRequest .readNotices s)

/-- READ_HISTORY: the request block that carries it arrives (R27; log 6). -/
def execReadHistory (s : State) : Host.Outcome State Fault Refusal :=
  .next (arriveRequest .readHistory s)

/-- CLEAR_FAULTS: the request block that carries it arrives (R191; log 6). -/
def execClearFaults (set : Byte) (s : State) : Host.Outcome State Fault Refusal :=
  .next (arriveRequest (.clearFaults set) s)

/-- UNKNOWN_REQUEST_CODE: a request block arrives whose code names no request; it is refused MALFORMED (R172; log 6). -/
def execUnknownRequestCode (block : Sector) (s : State) : Host.Outcome State Fault Refusal :=
  .next (arriveUp (.data { bytes23 := 0#16, sectors := [block] }) s)

end Sys2Proof.Machine
end

