-- ==== Sys2Proof/Machine/Events.lean ====
section
/-!
DEFINITION. The events of the unit as a whole: power-on (R195), the link events (R1, R15 to R18), with the ends of the entries they bring (R39, R40).
-/

namespace Sys2Proof.Machine

open Sys2Proof

/-! ### Power-on and the upstream link -/

/-- Power is applied: every block takes its power-on state. The queue of commands, the two records of what was sent and the counter of free values are
the model's own and are kept (R195, R19, R64, R78, R127, R142, R158, R175; log 11). -/
def powerOnEvent (s : State) : State :=
  { State.reset with
    up := { State.reset.up with sent := s.up.sent }
    drv := { State.reset.drv with sent := s.drv.sent }
    choices := s.choices
    pending := s.pending }

/-- Upstream link up (R1). -/
def upstreamUpEvent (s : State) : State :=
  { s with up := { s.up with link := .up } }

/-- The Upstream Port after a link reset: only the record of what was sent is kept (R15). -/
def resetUpstream (u : Upstream) : Upstream :=
  { Upstream.reset with sent := u.sent }

/-- The Drive Port at a link reset with the drive link UP: a reset is sent, bursts and held frames go, and the reset state becomes AWAIT_RELAY (R15). -/
def resetDrive (d : DrivePort) : DrivePort :=
  if d.link = .up then
    { d with burst := none, discard := none, held := [], resetState := .awaitRelay, sent := d.sent ++ [.reset] }
  else d

/-- The entries in use end one after another, queued ones in ascending tag order, with no outcome report (R39, R40). -/
def endQueued (s : State) : State :=
  ((List.finRange 32).map Owner.tag).foldl (fun s o => endEntry o none s) s

/-- The acceptance list is emptied, and no command waits to be sent (R39, R40). -/
def clearAccepts (s : State) : State :=
  { s with trk := { s.trk with accepts := [], released := [] } }

/-- Link reset: the notice LINK_RESET with the entries in use, the effects of R15 at the ports, every pool slot freed, every entry ended, the rings
rewound and the reset cause recorded (R15, R39, R157, R194). -/
def linkResetEvent (s : State) : State :=
  let s := queueNotice .linkReset none none none (entriesInUse s) s
  let s := { s with up := resetUpstream s.up, drv := resetDrive s.drv, faults := { s.faults with cause := .linkReset } }
  let s := endEntry .single none (endQueued (freeAllSlots s))
  let s := clearAccepts s
  rewindRings { s with req := { s.req with reply := none } }

/-! ### The drive link -/

/-- Drive link up: the reset state becomes AWAIT_LOCAL (R18). -/
def driveUpEvent (s : State) : State :=
  run { s with drv := { s.drv with link := .up, resetState := .awaitLocal } }

/-- Whether an item of the send list is the relayed READY of an owner's burst. -/
def isReadyOf (o : Owner) (i : SendItem) : Bool :=
  match i.frame with
  | .ready _ => i.relayed && i.owner = some o
  | _ => false

/-- The open burst of a lost drive goes: its READY leaves the send list if it is still there, else its upstream side closes; the Pool frees the slots of the
sectors that will not pass (R17, R157). -/
def loseBurst (s : State) : State :=
  match s.drv.burst with
  | none => s
  | some b =>
    let s := freeSlotsOf b.owner (dropPoolBurst { s with drv := { s.drv with burst := none } })
    if s.up.sendList.any (isReadyOf b.owner) then
      { s with up := { s.up with sendList := s.up.sendList.filter fun i => !isReadyOf b.owner i } }
    else closeUpstreamSide b s

/-- The Drive Port at drive link lost (R17). -/
def lostDrive (d : DrivePort) : DrivePort :=
  { d with link := .down, burst := none, discard := none, held := [], resetState := .none }

/-- The tags of queued entries in use whose acceptance the controller has not received, in the order of their acceptance records (R40). -/
def unansweredTags (s : State) : List Tag :=
  (s.trk.accepts.map (·.tag)).filter fun t => (s.trk.queued.get t).any fun e => !e.answered

/-- The tags of the other queued entries in use, in ascending order (R40). -/
def answeredTags (s : State) : List Tag :=
  (tagsInUse s).filter fun t => (s.trk.queued.get t).any fun e => e.answered

/-- Whether the single slot holds a READ, WRITE or OTHER (R40). -/
def singleTransfer (s : State) : Bool :=
  s.trk.single.any fun e => e.kind ≠ .bridge

/-- The answers to the commands that a lost drive ends, in the order of R40. -/
def lossAnswers (s : State) : List Frame :=
  (unansweredTags s).map (fun _ => errorFrame .driveLost)
    ++ (if singleTransfer s then [errorFrame .driveLost] else [])
    ++ (if (answeredTags s).isEmpty then [] else [failingDone ((answeredTags s).map fun t => (t, codeByte .driveLost))])

/-- The number of entries that a lost drive ends (R194). -/
def lossCount (s : State) : Nat :=
  (tagsInUse s).length + if singleTransfer s then 1 else 0

/-- Every entry but a bridge ends at drive link lost (R40). -/
def endLost (s : State) : State :=
  if singleTransfer s then endEntry .single none (endQueued s) else endQueued s

/-- Drive link lost: the drive port's burst goes, every entry but a bridge ends and is answered DRIVE_LOST, then the notice, the fault and the rewind of the
rings; frames held for the reset state are taken (R17, R40, R194, R16). -/
def driveLostEvent (s : State) : State :=
  let answers := lossAnswers s
  let n := lossCount s
  let s := loseBurst s
  let s := { s with drv := lostDrive s.drv }
  let s := clearAccepts (endLost s)
  let s := answers.foldl (fun s f => placePart f s) s
  let s := queueNotice .driveLost none none none n s
  run (rewindRings (raiseFault .driveLost s))

end Sys2Proof.Machine
end

