-- ==== Sys2Proof/Machine/UnitCommands.lean ====
section
/-!
DEFINITION. The meanings of the rows that act on the unit and its links: power-on, the link events and the tick.
-/

namespace Sys2Proof.Machine

open Sys2Proof

/-- POWER_ON: every block takes its power-on state (R195). -/
def execPowerOn (s : State) : Host.Outcome State Fault Refusal :=
  .next (powerOnEvent s)

/-- UPSTREAM_LINK_UP: the upstream port's link state becomes UP (R1). -/
def execUpstreamLinkUp (s : State) : Host.Outcome State Fault Refusal :=
  .next (upstreamUpEvent s)

/-- LINK_RESET: a reset or loss of the upstream link is carried through the part (R15, R39). -/
def execLinkReset (s : State) : Host.Outcome State Fault Refusal :=
  .next (linkResetEvent s)

/-- DRIVE_LINK_UP: the drive link is UP and the reset state AWAIT_LOCAL (R18). -/
def execDriveLinkUp (s : State) : Host.Outcome State Fault Refusal :=
  .next (driveUpEvent s)

/-- DRIVE_LINK_LOST: the drive is gone and every entry but a bridge ends (R17, R40). -/
def execDriveLinkLost (s : State) : Host.Outcome State Fault Refusal :=
  .next (driveLostEvent s)

/-- TICK: the divide count reaches the tick divider (R159 to R161, R167). -/
def execTick (s : State) : Host.Outcome State Fault Refusal :=
  .next (tickEvent s)

end Sys2Proof.Machine
end

