-- ==== Sys2Proof/Machine/Dispatch.lean ====
section
/-!
DEFINITION. The meaning of every command: one arm for each row of spec/opcode_table.json.
-/

namespace Sys2Proof.Machine

open Sys2Proof

/-- A command's effect on everything but the queue. -/
def exec (i : Instr) (s : State) : Host.Outcome State Fault Refusal :=
  match i with
  | .powerOn => Sys2Proof.Machine.execPowerOn s
  | .upstreamLinkUp => Sys2Proof.Machine.execUpstreamLinkUp s
  | .linkReset => Sys2Proof.Machine.execLinkReset s
  | .driveLinkUp => Sys2Proof.Machine.execDriveLinkUp s
  | .driveLinkLost => Sys2Proof.Machine.execDriveLinkLost s
  | .tick => Sys2Proof.Machine.execTick s
  | .read lba count byte10 rest => Sys2Proof.Machine.execRead lba count byte10 rest s
  | .write lba count byte10 rest => Sys2Proof.Machine.execWrite lba count byte10 rest s
  | .qread lba count byte10 rest => Sys2Proof.Machine.execQread lba count byte10 rest s
  | .qwrite lba count byte10 rest => Sys2Proof.Machine.execQwrite lba count byte10 rest s
  | .other op lba count byte10 rest => Sys2Proof.Machine.execOther op lba count byte10 rest s
  | .bridge lba count byte10 rest => Sys2Proof.Machine.execBridge lba count byte10 rest s
  | .unexpectedFrame port f => Sys2Proof.Machine.execUnexpectedFrame port f s
  | .dataFromController bytes23 sectors => Sys2Proof.Machine.execDataFromController bytes23 sectors s
  | .readyFromDrive r => Sys2Proof.Machine.execReadyFromDrive r s
  | .dataFromDrive bytes23 sectors => Sys2Proof.Machine.execDataFromDrive bytes23 sectors s
  | .statusFromDrive outcome detail => Sys2Proof.Machine.execStatusFromDrive outcome detail s
  | .doneFromDrive d => Sys2Proof.Machine.execDoneFromDrive d s
  | .sendUpstreamFrame => Sys2Proof.Machine.execSendUpstreamFrame s
  | .engineJobStart => Sys2Proof.Machine.execEngineJobStart s
  | .setupComplete => Sys2Proof.Machine.execSetupComplete s
  | .streamComplete => Sys2Proof.Machine.execStreamComplete s
  | .parityFailure => Sys2Proof.Machine.execParityFailure s
  | .unwrapComplete => Sys2Proof.Machine.execUnwrapComplete s
  | .receiptCheckComplete => Sys2Proof.Machine.execReceiptCheckComplete s
  | .timeTokenCheckComplete => Sys2Proof.Machine.execTimeTokenCheckComplete s
  | .loadContext slot blob => Sys2Proof.Machine.execLoadContext slot blob s
  | .sealContext slot => Sys2Proof.Machine.execSealContext slot s
  | .closeContext slot => Sys2Proof.Machine.execCloseContext slot s
  | .readContext slot => Sys2Proof.Machine.execReadContext slot s
  | .readReceipt slot => Sys2Proof.Machine.execReadReceipt slot s
  | .clearUnit => Sys2Proof.Machine.execClearUnit s
  | .addRegion p => Sys2Proof.Machine.execAddRegion p s
  | .removeRegion entry => Sys2Proof.Machine.execRemoveRegion entry s
  | .readRegions start => Sys2Proof.Machine.execReadRegions start s
  | .setShiftDepth slot depth => Sys2Proof.Machine.execSetShiftDepth slot depth s
  | .pinKey slot => Sys2Proof.Machine.execPinKey slot s
  | .unpinKey slot => Sys2Proof.Machine.execUnpinKey slot s
  | .setRightsTime time check => Sys2Proof.Machine.execSetRightsTime time check s
  | .writeSettings p => Sys2Proof.Machine.execWriteSettings p s
  | .lockSettings => Sys2Proof.Machine.execLockSettings s
  | .readStatus => Sys2Proof.Machine.execReadStatus s
  | .drain => Sys2Proof.Machine.execDrain s
  | .readNotices => Sys2Proof.Machine.execReadNotices s
  | .readHistory => Sys2Proof.Machine.execReadHistory s
  | .clearFaults set => Sys2Proof.Machine.execClearFaults set s
  | .unknownRequestCode block => Sys2Proof.Machine.execUnknownRequestCode block s

end Sys2Proof.Machine
end

