-- ==== Sys2Proof/Safety.lean ====
section
/-!
DEFINITION. What counts as a safe state: the laws that the blocks of the part keep (R19, R37, R53, R62, R68, R70, R101, R102, R127, R130, R142, R161, R166,
R185, R188), and the plain situations that statements about one command start from.
-/

namespace Sys2Proof.Machine

open Sys2Proof

/-! ### Situations -/

/-- No frame stands on either link: the next frame to arrive is taken at once, if its port can take it. -/
def Quiet (s : State) : Prop :=
  s.up.held = [] ∧ s.drv.held = []

/-- The bridge command's request burst is open and nothing else waits: the next DATA frame from the controller is the request block (R171). -/
def AwaitsBlock (s : State) : Prop :=
  s.up.link = .up ∧ Quiet s ∧ s.up.inBurst = some { owner := .single, left := 1, bridge := true }

/-- The controller's next frame is taken and transfer commands pass: links up, no reset in progress, no frame standing (R16, R21, R22). -/
def TakesCommands (s : State) : Prop :=
  s.up.link = .up ∧ s.drv.link = .up ∧ s.drv.resetState = .none ∧ Quiet s

/-- The drive's next frame is taken in the ordinary way: link up, no reset in progress, the last frame taken is no longer on the send list (R9, R16). -/
def TakesDrive (s : State) : Prop :=
  s.drv.link = .up ∧ s.drv.resetState = .none ∧ relayPending s = false ∧ Quiet s

/-- A frame the part itself places on the send list, belonging to no burst (spec/01 1.4). -/
def fromPart (f : Frame) : SendItem :=
  { frame := f, owner := none, relayed := false }

/-- A completion of the drive as it joins the send list (spec/01 1.4). -/
def fromDrive (f : Frame) : SendItem :=
  { frame := f, owner := none, relayed := true }

/-- The state with frames added at the tail of the send list. -/
def listed (l : List SendItem) (s : State) : State :=
  { s with up := { s.up with sendList := s.up.sendList ++ l } }

/-- The state with frames added to what has been sent to the drive. -/
def sentDown (l : List DownFrame) (s : State) : State :=
  { s with drv := { s.drv with sent := s.drv.sent ++ l } }

/-- A STATUS frame of an outcome and a detail (12.1). -/
def statusOf (outcome detail : Byte) : Frame :=
  .status { outcome := outcome, detail := detail }

/-- The frames that answer a refused queued command: STATUS ACCEPTED, then DONE failing its tag with the code (R25). -/
def queuedRefusal (t : Tag) (code : Code) : List SendItem :=
  [fromPart (statusOf 0#8 0#8),
    fromPart (.done { flags := 0#8, byte3 := 0#8, doneSet := 0#32, failed := [(BitVec.ofNat 8 t, codeByte code)] })]

/-- The history record of a refused transfer command (R26). -/
def recordOf (c : CommandFrame) (tag : Option Tag) (code : Code) (s : State) : HistoryRecord :=
  { kind := cmdKind c, tag := tag, lba := c.lba, count := cmdCount c, code := code, stamp := s.time.mono }

/-- A refused transfer command recorded: at most 8 records are kept, the oldest lost first (R26). -/
def recorded (c : CommandFrame) (tag : Option Tag) (code : Code) (s : State) : State :=
  { s with
    trk :=
      { s.trk with
        history := (s.trk.history ++ [recordOf c tag code s]).drop (s.trk.history.length - 7) } }

/-- Every sector of a command has the property, given by its LBA (R46). -/
def EverySector (c : CommandFrame) (P : Nat → Prop) : Prop :=
  ∀ k, k < cmdCount c → P (cmdLba c + k)

/-- An entry as admission leaves it, with no hold reason and nothing counted (R24). -/
def freshEntry (state : EntryState) (kind : CmdKind) (c : CommandFrame) (plan : List Run) (touched : List CtxSlot) : Entry :=
  { state := state, kind := kind, cmd := c, plan := plan, touched := touched, ringWrite := none, queueWait := false,
    ringWindow := false, answered := false, openBurst := none, passed := 0, partFailed := none, withheld := 0,
    firstReason := none, firstCtx := none }

/-- The plan of one run over all of a command's sectors (R47). -/
def onePlan (c : CommandFrame) (v : Verdict) : List Run :=
  [{ first := 0, count := cmdCount c, verdict := v }]

/-- The READY of the part for a bridge command: no tag, offset 0, count 1; direction to upstream when the flags byte is 1 (R171, R173). -/
def bridgeReadyFrame (flags : Byte) : SendItem :=
  { frame := .ready { flags := flags, tag := 0#8, byte3 := 0#8, offset := 0#16, count := 1#16 }, owner := some .single,
    relayed := false }

/-- A request has been answered by a STATUS: the request burst is closed, the STATUS is on the send list, and the bridge's entry has ended (R173). -/
def answered (f : Frame) (s : State) : State :=
  { s with
    up := { s.up with inBurst := none, sendList := s.up.sendList ++ [{ frame := f, owner := none, relayed := false }] }
    trk := { s.trk with single := none } }

/-- A request has a reply: the request burst is closed, the reply READY is on the send list, and the block waits for it (R173). -/
def asked (block : Sector) (s : State) : State :=
  { s with
    up := { s.up with inBurst := none, sendList := s.up.sendList ++ [bridgeReady .toUpstream] }
    req := { s.req with reply := some block } }

/-- The open burst of an owner's entry stands at the drive port and, for a write, at the upstream port, and its port takes the burst's next frame (R5, R6, R9). -/
def BurstStands (dir : Dir) (o : Owner) (b : OpenBurst) (s : State) : Prop :=
  s.drv.burst = some { owner := o, dir := dir, left := b.left } ∧
    match dir with
    | .toUpstream => s.drv.link = .up ∧ s.drv.resetState = .none ∧ relayPending s = false
    | .toDrive => s.up.link = .up ∧ s.up.inBurst = some { owner := o, left := b.left, bridge := false }

/-- The row by which a DATA frame of a burst of a direction arrives. -/
def dataRow (dir : Dir) (d : DataFrame) : Instr :=
  match dir with
  | .toUpstream => .dataFromDrive d.bytes23 d.sectors
  | .toDrive => .dataFromController d.bytes23 d.sectors

/-- The frames that stand on the link from which the DATA of a direction comes (R9). -/
def standing (dir : Dir) (s : State) : List Frame :=
  match dir with
  | .toUpstream => s.drv.held
  | .toDrive => s.up.held

/-- A DATA frame of an owner's burst has passed on with the sectors given: onto the send list, or down to the drive (R6). -/
def PassedOn (dir : Dir) (o : Owner) (d : DataFrame) (out : List Sector) (s t : State) : Prop :=
  match dir with
  | .toUpstream =>
    t.up.sendList = s.up.sendList ++ [{ frame := .data { d with sectors := out }, owner := some o, relayed := true }] ∧
      t.drv.sent = s.drv.sent
  | .toDrive => t.drv.sent = s.drv.sent ++ [.data { d with sectors := out }] ∧ t.up.sendList = s.up.sendList

/-- What a sector inside its command becomes, under its verdict and the keystream it is settled with, none for zeros (R150). -/
def sectorSent (e : Entry) (key : Nat → Option Sector) (off : Nat) (w : Sector) : Sector :=
  match verdictAt e.plan off with
  | some .clear => w
  | some (.deliver _ _ _) | some (.encipher _ _ _) =>
    match key off with
    | some k => w ^^^ k
    | none => 0
  | some (.withheld _ _ _) | none => 0

/-- What an allocation leaves of a burst's sectors that wait for slots (R145): the lowest of them have the lowest-numbered slots that were FREE, as many as the
command may hold up to the limit, each ASSIGNED with a STREAM job of its own; the others wait, and no other slot has changed. -/
def Allocated (o : Owner) (e : Entry) (waiting : List Nat) (limit : Nat) (s t : State) : Prop :=
  let free := (List.finRange 64).filter fun p => (s.pool.slots.get p).isNone
  let k := min waiting.length (min (limit - slotsHeld s o) free.length)
  t.pool.unserved = waiting.drop k ∧ t.pool.nextOrder = s.pool.nextOrder + k ∧
    (∀ p, p ∉ free.take k → t.pool.slots.get p = s.pool.slots.get p) ∧
    ∀ j p off a lap l, j < k → free[j]? = some p → waiting[j]? = some off → protectedAt e off = some (a, lap, l) →
      t.pool.slots.get p = some
        { owner := o, offset := off, ctx := a, lap := lap, logical := l, order := s.pool.nextOrder + j, phase := .assigned } ∧
      ∃ q ∈ t.eng.streams, q.pool = p ∧ q.ctx = a ∧ q.lap = lap ∧ q.logical = l ∧ q.retried = false

/-! ### Laws -/

/-- The law of the records: at most 32 notices (R185) and at most 8 history records (R26). -/
def RecordsLaw (s : State) : Prop :=
  s.nq.notices.length ≤ 32 ∧ s.trk.history.length ≤ 8

/-- The attention line is asserted exactly while lockdown holds or a notice of a kind in the attention set is held (R188). -/
def AttentionLaw (s : State) : Prop :=
  s.nq.attention = attentionDue s.req.attentionSet s.faults.lockdown s.nq.notices

/-- The settings are in their ranges (R175, R177). -/
def SettingsLaw (s : State) : Prop :=
  1 ≤ s.req.lookahead ∧ s.req.lookahead ≤ 16 ∧ 1000000 ≤ s.req.divider ∧ s.req.divider ≤ 100000000

/-- The clocks are in their ranges: the divide count below the divider, both times at most their maximum, rights time 0 while UNSET (R158, R161). -/
def ClockLaw (s : State) : Prop :=
  s.time.divideCount < s.req.divider ∧ s.time.mono ≤ maxSeconds ∧ s.time.rights ≤ maxSeconds ∧
    (s.time.rightsSet = false → s.time.rights = 0)

/-- A region's window and logical range are in their spaces (R67). -/
def RegionInRange (r : Region) : Prop :=
  r.base ≤ r.limit ∧ r.limit < lbaEnd ∧ r.logicalStart + (r.limit - r.base + 1) ≤ logicalEnd

/-- The laws of LBA uniqueness and of logical uniqueness, with every region in range (R67, R68, R70). -/
def RegionLaw (s : State) : Prop :=
  (∀ e r, regionOf s e = some r → RegionInRange r) ∧
    ∀ e f r q, e ≠ f → regionOf s e = some r → regionOf s f = some q →
      (¬∃ x, r.base ≤ x ∧ x ≤ r.limit ∧ q.base ≤ x ∧ x ≤ q.limit) ∧
        (r.ctx = q.ctx →
          ¬∃ l, r.logicalStart ≤ l ∧ l ≤ lastLogical r ∧ q.logicalStart ≤ l ∧ l ≤ lastLogical q)

/-- No two slots in a state other than EMPTY hold one serial (R82). -/
def SerialLaw (s : State) : Prop :=
  ∀ c d, c ≠ d → (ctxOf s c).state ≠ .empty → (ctxOf s d).state ≠ .empty → (ctxOf s c).serial ≠ (ctxOf s d).serial

/-- What an entry in use of an owner holds: its own tag for a queued kind, hold reasons exactly while HELD, an open burst exactly while BURST, LOCAL
exactly for a bridge (R19, R20, spec/02 2.1). -/
def EntryLegal (o : Owner) (e : Entry) : Prop :=
  e.kind = cmdKind e.cmd ∧ cmdOwner e.cmd = o ∧ (e.state = .held ↔ e.queueWait = true ∨ e.ringWindow = true) ∧
    (e.state = .burst ↔ e.openBurst.isSome = true) ∧ (e.state = .localBridge ↔ e.kind = .bridge)

/-- Every entry in use is legal; so no two entries hold the same tag (R19). -/
def EntryLaw (s : State) : Prop :=
  ∀ o e, entryOf s o = some e → EntryLegal o e

/-- The law of the span queue: at most 12 spans, at most 4 FORWARDED, and their counts sum to at most N (R102). -/
def RingLaw (s : State) : Prop :=
  ∀ c r, ringOf s c = some r → r.spans.length ≤ 12 ∧ forwardedCount r.spans ≤ 4 ∧ spanTotal r.spans ≤ r.length

/-- A span queue that starts at a point and lap and ends at another: each span starts, under its lap, where the one before it ends (R102). -/
def SpansRun (n : Nat) : List Span → Nat → Nat → Nat → Nat → Prop
  | [], c, l, i, k => i = c ∧ k = l
  | x :: rest, c, l, i, k =>
    x.first = c ∧ x.lap = l ∧ SpansRun n rest (advancePoint n c l x.count).1 (advancePoint n c l x.count).2 i k

/-- The agreement of the span queue with the two points, and of the statuses: the spans lead from the commit point to the issue point; where a span is
HELD four are FORWARDED, and no HELD span stands ahead of a FORWARDED one (R102). -/
def RingPointsLaw (s : State) : Prop :=
  ∀ c r, ringOf s c = some r →
    SpansRun r.length r.spans r.commit r.commitLap r.issue r.issueLap ∧
      ((∃ x ∈ r.spans, x.status = .held) → forwardedCount r.spans = 4) ∧
      r.spans.Pairwise fun x y => ¬(x.status = .held ∧ y.status = .forwarded)

/-- The binding of regions, contexts and rings: no region names an EMPTY or LOADING context, a SHIFT context has at most one region, and a ring exists
exactly for a SHIFT context with a region, with that region's base, length and logical start (R46, R71, R101). -/
def BindingLaw (s : State) : Prop :=
  (∀ e r, regionOf s e = some r → (ctxOf s r.ctx).state ≠ .empty ∧ (ctxOf s r.ctx).state ≠ .loading) ∧
    (∀ e f r q, e ≠ f → regionOf s e = some r → regionOf s f = some q → r.ctx = q.ctx → (ctxOf s r.ctx).cls ≠ .shift) ∧
    (∀ e r, regionOf s e = some r → (ctxOf s r.ctx).cls = .shift → (ringOf s r.ctx).isSome = true) ∧
    ∀ c g, ringOf s c = some g → (ctxOf s c).cls = .shift ∧
      ∃ e r, regionOf s e = some r ∧ r.ctx = c ∧ g.base = r.base ∧ g.length = r.limit - r.base + 1 ∧
        g.logicalStart = r.logicalStart

/-- The law of key slots: a context occupies at most one slot, and at most 7 contexts are pinned; with what it rests on: the key-wait list holds each
context once, and none that has a slot (R127, R130). -/
def KeyLaw (s : State) : Prop :=
  (∀ j k x y, j ≠ k → s.keys.slots.get j = some x → s.keys.slots.get k = some y → x.ctx ≠ y.ctx) ∧
    pinnedCount s ≤ 7 ∧ s.keys.waiting.Nodup ∧ ∀ c ∈ s.keys.waiting, slotOf s c = none

/-- What the completion of a context's close leaves (R94): its slot EMPTY and its regions, its ring and its key slot gone, the notice CLOSED with its
withheld-sector count, and everything else as it was. -/
def ClosedFrom (c : CtxSlot) (s t : State) : Prop :=
  (∀ d, ctxOf t d = if d = c then Context.blank else ctxOf s d) ∧
    (∀ e r, regionOf t e = some r ↔ regionOf s e = some r ∧ r.ctx ≠ c) ∧
    (∀ d, ringOf t d = if d = c then none else ringOf s d) ∧ c ∉ t.keys.waiting ∧
    (KeyLaw s → ∀ k y, t.keys.slots.get k = some y → y.ctx ≠ c) ∧
    t.nq = (queueNotice .closed (some c) none none (ctxOf s c).withheld s).nq ∧ t.time = s.time ∧ t.faults = s.faults ∧
    t.up = s.up ∧ t.drv = s.drv ∧ t.trk = s.trk ∧ t.pool = s.pool ∧ t.req = s.req

/-- The law of the pool under the settings' range: a command holds at most 16 pool slots (R142, R175). -/
def PoolLaw (s : State) : Prop :=
  s.req.lookahead ≤ 16 ∧ ∀ o, slotsHeld s o ≤ 16

/-- What makes the key-wait list be served at once: the LRU order ranks every slot, and while the list is not empty no slot is FREE and none is
evictable (R129, R130). -/
def KeyWaitLaw (s : State) : Prop :=
  (∀ k : KeyNo, k ∈ s.keys.lru) ∧
    (s.keys.waiting ≠ [] → ∀ k, ∃ y, s.keys.slots.get k = some y ∧ (y.phase = .setup ∨ y.pinned = true ∨ 0 < y.users))

/-- At most one acceptance record for a tag, and none for a HELD entry, whose acceptance the part has answered itself; between steps no released
command waits to be sent (R21, R28, R30). -/
def AcceptLaw (s : State) : Prop :=
  (s.trk.accepts.map (·.tag)).Nodup ∧ s.trk.released = [] ∧
    ∀ k e, entryOf s (.tag k) = some e → e.state = .held → ∀ r ∈ s.trk.accepts, r.tag ≠ k

/-- The number of tracker entries in use whose plan names a context (R37). -/
def entriesNaming (s : State) (c : CtxSlot) : Nat :=
  let names := fun e : Entry => e.plan.any fun r => verdictCtx r.verdict = some c
  ((List.finRange 32).filter fun k => (entryOf s (.tag k)).any names).length + if (entryOf s .single).any names then 1 else 0

/-- The law of the in-flight count: it equals the number of entries in use whose plan names the context, and none names an EMPTY or LOADING one (R37,
R46); with what it rests on: an entry's contexts touched are those of its plan (R24). -/
def InFlightLaw (s : State) : Prop :=
  (∀ o e, entryOf s o = some e → e.touched = touchedBy e.plan) ∧
    ∀ c, (ctxOf s c).inFlight = entriesNaming s c ∧
      ((ctxOf s c).state = .empty ∨ (ctxOf s c).state = .loading → entriesNaming s c = 0)

/-- Whether an item of the send list is a READY of the part, for the bridge command (R5). -/
def isBridgeReady (i : SendItem) : Bool :=
  match i.frame with
  | .ready _ => !i.relayed
  | _ => false

/-- The READY frames on the send list and the open bursts that belong to the bridge command (R5). -/
def bridgeBursts (s : State) : Nat :=
  (s.up.sendList.filter isBridgeReady).length + (s.up.inBurst.any (·.bridge)).toNat + (s.up.outBurst.any (·.bridge)).toNat

/-- A bridge's READY or burst stands only while a bridge holds the single slot, one at a time and of one sector; a bridge has no plan (R5, R23, R171, R173). -/
def BridgeLaw (s : State) : Prop :=
  bridgeBursts s ≤ 1 ∧ (bridgeBursts s = 1 → ∃ e, s.trk.single = some e ∧ e.kind = .bridge) ∧
    (∀ e, s.trk.single = some e → e.kind = .bridge → e.plan = []) ∧ (∀ b, s.up.outBurst = some b → b.bridge = true → b.left = 1) ∧
    ∀ i ∈ s.up.sendList, i.relayed = false →
      (∀ r, i.frame = .ready r → readyCount r = 1) ∧ ∀ d, i.frame = .data d → d.sectors.length = 1

/-- The effective expiry that R62 gives a TIMED context's not_after, W and T0. -/
def statedExpiry (x : Context) : Option Nat :=
  match x.notAfter, x.t0.filter fun _ => 0 < x.window with
  | none, none => none
  | some a, none => some a
  | none, some t => some (min (t + x.window) maxSeconds)
  | some a, some t => some (min a (min (t + x.window) maxSeconds))

/-- E is that of R62 for each loaded TIMED context, and a LOADING one has no T0 (R62, R83, R85). -/
def ExpiryLaw (s : State) : Prop :=
  ∀ c, (ctxOf s c).cls = .timed →
    ((ctxOf s c).state = .loading → (ctxOf s c).t0 = none) ∧
      ((ctxOf s c).state = .recording ∨ (ctxOf s c).state = .sealing ∨ (ctxOf s c).state = .sealed ∨ (ctxOf s c).state = .expired →
        (ctxOf s c).expiry = statedExpiry (ctxOf s c))

/-- The expiry compare value is the least E of the compare set (R166). -/
def CompareLaw (s : State) : Prop :=
  s.time.compare = compareValue s.contexts

/-- Whether the state's next command is POWER_ON, the one event that undoes what only power-on undoes. -/
def PowersOn (s : State) : Prop :=
  s.pending.head? = some .powerOn

end Sys2Proof.Machine
end

