-- ==== Sys2Proof/WellFormed.lean ====
section
/-!
DEFINITION. Well-formed commands: those whose operands are what their row says (R2, R22, R172, spec/12). A meaning is given for every operand all the
same: a row with other operands is the frame it spells.
-/

namespace Sys2Proof

open Sys2Proof.Machine

/-- Whether a command's operands are those of its row: an OTHER has no other kind's operation code, an UNEXPECTED_FRAME is one its port does not
take, every other frame is one its port takes, and an UNKNOWN_REQUEST_CODE's code names no request. -/
def WellFormed : Instr → Bool
  | .other op _ _ _ _ => kindOf op = .other
  | .unexpectedFrame port f => !acceptable port f
  | .dataFromController bytes23 sectors => acceptable .upstream (.data { bytes23, sectors })
  | .readyFromDrive r => acceptable .drive (.ready r)
  | .dataFromDrive bytes23 sectors => acceptable .drive (.data { bytes23, sectors })
  | .statusFromDrive outcome detail => acceptable .drive (.status { outcome, detail })
  | .doneFromDrive d => acceptable .drive (.done d)
  | .unknownRequestCode block => (decodeRequest block).isNone
  | .powerOn | .upstreamLinkUp | .linkReset | .driveLinkUp | .driveLinkLost | .tick => true
  | .read _ _ _ _ | .write _ _ _ _ | .qread _ _ _ _ | .qwrite _ _ _ _ | .bridge _ _ _ _ => true
  | .sendUpstreamFrame | .engineJobStart | .setupComplete | .streamComplete | .parityFailure | .unwrapComplete
  | .receiptCheckComplete | .timeTokenCheckComplete => true
  | .loadContext _ _ | .sealContext _ | .closeContext _ | .readContext _ | .readReceipt _ | .clearUnit | .addRegion _
  | .removeRegion _ | .readRegions _ | .setShiftDepth _ _ | .pinKey _ | .unpinKey _ | .setRightsTime _ _ | .writeSettings _
  | .lockSettings | .readStatus | .drain | .readNotices | .readHistory | .clearFaults _ => true

end Sys2Proof
end

