-- ==== Sys2Proof/Certificates/Slice0/Obligations.lean ====
section
/-!
DEFINITION. The statements for the provers: what the commands of the Gectra 2410 do, and the laws that every step keeps.
-/

open Sys2Proof Sys2Proof.Machine

/-! ### The step, power-on and the links -/

/-- A step takes the command at the front of the queue and runs it with the queue's rest. With no command waiting a step is one period of the reference
clock: the divide count rises, and at the tick divider the tick occurs (R159); that the idle step is a reference period is the model's choice (log 2). -/
def Obligations.StepRunsFrontCommand : Prop :=
  (∀ (c : Instr) (rest : List Instr) (s : State), s.pending = c :: rest → step s = exec c { s with pending := rest }) ∧
  ∀ s : State, s.pending = [] →
    (s.time.divideCount + 1 < s.req.divider →
      step s = .next { s with time := { s.time with divideCount := s.time.divideCount + 1 } }) ∧
    (s.req.divider ≤ s.time.divideCount + 1 → step s = exec .tick s)

/-- POWER_ON leaves the Tracker with every entry FREE and both its lists empty, and every context slot cleared, so that no in-flight count is
held (R38). -/
def Obligations.PowerOnEmptiesTracker : Prop :=
  ∀ s : State, ∃ t, exec .powerOn s = .next t ∧ (∀ o, entryOf t o = none) ∧ t.trk.accepts = [] ∧ t.trk.history = [] ∧
    ∀ c, ctxOf t c = Context.blank ∧ (ctxOf t c).inFlight = 0

/-- POWER_ON leaves every other block at the values that its chapter gives for power-on (R64, R101, R127, R133, R142, R158, R175, R184, R189,
R195). That the queue of commands and the records of what was sent are kept is the model's choice (log 11), and so is the end at which the LRU order starts,
slot 0 least recent (log 26: R140 says only that the order is by slot number). -/
def Obligations.PowerOnSetsValues : Prop :=
  ∀ s : State, ∃ t, exec .powerOn s = .next t ∧ (∀ e, regionOf t e = none) ∧ (∀ c, ringOf t c = none) ∧
    (∀ k, t.keys.slots.get k = none) ∧ t.keys.lru = [0, 1, 2, 3, 4, 5, 6, 7] ∧ t.keys.waiting = [] ∧
    t.eng = { setups := [], streams := [], others := [], running := none } ∧
    (∀ p, t.pool.slots.get p = none) ∧ t.pool.nextOrder = 0 ∧ t.pool.unserved = [] ∧
    t.time = { divideCount := 0, mono := 0, rightsSet := false, rights := 0, token := none, compare := none } ∧
    t.req =
      { lookahead := 8, attentionSet := 0xFFFF#16,
        severities := { keyParity := .notice, transform := .lockdown, protocol := .notice, driveLost := .notice },
        divider := 27000000, locked := false, drainPending := false, snapshot := [], snapshotSize := 0, reply := none } ∧
    t.nq = { notices := [], overflow := false, attention := false } ∧
    t.faults =
      { set := { keyParity := false, transform := false, protocol := false, driveLost := false }, first := none,
        lockdown := false, cause := .powerOn } ∧
    t.up =
      { link := .down, inBurst := none, outBurst := none, discard := 0, sendList := [], held := [], sent := s.up.sent } ∧
    t.drv = { link := .down, burst := none, discard := none, resetState := .none, held := [], sent := s.drv.sent } ∧
    t.pending = s.pending

/-- The state right after reset meets every law of Safety.lean. -/
def Obligations.ResetMeetsLaws : Prop :=
  RecordsLaw State.reset ∧ AttentionLaw State.reset ∧ SettingsLaw State.reset ∧ ClockLaw State.reset ∧ CompareLaw State.reset ∧
    RegionLaw State.reset ∧ SerialLaw State.reset ∧ EntryLaw State.reset ∧ RingLaw State.reset ∧ RingPointsLaw State.reset ∧
    BindingLaw State.reset ∧ KeyLaw State.reset ∧ PoolLaw State.reset ∧ Quiet State.reset ∧ KeyWaitLaw State.reset ∧
    AcceptLaw State.reset ∧ InFlightLaw State.reset ∧ BridgeLaw State.reset ∧ ExpiryLaw State.reset

/-- UPSTREAM_LINK_UP makes the upstream link UP and changes nothing else (R1); DRIVE_LINK_UP makes the drive link UP and the reset state AWAIT_LOCAL, and queues no
notice (R18). While the reset state is not NONE the drive's first STATUS, of any outcome (log 20), ends the reset, relayed in AWAIT_RELAY and consumed in
AWAIT_LOCAL; every other drive frame is discarded without a fault, DATA and frames of no known class among them; and a COMMAND other than a BRIDGE stands on the
upstream link until then, with every frame behind it, and is taken in the step that ends the reset (R9, R16; log 4). A drive frame other than DATA that arrives while
a frame from the drive is still on the send list stands too, and is taken in the step that sends that frame (R9; log 4). -/
def Obligations.LinksComeUpAndResetEnds : Prop :=
  (∀ s : State,
    exec .upstreamLinkUp s = .next { s with up := { s.up with link := .up } } ∧
    (Quiet s → exec .driveLinkUp s = .next { s with drv := { s.drv with link := .up, resetState := .awaitLocal } })) ∧
  (∀ (i : Instr) (f : Frame) (s : State), rowFrame i = some (.drive, f) → s.drv.link = .up → Quiet s →
    (relayPending s = false →
      (∀ t, f = .status t →
        (s.drv.resetState = .awaitRelay →
          exec i s = .next (listed [fromDrive f] { s with drv := { s.drv with resetState := .none } })) ∧
        (s.drv.resetState = .awaitLocal → exec i s = .next { s with drv := { s.drv with resetState := .none } })) ∧
      (s.drv.resetState ≠ .none → (∀ t, f ≠ .status t) → exec i s = .next s)) ∧
    ((∀ d, f ≠ .data d) →
      (relayPending s = true → exec i s = .next { s with drv := { s.drv with held := [f] } }) ∧
      ∀ outcome detail, s.up.link = .up → s.up.outBurst = none → s.up.sendList = [] →
        exec .sendUpstreamFrame
            { s with
              up := { s.up with sendList := [fromDrive (statusOf outcome detail)] }
              drv := { s.drv with held := [f] } } =
          exec i { s with up := { s.up with sent := s.up.sent ++ [statusOf outcome detail] } })) ∧
  ∀ (i : Instr) (c : CommandFrame) (s : State), rowFrame i = some (.upstream, .command c) → cmdKind c ≠ .bridge →
    s.up.link = .up → s.drv.resetState ≠ .none →
    (Quiet s → exec i s = .next { s with up := { s.up with held := [.command c] } }) ∧
    (s.up.held = [.command c] → s.drv.held = [] →
      (∀ j f, rowFrame j = some (.upstream, f) → exec j s = .next { s with up := { s.up with held := [.command c, f] } }) ∧
      ∀ outcome detail : Byte, s.drv.link = .up → relayPending s = false →
        let report := if s.drv.resetState = .awaitRelay then [fromDrive (statusOf outcome detail)] else []
        exec (.statusFromDrive outcome detail) s = exec i
          { s with
            up := { s.up with held := [], sendList := s.up.sendList ++ report }
            drv := { s.drv with resetState := .none } })

/-- LINK_RESET ends every entry, empties the upstream port and the acceptance list, frees every pool slot, rewinds every ring, queues LINK_RESET first with
the number of entries in use, sends a reset to a drive whose link is UP, and keeps the history, the times, the settings, the fault
set and the lockdown flag (R15, R39, R115, R157, R194). -/
def Obligations.LinkResetEndsEntries : Prop :=
  ∀ s : State, ∃ t, exec .linkReset s = .next t ∧ (∀ o, entryOf t o = none) ∧ t.trk.accepts = [] ∧
    t.trk.history = s.trk.history ∧
    t.up =
      { link := .down, inBurst := none, outBurst := none, discard := 0, sendList := [], held := [], sent := s.up.sent } ∧
    (s.drv.link = .up →
      t.drv =
        { link := .up, burst := none, discard := none, resetState := .awaitRelay, held := [], sent := s.drv.sent ++ [.reset] }) ∧
    (s.drv.link = .down → t.drv = s.drv) ∧
    (∀ p, t.pool.slots.get p = none) ∧ t.pool.unserved = [] ∧
    (∀ c r, ringOf t c = some r → r.spans = []) ∧
    t.faults = { s.faults with cause := .linkReset } ∧ t.time = s.time ∧ t.req.reply = none ∧ t.req.locked = s.req.locked ∧
    t.req.lookahead = s.req.lookahead ∧ t.req.divider = s.req.divider ∧ t.req.severities = s.req.severities ∧
    t.req.attentionSet = s.req.attentionSet ∧ t.pending = s.pending ∧
    (s.nq.notices.length < 32 →
      t.nq.notices[s.nq.notices.length]? =
        some { kind := .linkReset, ctx := none, tag := none, detail := none, value := entriesInUse s, stamp := s.time.mono })

/-- DRIVE_LINK_LOST with no command held and no burst open ends every entry but a bridge's, answers each ended command with DRIVE_LOST in the order of
R40, empties the acceptance list and the drive port, records the fault DRIVE_LOST and rewinds every ring (R17, R40, R190, R115). -/
def Obligations.DriveLossEndsEntries : Prop :=
  ∀ s : State, s.up.held = [] → s.drv.burst = none → ∃ t, exec .driveLinkLost s = .next t ∧
    (∀ k : Tag, entryOf t (.tag k) = none) ∧ (singleTransfer s = true → entryOf t .single = none) ∧
    (∀ e, entryOf s .single = some e → e.kind = .bridge → (entryOf t .single).isSome = true) ∧
    t.trk.accepts = [] ∧ t.trk.history = s.trk.history ∧
    t.drv = { s.drv with link := .down, discard := none, resetState := .none, held := [] } ∧
    t.up.sendList = s.up.sendList ++ (lossAnswers s).map fromPart ∧
    t.faults.set = { s.faults.set with driveLost := true } ∧ t.faults.first = s.faults.first.or (some .driveLost) ∧
    (∀ c r, ringOf t c = some r → r.spans = []) ∧ t.time = s.time ∧ t.pending = s.pending

/-- TICK restarts the divide count, raises monotonic time and, while it is SET, rights time by 1 up to their maximum, and expires exactly the contexts
whose effective expiry rights time has passed, the compare value being that of R166 (R159, R160, R161, R167). -/
def Obligations.TickAdvancesAndExpires : Prop :=
  ∀ s : State, CompareLaw s → ∃ t, exec .tick s = .next t ∧ t.time.divideCount = 0 ∧
    t.time.mono = min (s.time.mono + 1) maxSeconds ∧ t.time.rightsSet = s.time.rightsSet ∧
    t.time.rights = (if s.time.rightsSet then min (s.time.rights + 1) maxSeconds else s.time.rights) ∧
    (∀ c, ctxOf t c =
      match compareEntry (ctxOf s c) with
      | none => ctxOf s c
      | some e =>
        if s.time.rightsSet = true ∧ e < min (s.time.rights + 1) maxSeconds then { ctxOf s c with state := .expired }
        else ctxOf s c) ∧
    t.up = s.up ∧ t.drv = s.drv ∧ t.trk = s.trk ∧ t.regions = s.regions ∧ t.rings = s.rings ∧ t.keys = s.keys ∧
    t.eng = s.eng ∧ t.pool = s.pool ∧ t.req = s.req ∧ t.faults = s.faults ∧ t.pending = s.pending

/-! ### Commands of the controller -/

/-- A READ, WRITE, QREAD or QWRITE whose sectors lie in no region is admitted with one CLEAR run: forwarded at once exactly as it arrived, a queued one with
a RELAY record; a READ or WRITE that finds queued work in hand is held with QUEUE_WAIT (R21, R22, R24, R49, R51). -/
def Obligations.ClearCommandsAdmitted : Prop :=
  ∀ (lba : BitVec 48) (count : BitVec 16) (byte10 : Byte) (rest : BitVec 72) (s : State), TakesCommands s →
    let frame := fun op => ({ op := op, lba := lba, count := count, byte10 := byte10, rest := rest } : CommandFrame)
    let plan := onePlan (frame 0x2A#8) .clear
    let t := cmdTag (frame 0x2A#8)
    lba.toNat + cmdCount (frame 0x2A#8) ≤ lbaEnd → EverySector (frame 0x2A#8) (fun x => lookup s x = none) →
    (s.trk.single = none → queuedWork s = false →
      exec (.read lba count byte10 rest) s = .next (sentDown [.command (frame 0x2A#8)]
        { s with trk := { s.trk with single := some (freshEntry .forwarded .read (frame 0x2A#8) plan []) } }) ∧
      exec (.write lba count byte10 rest) s = .next (sentDown [.command (frame 0x3A#8)]
        { s with trk := { s.trk with single := some (freshEntry .forwarded .write (frame 0x3A#8) plan []) } })) ∧
    (s.trk.single = none → queuedWork s = true →
      exec (.read lba count byte10 rest) s = .next
        { s with trk := { s.trk with
          single := some { freshEntry .held .read (frame 0x2A#8) plan [] with queueWait := true } } } ∧
      exec (.write lba count byte10 rest) s = .next
        { s with trk := { s.trk with
          single := some { freshEntry .held .write (frame 0x3A#8) plan [] with queueWait := true } } }) ∧
    (entryOf s (.tag t) = none → (∀ r ∈ s.trk.accepts, r.tag ≠ t) → (∀ e, s.trk.single = some e → e.kind = .bridge) →
      exec (.qread lba count byte10 rest) s = .next (sentDown [.command (frame 0x6A#8)]
        { s with trk := { s.trk with
          queued := s.trk.queued.set t (some (freshEntry .forwarded .qread (frame 0x6A#8) plan []))
          accepts := s.trk.accepts ++ [{ tag := t, action := .relay }] } }) ∧
      exec (.qwrite lba count byte10 rest) s = .next (sentDown [.command (frame 0x6B#8)]
        { s with trk := { s.trk with
          queued := s.trk.queued.set t (some (freshEntry .forwarded .qwrite (frame 0x6B#8) plan []))
          accepts := s.trk.accepts ++ [{ tag := t, action := .relay }] } }))

/-- An OTHER is admitted with no plan and forwarded at once where no queued work is in hand; a BRIDGE of count 1 becomes LOCAL and its request READY is
listed, whatever the drive's state; a BRIDGE of another count is answered MALFORMED and holds no entry (R3, R22, R23, R171). -/
def Obligations.OtherAndBridgeAdmitted : Prop :=
  ∀ (op : Byte) (lba : BitVec 48) (count : BitVec 16) (byte10 : Byte) (rest : BitVec 72) (s : State),
    s.trk.single = none →
    (TakesCommands s → WellFormed (.other op lba count byte10 rest) = true → queuedWork s = false →
      exec (.other op lba count byte10 rest) s = .next
        (sentDown [.command { op := op, lba := lba, count := count, byte10 := byte10, rest := rest }]
          { s with trk := { s.trk with
            single := some (freshEntry .forwarded .other
              { op := op, lba := lba, count := count, byte10 := byte10, rest := rest } [] []) } })) ∧
    (s.up.link = .up → Quiet s → count = 1#16 →
      exec (.bridge lba count byte10 rest) s = .next (listed [bridgeReadyFrame 0#8]
        { s with trk := { s.trk with
          single := some (freshEntry .localBridge .bridge
            { op := 0xFC#8, lba := lba, count := count, byte10 := byte10, rest := rest } [] []) } })) ∧
    (s.up.link = .up → Quiet s → count ≠ 1#16 →
      exec (.bridge lba count byte10 rest) s = .next (listed [fromPart (statusOf 2#8 0x8F#8)] s))

/-- What refuses a command before the Classifier is asked, and what answers it: a queued command by STATUS ACCEPTED and a DONE that fails its tag, any other
by STATUS ERROR, a transfer command with a history record (R21, R22, R23, R25, R26). -/
def Obligations.RefusalsAnswered : Prop :=
  ∀ (i : Instr) (c : CommandFrame) (s : State), rowFrame i = some (.upstream, .command c) → WellFormed i = true →
    s.up.link = .up → Quiet s → s.drv.resetState = .none → s.trk.history.length ≤ 8 →
    let tagBusy := (entryOf s (.tag (cmdTag c))).isSome = true ∨ ∃ r ∈ s.trk.accepts, r.tag = cmdTag c
    let blocked := ∃ e, s.trk.single = some e ∧ e.kind ≠ .bridge
    let queuedRefused := fun code => Host.Outcome.next
      (listed (queuedRefusal (cmdTag c) code) (recorded c (some (cmdTag c)) code s))
    let singleRefused := fun code => Host.Outcome.next
      (listed [fromPart (statusOf 2#8 (codeByte code))] (recorded c none code s))
    (kindQueued (cmdKind c) = true →
      (tagBusy → exec i s = queuedRefused .tagInUse) ∧
      (¬tagBusy → blocked → exec i s = queuedRefused .queueBlocked) ∧
      (¬tagBusy → ¬blocked → s.drv.link = .down → exec i s = queuedRefused .driveLost) ∧
      (¬tagBusy → ¬blocked → s.drv.link = .up →
        ∀ code, classify (.tag (cmdTag c)) c s = .error code → exec i s = queuedRefused code)) ∧
    (cmdKind c = .read ∨ cmdKind c = .write →
      (s.trk.single.isSome = true → exec i s = singleRefused .busy) ∧
      (s.trk.single = none → s.drv.link = .down → exec i s = singleRefused .driveLost) ∧
      (s.trk.single = none → s.drv.link = .up → ∀ code, classify .single c s = .error code → exec i s = singleRefused code)) ∧
    (cmdKind c = .other ∨ cmdKind c = .bridge → s.trk.single.isSome = true →
      exec i s = .next (listed [fromPart (statusOf 2#8 (codeByte .busy))] s)) ∧
    (cmdKind c = .other → s.trk.single = none → s.drv.link = .down →
      exec i s = .next (listed [fromPart (statusOf 2#8 (codeByte .driveLost))] s))

/-- A transfer command is refused OUT_OF_RANGE by the Classifier exactly when its last LBA exceeds 2^48 - 1, before every other check; it then captures no
T0, moves no frontier and appends no span, wherever it is refused (R45). -/
def Obligations.RangePastTopRefused : Prop :=
  ∀ (i : Instr) (c : CommandFrame) (s : State), rowFrame i = some (.upstream, .command c) →
    (kindReads (cmdKind c) = true ∨ kindWrites (cmdKind c) = true) →
    (∀ o, classify o c s = .error .outOfRange ↔ 281474976710655 < c.lba.toNat + cmdCount c - 1) ∧
    (281474976710655 < c.lba.toNat + cmdCount c - 1 → s.up.link = .up → Quiet s → s.drv.resetState = .none →
      ∃ t, exec i s = .next t ∧ t.contexts = s.contexts ∧ t.rings = s.rings ∧ t.trk.queued = s.trk.queued ∧
        t.trk.single = s.trk.single ∧ t.drv.sent = s.drv.sent)

/-! ### Classification and keystream -/

/-- A write with a sector in a region is refused by the first of the ordered checks that fails: LOCKDOWN, MIXED_SPAN, WRITE_PROTECTED, then REWRITE below the
frontier or the four checks of the ring (R51, R52, R53, R54, R104, R105). -/
def Obligations.WriteChecksInOrder : Prop :=
  ∀ (o : Owner) (c : CommandFrame) (s : State), kindWrites (cmdKind c) = true → cmdLba c + cmdCount c ≤ lbaEnd →
    ¬EverySector c (fun x => lookup s x = none) →
    let within := fun a => EverySector c (fun x => ∃ r, lookup s x = some r ∧ r.ctx = a)
    (s.faults.lockdown = true → classify o c s = .error .lockdown) ∧
    (s.faults.lockdown = false → (∀ a, ¬within a) → classify o c s = .error .mixedSpan) ∧
    ∀ a, s.faults.lockdown = false → within a →
      ((ctxOf s a).state ≠ .recording → classify o c s = .error .writeProtected) ∧
      ((ctxOf s a).state = .recording → (ctxOf s a).cls ≠ .shift →
        (∃ k r, k < cmdCount c ∧ lookup s (cmdLba c + k) = some r ∧
          r.logicalStart + (cmdLba c + k - r.base) < (ctxOf s a).frontier) →
        classify o c s = .error .rewrite) ∧
      ∀ g, (ctxOf s a).state = .recording → (ctxOf s a).cls = .shift → ringOf s a = some g →
        (cmdLba c ≠ g.base + g.issue → classify o c s = .error .ringOrder) ∧
        (cmdLba c = g.base + g.issue → g.issueLap = 65536 → classify o c s = .error .lapsExhausted) ∧
        (cmdLba c = g.base + g.issue → g.issueLap ≠ 65536 → 12 ≤ g.spans.length → classify o c s = .error .ringBusy) ∧
        (cmdLba c = g.base + g.issue → g.issueLap ≠ 65536 → g.spans.length < 12 →
          g.length < (g.spans.map (·.count)).sum + cmdCount c → classify o c s = .error .ringOverrun)

/-- A QWRITE or WRITE wholly inside one region of a RECORDING KEEP or TIMED context, at or above its frontier, is admitted as one ENCIPHER run of lap 0 and
forwarded; the frontier becomes one past its highest logical sector and the context's in-flight count rises (R51, R53, R37). -/
def Obligations.FrontierWriteAdmitted : Prop :=
  ∀ (lba : BitVec 48) (count : BitVec 16) (byte10 : Byte) (rest : BitVec 72) (r : Region) (s : State), TakesCommands s →
    let frame := fun op => ({ op := op, lba := lba, count := count, byte10 := byte10, rest := rest } : CommandFrame)
    let n := cmdCount (frame 0x6B#8)
    let first := r.logicalStart + (lba.toNat - r.base)
    let plan := onePlan (frame 0x6B#8) (.encipher r.ctx 0 first)
    let t := cmdTag (frame 0x6B#8)
    let x := ctxOf s r.ctx
    let moved := s.contexts.set r.ctx { x with frontier := first + n, inFlight := x.inFlight + 1 }
    s.faults.lockdown = false → lba.toNat + n ≤ lbaEnd → EverySector (frame 0x6B#8) (fun y => lookup s y = some r) →
    x.state = .recording → x.cls ≠ .shift → x.frontier ≤ first →
    (entryOf s (.tag t) = none → (∀ a ∈ s.trk.accepts, a.tag ≠ t) → s.trk.single = none →
      exec (.qwrite lba count byte10 rest) s = .next (sentDown [.command (frame 0x6B#8)]
        { s with
          contexts := moved
          trk := { s.trk with
            queued := s.trk.queued.set t (some (freshEntry .forwarded .qwrite (frame 0x6B#8) plan [r.ctx]))
            accepts := s.trk.accepts ++ [{ tag := t, action := .relay }] } })) ∧
    (s.trk.single = none → queuedWork s = false →
      exec (.write lba count byte10 rest) s = .next (sentDown [.command (frame 0x3A#8)]
        { s with
          contexts := moved
          trk := { s.trk with single := some (freshEntry .forwarded .write (frame 0x3A#8) plan [r.ctx]) } }))

/-- A QWRITE at a ring's issue point that passes the checks is admitted under the issue lap: its span joins the back of the queue, the issue point advances
and wraps with its lap, and it is forwarded while fewer than four spans are FORWARDED, else held with RING_WINDOW and answered by the
part (R54, R106, R107, R21). -/
def Obligations.RingWriteAdmitted : Prop :=
  ∀ (lba : BitVec 48) (count : BitVec 16) (byte10 : Byte) (rest : BitVec 72) (r : Region) (g : Machine.Ring) (s : State),
    TakesCommands s →
    let c : CommandFrame := { op := 0x6B#8, lba := lba, count := count, byte10 := byte10, rest := rest }
    let n := cmdCount c
    let t := cmdTag c
    let x := ctxOf s r.ctx
    let wraps := g.length ≤ g.issue + n
    let full := 4 ≤ (g.spans.filter fun y => y.status = .forwarded).length
    let span := ({ first := g.issue, count := n, lap := g.issueLap, owner := .tag t,
                   status := if full then .held else .forwarded } : Span)
    let e := freshEntry .forwarded .qwrite c (onePlan c (.encipher r.ctx g.issueLap (r.logicalStart + (lba.toNat - r.base))))
      [r.ctx]
    let admitted := fun e => { s with
      contexts := s.contexts.set r.ctx { x with inFlight := x.inFlight + 1 }
      rings := s.rings.set r.ctx (some { g with
        issue := if wraps then 0 else g.issue + n
        issueLap := if wraps then g.issueLap + 1 else g.issueLap
        spans := g.spans ++ [span] })
      trk := { s.trk with queued := s.trk.queued.set t (some e) } }
    s.faults.lockdown = false → lba.toNat + n ≤ lbaEnd → EverySector c (fun y => lookup s y = some r) →
    x.state = .recording → x.cls = .shift → ringOf s r.ctx = some g →
    lba.toNat = g.base + g.issue → g.issueLap ≠ 65536 → g.spans.length < 12 → (g.spans.map (·.count)).sum + n ≤ g.length →
    entryOf s (.tag t) = none → (∀ a ∈ s.trk.accepts, a.tag ≠ t) → s.trk.single = none →
    (¬full → exec (.qwrite lba count byte10 rest) s = .next (sentDown [.command c]
      { admitted { e with ringWrite := some r.ctx } with
        trk := { s.trk with
          queued := s.trk.queued.set t (some { e with ringWrite := some r.ctx })
          accepts := s.trk.accepts ++ [{ tag := t, action := .relay }] } })) ∧
    (full → exec (.qwrite lba count byte10 rest) s = .next (listed [fromPart (statusOf 0#8 0#8)]
      (admitted { e with state := .held, ringWrite := some r.ctx, ringWindow := true, answered := true })))

/-- The first QREAD that a TIMED context with a view window and no T0 delivers is admitted as one DELIVER run and captures the first view: T0 is rights time,
E is recomputed, the receipt is PENDING with its CHECK job queued, and FIRST_VIEW is queued; a later read captures nothing (R50, R62, R96). -/
def Obligations.FirstViewCaptured : Prop :=
  ∀ (lba : BitVec 48) (count : BitVec 16) (byte10 : Byte) (rest : BitVec 72) (r : Region) (s : State), TakesCommands s →
    let c : CommandFrame := { op := 0x6A#8, lba := lba, count := count, byte10 := byte10, rest := rest }
    let t := cmdTag c
    let x := ctxOf s r.ctx
    let sum := min (s.time.rights + x.window) maxSeconds
    let e := match x.notAfter with
      | none => sum
      | some a => min a sum
    let plan := onePlan c (.deliver r.ctx 0 (r.logicalStart + (lba.toNat - r.base)))
    let entered := some (freshEntry .forwarded .qread c plan [r.ctx])
    s.faults.lockdown = false → lba.toNat + cmdCount c ≤ lbaEnd → EverySector c (fun y => lookup s y = some r) →
    x.state = .recording ∨ x.state = .sealing ∨ x.state = .sealed → x.cls = .timed → s.time.rightsSet = true →
    entryOf s (.tag t) = none → (∀ a ∈ s.trk.accepts, a.tag ≠ t) → s.trk.single = none →
    (0 < x.window → x.t0 = none → s.nq.notices.length < 32 →
      ∃ u, exec (.qread lba count byte10 rest) s = .next u ∧ entryOf u (.tag t) = entered ∧
        ctxOf u r.ctx =
          { x with t0 := some s.time.rights, expiry := some e, receipt := .pending, inFlight := x.inFlight + 1 } ∧
        u.time.compare = compareValue u.contexts ∧
        u.eng.others = s.eng.others ++ [.receipt r.ctx x.serial s.time.rights e] ∧
        u.nq.notices = s.nq.notices ++
          [{ kind := .firstView, ctx := some r.ctx, tag := none, detail := none, value := s.time.rights,
             stamp := s.time.mono }] ∧
        u.drv.sent = s.drv.sent ++ [.command c]) ∧
    (x.t0.isSome = true →
      exec (.qread lba count byte10 rest) s = .next (sentDown [.command c]
        { s with
          contexts := s.contexts.set r.ctx { x with inFlight := x.inFlight + 1 }
          trk := { s.trk with
            queued := s.trk.queued.set t entered
            accepts := s.trk.accepts ++ [{ tag := t, action := .relay }] } }))

/-- The verdict on a read sector: CLEAR outside every region; in one, the first of LOCKDOWN, CLOSING, EXPIRED, NO_TIME and the ring read check that applies, else
DELIVER with lap 0, carrying the context and the logical sector (R46, R49). The ring read check: of N positions those the spans hold, from the commit
point on, are in flight; then the lap a position was last committed on, with RING_UNWRITTEN for one never committed; then RING_DEPTH for one whose
age is the depth or more (R58, R59, R60). The verdicts form runs: a sector joins the run before it where it has the same verdict, one logical sector further;
more than 8 runs are refused TOO_FRAGMENTED, and fewer are the plan, for a read and for a write that passes its checks (R47, R48). -/
def Obligations.ReadVerdictsJudged : Prop :=
  (∀ (s : State) (x : Nat), (lookup s x = none → readVerdict s x = .clear) ∧
    ∀ r, lookup s x = some r → r.base ≤ x ∧ x ≤ r.limit ∧
      let a := r.ctx
      let l := r.logicalStart + (x - r.base)
      let y := ctxOf s a
      (s.faults.lockdown = true → readVerdict s x = .withheld .lockdown a l) ∧
      (s.faults.lockdown = false →
        (y.state = .closing → readVerdict s x = .withheld .closing a l) ∧
        (y.state = .expired → readVerdict s x = .withheld .expired a l) ∧
        (y.state ≠ .closing → y.state ≠ .expired →
          (y.cls = .timed → s.time.rightsSet = false → readVerdict s x = .withheld .noTime a l) ∧
          (y.cls = .keep ∨ (y.cls = .timed ∧ s.time.rightsSet = true) → readVerdict s x = .deliver a 0 l) ∧
          (y.cls = .shift → ∀ g, ringOf s a = some g → readVerdict s x = ringVerdict a g (x - r.base) l)))) ∧
  (∀ (a : CtxSlot) (g : Machine.Ring) (p l : Nat), p < g.length → g.commit < g.length → g.issue < g.length →
    let flying := g.spans ≠ [] ∧
      (g.issue = g.commit ∨ ∃ j, j < (g.issue + (g.length - g.commit)) % g.length ∧ p = (g.commit + j) % g.length)
    let age := (g.commit + g.length - 1 - p) % g.length
    (flying → ringVerdict a g p l = .withheld .ringInFlight a l) ∧
    (¬flying → g.commit ≤ p → g.commitLap = 0 → ringVerdict a g p l = .withheld .ringUnwritten a l) ∧
    (¬flying → (p < g.commit ∨ 0 < g.commitLap) →
      (g.depth ≤ age → ringVerdict a g p l = .withheld .ringDepth a l) ∧
      (age < g.depth → ringVerdict a g p l = .deliver a (if p < g.commit then g.commitLap else g.commitLap - 1) l))) ∧
  ∀ (o : Owner) (c : CommandFrame) (s : State), cmdLba c + cmdCount c ≤ lbaEnd →
    let n := cmdCount c
    let breaks := fun v : Nat → Verdict => ((List.range (n - 1)).filter fun k => v (k + 1) ≠ verdictFrom (v k) 1).length
    let judged := fun v : Nat → Verdict =>
      (8 ≤ breaks v → classify o c s = .error .tooFragmented) ∧
      (breaks v < 8 → ∃ x, classify o c s = .ok x ∧ x.plan.length = breaks v + 1 ∧ (x.plan.map (·.count)).sum = n ∧
        (∀ j r, x.plan[j]? = some r → 1 ≤ r.count ∧ r.first = ((x.plan.take j).map (·.count)).sum) ∧
        ∀ k, k < n → verdictAt x.plan k = some (v k))
    (kindReads (cmdKind c) = true → judged fun k => readVerdict s (cmdLba c + k)) ∧
    ∀ (a : CtxSlot) (l : Nat → Nat), kindWrites (cmdKind c) = true → s.faults.lockdown = false → (ctxOf s a).state = .recording →
      (ctxOf s a).cls ≠ .shift →
      (∀ k, k < n → ∃ r, lookup s (cmdLba c + k) = some r ∧ r.ctx = a ∧ l k = r.logicalStart + (cmdLba c + k - r.base) ∧
        (ctxOf s a).frontier ≤ l k) →
      judged fun k => .encipher a 0 (l k)

/-- The counter block's bytes are the serial, the lap, the logical sector and the block index, each most significant byte first, and byte b of a keystream is
byte b mod 16 of the block transform of counter block b / 16 (R56, R57, R198). -/
def Obligations.KeystreamBytes : Prop :=
  (∀ (serial : BitVec 48) (lap logical j k : Nat), k < 16 →
    (counterBlock serial lap logical j).extractLsb' (8 * k) 8 =
      if k < 6 then serial.extractLsb' (8 * (5 - k)) 8
      else if k < 8 then (BitVec.ofNat 16 lap).extractLsb' (8 * (7 - k)) 8
      else if k < 13 then (BitVec.ofNat 40 logical).extractLsb' (8 * (12 - k)) 8
      else (BitVec.ofNat 24 j).extractLsb' (8 * (15 - k)) 8) ∧
  ∀ (key : Block) (serial : BitVec 48) (lap logical b : Nat), b < 512 →
    (keystream key serial lap logical).extractLsb' (8 * b) 8 =
      (Config.blockTransform key (counterBlock serial lap logical (b / 16))).extractLsb' (8 * (b % 16)) 8

/-- What a sector becomes at data time, by its verdict and how it was settled; what it counts: withheld sectors at their entry and context, a zeroed write
sector as part-failed; and a sector combined with one keystream twice is itself (R150, R151, R152, R153, R57). -/
def Obligations.SectorsTreatedByVerdict : Prop :=
  ∀ (s : State) (o : Owner) (e : Entry) (b : OpenBurst) (w : Sector), entryOf s o = some e → e.openBurst = some b →
    let off := b.first + (b.count - b.left)
    let out := (passSector o w s).1
    let after := (passSector o w s).2
    let counted := { e with
      openBurst := some { b with left := b.left - 1 }
      passed := if off < cmdCount e.cmd then min (e.passed + 1) (cmdCount e.cmd) else e.passed }
    (e.kind = .other → out = w) ∧
    (e.kind ≠ .other → cmdCount e.cmd ≤ off → out = 0 ∧ entryOf after o = some counted ∧ after.contexts = s.contexts) ∧
    (e.kind ≠ .other → off < cmdCount e.cmd →
      (verdictAt e.plan off = some .clear → out = w ∧ entryOf after o = some counted ∧ after.contexts = s.contexts) ∧
      (∀ reason a l, verdictAt e.plan off = some (.withheld reason a l) → out = 0 ∧
        entryOf after o = some { counted with
          withheld := min (e.withheld + 1) 65536
          firstReason := e.firstReason.or (some reason)
          firstCtx := if e.firstReason = none then some a else e.firstCtx } ∧
        ctxOf after a = { ctxOf s a with withheld := min ((ctxOf s a).withheld + 1) maxSeconds }) ∧
      (∀ a lap l, verdictAt e.plan off = some (.deliver a lap l) →
        (∀ k, settledWith s off = some k → out = w ^^^ k ∧ out ^^^ k = w ∧ entryOf after o = some counted) ∧
        (settledWith s off = none → out = 0 ∧
          entryOf after o = some { counted with
            withheld := min (e.withheld + 1) 65536
            firstReason := e.firstReason.or (some .transformFault)
            firstCtx := if e.firstReason = none then some a else e.firstCtx } ∧
          ctxOf after a = { ctxOf s a with withheld := min ((ctxOf s a).withheld + 1) maxSeconds })) ∧
      (∀ a lap l, verdictAt e.plan off = some (.encipher a lap l) →
        (∀ k, settledWith s off = some k → out = w ^^^ k ∧ out ^^^ k = w ∧ entryOf after o = some counted) ∧
        (settledWith s off = none → out = 0 ∧
          entryOf after o = some { counted with partFailed := e.partFailed.or (some .transformFault) } ∧
          after.contexts = s.contexts)))

/-! ### Frames of the two links -/

/-- A frame that its port does not take is discarded and raises PROTOCOL. Raising a fault of any kind adds it to the fault set, makes it the first fault if
there is none, queues its notice, and enters lockdown where its severity says so and the flag is clear: the line is asserted, queued STREAM jobs go,
every pool slot is FAULTED and the unserved sectors are marked (R2, R155, R190, R192). -/
def Obligations.FaultsRaised : Prop :=
  (∀ (port : Port) (f : Frame) (s : State), WellFormed (.unexpectedFrame port f) = true → Quiet s →
    (port = .upstream → s.up.link = .up) → (port = .drive → TakesDrive s) →
    exec (.unexpectedFrame port f) s = .next (raiseFault .protocol s)) ∧
  ∀ (k : FaultKind) (s : State),
    let t := raiseFault k s
    let severe := severityOf k s.req.severities = .lockdown ∧ s.faults.lockdown = false
    t.faults.set = addFault k s.faults.set ∧ t.faults.first = s.faults.first.or (some k) ∧
    t.faults.cause = s.faults.cause ∧ (t.faults.lockdown = true ↔ s.faults.lockdown = true ∨ severe) ∧
    (s.nq.notices.length < 32 → t.nq.notices = s.nq.notices ++
      [{ kind := .fault, ctx := none, tag := none, detail := some (faultCode k), value := 0, stamp := s.time.mono }]) ∧
    (s.nq.notices.length = 32 → t.nq.notices = s.nq.notices ∧ t.nq.overflow = true) ∧
    (¬severe → t.eng = s.eng ∧ t.pool = s.pool ∧ t.keys = s.keys) ∧
    (severe → t.nq.attention = true ∧ t.eng.streams = [] ∧ t.pool.unserved = [] ∧
      t.pool.marked = s.pool.marked ++ s.pool.unserved ∧
      ∀ p, t.pool.slots.get p = (s.pool.slots.get p).map fun y => { y with phase := .faulted }) ∧
    t.up = s.up ∧ t.drv = s.drv ∧ t.trk = s.trk ∧ t.contexts = s.contexts ∧ t.regions = s.regions ∧ t.rings = s.rings ∧
    t.time = s.time ∧ t.req = s.req

/-- A DATA frame that fits its open burst, of an OTHER or a command whose plan is CLEAR, passes unchanged, down to the drive or onto the send list; its
sectors count off the bursts and the entry, and the last one closes them and returns the entry to FORWARDED (R3, R6, R31, R150). The burst lies inside its
command; that an OTHER's passed sectors are counted up to its count field is the model's reading (log 29). -/
def Obligations.DataFramesPass : Prop :=
  ∀ (bytes23 : BitVec 16) (sectors : List Sector) (o : Owner) (n : Nat) (e : Entry) (b : OpenBurst) (s : State),
    let d : DataFrame := { bytes23 := bytes23, sectors := sectors }
    let k := sectors.length
    let counted := fun t : State => ∃ e', entryOf t o = some e' ∧ e'.cmd = e.cmd ∧ e'.plan = e.plan ∧
      e'.openBurst = (if k < n then some { b with left := n - k } else none) ∧
      e'.state = (if k < n then e.state else .forwarded) ∧
      e'.passed = min (e.passed + k) (cmdCount e.cmd) ∧ e'.partFailed = e.partFailed ∧ e'.withheld = e.withheld
    1 ≤ k → k ≤ 16 → k ≤ n → entryOf s o = some e → e.openBurst = some b → b.left = n → n ≤ b.count →
    b.first + b.count ≤ cmdCount e.cmd → e.passed ≤ cmdCount e.cmd →
    (e.kind = .other ∧ e.plan = [] ∨ e.plan = onePlan e.cmd .clear) → Quiet s →
    (s.up.link = .up → s.up.inBurst = some { owner := o, left := n, bridge := false } →
      s.drv.burst = some { owner := o, dir := .toDrive, left := n } →
      ∃ t, exec (.dataFromController bytes23 sectors) s = .next t ∧ t.drv.sent = s.drv.sent ++ [.data d] ∧
        t.up.inBurst = (if k < n then some { owner := o, left := n - k, bridge := false } else none) ∧
        t.drv.burst = (if k < n then some { owner := o, dir := .toDrive, left := n - k } else none) ∧ counted t ∧
        t.up.sendList = s.up.sendList ∧ t.contexts = s.contexts ∧ t.faults = s.faults) ∧
    (TakesDrive s → s.drv.burst = some { owner := o, dir := .toUpstream, left := n } →
      ∃ t, exec (.dataFromDrive bytes23 sectors) s = .next t ∧
        t.up.sendList = s.up.sendList ++ [{ frame := .data d, owner := some o, relayed := true }] ∧
        t.drv.burst = (if k < n then some { owner := o, dir := .toUpstream, left := n - k } else none) ∧ counted t ∧
        t.up.outBurst = s.up.outBurst ∧ t.drv.sent = s.drv.sent ∧ t.contexts = s.contexts ∧ t.faults = s.faults)

/-- A DATA frame that meets no open burst is counted off the discard count of its port without a fault; what lies beyond the count is discarded and raises PROTOCOL
(R10). A READY of the drive that matches no entry is discarded and raises PROTOCOL: an open burst is kept, and with none open one to upstream sets the
discard burst to its count (R12). -/
def Obligations.StrayFramesDiscarded : Prop :=
  (∀ (bytes23 : BitVec 16) (sectors : List Sector) (s : State),
    let k := sectors.length
    1 ≤ k → k ≤ 16 →
    (s.up.link = .up → Quiet s → s.up.inBurst = none →
      (k ≤ s.up.discard → exec (.dataFromController bytes23 sectors) s = .next
        { s with up := { s.up with discard := s.up.discard - k } }) ∧
      (s.up.discard < k → exec (.dataFromController bytes23 sectors) s = .next
        (raiseFault .protocol { s with up := { s.up with discard := 0 } }))) ∧
    (TakesDrive s → s.drv.burst = none →
      (s.drv.discard = none → exec (.dataFromDrive bytes23 sectors) s = .next (raiseFault .protocol s)) ∧
      ∀ m, s.drv.discard = some m →
        (k < m → exec (.dataFromDrive bytes23 sectors) s = .next
          { s with drv := { s.drv with discard := some (m - k) } }) ∧
        (k = m → exec (.dataFromDrive bytes23 sectors) s = .next { s with drv := { s.drv with discard := none } }) ∧
        (m < k → exec (.dataFromDrive bytes23 sectors) s = .next
          (raiseFault .protocol { s with drv := { s.drv with discard := none } })))) ∧
  ∀ (r : ReadyFrame) (s : State), WellFormed (.readyFromDrive r) = true → TakesDrive s →
    (s.drv.burst ≠ none → exec (.readyFromDrive r) s = .next (raiseFault .protocol s)) ∧
    (s.drv.burst = none →
      (∀ e, entryOf s (readyOwner r) = some e → e.state ≠ .forwarded ∨ e.kind = .bridge ∨
        (readyDir r = .toUpstream ∧ (e.kind = .write ∨ e.kind = .qwrite)) ∨
        (readyDir r = .toDrive ∧ (e.kind = .read ∨ e.kind = .qread))) →
      (readyDir r = .toUpstream → exec (.readyFromDrive r) s = .next
        (raiseFault .protocol { s with drv := { s.drv with discard := some (readyCount r) } })) ∧
      (readyDir r = .toDrive → exec (.readyFromDrive r) s = .next (raiseFault .protocol s)))

/-- A READY of the drive that a FORWARDED entry matches opens the burst at the drive port and in the entry, clears the discard burst and joins the send list
unchanged; past the end of its command it also marks the entry part-failed and raises PROTOCOL (R4, R13, R31). -/
def Obligations.ReadyOpensBurst : Prop :=
  ∀ (r : ReadyFrame) (e : Entry) (s : State), WellFormed (.readyFromDrive r) = true → TakesDrive s → s.drv.burst = none →
    let o := readyOwner r
    let n := readyCount r
    let dir := if r.flags.getLsbD 0 = true then Dir.toUpstream else Dir.toDrive
    let past := e.kind ≠ .other ∧ cmdCount e.cmd < r.offset.toNat + n
    entryOf s o = some e → e.state = .forwarded →
    (e.kind = .other ∨ (dir = .toUpstream ∧ (e.kind = .read ∨ e.kind = .qread)) ∨
      (dir = .toDrive ∧ (e.kind = .write ∨ e.kind = .qwrite))) →
    ∃ t, exec (.readyFromDrive r) s = .next t ∧ t.drv.burst = some { owner := o, dir := dir, left := n } ∧
      t.drv.discard = none ∧
      entryOf t o = some { e with
        state := .burst
        openBurst := some { first := r.offset.toNat, count := n, left := n }
        partFailed := if past then e.partFailed.or (some .protocol) else e.partFailed } ∧
      (∀ p, p ≠ o → entryOf t p = entryOf s p) ∧
      t.up.sendList = s.up.sendList ++ [{ frame := .ready r, owner := some o, relayed := true }] ∧
      t.up.inBurst = s.up.inBurst ∧ t.up.outBurst = s.up.outBurst ∧
      t.faults.set = (if past then addFault .protocol s.faults.set else s.faults.set) ∧
      t.contexts = s.contexts ∧ t.rings = s.rings ∧ t.regions = s.regions

/-- A STATUS of the drive with the acceptance list empty: OK or ERROR completes the single slot, which becomes FREE, and is relayed, an OK of a part-failed entry or
of one short of its count as an ERROR with the detail; any other is a slip that raises PROTOCOL (R14, R32, R33, R34). The end of an entry that names one context,
with no ring write, nothing to mark and no other entry's sectors unserved: the notice WITHHELD if its withheld count is above 0; the in-flight count lowered, at 0
completing a seal or a close; and the drain snapshot left, with DRAINED for the last to leave (R33, R80, R94, R154, R182). -/
def Obligations.StatusCompletesSingle : Prop :=
  ∀ (outcome detail : Byte) (s : State), WellFormed (.statusFromDrive outcome detail) = true → TakesDrive s →
    s.trk.accepts = [] →
    (∀ e, s.trk.single = some e → e.state = .forwarded ∨ e.state = .burst → outcome ≠ 0#8 →
      ∃ t, exec (.statusFromDrive outcome detail) s = .next t ∧ t.trk.single = none ∧
        t.up.sendList = s.up.sendList ++ [
          if outcome = 2#8 then fromDrive (statusOf outcome detail)
          else match e.partFailed with
            | some p => fromDrive (statusOf 2#8 (codeByte (partFailCode p)))
            | none =>
              if e.kind ≠ .other ∧ e.passed < cmdCount e.cmd then fromDrive (statusOf 2#8 0x9B#8)
              else fromDrive (statusOf outcome detail)] ∧
        (outcome = 1#8 → e.kind ≠ .other → e.passed < cmdCount e.cmd → t.faults.set.protocol = true) ∧
        t.trk.history = s.trk.history) ∧
    (∀ e (c : CtxSlot), s.trk.single = some e → e.state = .forwarded ∨ e.state = .burst → e.touched = [c] → e.ringWrite = none →
      outcome = 2#8 ∨ (outcome = 1#8 ∧ e.partFailed = none ∧ (e.kind = .other ∨ cmdCount e.cmd ≤ e.passed)) →
      s.keys.waiting = [] → s.nq.notices.length + 3 ≤ 32 → (∀ b, s.drv.burst = some b → b.owner ≠ .single → s.pool.unserved = []) →
      let x := ctxOf s c
      let notice := fun k ctx detail value => ({ kind := k, ctx := ctx, tag := none, detail := detail, value := value, stamp := s.time.mono } : Notice)
      let seals := x.inFlight = 1 ∧ x.state = .sealing
      let closes := x.inFlight = 1 ∧ x.state = .closing ∧ hasJob s c = false
      let drained := .single ∈ s.req.snapshot ∧ ∀ o ∈ s.req.snapshot, o = .single
      ∃ t, exec (.statusFromDrive outcome detail) s = .next t ∧
        ctxOf t c =
          (if closes then Context.blank
          else { x with inFlight := x.inFlight - 1, state := if seals then .sealed else x.state }) ∧
        (∀ d, d ≠ c → ctxOf t d = ctxOf s d) ∧
        (closes → (∀ f r, regionOf t f = some r ↔ regionOf s f = some r ∧ r.ctx ≠ c) ∧ ringOf t c = none) ∧
        (¬closes → t.regions = s.regions ∧ t.rings = s.rings) ∧
        t.req.snapshot = s.req.snapshot.filter (fun o => o ≠ .single) ∧
        (drained → t.req.drainPending = false) ∧ (¬drained → t.req.drainPending = s.req.drainPending) ∧
        t.nq.notices = s.nq.notices
          ++ (if 0 < e.withheld then [notice .withheld e.firstCtx (e.firstReason.map reasonCode) e.withheld] else [])
          ++ (if seals then [notice .sealed (some c) none
                (if x.cls = .shift then ((ringOf s c).map (·.commit)).getD 0 else x.frontier % 4294967296)]
              else if closes then [notice .closed (some c) none x.withheld] else [])
          ++ (if drained then [notice .drained none none s.req.snapshotSize] else [])) ∧
    ((outcome = 0#8 ∨ ∀ e, s.trk.single = some e → e.state ≠ .forwarded ∧ e.state ≠ .burst) →
      exec (.statusFromDrive outcome detail) s = .next (raiseFault .protocol s))

/-- A STATUS of the drive is matched to the record at the head of the acceptance list, which is removed: ACCEPTED marks a RELAY record's entry answered and is
relayed, and a SWALLOW record's is consumed; ERROR ends the entry, relayed or turned into a DONE that fails the tag; with the entry already
ended it is discarded; OK is a slip (R14, R30). -/
def Obligations.AcceptancesMatched : Prop :=
  ∀ (outcome detail : Byte) (r : AcceptRecord) (rest : List AcceptRecord) (s : State),
    WellFormed (.statusFromDrive outcome detail) = true → TakesDrive s → s.trk.accepts = r :: rest →
    (outcome = 1#8 → exec (.statusFromDrive outcome detail) s = .next (raiseFault .protocol s)) ∧
    (outcome ≠ 1#8 → ∃ t, exec (.statusFromDrive outcome detail) s = .next t ∧ (∃ m, t.trk.accepts = rest ++ m) ∧
      (entryOf s (.tag r.tag) = none → t.up.sendList = s.up.sendList ∧ entryOf t (.tag r.tag) = none) ∧
      ∀ e, entryOf s (.tag r.tag) = some e →
        (outcome = 0#8 → r.action = .relay →
          entryOf t (.tag r.tag) = some { e with answered := true } ∧
          t.up.sendList = s.up.sendList ++ [fromDrive (statusOf outcome detail)]) ∧
        (outcome = 0#8 → r.action = .swallow → entryOf t (.tag r.tag) = some e ∧ t.up.sendList = s.up.sendList) ∧
        (outcome = 2#8 → entryOf t (.tag r.tag) = none ∧
          t.up.sendList = s.up.sendList ++ [
            match r.action with
            | .relay => fromDrive (statusOf outcome detail)
            | .swallow => fromPart (.done
                { flags := 0#8, byte3 := 0#8, doneSet := 0#32, failed := [(BitVec.ofNat 8 r.tag, detail)] })]))

/-- A DONE of the drive with no abort flag ends every entry it names that is with the drive and changes no other tag's use; where it names one answered tag, short
of nothing, in its done set alone, it is relayed as it came (R14, R32, R33, R35). The end of a ring write reports its outcome: its span becomes DONE or FAILED,
the spans at the front that are either leave the queue and move the commit point over their counts, each FAILED one with the notice RING_VOID, and the
oldest HELD spans are released up to four FORWARDED, their commands sent to the drive (R109, R111, R112, R113). -/
def Obligations.DoneEndsEntries : Prop :=
  ∀ (d : DoneFrame) (s : State), WellFormed (.doneFromDrive d) = true → TakesDrive s → d.flags.getLsbD 0 = false →
    (∃ t, exec (.doneFromDrive d) s = .next t ∧
      (∀ k : Tag, (d.doneSet.getLsbD k = true ∨ ∃ p ∈ d.failed, pairTag p = k) →
        (∀ e, entryOf s (.tag k) = some e → e.state = .forwarded ∨ e.state = .burst) → entryOf t (.tag k) = none) ∧
      (∀ k : Tag, d.doneSet.getLsbD k = false → (∀ p ∈ d.failed, pairTag p ≠ k) →
        (entryOf t (.tag k)).isSome = (entryOf s (.tag k)).isSome)) ∧
    (∀ (k : Tag) (e : Entry), d.doneSet = BitVec.twoPow 32 k → d.failed = [] → entryOf s (.tag k) = some e →
      e.state = .forwarded → e.passed = cmdCount e.cmd → e.partFailed = none → (∀ r ∈ s.trk.accepts, r.tag ≠ k) →
      ∃ t, exec (.doneFromDrive d) s = .next t ∧ entryOf t (.tag k) = none ∧
        t.up.sendList = s.up.sendList ++ [fromDrive (.done d)] ∧ t.faults = s.faults) ∧
    ∀ (k : Tag) (e : Entry) (c : CtxSlot) (g : Machine.Ring) (l m : List Span) (x : Span) (ok : Bool),
      (if ok then d.doneSet = BitVec.twoPow 32 k ∧ d.failed = [] ∧ e.passed = cmdCount e.cmd ∧ e.partFailed = none
        else d.doneSet = 0#32 ∧ ∃ detail, d.failed = [(BitVec.ofNat 8 k, detail)]) →
      entryOf s (.tag k) = some e → e.state = .forwarded → e.ringWrite = some c → (ctxOf s c).state ≠ .closing →
      ringOf s c = some g → g.spans = l ++ x :: m → x.owner = .tag k → x.status = .forwarded →
      (∀ y ∈ l, y.owner = .tag k → y.status ≠ .forwarded) →
      let ended := fun y : Span => y.status = .done ∨ y.status = .failed
      let spans := l ++ { x with status := if ok then .done else .failed } :: m
      let gone := spans.takeWhile ended
      let rest := spans.dropWhile ended
      let point := gone.foldl
        (fun p y => if g.length ≤ p.1 + y.count then (0, p.2 + 1) else (p.1 + y.count, p.2)) (g.commit, g.commitLap)
      let forwarded := (rest.filter fun y => y.status = .forwarded).length
      let freed := fun j (y : Span) => y.status = .held ∧
        forwarded + ((rest.take j).filter fun z => z.status = .held).length < 4
      let voids := (gone.filter fun y => y.status = .failed).map fun y =>
        ({ kind := .ringVoid, ctx := some c, tag := ownerTag y.owner, detail := none, value := y.count, stamp := s.time.mono } : Notice)
      ∃ t, exec (.doneFromDrive d) s = .next t ∧
        (∃ r, ringOf t c = some r ∧ r = { g with commit := point.1, commitLap := point.2, spans := r.spans } ∧
          r.spans.length = rest.length ∧
          ∀ j y, rest[j]? = some y → (freed j y → r.spans[j]? = some { y with status := .forwarded }) ∧
            (¬freed j y → r.spans[j]? = some y)) ∧
        (s.nq.notices.length + gone.length ≤ 32 → ∃ tail, t.nq.notices = s.nq.notices ++ voids ++ tail) ∧
        ∀ j y q a, rest[j]? = some y → freed j y → y.owner = .tag q → q ≠ k → entryOf s (.tag q) = some a → a.state = .held →
          a.queueWait = false → entryOf t (.tag q) = some { a with state := .forwarded, ringWindow := false } ∧
            .command a.cmd ∈ t.drv.sent

/-- A DONE with the abort flag ends every queued entry, empties the acceptance list and rewinds every ring (R36, R115). A rewind, there and at LINK_RESET and
DRIVE_LINK_LOST, draws the issue point back to the commit point with its lap, empties the span queue and queues RING_REWOUND with the sectors discarded, unless
the queue is full; a ring with no span is left as it is (R115). -/
def Obligations.AbortEndsQueuedEntries : Prop :=
  (∀ (d : DoneFrame) (s : State), WellFormed (.doneFromDrive d) = true → TakesDrive s → d.flags.getLsbD 0 = true →
    ∃ t, exec (.doneFromDrive d) s = .next t ∧ (∀ k : Tag, entryOf t (.tag k) = none) ∧ t.trk.accepts = [] ∧
      (∀ c r, ringOf t c = some r → r.spans = []) ∧ t.trk.history = s.trk.history) ∧
  ∀ (i : Instr) (s : State), Quiet s →
    i = .linkReset ∨ i = .driveLinkLost ∨
      (TakesDrive s ∧ ∃ d, i = .doneFromDrive d ∧ d.flags.getLsbD 0 = true ∧ d.doneSet = 0#32 ∧ d.failed = []) →
    ∃ t, exec i s = .next t ∧
      ∀ c g, ringOf s c = some g → (ctxOf s c).state ≠ .closing →
        (g.spans = [] → ringOf t c = some g) ∧
        (g.spans ≠ [] → ringOf t c = some { g with spans := [], issue := g.commit, issueLap := g.commitLap } ∧
          (t.nq.overflow = true ∨
            { kind := .ringRewound, ctx := some c, tag := none, detail := none, value := (g.spans.map (·.count)).sum,
              stamp := s.time.mono } ∈ t.nq.notices))

/-- The transmit arbiter: with the link DOWN, nothing it may choose, or a burst open whose next frame is not listed, it sends nothing; else it sends the frame that has
stood longest among those it may choose, and a READY opens the burst of its direction (R4, R5, R8). -/
def Obligations.ArbiterSendsOldestEligible : Prop :=
  ∀ (s : State), Quiet s →
    let waits := fun i : SendItem => ∃ r, i.frame = .ready r ∧ readyDir r = .toDrive ∧ s.up.inBurst ≠ none
    (s.up.link = .down → exec .sendUpstreamFrame s = .next s) ∧
    (s.up.link = .up → s.up.outBurst = none → (∀ i ∈ s.up.sendList, waits i) → exec .sendUpstreamFrame s = .next s) ∧
    (∀ u, s.up.link = .up → s.up.outBurst = some u →
      (∀ i ∈ s.up.sendList, ∀ d, i.frame = .data d → i.owner ≠ some u.owner ∨ i.relayed = u.bridge) →
      exec .sendUpstreamFrame s = .next s) ∧
    ∀ (l m : List SendItem) (i : SendItem), s.up.link = .up → s.up.sendList = l ++ i :: m →
      let rest := { s with up := { s.up with sendList := l ++ m, sent := s.up.sent ++ [i.frame] } }
      (s.up.outBurst = none → (∀ j ∈ l, waits j) →
        ((∃ t, i.frame = .status t) ∨ (∃ d, i.frame = .done d) → exec .sendUpstreamFrame s = .next rest) ∧
        (∀ r o, i.frame = .ready r → i.owner = some o → readyDir r = .toUpstream → i.relayed = true →
          exec .sendUpstreamFrame s = .next
            { rest with up := { rest.up with outBurst := some { owner := o, left := readyCount r, bridge := false } } }) ∧
        (∀ r o, i.frame = .ready r → i.owner = some o → readyDir r = .toDrive → s.up.inBurst = none →
          exec .sendUpstreamFrame s = .next
            { rest with up := { rest.up with
              inBurst := some { owner := o, left := readyCount r, bridge := !i.relayed }, discard := 0 } })) ∧
      (∀ u d, s.up.outBurst = some u → u.bridge = false → i.frame = .data d → i.owner = some u.owner → i.relayed = true →
        (∀ j ∈ l, ∀ c, j.frame = .data c → j.owner ≠ some u.owner ∨ j.relayed = false) →
        exec .sendUpstreamFrame s = .next
          { rest with up := { rest.up with
            outBurst := if u.left ≤ d.sectors.length then none else some { u with left := u.left - d.sectors.length } } })

/-- A bridge's reply: when its reply READY is sent the outbound burst opens and the reply block becomes DATA on the send list; when that DATA is sent STATUS OK is listed
and the bridge's entry ends (R5, R173). -/
def Obligations.BridgeReplySent : Prop :=
  ∀ (block : Sector) (rest : List SendItem) (s : State), Quiet s → s.up.link = .up →
    let reply : Frame := .data { bytes23 := 0#16, sectors := [block] }
    (s.up.outBurst = none → s.up.sendList = bridgeReadyFrame 1#8 :: rest → s.req.reply = some block →
      exec .sendUpstreamFrame s = .next
        { s with
          up := { s.up with
            outBurst := some { owner := .single, left := 1, bridge := true }
            sendList := rest ++ [{ frame := reply, owner := some .single, relayed := false }]
            sent := s.up.sent ++ [(bridgeReadyFrame 1#8).frame] }
          req := { s.req with reply := none } }) ∧
    (s.up.outBurst = some { owner := .single, left := 1, bridge := true } →
      s.up.sendList = { frame := reply, owner := some .single, relayed := false } :: rest →
      exec .sendUpstreamFrame s = .next
        { s with
          up := { s.up with
            outBurst := none, sendList := rest ++ [fromPart (statusOf 1#8 0#8)], sent := s.up.sent ++ [reply] }
          trk := { s.trk with single := none } })

/-! ### The Transform Engine -/

/-- The engine's arbiter: a running job is let run; else the SETUP queued longest starts, else a STREAM job whose key slot is READY, a retried one before the others and
each in queue order, moving its key slot to the most recent end, else the UNWRAP or CHECK queued longest (R129, R133, R135). -/
def Obligations.EngineArbiterOrder : Prop :=
  ∀ (s : State),
    let ready := fun j : StreamJob => ∃ k x w, j.keySlot = some k ∧ s.keys.slots.get k = some x ∧ x.phase = .ready w
    (s.eng.running.isSome = true → exec .engineJobStart s = .next s) ∧
    (s.eng.running = none →
      (∀ j rest, s.eng.setups = j :: rest → exec .engineJobStart s = .next
        { s with eng := { s.eng with setups := rest, running := some (.setup j false) } }) ∧
      (s.eng.setups = [] →
        (∀ (l m : List StreamJob) (j : StreamJob) (k : KeyNo), s.eng.streams = l ++ j :: m → ready j → j.keySlot = some k →
          (∀ i ∈ l, ready i → j.retried = true ∧ i.retried = false) → (∀ i ∈ m, ready i → i.retried = true → j.retried = true) →
          exec .engineJobStart s = .next
            { s with
              eng := { s.eng with
                streams := s.eng.streams.filter fun i => i.pool ≠ j.pool, running := some (.stream j false) }
              keys := { s.keys with lru := (s.keys.lru.filter fun i => i ≠ k) ++ [k] } }) ∧
        ((∀ i ∈ s.eng.streams, ¬ready i) →
          (∀ j rest, s.eng.others = j :: rest → exec .engineJobStart s = .next
            { s with eng := { s.eng with others := rest, running := some (.other j) } }) ∧
          (s.eng.others = [] → exec .engineJobStart s = .next s))))

/-- A SETUP completion makes its slot READY with the context's content key, where the context is not closing and no context waits for a slot; a discarded one changes
no slot, and with no SETUP running the event changes nothing (R134, R140). A STREAM completion hands its ASSIGNED pool slot the keystream of its context's
serial, lap and logical sector under the slot's working key, and lowers the key slot's users by 1; a discarded one lowers the users alone (R57, R135, R148). -/
def Obligations.SetupAndStreamComplete : Prop :=
  (∀ (s : State),
    (∀ (j : SetupJob) (x : KeySlot), s.eng.running = some (.setup j false) → s.keys.slots.get j.slot = some x →
      (ctxOf s j.ctx).state ≠ .closing → s.keys.waiting = [] →
      exec .setupComplete s = .next
        { s with
          eng := { s.eng with running := none }
          keys := { s.keys with
            slots := s.keys.slots.set j.slot (some { x with phase := .ready (ctxOf s j.ctx).key }) } }) ∧
    (∀ j, s.eng.running = some (.setup j true) →
      exec .setupComplete s = .next { s with eng := { s.eng with running := none } }) ∧
    ((∀ j d, s.eng.running ≠ some (.setup j d)) → exec .setupComplete s = .next s)) ∧
  ∀ (s : State) (j : StreamJob) (k : KeyNo) (x : KeySlot) (w : Block) (d : Bool) (y : PoolSlot),
    s.eng.running = some (.stream j d) → j.keySlot = some k → s.keys.slots.get k = some x → x.phase = .ready w →
    s.pool.slots.get j.pool = some y → y.phase = .assigned → s.keys.waiting = [] → Quiet s →
    exec .streamComplete s = .next
      { s with
        eng := { s.eng with running := none }
        keys := { s.keys with slots := s.keys.slots.set k (some { x with users := x.users - 1 }) }
        pool :=
          if d then s.pool
          else
            { s.pool with
              slots := s.pool.slots.set j.pool
                (some { y with phase := .ready (keystream w (ctxOf s j.ctx).serial j.lap j.logical) }) } }

/-- Of a job not due for discard: a first parity failure returns the key slot to SETUP with its users and queues its SETUP, requeues the job as retried and raises
KEY_PARITY; a second faults the pool slot, lowers the users and raises TRANSFORM instead (R137, R138). That the requeued job stands at the tail of the list, where
R137 says the head of the STREAM jobs, is the model's reading: its arbiter takes retried jobs first, in the list's order (log 33); and so is it that no waiting
context is given the failing slot (log 25). -/
def Obligations.ParityFailuresHandled : Prop :=
  ∀ (s : State) (j : StreamJob) (k : KeyNo) (x : KeySlot) (y : PoolSlot),
    s.eng.running = some (.stream j false) → j.keySlot = some k → s.keys.slots.get k = some x →
    s.pool.slots.get j.pool = some y → y.phase = .assigned → Quiet s →
    let setups := s.eng.setups ++ [{ slot := k, ctx := x.ctx }]
    (j.retried = false → exec .parityFailure s = .next (raiseFault .keyParity
      { s with
        eng := { s.eng with
          setups := setups, streams := s.eng.streams ++ [{ j with retried := true }], running := none }
        keys := { s.keys with slots := s.keys.slots.set k (some { x with phase := .setup }) } })) ∧
    (j.retried = true → exec .parityFailure s = .next (raiseFault .transform
      { s with
        eng := { s.eng with setups := setups, running := none }
        keys := { s.keys with slots := s.keys.slots.set k (some { x with phase := .setup, users := x.users - 1 }) }
        pool := { s.pool with slots := s.pool.slots.set j.pool (some { y with phase := .faulted }) } }))

/-- An UNWRAP completion at a LOADING slot: a match places the recovered key, computes E, opens the context and queues CONTEXT_READY; a mismatch empties the slot and queues
KEY_REJECTED, raising no fault (R84, R85, R86, R126, R198). A receipt CHECK completion makes a PENDING receipt READY with the check value over the serial, T0 and E
(R96, R125, R198). Where the context has been closed while its job ran, the result is discarded, with neither CONTEXT_READY nor KEY_REJECTED and no receipt: with nothing in
flight and no other job of it the close completes, and else nothing changes (R92, R94, R96). -/
def Obligations.UnwrapAndReceiptComplete : Prop :=
  ∀ (s : State) (c : CtxSlot),
    let x := ctxOf s c
    let idle := { s with eng := { s.eng with running := none } }
    let waits := x.inFlight ≠ 0 ∨ hasJob idle c = true
    let discarded := fun i : Instr =>
      (x.state = .closing → ¬waits → ∃ t, exec i s = .next t ∧ ClosedFrom c idle t) ∧
      (x.state = .closing → waits → exec i s = .next idle)
    (∀ b, s.eng.running = some (.other (.unwrap c b)) →
      let check := Config.checkFunction Config.unitKey
        ([0x01#8] ++ bytesLE 6 b.serial ++ [b.cls, b.opening] ++ bytesLE 4 b.notAfter ++ bytesLE 4 b.window
          ++ bytesLE 16 b.wrapValue ++ bytesLE 16 b.maskedKey)
      let low := x.serial.toNat % 4294967296
      let loaded : Context := { x with
        key := b.maskedKey ^^^ Config.blockTransform Config.unitKey b.wrapValue
        expiry := if x.cls = .timed then x.notAfter else none
        state := if x.opening = .record then .recording else .sealed }
      (x.state = .loading → b.check = check → CompareLaw s →
        ∃ t, exec .unwrapComplete s = .next t ∧ (∀ d, ctxOf t d = if d = c then loaded else ctxOf s d) ∧
          t.time = { s.time with compare := compareValue t.contexts } ∧ t.faults = s.faults ∧
          t.nq = (queueNotice .contextReady (some c) none none low idle).nq ∧ t.eng = idle.eng) ∧
      (x.state = .loading → b.check ≠ check →
        exec .unwrapComplete s = .next
          { queueNotice .keyRejected (some c) none none low idle with contexts := s.contexts.set c .blank }) ∧
      discarded .unwrapComplete) ∧
    ∀ (serial : BitVec 48) (t0 e : Nat), s.eng.running = some (.other (.receipt c serial t0 e)) →
      let value := Config.checkFunction Config.unitKey
        ([0x03#8] ++ bytesLE 6 serial ++ bytesLE 4 (BitVec.ofNat 32 t0) ++ bytesLE 4 (BitVec.ofNat 32 e))
      (x.receipt = .pending → x.state ≠ .closing → exec .receiptCheckComplete s = .next
        { idle with contexts := s.contexts.set c { x with receipt := .ready value } }) ∧
      (x.receipt ≠ .pending → discarded .receiptCheckComplete)

/-- The protected sectors of a burst, from its opening to their passage. At a matched READY each is allocated a pool slot and a STREAM job, in offset order, as far
as slots are FREE and the command holds fewer than L, the rest left unserved; in lockdown all are marked faulted (R144, R145). A slot freed by settling, and an
accepted WRITE_SETTINGS under its new L, serve the unserved ones again (R146, R147). A DATA frame with a sector not yet settled is held, its READY and FAULTED slots
settled and freed; with every sector settled it passes, each combined with its keystream or sent as zeros (R9, R149, R150). The completion of the STREAM job that the
last sector waits for lets the held frame pass in the same step (R148, R149; log 4). -/
def Obligations.ProtectedSectorsServed : Prop :=
  (∀ (r : ReadyFrame) (e : Entry) (s : State), WellFormed (.readyFromDrive r) = true → TakesDrive s → s.drv.burst = none →
    let o := readyOwner r
    let first := r.offset.toNat
    entryOf s o = some e → e.state = .forwarded → kindAllows e.kind (readyDir r) = true →
    first + readyCount r ≤ cmdCount e.cmd →
    let needy := ((List.range (readyCount r)).map (first + ·)).filter fun off => (protectedAt e off).isSome
    ∃ t, exec (.readyFromDrive r) s = .next t ∧
      (s.faults.lockdown = true → t.pool = { s.pool with unserved := [], marked := needy, settled := [] }) ∧
      (s.faults.lockdown = false → t.pool.marked = [] ∧ Allocated o e needy s.req.lookahead s t)) ∧
  (∀ (p : SettingsParams) (b : DriveBurst) (e : Entry) (s : State), AwaitsBlock s → s.req.locked = false → s.faults.lockdown = false →
    (∀ v ∈ [p.keyParity, p.transform, p.protocol, p.driveLost], v.toNat ≤ 1) → s.drv.burst = some b → entryOf s b.owner = some e →
    (∀ u ∈ s.pool.unserved, (protectedAt e u).isSome = true) →
    ∃ t, exec (.writeSettings p) s = .next t ∧ Allocated b.owner e s.pool.unserved (max 1 (min p.lookahead.toNat 16)) s t) ∧
  ∀ (dir : Dir) (d : DataFrame) (o : Owner) (e : Entry) (b : OpenBurst) (s : State),
    let off := fun i => b.first + (b.count - b.left) + i
    let n := d.sectors.length
    1 ≤ n → n ≤ 16 → n ≤ b.left → b.left ≤ b.count → entryOf s o = some e → e.openBurst = some b → BurstStands dir o b s →
    b.first + b.count ≤ cmdCount e.cmd → e.kind ≠ .other →
    let slot := fun x => (slotFor s o x).bind fun p => s.pool.slots.get p
    (∀ p y, Quiet s → s.pool.settled = [] → n = 1 → 1 < b.left → (protectedAt e (off 0)).isSome = true → off 0 ∉ s.pool.marked →
      slotFor s o (off 0) = some p → s.pool.slots.get p = some y → y.phase ≠ .assigned →
      (∀ u ∈ s.pool.unserved, (protectedAt e u).isSome = true) →
      ∃ t, exec (dataRow dir d) s = .next t ∧
        Allocated o e s.pool.unserved s.req.lookahead { s with pool := { s.pool with slots := s.pool.slots.set p none } } t) ∧
    (Quiet s → s.pool.settled = [] → s.pool.unserved = [] →
      let ready := fun x k => x ∉ s.pool.marked ∧ (slot x).map (·.phase) = some (.ready k)
      let faulted := fun x => x ∈ s.pool.marked ∨ (slot x).map (·.phase) = some .faulted
      let open_ := fun x => (protectedAt e x).isSome = true ∧ (∀ k, ¬ready x k) ∧ ¬faulted x
      ∃ t, exec (dataRow dir d) s = .next t ∧
        (∀ i x p, i < n → x = off i → (protectedAt e x).isSome = true → x ∉ s.pool.marked → ¬open_ x → slotFor s o x = some p →
          t.pool.slots.get p = none) ∧
        ((∃ i, i < n ∧ open_ (off i)) → standing dir t = [.data d] ∧ BurstStands dir o b t ∧ entryOf t o = some e ∧
          t.up.sendList = s.up.sendList ∧ t.drv.sent = s.drv.sent ∧ t.contexts = s.contexts ∧
          ∀ i, i < n → (protectedAt e (off i)).isSome = true →
            (∀ k, ready (off i) k → settledWith t (off i) = some k) ∧
            (faulted (off i) → { offset := off i, keystream := none } ∈ t.pool.settled)) ∧
        ((∀ i, i < n → ¬open_ (off i)) → standing dir t = [] ∧ ∃ out, PassedOn dir o d out s t ∧ out.length = n ∧
          ∀ i w, d.sectors[i]? = some w →
            (∀ k, ready (off i) k → out[i]? = some (sectorSent e (fun _ => some k) (off i) w)) ∧
            ((∀ k, ¬ready (off i) k) → out[i]? = some (sectorSent e (fun _ => none) (off i) w)))) ∧
    ∀ (j : StreamJob) (k : KeyNo) (y : PoolSlot) (key : KeySlot) (w : Block) (m : Nat),
      s.pool.unserved = [] → standing dir s = [.data d] → (∀ dir', dir' ≠ dir → standing dir' s = []) → m < n →
      s.eng.running = some (.stream j false) → j.keySlot = some k → s.keys.slots.get k = some key → key.phase = .ready w →
      s.pool.slots.get j.pool = some y → y.phase = .assigned → slotFor s o (off m) = some j.pool → off m ∉ s.pool.marked →
      (protectedAt e (off m)).isSome = true → isSettled s (off m) = false →
      (∀ i, i < n → i ≠ m → (protectedAt e (off i)).isSome = true → isSettled s (off i) = true) →
      ∃ t, exec .streamComplete s = .next t ∧ standing dir t = [] ∧ t.pool.slots.get j.pool = none ∧
        ∃ out, PassedOn dir o d out s t ∧ out.length = n ∧ ∀ i w', d.sectors[i]? = some w' →
          out[i]? = some (sectorSent e
            (fun x => if i = m then some (keystream w (ctxOf s j.ctx).serial j.lap j.logical) else settledWith s x) (off i) w')

/-- A time-token CHECK completion ends the pending token and acts by the table of R163: a mismatch and a rollback refuse it, a token at most 300 seconds behind is held, any
other sets rights time; where no expiry has passed, that is all (R125, R163, R164, R167). -/
def Obligations.TokenSetsRightsTime : Prop :=
  ∀ (s : State) (time : BitVec 32) (check : Block), s.eng.running = some (.other (.token time check)) →
    let c := s.time.rights
    let n := time.toNat
    let valid := check = Config.checkFunction Config.unitKey ([0x02#8] ++ bytesLE 4 time)
    let idle := { s with eng := { s.eng with running := none }, time := { s.time with token := none } }
    (∀ v, s.time.compare = some v → max c n ≤ v) →
    (¬valid → exec .timeTokenCheckComplete s = .next (queueNotice .timeRefused none none (some .check) n idle)) ∧
    (valid → s.time.rightsSet = false ∨ c ≤ n → exec .timeTokenCheckComplete s = .next
      (queueNotice .timeSet none none none n { idle with time := { idle.time with rightsSet := true, rights := n } })) ∧
    (valid → s.time.rightsSet = true → n < c → c ≤ n + 300 → exec .timeTokenCheckComplete s = .next
      (queueNotice .timeHeld none none none (c - n) idle)) ∧
    (valid → s.time.rightsSet = true → n + 300 < c → exec .timeTokenCheckComplete s = .next
      (queueNotice .timeRefused none none (some .rollback) n idle))

/-! ### Bridge requests -/

/-- LOAD_CONTEXT: the checks of R82 in order; accepted, the slot is LOADING with the blob's fields and an UNWRAP job is queued (R82, R83, R196). -/
def Obligations.LoadContextQueuesUnwrap : Prop :=
  ∀ (slot : Byte) (b : Blob) (s : State), AwaitsBlock s →
    let refused := fun code => exec (.loadContext slot b) s = .next (answered (errorFrame code) s)
    (16 ≤ slot.toNat → refused .outOfRange) ∧
    ∀ c : CtxSlot, c.val = slot.toNat →
      let taken := ∃ d, d ≠ c ∧ (ctxOf s d).state ≠ .empty ∧ (ctxOf s d).serial = b.serial
      let rights := if b.cls = 1#8 then b.notAfter ≠ 0#32 ∨ b.window ≠ 0#32 else b.notAfter = 0#32 ∧ b.window = 0#32
      let proper := b.cls.toNat ≤ 2 ∧ b.opening.toNat ≤ 1 ∧ rights ∧ (b.cls = 2#8 → b.opening = 0#8)
      ((ctxOf s c).state ≠ .empty → refused .slotTaken) ∧
      ((ctxOf s c).state = .empty → taken → refused .duplicate) ∧
      ((ctxOf s c).state = .empty → ¬taken → s.faults.lockdown = true → refused .lockdown) ∧
      ((ctxOf s c).state = .empty → ¬taken → s.faults.lockdown = false → ¬proper → refused .malformed) ∧
      ((ctxOf s c).state = .empty → ¬taken → s.faults.lockdown = false → proper →
        exec (.loadContext slot b) s = .next (answered okFrame
          { s with
            contexts := s.contexts.set c
              { state := .loading
                cls := if b.cls = 0#8 then .keep else if b.cls = 1#8 then .timed else .shift
                opening := if b.opening = 0#8 then .record else .playback
                serial := b.serial, key := 0, notAfter := if b.notAfter = 0#32 then none else some b.notAfter.toNat
                window := b.window.toNat, t0 := none, expiry := none, frontier := 0, inFlight := 0, withheld := 0
                pin := false, receipt := .absent }
            eng := { s.eng with others := s.eng.others ++ [.unwrap c b] } }))

/-- SEAL_CONTEXT: a RECORDING context becomes SEALED with its notice when nothing is in flight, else SEALING; any other state is WRONG_STATE (R80, R88). -/
def Obligations.SealContextSeals : Prop :=
  ∀ (slot : Byte) (s : State), AwaitsBlock s →
    (16 ≤ slot.toNat → exec (.sealContext slot) s = .next (answered (errorFrame .outOfRange) s)) ∧
    ∀ c : CtxSlot, c.val = slot.toNat →
      let x := ctxOf s c
      let value := if x.cls = .shift then ((ringOf s c).map (·.commit)).getD 0 else x.frontier % 4294967296
      (x.state ≠ .recording → exec (.sealContext slot) s = .next (answered (errorFrame .wrongState) s)) ∧
      (x.state = .recording → x.inFlight = 0 → exec (.sealContext slot) s = .next (answered okFrame
        (queueNotice .sealed (some c) none none value
          { s with contexts := s.contexts.set c { x with state := .sealed } }))) ∧
      (x.state = .recording → x.inFlight ≠ 0 → exec (.sealContext slot) s = .next (answered okFrame
        { s with contexts := s.contexts.set c { x with state := .sealing } }))

/-- CLOSE_CONTEXT: an EMPTY slot is WRONG_STATE and a CLOSING one is left as it is; any other, with work in flight, becomes CLOSING and unpinned; with nothing in flight and no job,
its close completes: regions, ring and key slot go, CLOSED gives its withheld count, and the slot is EMPTY (R92, R94). -/
def Obligations.CloseContextCloses : Prop :=
  ∀ (slot : Byte) (s : State), AwaitsBlock s →
    (16 ≤ slot.toNat → exec (.closeContext slot) s = .next (answered (errorFrame .outOfRange) s)) ∧
    ∀ c : CtxSlot, c.val = slot.toNat →
      let x := ctxOf s c
      (x.state = .empty → exec (.closeContext slot) s = .next (answered (errorFrame .wrongState) s)) ∧
      (x.state = .closing → exec (.closeContext slot) s = .next (answered okFrame s)) ∧
      (x.state ≠ .empty → x.state ≠ .closing → x.inFlight ≠ 0 →
        ∃ t, exec (.closeContext slot) s = .next t ∧
          ctxOf t c =
            { x with
              state := .closing, pin := false
              receipt := match x.receipt with
                | .pending => .absent
                | r => r } ∧
          t.up.sendList = s.up.sendList ++ [fromPart (statusOf 1#8 0#8)] ∧ t.trk.single = none ∧
          t.eng.others = s.eng.others.filter (fun j => !ownJob c j) ∧ t.regions = s.regions ∧ t.rings = s.rings ∧
          t.nq = s.nq) ∧
      (x.state ≠ .empty → x.state ≠ .closing → x.inFlight = 0 → (∀ j ∈ s.eng.setups, j.ctx ≠ c) →
        (∀ r, s.eng.running = some r → runningOwnJob c r = false) → s.keys.waiting = [] → s.nq.notices.length < 32 →
        ∃ t, exec (.closeContext slot) s = .next t ∧ ctxOf t c = Context.blank ∧ (∀ d, d ≠ c → ctxOf t d = ctxOf s d) ∧
          (∀ e r, regionOf t e = some r ↔ regionOf s e = some r ∧ r.ctx ≠ c) ∧ ringOf t c = none ∧
          (∀ d, d ≠ c → ringOf t d = ringOf s d) ∧ (KeyLaw s → ∀ k y, t.keys.slots.get k = some y → y.ctx ≠ c) ∧
          t.nq.notices = s.nq.notices ++
            [{ kind := .closed, ctx := some c, tag := none, detail := none, value := x.withheld, stamp := s.time.mono }] ∧
          t.up.sendList = s.up.sendList ++ [fromPart (statusOf 1#8 0#8)] ∧ t.trk.single = none)

/-- The requests that only read are answered by a reply READY with the block taken as the state stands, and change nothing else; a slot above 15 or an entry above 127
is OUT_OF_RANGE, and a receipt is WRONG_STATE unless a TIMED context is loaded (R27, R76, R95, R97, R173, R180). A block whose code names no request, 0x0000
or 0x0015 to 0xFFFF, is answered MALFORMED (R172, R196). -/
def Obligations.ReadRequestsReply : Prop :=
  (∀ (s : State), AwaitsBlock s →
    exec .readStatus s = .next (asked (statusReply s) s) ∧
    exec .readHistory s = .next (asked (historyReply s.trk.history) s) ∧
    (∀ b : Byte,
      (16 ≤ b.toNat →
        exec (.readContext b) s = .next (answered (errorFrame .outOfRange) s) ∧
        exec (.readReceipt b) s = .next (answered (errorFrame .outOfRange) s)) ∧
      (128 ≤ b.toNat → exec (.readRegions b) s = .next (answered (errorFrame .outOfRange) s)) ∧
      (∀ e : EntryNo, e.val = b.toNat → exec (.readRegions b) s = .next (asked (regionsReply s e) s)) ∧
      ∀ c : CtxSlot, c.val = b.toNat →
        let loaded := (ctxOf s c).state ≠ .empty ∧ (ctxOf s c).state ≠ .loading ∧ (ctxOf s c).cls = .timed
        exec (.readContext b) s = .next (asked (contextReply s c) s) ∧
        (loaded → exec (.readReceipt b) s = .next (asked (receiptReply s c) s)) ∧
        (¬loaded → exec (.readReceipt b) s = .next (answered (errorFrame .wrongState) s)))) ∧
  ∀ (block : Sector) (s : State), AwaitsBlock s →
    (WellFormed (.unknownRequestCode block) = true ↔
      block.extractLsb' 0 16 = 0#16 ∨ 21 ≤ (block.extractLsb' 0 16).toNat) ∧
    (WellFormed (.unknownRequestCode block) = true →
      exec (.unknownRequestCode block) s = .next (answered (errorFrame .malformed) s))

/-- What stands at the offsets of four replies (12.3). READ_STATUS: the unit mode, the clocks, the faults, the counts of key and pool slots and of contexts in each state, the
notices and every setting (R180, R141, R142; log 27). READ_CONTEXT: the context's record, its key state, its regions and its ring (R95; an EMPTY slot by log 16). READ_RECEIPT: the receipt
by its state (R97; its slot byte by log 36). READ_REGIONS: up to 16 entries from the start entry, free ones as zeros (R76; the enabled byte by log 35). Bytes that no
layout names are 0 (R197). -/
def Obligations.ReplyFields : Prop :=
  (∀ (s : State), SettingsLaw s → ClockLaw s → RecordsLaw s →
    let b := statusReply s
    let byte := fun off => (getField off 8 b).toNat
    let word := fun off => (getField off 32 b).toNat
    let count := fun P : Option KeySlot → Bool => ((List.finRange 8).filter fun k => P (s.keys.slots.get k)).length
    (getField 0 16 b).toNat = 16 ∧ byte 4 = (if s.faults.lockdown then 1 else 0) ∧ byte 5 = (if s.time.rightsSet then 1 else 0) ∧
    byte 6 = (if s.faults.cause = .powerOn then 0 else 1) ∧ byte 7 = (if s.req.drainPending then 1 else 0) ∧
    word 8 = s.time.rights ∧ word 12 = s.time.mono ∧
    (∀ k, (getField 16 8 b).getLsbD (faultBit k) =
      match k with
      | .keyParity => s.faults.set.keyParity
      | .transform => s.faults.set.transform
      | .protocol => s.faults.set.protocol
      | .driveLost => s.faults.set.driveLost) ∧
    byte 17 = (match s.faults.first with
      | none => 255
      | some k => faultBit k) ∧
    byte 18 = entriesInUse s ∧ byte 19 = ((List.finRange 64).filter fun p => (s.pool.slots.get p).isNone).length ∧
    byte 20 = count (·.isNone) ∧ byte 21 = count (·.any fun x => x.phase = .setup) ∧
    byte 22 = count (·.any fun x => x.phase ≠ .setup) ∧
    byte 23 = s.nq.notices.length ∧ byte 24 = (if s.nq.overflow then 1 else 0) ∧ byte 25 = (if s.req.locked then 1 else 0) ∧
    byte 26 = (if s.drv.link = .up then 0 else 1) ∧ byte 28 = s.req.lookahead ∧
    (∀ k, byte (30 + faultBit k) = if severityOf k s.req.severities = .lockdown then 1 else 0) ∧ word 36 = s.req.attentionSet.toNat ∧
    word 40 = s.req.divider ∧
    (∀ j t, [CtxState.empty, .loading, .recording, .sealing, .sealed, .expired, .closing][j]? = some t →
      byte (44 + j) = ((List.finRange 16).filter fun c => (ctxOf s c).state = t).length) ∧
    (∀ off ∈ [2, 3, 27, 29, 34, 35], byte off = 0) ∧ ∀ off, 51 ≤ off → off < 512 → byte off = 0) ∧
  ∀ (s : State) (c : CtxSlot) (e : EntryNo),
    let x := ctxOf s c
    (let b := contextReply s c
     let byte := fun off => getField off 8 b
     let nat := fun off n => BitVec.ofNat 8 n = byte off
     let word := fun off n => BitVec.ofNat 32 n = getField off 32 b
     getField 0 16 b = 4#16 ∧ (∀ off ∈ [2, 3, 14, 15, 47, 74, 75], byte off = 0#8) ∧ (∀ off, 80 ≤ off → off < 512 → byte off = 0#8) ∧
     (x.state = .empty → ∀ off, 4 ≤ off → off < 80 → byte off = 0#8) ∧
     (x.state ≠ .empty →
      nat 4 c ∧
      (∀ j : Nat, [CtxState.empty, .loading, .recording, .sealing, .sealed, .expired, .closing][j]? = some x.state → nat 5 j) ∧
      (∀ j : Nat, [CtxClass.keep, .timed, .shift][j]? = some x.cls → nat 6 j) ∧ nat 7 (if x.opening = .record then 0 else 1) ∧
      getField 8 48 b = x.serial ∧ word 16 (x.notAfter.getD 0) ∧ word 20 x.window ∧ word 24 (x.t0.getD 0) ∧
      word 28 (x.expiry.getD 0) ∧ (byte 32).getLsbD 0 = x.t0.isSome ∧ (byte 32).getLsbD 1 = x.expiry.isSome ∧
      (byte 32).getLsbD 2 = x.pin ∧ (byte 32).getLsbD 3 = (ringOf s c).isSome ∧ (byte 32).toNat < 16 ∧
      (slotOf s c = none → nat 33 (if c ∈ s.keys.waiting then 1 else 0)) ∧
      (∀ k y, slotOf s c = some k → s.keys.slots.get k = some y → nat 33 (if y.phase = .setup then 2 else 3)) ∧
      nat 34 (match x.receipt with
        | .absent => 0
        | .pending => 1
        | .ready _ => 2) ∧
      nat 35 x.inFlight ∧ word 36 x.withheld ∧ getField 40 48 b = BitVec.ofNat 48 (if x.cls = .shift then 0 else x.frontier) ∧
      nat 46 ((List.finRange 128).filter fun f => (regionOf s f).any fun r => r.ctx = c).length ∧
      (ringOf s c = none → ∀ off, 48 ≤ off → off < 80 → byte off = 0#8) ∧
      ∀ g, ringOf s c = some g → word 48 g.length ∧ word 52 g.issue ∧ word 56 g.issueLap ∧ word 60 g.commit ∧ word 64 g.commitLap ∧
        word 68 g.depth ∧ nat 72 g.spans.length ∧ nat 73 (g.spans.filter fun y => y.status = .forwarded).length ∧
        word 76 (g.spans.map (·.count)).sum)) ∧
    (let b := receiptReply s c
     let times := fun t0 e : Nat => getField 16 32 b = BitVec.ofNat 32 t0 ∧ getField 20 32 b = BitVec.ofNat 32 e
     getField 0 16 b = 5#16 ∧ getField 4 8 b = BitVec.ofNat 8 c ∧ getField 8 48 b = x.serial ∧
     (∀ off ∈ [2, 3, 6, 7, 14, 15], getField off 8 b = 0#8) ∧ (∀ off, 40 ≤ off → off < 512 → getField off 8 b = 0#8) ∧
     (x.receipt = .absent → getField 5 8 b = 0#8 ∧ times 0 0 ∧ getField 24 128 b = 0) ∧
     (x.receipt = .pending → getField 5 8 b = 1#8 ∧ times (x.t0.getD 0) (x.expiry.getD 0) ∧ getField 24 128 b = 0) ∧
     ∀ v, x.receipt = .ready v → getField 5 8 b = 2#8 ∧ times (x.t0.getD 0) (x.expiry.getD 0) ∧ getField 24 128 b = v) ∧
    (let b := regionsReply s e
     let n := min 16 (128 - e.val)
     getField 0 16 b = 9#16 ∧ getField 4 8 b = BitVec.ofNat 8 n ∧
     getField 6 16 b = BitVec.ofNat 16 ((List.finRange 128).filter fun f => (regionOf s f).isSome).length ∧
     (∀ off ∈ [2, 3, 5], getField off 8 b = 0#8) ∧ (∀ off, 8 + 24 * n ≤ off → off < 512 → getField off 8 b = 0#8) ∧
     ∀ (j : Nat) (f : EntryNo), j < n → f.val = e.val + j →
      let off := 8 + 24 * j
      getField off 8 b = BitVec.ofNat 8 f ∧ (∀ k ∈ [2, 3, 22, 23], getField (off + k) 8 b = 0#8) ∧
      (regionOf s f = none → ∀ k, 1 ≤ k → k < 24 → getField (off + k) 8 b = 0#8) ∧
      ∀ r, regionOf s f = some r → getField (off + 1) 8 b = 1#8 ∧ getField (off + 4) 48 b = BitVec.ofNat 48 r.base ∧
        getField (off + 10) 48 b = BitVec.ofNat 48 r.limit ∧ getField (off + 16) 8 b = BitVec.ofNat 8 r.ctx ∧
        getField (off + 17) 40 b = BitVec.ofNat 40 r.logicalStart)

/-- READ_HISTORY returns the number of records and the records from oldest to newest, zero beyond them, leaves the history as it is and is never refused (R27). -/
def Obligations.HistoryReplyFields : Prop :=
  ∀ (s : State), AwaitsBlock s → s.trk.history.length ≤ 8 →
    ∃ t b, exec .readHistory s = .next t ∧ t.trk.history = s.trk.history ∧ t.req.reply = some b ∧
      (getField 0 16 b).toNat = 19 ∧ (getField 4 8 b).toNat = s.trk.history.length ∧
      (∀ k r, s.trk.history[k]? = some r →
        getField (8 + 16 * k) 8 b = opByte r.kind ∧ getField (9 + 16 * k) 8 b = optByte r.tag ∧
        getField (10 + 16 * k) 8 b = codeByte r.code ∧ getField (12 + 16 * k) 48 b = r.lba ∧
        getField (18 + 16 * k) 16 b = BitVec.ofNat 16 r.count ∧ getField (20 + 16 * k) 32 b = BitVec.ofNat 32 r.stamp) ∧
      ∀ off, 8 + 16 * s.trk.history.length ≤ off → off < 512 → getField off 8 b = 0#8

/-- READ_NOTICES takes up to 15 notices from the head of the queue into its reply with the overflow flag as it stood, clears the flag and judges the line (R187,
R188, 12.3). That the flag's byte is 0 for clear and 1 for set is the model's choice (log 40). -/
def Obligations.NoticesLeaveQueue : Prop :=
  ∀ (s : State), AwaitsBlock s → RecordsLaw s →
    ∃ t b, exec .readNotices s = .next t ∧ t.nq.notices = s.nq.notices.drop 15 ∧ t.nq.overflow = false ∧
      (t.nq.attention = true ↔ s.faults.lockdown = true ∨
        ∃ n ∈ s.nq.notices.drop 15, s.req.attentionSet.getLsbD (noticeNumber n.kind) = true) ∧
      t.req.reply = some b ∧ (getField 0 16 b).toNat = 18 ∧ (getField 4 8 b).toNat = min 15 s.nq.notices.length ∧
      (getField 5 8 b).toNat = (if s.nq.overflow then 1 else 0) ∧
      (getField 6 8 b).toNat = s.nq.notices.length - 15 ∧
      ∀ k n, k < 15 → s.nq.notices[k]? = some n →
        (getField (8 + 16 * k) 8 b).toNat = noticeNumber n.kind ∧ getField (9 + 16 * k) 8 b = optByte n.ctx ∧
        getField (10 + 16 * k) 8 b = optByte n.tag ∧ getField (11 + 16 * k) 8 b = detailByte n.detail ∧
        getField (12 + 16 * k) 32 b = BitVec.ofNat 32 n.value ∧ getField (16 + 16 * k) 32 b = BitVec.ofNat 32 n.stamp

/-- CLEAR_UNIT is accepted while no queued entry is in use and no UNWRAP or CHECK job is queued or running: it empties contexts, regions, rings, key slots and the key-wait list,
withdraws SETUP jobs and leaves everything else; otherwise NOT_IDLE changes nothing (R98, R99). -/
def Obligations.ClearUnitEmptiesTables : Prop :=
  ∀ (s : State), AwaitsBlock s →
    let idle := (∀ k : Tag, entryOf s (.tag k) = none) ∧ s.eng.others = [] ∧ ∀ j, s.eng.running ≠ some (.other j)
    (¬idle → exec .clearUnit s = .next (answered (errorFrame .notIdle) s)) ∧
    (idle → ∃ t, exec .clearUnit s = .next t ∧ (∀ c, ctxOf t c = Context.blank) ∧ (∀ e, regionOf t e = none) ∧
      (∀ c, ringOf t c = none) ∧ (∀ k, t.keys.slots.get k = none) ∧ t.keys.waiting = [] ∧ t.keys.lru = s.keys.lru ∧
      t.eng.setups = [] ∧ t.time = { s.time with compare := none } ∧
      (∀ j d, s.eng.running = some (.setup j d) → t.eng.running = some (.setup j true)) ∧
      t.up = { s.up with inBurst := none, sendList := s.up.sendList ++ [fromPart (statusOf 1#8 0#8)] } ∧
      t.trk = { s.trk with single := none } ∧ t.req = s.req ∧ t.nq = s.nq ∧ t.faults = s.faults ∧ t.pool = s.pool ∧
      t.drv = s.drv)

/-- ADD_REGION: the eleven checks of R66 in order; accepted, the entry is enabled with the five parameters, and for a SHIFT context its ring is bound with its first values
(R66 to R73). -/
def Obligations.AddRegionChecked : Prop :=
  ∀ (p : RegionParams) (s : State), AwaitsBlock s →
    let refused := fun code => exec (.addRegion p) s = .next (answered (errorFrame code) s)
    let base := p.base.toNat
    let limit := p.limit.toNat
    let first := p.logicalStart.toNat
    let n := limit - base + 1
    let meets := ∃ e r, regionOf s e = some r ∧ base ≤ r.limit ∧ r.base ≤ limit
    (128 ≤ p.entry.toNat → refused .outOfRange) ∧
    ∀ e : EntryNo, e.val = p.entry.toNat →
      ((regionOf s e).isSome = true → refused .slotTaken) ∧
      (regionOf s e = none →
        (limit < base ∨ 1099511627776 < first + n → refused .outOfRange) ∧
        (base ≤ limit → first + n ≤ 1099511627776 →
          (meets → refused .lbaOverlap) ∧
          (¬meets → 16 ≤ p.slot.toNat → refused .outOfRange) ∧
          ∀ c : CtxSlot, c.val = p.slot.toNat → ¬meets →
            let x := ctxOf s c
            let usable := x.state = .recording ∨ x.state = .sealing ∨ x.state = .sealed ∨ x.state = .expired
            let shares := ∃ f r, regionOf s f = some r ∧ r.ctx = c ∧ first ≤ r.logicalStart + (r.limit - r.base) ∧
              r.logicalStart ≤ first + (limit - base)
            let owns := ∃ f r, regionOf s f = some r ∧ r.ctx = c
            let sized := 64 ≤ n ∧ n ≤ 2147483648
            let region : Region := { base := base, limit := limit, ctx := c, logicalStart := first }
            let added := { s with regions := s.regions.set e (some region) }
            (¬usable → refused .wrongState) ∧
            (usable → shares → refused .logicalOverlap) ∧
            (usable → ¬shares → x.cls = .shift → owns → refused .ringBound) ∧
            (usable → ¬shares → x.cls = .shift → ¬owns → ¬sized → refused .outOfRange) ∧
            (usable → ¬shares → x.cls ≠ .shift → exec (.addRegion p) s = .next (answered okFrame added)) ∧
            (usable → ¬shares → x.cls = .shift → ¬owns → sized → exec (.addRegion p) s = .next (answered okFrame
              { added with rings := s.rings.set c (some
                { base := base, length := n, logicalStart := first, issue := 0, issueLap := 0, commit := 0, commitLap := 0
                  depth := n - 1, spans := [] }) }))))

/-- REMOVE_REGION: an entry above 127 is OUT_OF_RANGE and a free one is left; an enabled one is freed with its context as it is; a SHIFT context's ring goes with it, and the commands
of its HELD spans lose RING_WINDOW (R74, R75). -/
def Obligations.RemoveRegionFrees : Prop :=
  ∀ (entry : Byte) (s : State), AwaitsBlock s →
    (128 ≤ entry.toNat → exec (.removeRegion entry) s = .next (answered (errorFrame .outOfRange) s)) ∧
    ∀ e : EntryNo, e.val = entry.toNat →
      (regionOf s e = none → exec (.removeRegion entry) s = .next (answered okFrame s)) ∧
      ∀ r, regionOf s e = some r →
        ((ctxOf s r.ctx).cls ≠ .shift →
          exec (.removeRegion entry) s = .next (answered okFrame { s with regions := s.regions.set e none })) ∧
        ((ctxOf s r.ctx).cls = .shift → ∃ t, exec (.removeRegion entry) s = .next t ∧ t.regions = s.regions.set e none ∧
          t.rings = s.rings.set r.ctx none ∧ t.contexts = s.contexts ∧ t.nq = s.nq ∧
          t.up.sendList = s.up.sendList ++ [fromPart (statusOf 1#8 0#8)] ∧
          ∀ g k x, ringOf s r.ctx = some g → (∃ y ∈ g.spans, y.owner = .tag k ∧ y.status = .held) →
            entryOf s (.tag k) = some x → x.state = .held → x.queueWait = false →
            ∃ x', entryOf t (.tag k) = some x' ∧ x'.state = .forwarded ∧ x'.ringWindow = false ∧
              .command x.cmd ∈ t.drv.sent)

/-- SET_SHIFT_DEPTH: refused for a slot above 15, a context not SHIFT or not in the four states, or one without a ring; else the depth is set, 0 as 1 and above N - 1
as N - 1 (R117, R118). -/
def Obligations.ShiftDepthClamped : Prop :=
  ∀ (slot : Byte) (depth : BitVec 32) (s : State), AwaitsBlock s →
    (16 ≤ slot.toNat → exec (.setShiftDepth slot depth) s = .next (answered (errorFrame .outOfRange) s)) ∧
    ∀ c : CtxSlot, c.val = slot.toNat →
      let x := ctxOf s c
      let proper := x.cls = .shift ∧ (x.state = .recording ∨ x.state = .sealing ∨ x.state = .sealed ∨ x.state = .closing)
      (¬proper ∨ ringOf s c = none →
        exec (.setShiftDepth slot depth) s = .next (answered (errorFrame .wrongState) s)) ∧
      ∀ g, proper → ringOf s c = some g → 2 ≤ g.length →
        exec (.setShiftDepth slot depth) s = .next (answered okFrame
          { s with rings := s.rings.set c (some { g with depth := max 1 (min depth.toNat (g.length - 1)) }) })

/-- PIN_KEY and UNPIN_KEY: the checks of R131 and R132, the pin flag with the pinned mark of the context's key slot, a slot obtained in SETUP where the context has none, and the
key-wait list it leaves when no STREAM job waits for its key (R128, R131, R132). With no slot FREE a pin evicts the least recent evictable slot, or with none joins
the key-wait list; an unpin that makes a slot evictable gives it at once to the head of the list, with the STREAM jobs waiting there as its users (R128, R129, R130). -/
def Obligations.PinsSetAndCleared : Prop :=
  ∀ (slot : Byte) (s : State), AwaitsBlock s →
    (16 ≤ slot.toNat →
      exec (.pinKey slot) s = .next (answered (errorFrame .outOfRange) s) ∧
      exec (.unpinKey slot) s = .next (answered (errorFrame .outOfRange) s)) ∧
    ∀ c : CtxSlot, c.val = slot.toNat →
      let x := ctxOf s c
      let usable := x.state = .recording ∨ x.state = .sealing ∨ x.state = .sealed ∨ x.state = .expired
      let pinned := ((List.finRange 16).filter fun d => (ctxOf s d).pin).length
      let marked := fun pin => s.contexts.set c { x with pin := pin }
      let evicts := fun k => ∃ y w, s.keys.slots.get k = some y ∧ y.phase = .ready w ∧ y.pinned = false ∧ y.users = 0
      (¬usable → exec (.pinKey slot) s = .next (answered (errorFrame .wrongState) s)) ∧
      (usable → x.pin = true → exec (.pinKey slot) s = .next (answered okFrame s)) ∧
      (usable → x.pin = false → 7 ≤ pinned → exec (.pinKey slot) s = .next (answered (errorFrame .pinLimit) s)) ∧
      (usable → x.pin = false → pinned < 7 →
        (∀ k y, slotOf s c = some k → s.keys.slots.get k = some y → exec (.pinKey slot) s = .next (answered okFrame
          { s with
            contexts := marked true
            keys := { s.keys with slots := s.keys.slots.set k (some { y with pinned := true }) } })) ∧
        (slotOf s c = none → c ∈ s.keys.waiting →
          exec (.pinKey slot) s = .next (answered okFrame { s with contexts := marked true })) ∧
        (∀ k, slotOf s c = none → c ∉ s.keys.waiting → s.keys.slots.get k = none →
          (∀ j, j < k → s.keys.slots.get j ≠ none) → (∀ j ∈ s.eng.streams, j.ctx ≠ c) →
          exec (.pinKey slot) s = .next (answered okFrame
            { s with
              contexts := marked true
              keys := { s.keys with
                slots := s.keys.slots.set k (some { ctx := c, phase := .setup, pinned := true, users := 0 })
                lru := (s.keys.lru.filter fun j => j ≠ k) ++ [k] }
              eng := { s.eng with setups := s.eng.setups ++ [{ slot := k, ctx := c }] } })) ∧
        (slotOf s c = none → c ∉ s.keys.waiting → (∀ j, s.keys.slots.get j ≠ none) →
          (∀ k l m, s.keys.lru = l ++ k :: m → evicts k → (∀ j ∈ l, ¬evicts j) → (∀ j ∈ s.eng.streams, j.ctx ≠ c) →
            exec (.pinKey slot) s = .next (answered okFrame
              { s with
                contexts := marked true
                keys := { s.keys with
                  slots := s.keys.slots.set k (some { ctx := c, phase := .setup, pinned := true, users := 0 })
                  lru := (s.keys.lru.filter fun j => j ≠ k) ++ [k] }
                eng := { s.eng with setups := s.eng.setups ++ [{ slot := k, ctx := c }] } })) ∧
          ((∀ k ∈ s.keys.lru, ¬evicts k) → exec (.pinKey slot) s = .next (answered okFrame
            { s with contexts := marked true, keys := { s.keys with waiting := s.keys.waiting ++ [c] } })))) ∧
      (x.pin = false → exec (.unpinKey slot) s = .next (answered okFrame s)) ∧
      (x.pin = true →
        (∀ k y, slotOf s c = some k → s.keys.slots.get k = some y → s.keys.waiting = [] →
          exec (.unpinKey slot) s = .next (answered okFrame
            { s with
              contexts := marked false
              keys := { s.keys with slots := s.keys.slots.set k (some { y with pinned := false }) } })) ∧
        (∀ k y d rest, slotOf s c = some k → s.keys.slots.get k = some y → s.keys.waiting = d :: rest →
          (y.phase = .setup ∨ 0 < y.users → exec (.unpinKey slot) s = .next (answered okFrame
            { s with
              contexts := marked false
              keys := { s.keys with slots := s.keys.slots.set k (some { y with pinned := false }) } })) ∧
          (y.phase ≠ .setup → y.users = 0 → d ≠ c →
            let waits := fun j : StreamJob => j.ctx = d ∧ j.keySlot = none
            exec (.unpinKey slot) s = .next (answered okFrame
              { s with
                contexts := marked false
                keys :=
                  { slots := s.keys.slots.set k (some
                      { ctx := d, phase := .setup, pinned := (ctxOf s d).pin, users := (s.eng.streams.filter waits).length })
                    lru := (s.keys.lru.filter fun j => j ≠ k) ++ [k]
                    waiting := rest }
                eng := { s.eng with
                  setups := s.eng.setups ++ [{ slot := k, ctx := d }]
                  streams := s.eng.streams.map fun j => if waits j then { j with keySlot := some k } else j } }))) ∧
        (slotOf s c = none → (∃ j ∈ s.eng.streams, j.ctx = c ∧ j.keySlot = none) →
          exec (.unpinKey slot) s = .next (answered okFrame { s with contexts := marked false })) ∧
        (slotOf s c = none → (∀ j ∈ s.eng.streams, j.ctx ≠ c) →
          exec (.unpinKey slot) s = .next (answered okFrame
            { s with
              contexts := marked false
              keys := { s.keys with waiting := s.keys.waiting.filter fun d => d ≠ c } })))

/-- SET_RIGHTS_TIME is BUSY while a token is pending, else the token becomes pending with its CHECK job queued; DRAIN takes the queued and single writes with an ENCIPHER run as its
snapshot, done at once with DRAINED when there is none (R162, R181, R183). -/
def Obligations.TimeAndDrainRequests : Prop :=
  ∀ (time : BitVec 32) (check : Block) (s : State), AwaitsBlock s →
    (s.time.token.isSome = true → exec (.setRightsTime time check) s = .next (answered (errorFrame .busy) s)) ∧
    (s.time.token = none → exec (.setRightsTime time check) s = .next (answered okFrame
      { s with
        time := { s.time with token := some { time := time, check := check } }
        eng := { s.eng with others := s.eng.others ++ [.token time check] } })) ∧
    ∃ l : List Owner, l.Nodup ∧
      (∀ o, o ∈ l ↔ ∃ e, entryOf s o = some e ∧ (e.kind = .write ∨ e.kind = .qwrite) ∧
        ∃ r ∈ e.plan, ∃ c lap n, r.verdict = .encipher c lap n) ∧
      (l = [] → exec .drain s = .next (answered okFrame (queueNotice .drained none none none 0
        { s with req := { s.req with snapshot := [], snapshotSize := 0, drainPending := false } }))) ∧
      (l ≠ [] → exec .drain s = .next (answered okFrame
        { s with req := { s.req with snapshot := l, snapshotSize := l.length, drainPending := true } }))

/-- WRITE_SETTINGS is LOCKED under the lock and OUT_OF_RANGE for a severity byte above 1; accepted, it writes the four settings clamped, restarts the divide count and judges the
attention line; LOCK_SETTINGS sets the lock and is never refused (R159, R175, R176, R177, R178, R179, R188). -/
def Obligations.SettingsWrittenAndLocked : Prop :=
  ∀ (p : SettingsParams) (s : State), AwaitsBlock s →
    let severity := fun b : Byte => if b = 0#8 then Severity.notice else Severity.lockdown
    let proper := p.keyParity.toNat ≤ 1 ∧ p.transform.toNat ≤ 1 ∧ p.protocol.toNat ≤ 1 ∧ p.driveLost.toNat ≤ 1
    exec .lockSettings s = .next (answered okFrame { s with req := { s.req with locked := true } }) ∧
    (s.req.locked = true → exec (.writeSettings p) s = .next (answered (errorFrame .locked) s)) ∧
    (s.req.locked = false → ¬proper → exec (.writeSettings p) s = .next (answered (errorFrame .outOfRange) s)) ∧
    (s.req.locked = false → proper → ∃ t, exec (.writeSettings p) s = .next t ∧
      t.req =
        { s.req with
          lookahead := max 1 (min p.lookahead.toNat 16)
          attentionSet := p.attentionSet.extractLsb' 0 16
          severities :=
            { keyParity := severity p.keyParity, transform := severity p.transform, protocol := severity p.protocol
              driveLost := severity p.driveLost }
          divider := max 1000000 (min p.divider.toNat 100000000) } ∧
      t.time = { s.time with divideCount := 0 } ∧ t.nq.notices = s.nq.notices ∧ t.faults = s.faults ∧
      (t.nq.attention = true ↔ s.faults.lockdown = true ∨
        ∃ n ∈ s.nq.notices, p.attentionSet.getLsbD (noticeNumber n.kind) = true) ∧
      (s.drv.burst = none → t.pool = s.pool ∧ t.keys = s.keys ∧ t.eng = s.eng) ∧
      t.up.sendList = s.up.sendList ++ [fromPart (statusOf 1#8 0#8)] ∧ t.trk = { s.trk with single := none })

/-- CLEAR_FAULTS removes each named kind from the fault set and makes the first fault absent if it is named; it is never refused, has no reply, keeps lockdown, the notices and the
severities, and passes over the bits that name no kind; a fault raised after it stays in the set, and is the first again where there is none (R191). -/
def Obligations.ClearFaultsRemovesNamed : Prop :=
  ∀ (set : Byte) (s : State), AwaitsBlock s → ∃ t, exec (.clearFaults set) s = .next t ∧
    (t.faults.set.keyParity = true ↔ s.faults.set.keyParity = true ∧ set.getLsbD 0 = false) ∧
    (t.faults.set.transform = true ↔ s.faults.set.transform = true ∧ set.getLsbD 1 = false) ∧
    (t.faults.set.protocol = true ↔ s.faults.set.protocol = true ∧ set.getLsbD 2 = false) ∧
    (t.faults.set.driveLost = true ↔ s.faults.set.driveLost = true ∧ set.getLsbD 3 = false) ∧
    (∀ k, t.faults.first = some k ↔ s.faults.first = some k ∧ set.getLsbD (faultBit k) = false) ∧
    t.faults.lockdown = s.faults.lockdown ∧ t.faults.cause = s.faults.cause ∧ t.nq = s.nq ∧ t.req = s.req ∧
    t.up = { s.up with inBurst := none, sendList := s.up.sendList ++ [fromPart (statusOf 1#8 0#8)] } ∧
    t.trk = { s.trk with single := none } ∧
    (set.toNat % 16 = 0 → t.faults = s.faults) ∧
    ∀ k, (raiseFault k t).faults.set = addFault k t.faults.set ∧
      (t.faults.first = none → (raiseFault k t).faults.first = some k)

/-! ### Encoding -/

/-- What carries a well-formed command reads back as it, with every operand at every value its layout admits: the bytes of its frame, and the block of its request
(spec/12 12.1, 12.3). -/
def Obligations.CommandsReadBack : Prop :=
  ∀ i : Instr, WellFormed i = true →
    (∀ port f, rowFrame i = some (port, f) →
      (∀ d, f = .data d → d.sectors.length ≤ 255) → (∀ d, f = .done d → d.failed.length ≤ 255) →
      (∀ c l, f = .unknown c l → c.toNat = 0 ∨ 5 < c.toNat) → decodeFrame port (frameBytes f) = some i) ∧
    ∀ r, requestRow r = i → blockRow (encodeRequest r) = i

/-! ### Laws that every step keeps -/

/-- Every step keeps the law of the records, at most 32 notices and at most 8 history records (R26, R185), and the attention line asserted exactly while lockdown holds
or a notice of a kind in the attention set is held (R188). -/
def Obligations.RecordsAndAttentionKept : Prop :=
  ∀ s t : State, step s = .next t → (RecordsLaw s → RecordsLaw t) ∧ (AttentionLaw s → AttentionLaw t)

/-- Every step keeps the settings and the clocks in their ranges, and the expiry compare value the least E of the compare set (R158, R161, R166, R177). -/
def Obligations.ClocksAndCompareKept : Prop :=
  ∀ s t : State, SettingsLaw s → ClockLaw s → CompareLaw s → step s = .next t →
    SettingsLaw t ∧ ClockLaw t ∧ CompareLaw t

/-- What only a POWER_ON undoes: no other step lets monotonic time or rights time decrease or a rights time once SET become UNSET, ends lockdown, or opens the
settings lock, under which no setting changes (R160, R161, R179, R192). -/
def Obligations.OnlyPowerOnUndoes : Prop :=
  ∀ s t : State, ¬PowersOn s → step s = .next t →
    (ClockLaw s → s.time.mono ≤ t.time.mono ∧ s.time.rights ≤ t.time.rights ∧
      (s.time.rightsSet = true → t.time.rightsSet = true)) ∧
    (s.faults.lockdown = true → t.faults.lockdown = true) ∧
    (s.req.locked = true → t.req.locked = true ∧ t.req.lookahead = s.req.lookahead ∧
      t.req.attentionSet = s.req.attentionSet ∧ t.req.severities = s.req.severities ∧ t.req.divider = s.req.divider)

/-- Every step keeps the laws of LBA uniqueness and of logical uniqueness, that no serial is held twice, the binding of regions, contexts and rings, and E as R62 gives
it for each loaded TIMED context (R46, R62, R67, R68, R70, R71, R82, R101). -/
def Obligations.TableLawsKept : Prop :=
  ∀ s t : State, step s = .next t →
    (RegionLaw s → RegionLaw t) ∧ (SerialLaw s → SerialLaw t) ∧ (BindingLaw s → BindingLaw t) ∧
    (BindingLaw s → ExpiryLaw s → ExpiryLaw t)

/-- Every step keeps every entry in use legal: its own tag, HELD exactly with a hold reason, BURST exactly with an open burst (R19, R20). It keeps at most one acceptance record for
each tag, and so at most 32 (R30); and the in-flight count of every context equal to the number of entries in use whose plan names it (R37), with the law of the bridge's bursts that
this rests on (R5). -/
def Obligations.EntryLawKept : Prop :=
  ∀ s t : State, step s = .next t →
    (EntryLaw s → EntryLaw t) ∧ (AcceptLaw s → AcceptLaw t ∧ t.trk.accepts.length ≤ 32) ∧
    (EntryLaw s → BindingLaw s → BridgeLaw s → InFlightLaw s → BridgeLaw t ∧ InFlightLaw t)

/-- Every step keeps the law of the span queue and the agreement of the queue with the ring's two points (R102). -/
def Obligations.RingLawsKept : Prop :=
  ∀ s t : State, RingLaw s → RingPointsLaw s → step s = .next t → RingLaw t ∧ RingPointsLaw t

/-- Every step keeps the law of key slots: one slot for a context, at most 7 pinned, and no context on the key-wait list that has a slot (R127, R130); and that the list is not
empty only while no slot is FREE and none is evictable (R130). -/
def Obligations.KeyLawKept : Prop :=
  ∀ s t : State, step s = .next t → (KeyLaw s → KeyLaw t) ∧ (KeyWaitLaw s → KeyWaitLaw t)

/-- Every step keeps the law of the pool: no command holds more than 16 pool slots (R142). -/
def Obligations.PoolLawKept : Prop :=
  ∀ s t : State, PoolLaw s → step s = .next t → PoolLaw t

/-- While a context stays loaded its write frontier never decreases: where a step lowers it, the slot has been emptied or loaded anew (R53). -/
def Obligations.FrontierNeverDecreases : Prop :=
  ∀ (s t : State) (c : CtxSlot), step s = .next t →
    (ctxOf s c).frontier ≤ (ctxOf t c).frontier ∨ (ctxOf t c).state = .empty ∨ (ctxOf t c).state = .loading
end

