-- ==== Sys2Proof/Laws/Bytes.lean ====
section
/-!
SUPPORT. Fields of a block: what a field reads after a field is written, where the two are the same and where they are apart.
-/

namespace Sys2Proof.Machine

open Sys2Proof

/-- A bit of a field is the block's bit at its place. -/
theorem getField_getLsbD (off w i : Nat) (b : Sector) (h : i < w) :
    (getField off w b).getLsbD i = b.getLsbD (8 * off + i) := by
  simp [getField, h]

/-- A bit of a block after a field is written: the bit before, or the field's bit at that place. -/
theorem putField_getLsbD (off : Nat) {w : Nat} (v : BitVec w) (b : Sector) (k : Nat) (h : k < 4096) :
    (putField off v b).getLsbD k = (b.getLsbD k || (decide (8 * off ≤ k) && v.getLsbD (k - 8 * off))) := by
  have h' : k - 8 * off < 4096 := by omega
  by_cases hk : k < 8 * off
  · have : ¬8 * off ≤ k := by omega
    simp [putField, h, hk, this]
  · have : 8 * off ≤ k := by omega
    simp [putField, h, hk, this]

/-- The field read where it was written, on a block whose field is 0 there. -/
theorem getField_putField_same (off : Nat) {w : Nat} (v : BitVec w) (b : Sector) (hw : 8 * off + w ≤ 4096)
    (h0 : getField off w b = 0) : getField off w (putField off v b) = v := by
  apply BitVec.eq_of_getLsbD_eq
  intro i hi
  have hb := congrArg (·.getLsbD i) h0
  simp only [getField_getLsbD _ _ _ _ hi] at hb
  rw [getField_getLsbD _ _ _ _ hi, putField_getLsbD _ _ _ _ (by omega), hb]
  simp

/-- A field reads as before where another field is written. -/
theorem getField_putField_apart (off off' : Nat) {w w' : Nat} (v : BitVec w) (b : Sector) (hw : 8 * off' + w' ≤ 4096)
    (h : 8 * off + w ≤ 8 * off' ∨ 8 * off' + w' ≤ 8 * off) :
    getField off' w' (putField off v b) = getField off' w' b := by
  apply BitVec.eq_of_getLsbD_eq
  intro i hi
  rw [getField_getLsbD _ _ _ _ hi, getField_getLsbD _ _ _ _ hi, putField_getLsbD _ _ _ _ (by omega)]
  rcases h with h | h
  · rw [BitVec.getLsbD_of_ge v _ (by omega)]
    simp
  · have : ¬8 * off ≤ 8 * off' + i := by omega
    simp [this]

/-- Every field of a block of zeros reads 0. -/
@[simp] theorem getField_zero (off w : Nat) : getField off w 0 = 0 := by
  simp [getField]

/-- A number written as a field is the field of its bits. -/
theorem putNat_eq (off w v : Nat) (b : Sector) : putNat off w v b = putField off (BitVec.ofNat w v) b := rfl

end Sys2Proof.Machine
end

