-- ==== Sys2Proof/Laws/State.lean ====
section
/-!
SUPPORT. The small lemmas of the record updates of State: one lemma per field per update, true by rfl.
-/

namespace Sys2Proof.Machine

open Sys2Proof

@[simp] theorem setEntry_up (o : Owner) (e : Option Entry) (s : State) : (setEntry o e s).up = s.up := rfl
@[simp] theorem setEntry_drv (o : Owner) (e : Option Entry) (s : State) : (setEntry o e s).drv = s.drv := rfl
@[simp] theorem setEntry_contexts (o : Owner) (e : Option Entry) (s : State) : (setEntry o e s).contexts = s.contexts := rfl
@[simp] theorem setEntry_regions (o : Owner) (e : Option Entry) (s : State) : (setEntry o e s).regions = s.regions := rfl
@[simp] theorem setEntry_rings (o : Owner) (e : Option Entry) (s : State) : (setEntry o e s).rings = s.rings := rfl
@[simp] theorem setEntry_keys (o : Owner) (e : Option Entry) (s : State) : (setEntry o e s).keys = s.keys := rfl
@[simp] theorem setEntry_eng (o : Owner) (e : Option Entry) (s : State) : (setEntry o e s).eng = s.eng := rfl
@[simp] theorem setEntry_pool (o : Owner) (e : Option Entry) (s : State) : (setEntry o e s).pool = s.pool := rfl
@[simp] theorem setEntry_time (o : Owner) (e : Option Entry) (s : State) : (setEntry o e s).time = s.time := rfl
@[simp] theorem setEntry_req (o : Owner) (e : Option Entry) (s : State) : (setEntry o e s).req = s.req := rfl
@[simp] theorem setEntry_nq (o : Owner) (e : Option Entry) (s : State) : (setEntry o e s).nq = s.nq := rfl
@[simp] theorem setEntry_faults (o : Owner) (e : Option Entry) (s : State) : (setEntry o e s).faults = s.faults := rfl
@[simp] theorem setEntry_choices (o : Owner) (e : Option Entry) (s : State) : (setEntry o e s).choices = s.choices := rfl
@[simp] theorem setEntry_pending (o : Owner) (e : Option Entry) (s : State) : (setEntry o e s).pending = s.pending := rfl

@[simp] theorem updateEntry_up (o : Owner) (f : Entry → Entry) (s : State) : (updateEntry o f s).up = s.up := rfl
@[simp] theorem updateEntry_drv (o : Owner) (f : Entry → Entry) (s : State) : (updateEntry o f s).drv = s.drv := rfl
@[simp] theorem updateEntry_contexts (o : Owner) (f : Entry → Entry) (s : State) : (updateEntry o f s).contexts = s.contexts := rfl
@[simp] theorem updateEntry_regions (o : Owner) (f : Entry → Entry) (s : State) : (updateEntry o f s).regions = s.regions := rfl
@[simp] theorem updateEntry_rings (o : Owner) (f : Entry → Entry) (s : State) : (updateEntry o f s).rings = s.rings := rfl
@[simp] theorem updateEntry_keys (o : Owner) (f : Entry → Entry) (s : State) : (updateEntry o f s).keys = s.keys := rfl
@[simp] theorem updateEntry_eng (o : Owner) (f : Entry → Entry) (s : State) : (updateEntry o f s).eng = s.eng := rfl
@[simp] theorem updateEntry_pool (o : Owner) (f : Entry → Entry) (s : State) : (updateEntry o f s).pool = s.pool := rfl
@[simp] theorem updateEntry_time (o : Owner) (f : Entry → Entry) (s : State) : (updateEntry o f s).time = s.time := rfl
@[simp] theorem updateEntry_req (o : Owner) (f : Entry → Entry) (s : State) : (updateEntry o f s).req = s.req := rfl
@[simp] theorem updateEntry_nq (o : Owner) (f : Entry → Entry) (s : State) : (updateEntry o f s).nq = s.nq := rfl
@[simp] theorem updateEntry_faults (o : Owner) (f : Entry → Entry) (s : State) : (updateEntry o f s).faults = s.faults := rfl
@[simp] theorem updateEntry_choices (o : Owner) (f : Entry → Entry) (s : State) : (updateEntry o f s).choices = s.choices := rfl
@[simp] theorem updateEntry_pending (o : Owner) (f : Entry → Entry) (s : State) : (updateEntry o f s).pending = s.pending := rfl

@[simp] theorem setCtx_up (c : CtxSlot) (x : Context) (s : State) : (setCtx c x s).up = s.up := rfl
@[simp] theorem setCtx_drv (c : CtxSlot) (x : Context) (s : State) : (setCtx c x s).drv = s.drv := rfl
@[simp] theorem setCtx_trk (c : CtxSlot) (x : Context) (s : State) : (setCtx c x s).trk = s.trk := rfl
@[simp] theorem setCtx_regions (c : CtxSlot) (x : Context) (s : State) : (setCtx c x s).regions = s.regions := rfl
@[simp] theorem setCtx_rings (c : CtxSlot) (x : Context) (s : State) : (setCtx c x s).rings = s.rings := rfl
@[simp] theorem setCtx_keys (c : CtxSlot) (x : Context) (s : State) : (setCtx c x s).keys = s.keys := rfl
@[simp] theorem setCtx_eng (c : CtxSlot) (x : Context) (s : State) : (setCtx c x s).eng = s.eng := rfl
@[simp] theorem setCtx_pool (c : CtxSlot) (x : Context) (s : State) : (setCtx c x s).pool = s.pool := rfl
@[simp] theorem setCtx_time (c : CtxSlot) (x : Context) (s : State) : (setCtx c x s).time = s.time := rfl
@[simp] theorem setCtx_req (c : CtxSlot) (x : Context) (s : State) : (setCtx c x s).req = s.req := rfl
@[simp] theorem setCtx_nq (c : CtxSlot) (x : Context) (s : State) : (setCtx c x s).nq = s.nq := rfl
@[simp] theorem setCtx_faults (c : CtxSlot) (x : Context) (s : State) : (setCtx c x s).faults = s.faults := rfl
@[simp] theorem setCtx_choices (c : CtxSlot) (x : Context) (s : State) : (setCtx c x s).choices = s.choices := rfl
@[simp] theorem setCtx_pending (c : CtxSlot) (x : Context) (s : State) : (setCtx c x s).pending = s.pending := rfl

@[simp] theorem updateCtx_up (c : CtxSlot) (f : Context → Context) (s : State) : (updateCtx c f s).up = s.up := rfl
@[simp] theorem updateCtx_drv (c : CtxSlot) (f : Context → Context) (s : State) : (updateCtx c f s).drv = s.drv := rfl
@[simp] theorem updateCtx_trk (c : CtxSlot) (f : Context → Context) (s : State) : (updateCtx c f s).trk = s.trk := rfl
@[simp] theorem updateCtx_regions (c : CtxSlot) (f : Context → Context) (s : State) : (updateCtx c f s).regions = s.regions := rfl
@[simp] theorem updateCtx_rings (c : CtxSlot) (f : Context → Context) (s : State) : (updateCtx c f s).rings = s.rings := rfl
@[simp] theorem updateCtx_keys (c : CtxSlot) (f : Context → Context) (s : State) : (updateCtx c f s).keys = s.keys := rfl
@[simp] theorem updateCtx_eng (c : CtxSlot) (f : Context → Context) (s : State) : (updateCtx c f s).eng = s.eng := rfl
@[simp] theorem updateCtx_pool (c : CtxSlot) (f : Context → Context) (s : State) : (updateCtx c f s).pool = s.pool := rfl
@[simp] theorem updateCtx_time (c : CtxSlot) (f : Context → Context) (s : State) : (updateCtx c f s).time = s.time := rfl
@[simp] theorem updateCtx_req (c : CtxSlot) (f : Context → Context) (s : State) : (updateCtx c f s).req = s.req := rfl
@[simp] theorem updateCtx_nq (c : CtxSlot) (f : Context → Context) (s : State) : (updateCtx c f s).nq = s.nq := rfl
@[simp] theorem updateCtx_faults (c : CtxSlot) (f : Context → Context) (s : State) : (updateCtx c f s).faults = s.faults := rfl
@[simp] theorem updateCtx_choices (c : CtxSlot) (f : Context → Context) (s : State) : (updateCtx c f s).choices = s.choices := rfl
@[simp] theorem updateCtx_pending (c : CtxSlot) (f : Context → Context) (s : State) : (updateCtx c f s).pending = s.pending := rfl

@[simp] theorem setRing_up (c : CtxSlot) (r : Option Ring) (s : State) : (setRing c r s).up = s.up := rfl
@[simp] theorem setRing_drv (c : CtxSlot) (r : Option Ring) (s : State) : (setRing c r s).drv = s.drv := rfl
@[simp] theorem setRing_trk (c : CtxSlot) (r : Option Ring) (s : State) : (setRing c r s).trk = s.trk := rfl
@[simp] theorem setRing_contexts (c : CtxSlot) (r : Option Ring) (s : State) : (setRing c r s).contexts = s.contexts := rfl
@[simp] theorem setRing_regions (c : CtxSlot) (r : Option Ring) (s : State) : (setRing c r s).regions = s.regions := rfl
@[simp] theorem setRing_keys (c : CtxSlot) (r : Option Ring) (s : State) : (setRing c r s).keys = s.keys := rfl
@[simp] theorem setRing_eng (c : CtxSlot) (r : Option Ring) (s : State) : (setRing c r s).eng = s.eng := rfl
@[simp] theorem setRing_pool (c : CtxSlot) (r : Option Ring) (s : State) : (setRing c r s).pool = s.pool := rfl
@[simp] theorem setRing_time (c : CtxSlot) (r : Option Ring) (s : State) : (setRing c r s).time = s.time := rfl
@[simp] theorem setRing_req (c : CtxSlot) (r : Option Ring) (s : State) : (setRing c r s).req = s.req := rfl
@[simp] theorem setRing_nq (c : CtxSlot) (r : Option Ring) (s : State) : (setRing c r s).nq = s.nq := rfl
@[simp] theorem setRing_faults (c : CtxSlot) (r : Option Ring) (s : State) : (setRing c r s).faults = s.faults := rfl
@[simp] theorem setRing_choices (c : CtxSlot) (r : Option Ring) (s : State) : (setRing c r s).choices = s.choices := rfl
@[simp] theorem setRing_pending (c : CtxSlot) (r : Option Ring) (s : State) : (setRing c r s).pending = s.pending := rfl

@[simp] theorem placeItem_drv (i : SendItem) (s : State) : (placeItem i s).drv = s.drv := rfl
@[simp] theorem placeItem_trk (i : SendItem) (s : State) : (placeItem i s).trk = s.trk := rfl
@[simp] theorem placeItem_contexts (i : SendItem) (s : State) : (placeItem i s).contexts = s.contexts := rfl
@[simp] theorem placeItem_regions (i : SendItem) (s : State) : (placeItem i s).regions = s.regions := rfl
@[simp] theorem placeItem_rings (i : SendItem) (s : State) : (placeItem i s).rings = s.rings := rfl
@[simp] theorem placeItem_keys (i : SendItem) (s : State) : (placeItem i s).keys = s.keys := rfl
@[simp] theorem placeItem_eng (i : SendItem) (s : State) : (placeItem i s).eng = s.eng := rfl
@[simp] theorem placeItem_pool (i : SendItem) (s : State) : (placeItem i s).pool = s.pool := rfl
@[simp] theorem placeItem_time (i : SendItem) (s : State) : (placeItem i s).time = s.time := rfl
@[simp] theorem placeItem_req (i : SendItem) (s : State) : (placeItem i s).req = s.req := rfl
@[simp] theorem placeItem_nq (i : SendItem) (s : State) : (placeItem i s).nq = s.nq := rfl
@[simp] theorem placeItem_faults (i : SendItem) (s : State) : (placeItem i s).faults = s.faults := rfl
@[simp] theorem placeItem_choices (i : SendItem) (s : State) : (placeItem i s).choices = s.choices := rfl
@[simp] theorem placeItem_pending (i : SendItem) (s : State) : (placeItem i s).pending = s.pending := rfl

@[simp] theorem placePart_drv (f : Frame) (s : State) : (placePart f s).drv = s.drv := rfl
@[simp] theorem placePart_trk (f : Frame) (s : State) : (placePart f s).trk = s.trk := rfl
@[simp] theorem placePart_contexts (f : Frame) (s : State) : (placePart f s).contexts = s.contexts := rfl
@[simp] theorem placePart_regions (f : Frame) (s : State) : (placePart f s).regions = s.regions := rfl
@[simp] theorem placePart_rings (f : Frame) (s : State) : (placePart f s).rings = s.rings := rfl
@[simp] theorem placePart_keys (f : Frame) (s : State) : (placePart f s).keys = s.keys := rfl
@[simp] theorem placePart_eng (f : Frame) (s : State) : (placePart f s).eng = s.eng := rfl
@[simp] theorem placePart_pool (f : Frame) (s : State) : (placePart f s).pool = s.pool := rfl
@[simp] theorem placePart_time (f : Frame) (s : State) : (placePart f s).time = s.time := rfl
@[simp] theorem placePart_req (f : Frame) (s : State) : (placePart f s).req = s.req := rfl
@[simp] theorem placePart_nq (f : Frame) (s : State) : (placePart f s).nq = s.nq := rfl
@[simp] theorem placePart_faults (f : Frame) (s : State) : (placePart f s).faults = s.faults := rfl
@[simp] theorem placePart_choices (f : Frame) (s : State) : (placePart f s).choices = s.choices := rfl
@[simp] theorem placePart_pending (f : Frame) (s : State) : (placePart f s).pending = s.pending := rfl

@[simp] theorem placeRelayed_drv (f : Frame) (s : State) : (placeRelayed f s).drv = s.drv := rfl
@[simp] theorem placeRelayed_trk (f : Frame) (s : State) : (placeRelayed f s).trk = s.trk := rfl
@[simp] theorem placeRelayed_contexts (f : Frame) (s : State) : (placeRelayed f s).contexts = s.contexts := rfl
@[simp] theorem placeRelayed_regions (f : Frame) (s : State) : (placeRelayed f s).regions = s.regions := rfl
@[simp] theorem placeRelayed_rings (f : Frame) (s : State) : (placeRelayed f s).rings = s.rings := rfl
@[simp] theorem placeRelayed_keys (f : Frame) (s : State) : (placeRelayed f s).keys = s.keys := rfl
@[simp] theorem placeRelayed_eng (f : Frame) (s : State) : (placeRelayed f s).eng = s.eng := rfl
@[simp] theorem placeRelayed_pool (f : Frame) (s : State) : (placeRelayed f s).pool = s.pool := rfl
@[simp] theorem placeRelayed_time (f : Frame) (s : State) : (placeRelayed f s).time = s.time := rfl
@[simp] theorem placeRelayed_req (f : Frame) (s : State) : (placeRelayed f s).req = s.req := rfl
@[simp] theorem placeRelayed_nq (f : Frame) (s : State) : (placeRelayed f s).nq = s.nq := rfl
@[simp] theorem placeRelayed_faults (f : Frame) (s : State) : (placeRelayed f s).faults = s.faults := rfl
@[simp] theorem placeRelayed_choices (f : Frame) (s : State) : (placeRelayed f s).choices = s.choices := rfl
@[simp] theorem placeRelayed_pending (f : Frame) (s : State) : (placeRelayed f s).pending = s.pending := rfl

@[simp] theorem sendDown_up (f : DownFrame) (s : State) : (sendDown f s).up = s.up := rfl
@[simp] theorem sendDown_trk (f : DownFrame) (s : State) : (sendDown f s).trk = s.trk := rfl
@[simp] theorem sendDown_contexts (f : DownFrame) (s : State) : (sendDown f s).contexts = s.contexts := rfl
@[simp] theorem sendDown_regions (f : DownFrame) (s : State) : (sendDown f s).regions = s.regions := rfl
@[simp] theorem sendDown_rings (f : DownFrame) (s : State) : (sendDown f s).rings = s.rings := rfl
@[simp] theorem sendDown_keys (f : DownFrame) (s : State) : (sendDown f s).keys = s.keys := rfl
@[simp] theorem sendDown_eng (f : DownFrame) (s : State) : (sendDown f s).eng = s.eng := rfl
@[simp] theorem sendDown_pool (f : DownFrame) (s : State) : (sendDown f s).pool = s.pool := rfl
@[simp] theorem sendDown_time (f : DownFrame) (s : State) : (sendDown f s).time = s.time := rfl
@[simp] theorem sendDown_req (f : DownFrame) (s : State) : (sendDown f s).req = s.req := rfl
@[simp] theorem sendDown_nq (f : DownFrame) (s : State) : (sendDown f s).nq = s.nq := rfl
@[simp] theorem sendDown_faults (f : DownFrame) (s : State) : (sendDown f s).faults = s.faults := rfl
@[simp] theorem sendDown_choices (f : DownFrame) (s : State) : (sendDown f s).choices = s.choices := rfl
@[simp] theorem sendDown_pending (f : DownFrame) (s : State) : (sendDown f s).pending = s.pending := rfl

@[simp] theorem queueNotice_up (k : NoticeKind) (c : Option CtxSlot) (t : Option Tag) (d : Option Code) (v : Nat) (s : State) : (queueNotice k c t d v s).up = s.up := rfl
@[simp] theorem queueNotice_drv (k : NoticeKind) (c : Option CtxSlot) (t : Option Tag) (d : Option Code) (v : Nat) (s : State) : (queueNotice k c t d v s).drv = s.drv := rfl
@[simp] theorem queueNotice_trk (k : NoticeKind) (c : Option CtxSlot) (t : Option Tag) (d : Option Code) (v : Nat) (s : State) : (queueNotice k c t d v s).trk = s.trk := rfl
@[simp] theorem queueNotice_contexts (k : NoticeKind) (c : Option CtxSlot) (t : Option Tag) (d : Option Code) (v : Nat) (s : State) : (queueNotice k c t d v s).contexts = s.contexts := rfl
@[simp] theorem queueNotice_regions (k : NoticeKind) (c : Option CtxSlot) (t : Option Tag) (d : Option Code) (v : Nat) (s : State) : (queueNotice k c t d v s).regions = s.regions := rfl
@[simp] theorem queueNotice_rings (k : NoticeKind) (c : Option CtxSlot) (t : Option Tag) (d : Option Code) (v : Nat) (s : State) : (queueNotice k c t d v s).rings = s.rings := rfl
@[simp] theorem queueNotice_keys (k : NoticeKind) (c : Option CtxSlot) (t : Option Tag) (d : Option Code) (v : Nat) (s : State) : (queueNotice k c t d v s).keys = s.keys := rfl
@[simp] theorem queueNotice_eng (k : NoticeKind) (c : Option CtxSlot) (t : Option Tag) (d : Option Code) (v : Nat) (s : State) : (queueNotice k c t d v s).eng = s.eng := rfl
@[simp] theorem queueNotice_pool (k : NoticeKind) (c : Option CtxSlot) (t : Option Tag) (d : Option Code) (v : Nat) (s : State) : (queueNotice k c t d v s).pool = s.pool := rfl
@[simp] theorem queueNotice_time (k : NoticeKind) (c : Option CtxSlot) (t : Option Tag) (d : Option Code) (v : Nat) (s : State) : (queueNotice k c t d v s).time = s.time := rfl
@[simp] theorem queueNotice_req (k : NoticeKind) (c : Option CtxSlot) (t : Option Tag) (d : Option Code) (v : Nat) (s : State) : (queueNotice k c t d v s).req = s.req := rfl
@[simp] theorem queueNotice_faults (k : NoticeKind) (c : Option CtxSlot) (t : Option Tag) (d : Option Code) (v : Nat) (s : State) : (queueNotice k c t d v s).faults = s.faults := rfl
@[simp] theorem queueNotice_choices (k : NoticeKind) (c : Option CtxSlot) (t : Option Tag) (d : Option Code) (v : Nat) (s : State) : (queueNotice k c t d v s).choices = s.choices := rfl
@[simp] theorem queueNotice_pending (k : NoticeKind) (c : Option CtxSlot) (t : Option Tag) (d : Option Code) (v : Nat) (s : State) : (queueNotice k c t d v s).pending = s.pending := rfl

@[simp] theorem judgeAttention_up (s : State) : (judgeAttention s).up = s.up := rfl
@[simp] theorem judgeAttention_drv (s : State) : (judgeAttention s).drv = s.drv := rfl
@[simp] theorem judgeAttention_trk (s : State) : (judgeAttention s).trk = s.trk := rfl
@[simp] theorem judgeAttention_contexts (s : State) : (judgeAttention s).contexts = s.contexts := rfl
@[simp] theorem judgeAttention_regions (s : State) : (judgeAttention s).regions = s.regions := rfl
@[simp] theorem judgeAttention_rings (s : State) : (judgeAttention s).rings = s.rings := rfl
@[simp] theorem judgeAttention_keys (s : State) : (judgeAttention s).keys = s.keys := rfl
@[simp] theorem judgeAttention_eng (s : State) : (judgeAttention s).eng = s.eng := rfl
@[simp] theorem judgeAttention_pool (s : State) : (judgeAttention s).pool = s.pool := rfl
@[simp] theorem judgeAttention_time (s : State) : (judgeAttention s).time = s.time := rfl
@[simp] theorem judgeAttention_req (s : State) : (judgeAttention s).req = s.req := rfl
@[simp] theorem judgeAttention_faults (s : State) : (judgeAttention s).faults = s.faults := rfl
@[simp] theorem judgeAttention_choices (s : State) : (judgeAttention s).choices = s.choices := rfl
@[simp] theorem judgeAttention_pending (s : State) : (judgeAttention s).pending = s.pending := rfl

@[simp] theorem recordRefusal_up (c : CommandFrame) (code : Code) (s : State) : (recordRefusal c code s).up = s.up := rfl
@[simp] theorem recordRefusal_drv (c : CommandFrame) (code : Code) (s : State) : (recordRefusal c code s).drv = s.drv := rfl
@[simp] theorem recordRefusal_contexts (c : CommandFrame) (code : Code) (s : State) : (recordRefusal c code s).contexts = s.contexts := rfl
@[simp] theorem recordRefusal_regions (c : CommandFrame) (code : Code) (s : State) : (recordRefusal c code s).regions = s.regions := rfl
@[simp] theorem recordRefusal_rings (c : CommandFrame) (code : Code) (s : State) : (recordRefusal c code s).rings = s.rings := rfl
@[simp] theorem recordRefusal_keys (c : CommandFrame) (code : Code) (s : State) : (recordRefusal c code s).keys = s.keys := rfl
@[simp] theorem recordRefusal_eng (c : CommandFrame) (code : Code) (s : State) : (recordRefusal c code s).eng = s.eng := rfl
@[simp] theorem recordRefusal_pool (c : CommandFrame) (code : Code) (s : State) : (recordRefusal c code s).pool = s.pool := rfl
@[simp] theorem recordRefusal_time (c : CommandFrame) (code : Code) (s : State) : (recordRefusal c code s).time = s.time := rfl
@[simp] theorem recordRefusal_req (c : CommandFrame) (code : Code) (s : State) : (recordRefusal c code s).req = s.req := rfl
@[simp] theorem recordRefusal_nq (c : CommandFrame) (code : Code) (s : State) : (recordRefusal c code s).nq = s.nq := rfl
@[simp] theorem recordRefusal_faults (c : CommandFrame) (code : Code) (s : State) : (recordRefusal c code s).faults = s.faults := rfl
@[simp] theorem recordRefusal_choices (c : CommandFrame) (code : Code) (s : State) : (recordRefusal c code s).choices = s.choices := rfl
@[simp] theorem recordRefusal_pending (c : CommandFrame) (code : Code) (s : State) : (recordRefusal c code s).pending = s.pending := rfl

@[simp] theorem updateSlot_up (k : KeyNo) (f : KeySlot → KeySlot) (s : State) : (updateSlot k f s).up = s.up := rfl
@[simp] theorem updateSlot_drv (k : KeyNo) (f : KeySlot → KeySlot) (s : State) : (updateSlot k f s).drv = s.drv := rfl
@[simp] theorem updateSlot_trk (k : KeyNo) (f : KeySlot → KeySlot) (s : State) : (updateSlot k f s).trk = s.trk := rfl
@[simp] theorem updateSlot_contexts (k : KeyNo) (f : KeySlot → KeySlot) (s : State) : (updateSlot k f s).contexts = s.contexts := rfl
@[simp] theorem updateSlot_regions (k : KeyNo) (f : KeySlot → KeySlot) (s : State) : (updateSlot k f s).regions = s.regions := rfl
@[simp] theorem updateSlot_rings (k : KeyNo) (f : KeySlot → KeySlot) (s : State) : (updateSlot k f s).rings = s.rings := rfl
@[simp] theorem updateSlot_eng (k : KeyNo) (f : KeySlot → KeySlot) (s : State) : (updateSlot k f s).eng = s.eng := rfl
@[simp] theorem updateSlot_pool (k : KeyNo) (f : KeySlot → KeySlot) (s : State) : (updateSlot k f s).pool = s.pool := rfl
@[simp] theorem updateSlot_time (k : KeyNo) (f : KeySlot → KeySlot) (s : State) : (updateSlot k f s).time = s.time := rfl
@[simp] theorem updateSlot_req (k : KeyNo) (f : KeySlot → KeySlot) (s : State) : (updateSlot k f s).req = s.req := rfl
@[simp] theorem updateSlot_nq (k : KeyNo) (f : KeySlot → KeySlot) (s : State) : (updateSlot k f s).nq = s.nq := rfl
@[simp] theorem updateSlot_faults (k : KeyNo) (f : KeySlot → KeySlot) (s : State) : (updateSlot k f s).faults = s.faults := rfl
@[simp] theorem updateSlot_choices (k : KeyNo) (f : KeySlot → KeySlot) (s : State) : (updateSlot k f s).choices = s.choices := rfl
@[simp] theorem updateSlot_pending (k : KeyNo) (f : KeySlot → KeySlot) (s : State) : (updateSlot k f s).pending = s.pending := rfl

@[simp] theorem leaveWaiting_up (c : CtxSlot) (s : State) : (leaveWaiting c s).up = s.up := rfl
@[simp] theorem leaveWaiting_drv (c : CtxSlot) (s : State) : (leaveWaiting c s).drv = s.drv := rfl
@[simp] theorem leaveWaiting_trk (c : CtxSlot) (s : State) : (leaveWaiting c s).trk = s.trk := rfl
@[simp] theorem leaveWaiting_contexts (c : CtxSlot) (s : State) : (leaveWaiting c s).contexts = s.contexts := rfl
@[simp] theorem leaveWaiting_regions (c : CtxSlot) (s : State) : (leaveWaiting c s).regions = s.regions := rfl
@[simp] theorem leaveWaiting_rings (c : CtxSlot) (s : State) : (leaveWaiting c s).rings = s.rings := rfl
@[simp] theorem leaveWaiting_eng (c : CtxSlot) (s : State) : (leaveWaiting c s).eng = s.eng := rfl
@[simp] theorem leaveWaiting_pool (c : CtxSlot) (s : State) : (leaveWaiting c s).pool = s.pool := rfl
@[simp] theorem leaveWaiting_time (c : CtxSlot) (s : State) : (leaveWaiting c s).time = s.time := rfl
@[simp] theorem leaveWaiting_req (c : CtxSlot) (s : State) : (leaveWaiting c s).req = s.req := rfl
@[simp] theorem leaveWaiting_nq (c : CtxSlot) (s : State) : (leaveWaiting c s).nq = s.nq := rfl
@[simp] theorem leaveWaiting_faults (c : CtxSlot) (s : State) : (leaveWaiting c s).faults = s.faults := rfl
@[simp] theorem leaveWaiting_choices (c : CtxSlot) (s : State) : (leaveWaiting c s).choices = s.choices := rfl
@[simp] theorem leaveWaiting_pending (c : CtxSlot) (s : State) : (leaveWaiting c s).pending = s.pending := rfl

@[simp] theorem allocateSlot_up (k : KeyNo) (c : CtxSlot) (s : State) : (allocateSlot k c s).up = s.up := rfl
@[simp] theorem allocateSlot_drv (k : KeyNo) (c : CtxSlot) (s : State) : (allocateSlot k c s).drv = s.drv := rfl
@[simp] theorem allocateSlot_trk (k : KeyNo) (c : CtxSlot) (s : State) : (allocateSlot k c s).trk = s.trk := rfl
@[simp] theorem allocateSlot_contexts (k : KeyNo) (c : CtxSlot) (s : State) : (allocateSlot k c s).contexts = s.contexts := rfl
@[simp] theorem allocateSlot_regions (k : KeyNo) (c : CtxSlot) (s : State) : (allocateSlot k c s).regions = s.regions := rfl
@[simp] theorem allocateSlot_rings (k : KeyNo) (c : CtxSlot) (s : State) : (allocateSlot k c s).rings = s.rings := rfl
@[simp] theorem allocateSlot_pool (k : KeyNo) (c : CtxSlot) (s : State) : (allocateSlot k c s).pool = s.pool := rfl
@[simp] theorem allocateSlot_time (k : KeyNo) (c : CtxSlot) (s : State) : (allocateSlot k c s).time = s.time := rfl
@[simp] theorem allocateSlot_req (k : KeyNo) (c : CtxSlot) (s : State) : (allocateSlot k c s).req = s.req := rfl
@[simp] theorem allocateSlot_nq (k : KeyNo) (c : CtxSlot) (s : State) : (allocateSlot k c s).nq = s.nq := rfl
@[simp] theorem allocateSlot_faults (k : KeyNo) (c : CtxSlot) (s : State) : (allocateSlot k c s).faults = s.faults := rfl
@[simp] theorem allocateSlot_choices (k : KeyNo) (c : CtxSlot) (s : State) : (allocateSlot k c s).choices = s.choices := rfl
@[simp] theorem allocateSlot_pending (k : KeyNo) (c : CtxSlot) (s : State) : (allocateSlot k c s).pending = s.pending := rfl

@[simp] theorem discardStream_up (p : PoolNo) (s : State) : (discardStream p s).up = s.up := rfl
@[simp] theorem discardStream_drv (p : PoolNo) (s : State) : (discardStream p s).drv = s.drv := rfl
@[simp] theorem discardStream_trk (p : PoolNo) (s : State) : (discardStream p s).trk = s.trk := rfl
@[simp] theorem discardStream_contexts (p : PoolNo) (s : State) : (discardStream p s).contexts = s.contexts := rfl
@[simp] theorem discardStream_regions (p : PoolNo) (s : State) : (discardStream p s).regions = s.regions := rfl
@[simp] theorem discardStream_rings (p : PoolNo) (s : State) : (discardStream p s).rings = s.rings := rfl
@[simp] theorem discardStream_keys (p : PoolNo) (s : State) : (discardStream p s).keys = s.keys := rfl
@[simp] theorem discardStream_pool (p : PoolNo) (s : State) : (discardStream p s).pool = s.pool := rfl
@[simp] theorem discardStream_time (p : PoolNo) (s : State) : (discardStream p s).time = s.time := rfl
@[simp] theorem discardStream_req (p : PoolNo) (s : State) : (discardStream p s).req = s.req := rfl
@[simp] theorem discardStream_nq (p : PoolNo) (s : State) : (discardStream p s).nq = s.nq := rfl
@[simp] theorem discardStream_faults (p : PoolNo) (s : State) : (discardStream p s).faults = s.faults := rfl
@[simp] theorem discardStream_choices (p : PoolNo) (s : State) : (discardStream p s).choices = s.choices := rfl
@[simp] theorem discardStream_pending (p : PoolNo) (s : State) : (discardStream p s).pending = s.pending := rfl

@[simp] theorem endRunning_up (s : State) : (endRunning s).up = s.up := rfl
@[simp] theorem endRunning_drv (s : State) : (endRunning s).drv = s.drv := rfl
@[simp] theorem endRunning_trk (s : State) : (endRunning s).trk = s.trk := rfl
@[simp] theorem endRunning_contexts (s : State) : (endRunning s).contexts = s.contexts := rfl
@[simp] theorem endRunning_regions (s : State) : (endRunning s).regions = s.regions := rfl
@[simp] theorem endRunning_rings (s : State) : (endRunning s).rings = s.rings := rfl
@[simp] theorem endRunning_keys (s : State) : (endRunning s).keys = s.keys := rfl
@[simp] theorem endRunning_pool (s : State) : (endRunning s).pool = s.pool := rfl
@[simp] theorem endRunning_time (s : State) : (endRunning s).time = s.time := rfl
@[simp] theorem endRunning_req (s : State) : (endRunning s).req = s.req := rfl
@[simp] theorem endRunning_nq (s : State) : (endRunning s).nq = s.nq := rfl
@[simp] theorem endRunning_faults (s : State) : (endRunning s).faults = s.faults := rfl
@[simp] theorem endRunning_choices (s : State) : (endRunning s).choices = s.choices := rfl
@[simp] theorem endRunning_pending (s : State) : (endRunning s).pending = s.pending := rfl

@[simp] theorem requeue_up (j : StreamJob) (s : State) : (requeue j s).up = s.up := rfl
@[simp] theorem requeue_drv (j : StreamJob) (s : State) : (requeue j s).drv = s.drv := rfl
@[simp] theorem requeue_trk (j : StreamJob) (s : State) : (requeue j s).trk = s.trk := rfl
@[simp] theorem requeue_contexts (j : StreamJob) (s : State) : (requeue j s).contexts = s.contexts := rfl
@[simp] theorem requeue_regions (j : StreamJob) (s : State) : (requeue j s).regions = s.regions := rfl
@[simp] theorem requeue_rings (j : StreamJob) (s : State) : (requeue j s).rings = s.rings := rfl
@[simp] theorem requeue_keys (j : StreamJob) (s : State) : (requeue j s).keys = s.keys := rfl
@[simp] theorem requeue_pool (j : StreamJob) (s : State) : (requeue j s).pool = s.pool := rfl
@[simp] theorem requeue_time (j : StreamJob) (s : State) : (requeue j s).time = s.time := rfl
@[simp] theorem requeue_req (j : StreamJob) (s : State) : (requeue j s).req = s.req := rfl
@[simp] theorem requeue_nq (j : StreamJob) (s : State) : (requeue j s).nq = s.nq := rfl
@[simp] theorem requeue_faults (j : StreamJob) (s : State) : (requeue j s).faults = s.faults := rfl
@[simp] theorem requeue_choices (j : StreamJob) (s : State) : (requeue j s).choices = s.choices := rfl
@[simp] theorem requeue_pending (j : StreamJob) (s : State) : (requeue j s).pending = s.pending := rfl

@[simp] theorem startSetup_up (j : SetupJob) (rest : List SetupJob) (s : State) : (startSetup j rest s).up = s.up := rfl
@[simp] theorem startSetup_drv (j : SetupJob) (rest : List SetupJob) (s : State) : (startSetup j rest s).drv = s.drv := rfl
@[simp] theorem startSetup_trk (j : SetupJob) (rest : List SetupJob) (s : State) : (startSetup j rest s).trk = s.trk := rfl
@[simp] theorem startSetup_contexts (j : SetupJob) (rest : List SetupJob) (s : State) : (startSetup j rest s).contexts = s.contexts := rfl
@[simp] theorem startSetup_regions (j : SetupJob) (rest : List SetupJob) (s : State) : (startSetup j rest s).regions = s.regions := rfl
@[simp] theorem startSetup_rings (j : SetupJob) (rest : List SetupJob) (s : State) : (startSetup j rest s).rings = s.rings := rfl
@[simp] theorem startSetup_keys (j : SetupJob) (rest : List SetupJob) (s : State) : (startSetup j rest s).keys = s.keys := rfl
@[simp] theorem startSetup_pool (j : SetupJob) (rest : List SetupJob) (s : State) : (startSetup j rest s).pool = s.pool := rfl
@[simp] theorem startSetup_time (j : SetupJob) (rest : List SetupJob) (s : State) : (startSetup j rest s).time = s.time := rfl
@[simp] theorem startSetup_req (j : SetupJob) (rest : List SetupJob) (s : State) : (startSetup j rest s).req = s.req := rfl
@[simp] theorem startSetup_nq (j : SetupJob) (rest : List SetupJob) (s : State) : (startSetup j rest s).nq = s.nq := rfl
@[simp] theorem startSetup_faults (j : SetupJob) (rest : List SetupJob) (s : State) : (startSetup j rest s).faults = s.faults := rfl
@[simp] theorem startSetup_choices (j : SetupJob) (rest : List SetupJob) (s : State) : (startSetup j rest s).choices = s.choices := rfl
@[simp] theorem startSetup_pending (j : SetupJob) (rest : List SetupJob) (s : State) : (startSetup j rest s).pending = s.pending := rfl

@[simp] theorem startStream_up (j : StreamJob) (s : State) : (startStream j s).up = s.up := rfl
@[simp] theorem startStream_drv (j : StreamJob) (s : State) : (startStream j s).drv = s.drv := rfl
@[simp] theorem startStream_trk (j : StreamJob) (s : State) : (startStream j s).trk = s.trk := rfl
@[simp] theorem startStream_contexts (j : StreamJob) (s : State) : (startStream j s).contexts = s.contexts := rfl
@[simp] theorem startStream_regions (j : StreamJob) (s : State) : (startStream j s).regions = s.regions := rfl
@[simp] theorem startStream_rings (j : StreamJob) (s : State) : (startStream j s).rings = s.rings := rfl
@[simp] theorem startStream_pool (j : StreamJob) (s : State) : (startStream j s).pool = s.pool := rfl
@[simp] theorem startStream_time (j : StreamJob) (s : State) : (startStream j s).time = s.time := rfl
@[simp] theorem startStream_req (j : StreamJob) (s : State) : (startStream j s).req = s.req := rfl
@[simp] theorem startStream_nq (j : StreamJob) (s : State) : (startStream j s).nq = s.nq := rfl
@[simp] theorem startStream_faults (j : StreamJob) (s : State) : (startStream j s).faults = s.faults := rfl
@[simp] theorem startStream_choices (j : StreamJob) (s : State) : (startStream j s).choices = s.choices := rfl
@[simp] theorem startStream_pending (j : StreamJob) (s : State) : (startStream j s).pending = s.pending := rfl

@[simp] theorem startOther_up (j : OtherJob) (rest : List OtherJob) (s : State) : (startOther j rest s).up = s.up := rfl
@[simp] theorem startOther_drv (j : OtherJob) (rest : List OtherJob) (s : State) : (startOther j rest s).drv = s.drv := rfl
@[simp] theorem startOther_trk (j : OtherJob) (rest : List OtherJob) (s : State) : (startOther j rest s).trk = s.trk := rfl
@[simp] theorem startOther_contexts (j : OtherJob) (rest : List OtherJob) (s : State) : (startOther j rest s).contexts = s.contexts := rfl
@[simp] theorem startOther_regions (j : OtherJob) (rest : List OtherJob) (s : State) : (startOther j rest s).regions = s.regions := rfl
@[simp] theorem startOther_rings (j : OtherJob) (rest : List OtherJob) (s : State) : (startOther j rest s).rings = s.rings := rfl
@[simp] theorem startOther_keys (j : OtherJob) (rest : List OtherJob) (s : State) : (startOther j rest s).keys = s.keys := rfl
@[simp] theorem startOther_pool (j : OtherJob) (rest : List OtherJob) (s : State) : (startOther j rest s).pool = s.pool := rfl
@[simp] theorem startOther_time (j : OtherJob) (rest : List OtherJob) (s : State) : (startOther j rest s).time = s.time := rfl
@[simp] theorem startOther_req (j : OtherJob) (rest : List OtherJob) (s : State) : (startOther j rest s).req = s.req := rfl
@[simp] theorem startOther_nq (j : OtherJob) (rest : List OtherJob) (s : State) : (startOther j rest s).nq = s.nq := rfl
@[simp] theorem startOther_faults (j : OtherJob) (rest : List OtherJob) (s : State) : (startOther j rest s).faults = s.faults := rfl
@[simp] theorem startOther_choices (j : OtherJob) (rest : List OtherJob) (s : State) : (startOther j rest s).choices = s.choices := rfl
@[simp] theorem startOther_pending (j : OtherJob) (rest : List OtherJob) (s : State) : (startOther j rest s).pending = s.pending := rfl

@[simp] theorem dropPoolBurst_up (s : State) : (dropPoolBurst s).up = s.up := rfl
@[simp] theorem dropPoolBurst_drv (s : State) : (dropPoolBurst s).drv = s.drv := rfl
@[simp] theorem dropPoolBurst_trk (s : State) : (dropPoolBurst s).trk = s.trk := rfl
@[simp] theorem dropPoolBurst_contexts (s : State) : (dropPoolBurst s).contexts = s.contexts := rfl
@[simp] theorem dropPoolBurst_regions (s : State) : (dropPoolBurst s).regions = s.regions := rfl
@[simp] theorem dropPoolBurst_rings (s : State) : (dropPoolBurst s).rings = s.rings := rfl
@[simp] theorem dropPoolBurst_keys (s : State) : (dropPoolBurst s).keys = s.keys := rfl
@[simp] theorem dropPoolBurst_eng (s : State) : (dropPoolBurst s).eng = s.eng := rfl
@[simp] theorem dropPoolBurst_time (s : State) : (dropPoolBurst s).time = s.time := rfl
@[simp] theorem dropPoolBurst_req (s : State) : (dropPoolBurst s).req = s.req := rfl
@[simp] theorem dropPoolBurst_nq (s : State) : (dropPoolBurst s).nq = s.nq := rfl
@[simp] theorem dropPoolBurst_faults (s : State) : (dropPoolBurst s).faults = s.faults := rfl
@[simp] theorem dropPoolBurst_choices (s : State) : (dropPoolBurst s).choices = s.choices := rfl
@[simp] theorem dropPoolBurst_pending (s : State) : (dropPoolBurst s).pending = s.pending := rfl

@[simp] theorem addSettled_up (off : Nat) (k : Option Sector) (s : State) : (addSettled off k s).up = s.up := rfl
@[simp] theorem addSettled_drv (off : Nat) (k : Option Sector) (s : State) : (addSettled off k s).drv = s.drv := rfl
@[simp] theorem addSettled_trk (off : Nat) (k : Option Sector) (s : State) : (addSettled off k s).trk = s.trk := rfl
@[simp] theorem addSettled_contexts (off : Nat) (k : Option Sector) (s : State) : (addSettled off k s).contexts = s.contexts := rfl
@[simp] theorem addSettled_regions (off : Nat) (k : Option Sector) (s : State) : (addSettled off k s).regions = s.regions := rfl
@[simp] theorem addSettled_rings (off : Nat) (k : Option Sector) (s : State) : (addSettled off k s).rings = s.rings := rfl
@[simp] theorem addSettled_keys (off : Nat) (k : Option Sector) (s : State) : (addSettled off k s).keys = s.keys := rfl
@[simp] theorem addSettled_eng (off : Nat) (k : Option Sector) (s : State) : (addSettled off k s).eng = s.eng := rfl
@[simp] theorem addSettled_time (off : Nat) (k : Option Sector) (s : State) : (addSettled off k s).time = s.time := rfl
@[simp] theorem addSettled_req (off : Nat) (k : Option Sector) (s : State) : (addSettled off k s).req = s.req := rfl
@[simp] theorem addSettled_nq (off : Nat) (k : Option Sector) (s : State) : (addSettled off k s).nq = s.nq := rfl
@[simp] theorem addSettled_faults (off : Nat) (k : Option Sector) (s : State) : (addSettled off k s).faults = s.faults := rfl
@[simp] theorem addSettled_choices (off : Nat) (k : Option Sector) (s : State) : (addSettled off k s).choices = s.choices := rfl
@[simp] theorem addSettled_pending (off : Nat) (k : Option Sector) (s : State) : (addSettled off k s).pending = s.pending := rfl

@[simp] theorem recomputeCompare_up (s : State) : (recomputeCompare s).up = s.up := by rw [recomputeCompare]
@[simp] theorem recomputeCompare_drv (s : State) : (recomputeCompare s).drv = s.drv := by rw [recomputeCompare]
@[simp] theorem recomputeCompare_trk (s : State) : (recomputeCompare s).trk = s.trk := by rw [recomputeCompare]
@[simp] theorem recomputeCompare_contexts (s : State) : (recomputeCompare s).contexts = s.contexts := by rw [recomputeCompare]
@[simp] theorem recomputeCompare_regions (s : State) : (recomputeCompare s).regions = s.regions := by rw [recomputeCompare]
@[simp] theorem recomputeCompare_rings (s : State) : (recomputeCompare s).rings = s.rings := by rw [recomputeCompare]
@[simp] theorem recomputeCompare_keys (s : State) : (recomputeCompare s).keys = s.keys := by rw [recomputeCompare]
@[simp] theorem recomputeCompare_eng (s : State) : (recomputeCompare s).eng = s.eng := by rw [recomputeCompare]
@[simp] theorem recomputeCompare_pool (s : State) : (recomputeCompare s).pool = s.pool := by rw [recomputeCompare]
@[simp] theorem recomputeCompare_req (s : State) : (recomputeCompare s).req = s.req := by rw [recomputeCompare]
@[simp] theorem recomputeCompare_nq (s : State) : (recomputeCompare s).nq = s.nq := by rw [recomputeCompare]
@[simp] theorem recomputeCompare_faults (s : State) : (recomputeCompare s).faults = s.faults := by rw [recomputeCompare]
@[simp] theorem recomputeCompare_choices (s : State) : (recomputeCompare s).choices = s.choices := by rw [recomputeCompare]
@[simp] theorem recomputeCompare_pending (s : State) : (recomputeCompare s).pending = s.pending := by rw [recomputeCompare]

@[simp] theorem setTime_up (t : Nat) (s : State) : (setTime t s).up = s.up := rfl
@[simp] theorem setTime_drv (t : Nat) (s : State) : (setTime t s).drv = s.drv := rfl
@[simp] theorem setTime_trk (t : Nat) (s : State) : (setTime t s).trk = s.trk := rfl
@[simp] theorem setTime_contexts (t : Nat) (s : State) : (setTime t s).contexts = s.contexts := rfl
@[simp] theorem setTime_regions (t : Nat) (s : State) : (setTime t s).regions = s.regions := rfl
@[simp] theorem setTime_rings (t : Nat) (s : State) : (setTime t s).rings = s.rings := rfl
@[simp] theorem setTime_keys (t : Nat) (s : State) : (setTime t s).keys = s.keys := rfl
@[simp] theorem setTime_eng (t : Nat) (s : State) : (setTime t s).eng = s.eng := rfl
@[simp] theorem setTime_pool (t : Nat) (s : State) : (setTime t s).pool = s.pool := rfl
@[simp] theorem setTime_req (t : Nat) (s : State) : (setTime t s).req = s.req := rfl
@[simp] theorem setTime_faults (t : Nat) (s : State) : (setTime t s).faults = s.faults := rfl
@[simp] theorem setTime_choices (t : Nat) (s : State) : (setTime t s).choices = s.choices := rfl
@[simp] theorem setTime_pending (t : Nat) (s : State) : (setTime t s).pending = s.pending := rfl

@[simp] theorem clearAccepts_up (s : State) : (clearAccepts s).up = s.up := rfl
@[simp] theorem clearAccepts_drv (s : State) : (clearAccepts s).drv = s.drv := rfl
@[simp] theorem clearAccepts_contexts (s : State) : (clearAccepts s).contexts = s.contexts := rfl
@[simp] theorem clearAccepts_regions (s : State) : (clearAccepts s).regions = s.regions := rfl
@[simp] theorem clearAccepts_rings (s : State) : (clearAccepts s).rings = s.rings := rfl
@[simp] theorem clearAccepts_keys (s : State) : (clearAccepts s).keys = s.keys := rfl
@[simp] theorem clearAccepts_eng (s : State) : (clearAccepts s).eng = s.eng := rfl
@[simp] theorem clearAccepts_pool (s : State) : (clearAccepts s).pool = s.pool := rfl
@[simp] theorem clearAccepts_time (s : State) : (clearAccepts s).time = s.time := rfl
@[simp] theorem clearAccepts_req (s : State) : (clearAccepts s).req = s.req := rfl
@[simp] theorem clearAccepts_nq (s : State) : (clearAccepts s).nq = s.nq := rfl
@[simp] theorem clearAccepts_faults (s : State) : (clearAccepts s).faults = s.faults := rfl
@[simp] theorem clearAccepts_choices (s : State) : (clearAccepts s).choices = s.choices := rfl
@[simp] theorem clearAccepts_pending (s : State) : (clearAccepts s).pending = s.pending := rfl

@[simp] theorem upstreamUpEvent_drv (s : State) : (upstreamUpEvent s).drv = s.drv := rfl
@[simp] theorem upstreamUpEvent_trk (s : State) : (upstreamUpEvent s).trk = s.trk := rfl
@[simp] theorem upstreamUpEvent_contexts (s : State) : (upstreamUpEvent s).contexts = s.contexts := rfl
@[simp] theorem upstreamUpEvent_regions (s : State) : (upstreamUpEvent s).regions = s.regions := rfl
@[simp] theorem upstreamUpEvent_rings (s : State) : (upstreamUpEvent s).rings = s.rings := rfl
@[simp] theorem upstreamUpEvent_keys (s : State) : (upstreamUpEvent s).keys = s.keys := rfl
@[simp] theorem upstreamUpEvent_eng (s : State) : (upstreamUpEvent s).eng = s.eng := rfl
@[simp] theorem upstreamUpEvent_pool (s : State) : (upstreamUpEvent s).pool = s.pool := rfl
@[simp] theorem upstreamUpEvent_time (s : State) : (upstreamUpEvent s).time = s.time := rfl
@[simp] theorem upstreamUpEvent_req (s : State) : (upstreamUpEvent s).req = s.req := rfl
@[simp] theorem upstreamUpEvent_nq (s : State) : (upstreamUpEvent s).nq = s.nq := rfl
@[simp] theorem upstreamUpEvent_faults (s : State) : (upstreamUpEvent s).faults = s.faults := rfl
@[simp] theorem upstreamUpEvent_choices (s : State) : (upstreamUpEvent s).choices = s.choices := rfl
@[simp] theorem upstreamUpEvent_pending (s : State) : (upstreamUpEvent s).pending = s.pending := rfl

/-! ### The fields that an update writes -/

@[simp] theorem placeItem_sendList (i : SendItem) (s : State) : (placeItem i s).up.sendList = s.up.sendList ++ [i] := rfl
@[simp] theorem placePart_sendList (f : Frame) (s : State) :
    (placePart f s).up.sendList = s.up.sendList ++ [{ frame := f, owner := none, relayed := false }] := rfl
@[simp] theorem placeRelayed_sendList (f : Frame) (s : State) :
    (placeRelayed f s).up.sendList = s.up.sendList ++ [{ frame := f, owner := none, relayed := true }] := rfl
@[simp] theorem placeItem_held (i : SendItem) (s : State) : (placeItem i s).up.held = s.up.held := rfl
@[simp] theorem placePart_held (f : Frame) (s : State) : (placePart f s).up.held = s.up.held := rfl
@[simp] theorem placeRelayed_held (f : Frame) (s : State) : (placeRelayed f s).up.held = s.up.held := rfl
@[simp] theorem sendDown_sent (f : DownFrame) (s : State) : (sendDown f s).drv.sent = s.drv.sent ++ [f] := rfl
@[simp] theorem sendDown_held (f : DownFrame) (s : State) : (sendDown f s).drv.held = s.drv.held := rfl
@[simp] theorem sendDown_link (f : DownFrame) (s : State) : (sendDown f s).drv.link = s.drv.link := rfl
@[simp] theorem sendDown_resetState (f : DownFrame) (s : State) : (sendDown f s).drv.resetState = s.drv.resetState := rfl
@[simp] theorem sendDown_burst (f : DownFrame) (s : State) : (sendDown f s).drv.burst = s.drv.burst := rfl
@[simp] theorem placeItem_link (i : SendItem) (s : State) : (placeItem i s).up.link = s.up.link := rfl
@[simp] theorem placeItem_inBurst (i : SendItem) (s : State) : (placeItem i s).up.inBurst = s.up.inBurst := rfl
@[simp] theorem placeItem_outBurst (i : SendItem) (s : State) : (placeItem i s).up.outBurst = s.up.outBurst := rfl
@[simp] theorem placeItem_discard (i : SendItem) (s : State) : (placeItem i s).up.discard = s.up.discard := rfl
@[simp] theorem placeItem_sent (i : SendItem) (s : State) : (placeItem i s).up.sent = s.up.sent := rfl
@[simp] theorem placePart_link (f : Frame) (s : State) : (placePart f s).up.link = s.up.link := rfl
@[simp] theorem placePart_inBurst (f : Frame) (s : State) : (placePart f s).up.inBurst = s.up.inBurst := rfl
@[simp] theorem placePart_outBurst (f : Frame) (s : State) : (placePart f s).up.outBurst = s.up.outBurst := rfl
@[simp] theorem placePart_discard (f : Frame) (s : State) : (placePart f s).up.discard = s.up.discard := rfl
@[simp] theorem placePart_sent (f : Frame) (s : State) : (placePart f s).up.sent = s.up.sent := rfl
@[simp] theorem placeRelayed_link (f : Frame) (s : State) : (placeRelayed f s).up.link = s.up.link := rfl
@[simp] theorem placeRelayed_inBurst (f : Frame) (s : State) : (placeRelayed f s).up.inBurst = s.up.inBurst := rfl
@[simp] theorem placeRelayed_outBurst (f : Frame) (s : State) : (placeRelayed f s).up.outBurst = s.up.outBurst := rfl
@[simp] theorem placeRelayed_discard (f : Frame) (s : State) : (placeRelayed f s).up.discard = s.up.discard := rfl
@[simp] theorem placeRelayed_sent (f : Frame) (s : State) : (placeRelayed f s).up.sent = s.up.sent := rfl
@[simp] theorem sendDown_discard (f : DownFrame) (s : State) : (sendDown f s).drv.discard = s.drv.discard := rfl
@[simp] theorem recomputeCompare_mono (s : State) : (recomputeCompare s).time.mono = s.time.mono := by rw [recomputeCompare]
@[simp] theorem recomputeCompare_rights (s : State) : (recomputeCompare s).time.rights = s.time.rights := by rw [recomputeCompare]
@[simp] theorem recomputeCompare_rightsSet (s : State) : (recomputeCompare s).time.rightsSet = s.time.rightsSet := by rw [recomputeCompare]
@[simp] theorem recomputeCompare_divideCount (s : State) : (recomputeCompare s).time.divideCount = s.time.divideCount := by rw [recomputeCompare]
@[simp] theorem recomputeCompare_token (s : State) : (recomputeCompare s).time.token = s.time.token := by rw [recomputeCompare]
@[simp] theorem recordRefusal_queued (c : CommandFrame) (code : Code) (s : State) :
    (recordRefusal c code s).trk.queued = s.trk.queued := rfl
@[simp] theorem recordRefusal_single (c : CommandFrame) (code : Code) (s : State) :
    (recordRefusal c code s).trk.single = s.trk.single := rfl
@[simp] theorem recordRefusal_accepts (c : CommandFrame) (code : Code) (s : State) :
    (recordRefusal c code s).trk.accepts = s.trk.accepts := rfl
@[simp] theorem setEntry_accepts (o : Owner) (e : Option Entry) (s : State) :
    (setEntry o e s).trk.accepts = s.trk.accepts := by cases o <;> rfl
@[simp] theorem setEntry_history (o : Owner) (e : Option Entry) (s : State) :
    (setEntry o e s).trk.history = s.trk.history := by cases o <;> rfl
@[simp] theorem setEntry_released (o : Owner) (e : Option Entry) (s : State) :
    (setEntry o e s).trk.released = s.trk.released := by cases o <;> rfl
@[simp] theorem updateEntry_accepts (o : Owner) (f : Entry → Entry) (s : State) :
    (updateEntry o f s).trk.accepts = s.trk.accepts := setEntry_accepts ..
@[simp] theorem updateEntry_history (o : Owner) (f : Entry → Entry) (s : State) :
    (updateEntry o f s).trk.history = s.trk.history := setEntry_history ..
@[simp] theorem updateEntry_released (o : Owner) (f : Entry → Entry) (s : State) :
    (updateEntry o f s).trk.released = s.trk.released := setEntry_released ..
@[simp] theorem setEntry_single_queued (e : Option Entry) (s : State) :
    (setEntry .single e s).trk.queued = s.trk.queued := rfl
@[simp] theorem setEntry_single_single (e : Option Entry) (s : State) : (setEntry .single e s).trk.single = e := rfl
@[simp] theorem setEntry_tag_single (t : Tag) (e : Option Entry) (s : State) :
    (setEntry (.tag t) e s).trk.single = s.trk.single := rfl
@[simp] theorem leaveWaiting_slots (c : CtxSlot) (s : State) : (leaveWaiting c s).keys.slots = s.keys.slots := rfl

/-! ### Tables: a read after a write -/

/-- Reading an owner's entry after it is replaced gives the new one; every other entry is as before. -/
theorem entryOf_setEntry (o p : Owner) (e : Option Entry) (s : State) :
    entryOf (setEntry o e s) p = if p = o then e else entryOf s p := by
  cases o <;> cases p <;> simp [entryOf, setEntry, putEntry, Vector.get_eq_getElem, Vector.getElem_set]
  · rename_i i j
    by_cases h : i = j
    · subst h; simp
    · have : ¬((i : Nat) = j) := fun q => h (Fin.ext q)
      have h' : ¬(j = i) := fun q => h q.symm
      simp [this, h']

/-- Reading a context record after one is replaced. -/
theorem ctxOf_setCtx (c d : CtxSlot) (x : Context) (s : State) :
    ctxOf (setCtx c x s) d = if d = c then x else ctxOf s d := by
  by_cases h : c = d
  · subst h; simp [ctxOf, setCtx, Vector.get_eq_getElem]
  · have h1 : ¬((c : Nat) = d) := fun q => h (Fin.ext q)
    have h2 : ¬(d = c) := fun q => h q.symm
    simp [ctxOf, setCtx, Vector.get_eq_getElem, h1, h2]

/-- Reading a ring record after one is replaced. -/
theorem ringOf_setRing (c d : CtxSlot) (r : Option Ring) (s : State) :
    ringOf (setRing c r s) d = if d = c then r else ringOf s d := by
  by_cases h : c = d
  · subst h; simp [ringOf, setRing, Vector.get_eq_getElem]
  · have h1 : ¬((c : Nat) = d) := fun q => h (Fin.ext q)
    have h2 : ¬(d = c) := fun q => h q.symm
    simp [ringOf, setRing, Vector.get_eq_getElem, h1, h2]

/-- Reading an entry depends on the Tracker alone. -/
theorem entryOf_congr {s t : State} (h : t.trk = s.trk) (o : Owner) : entryOf t o = entryOf s o := by
  cases o <;> simp [entryOf, h]

/-- Reading a context depends on the Context Table alone. -/
theorem ctxOf_congr {s t : State} (h : t.contexts = s.contexts) (c : CtxSlot) : ctxOf t c = ctxOf s c := by
  simp [ctxOf, h]

/-- Reading a ring depends on the Ring Unit alone. -/
theorem ringOf_congr {s t : State} (h : t.rings = s.rings) (c : CtxSlot) : ringOf t c = ringOf s c := by
  simp [ringOf, h]

/-- Reading a region depends on the Region Table alone. -/
theorem regionOf_congr {s t : State} (h : t.regions = s.regions) (e : EntryNo) : regionOf t e = regionOf s e := by
  simp [regionOf, h]

end Sys2Proof.Machine
end

