-- ==== Sys2Proof/Laws/Frames.lean ====
section
/-!
SUPPORT. What each shared operation leaves unchanged: one lemma per operation, over the fields of State that it does not write.
-/

namespace Sys2Proof.Machine

open Sys2Proof

/-- What every step of a fold keeps, the fold keeps. -/
theorem foldl_keeps {α β : Type} (g : State → β) (f : State → α → State) (h : ∀ s a, g (f s a) = g s) (l : List α) (s : State) :
    g (l.foldl f s) = g s := by
  induction l generalizing s with
  | nil => rfl
  | cons a l ih => rw [List.foldl_cons, ih, h]

@[simp] theorem foldl_keeps_up {α : Type} (f : State → α → State) (h : ∀ s a, (f s a).up = s.up) (l : List α) (s : State) :
    (l.foldl f s).up = s.up :=
  foldl_keeps (fun s => s.up) f h l s
@[simp] theorem foldl_keeps_drv {α : Type} (f : State → α → State) (h : ∀ s a, (f s a).drv = s.drv) (l : List α) (s : State) :
    (l.foldl f s).drv = s.drv :=
  foldl_keeps (fun s => s.drv) f h l s
@[simp] theorem foldl_keeps_trk {α : Type} (f : State → α → State) (h : ∀ s a, (f s a).trk = s.trk) (l : List α) (s : State) :
    (l.foldl f s).trk = s.trk :=
  foldl_keeps (fun s => s.trk) f h l s
@[simp] theorem foldl_keeps_contexts {α : Type} (f : State → α → State) (h : ∀ s a, (f s a).contexts = s.contexts) (l : List α) (s : State) :
    (l.foldl f s).contexts = s.contexts :=
  foldl_keeps (fun s => s.contexts) f h l s
@[simp] theorem foldl_keeps_regions {α : Type} (f : State → α → State) (h : ∀ s a, (f s a).regions = s.regions) (l : List α) (s : State) :
    (l.foldl f s).regions = s.regions :=
  foldl_keeps (fun s => s.regions) f h l s
@[simp] theorem foldl_keeps_rings {α : Type} (f : State → α → State) (h : ∀ s a, (f s a).rings = s.rings) (l : List α) (s : State) :
    (l.foldl f s).rings = s.rings :=
  foldl_keeps (fun s => s.rings) f h l s
@[simp] theorem foldl_keeps_keys {α : Type} (f : State → α → State) (h : ∀ s a, (f s a).keys = s.keys) (l : List α) (s : State) :
    (l.foldl f s).keys = s.keys :=
  foldl_keeps (fun s => s.keys) f h l s
@[simp] theorem foldl_keeps_eng {α : Type} (f : State → α → State) (h : ∀ s a, (f s a).eng = s.eng) (l : List α) (s : State) :
    (l.foldl f s).eng = s.eng :=
  foldl_keeps (fun s => s.eng) f h l s
@[simp] theorem foldl_keeps_pool {α : Type} (f : State → α → State) (h : ∀ s a, (f s a).pool = s.pool) (l : List α) (s : State) :
    (l.foldl f s).pool = s.pool :=
  foldl_keeps (fun s => s.pool) f h l s
@[simp] theorem foldl_keeps_time {α : Type} (f : State → α → State) (h : ∀ s a, (f s a).time = s.time) (l : List α) (s : State) :
    (l.foldl f s).time = s.time :=
  foldl_keeps (fun s => s.time) f h l s
@[simp] theorem foldl_keeps_req {α : Type} (f : State → α → State) (h : ∀ s a, (f s a).req = s.req) (l : List α) (s : State) :
    (l.foldl f s).req = s.req :=
  foldl_keeps (fun s => s.req) f h l s
@[simp] theorem foldl_keeps_nq {α : Type} (f : State → α → State) (h : ∀ s a, (f s a).nq = s.nq) (l : List α) (s : State) :
    (l.foldl f s).nq = s.nq :=
  foldl_keeps (fun s => s.nq) f h l s
@[simp] theorem foldl_keeps_faults {α : Type} (f : State → α → State) (h : ∀ s a, (f s a).faults = s.faults) (l : List α) (s : State) :
    (l.foldl f s).faults = s.faults :=
  foldl_keeps (fun s => s.faults) f h l s
@[simp] theorem foldl_keeps_choices {α : Type} (f : State → α → State) (h : ∀ s a, (f s a).choices = s.choices) (l : List α) (s : State) :
    (l.foldl f s).choices = s.choices :=
  foldl_keeps (fun s => s.choices) f h l s
@[simp] theorem foldl_keeps_pending {α : Type} (f : State → α → State) (h : ∀ s a, (f s a).pending = s.pending) (l : List α) (s : State) :
    (l.foldl f s).pending = s.pending :=
  foldl_keeps (fun s => s.pending) f h l s
@[simp] theorem foldl_keeps_trk_accepts {α : Type} (f : State → α → State) (h : ∀ s a, (f s a).trk.accepts = s.trk.accepts) (l : List α) (s : State) :
    (l.foldl f s).trk.accepts = s.trk.accepts :=
  foldl_keeps (fun s => s.trk.accepts) f h l s
@[simp] theorem foldl_keeps_trk_history {α : Type} (f : State → α → State) (h : ∀ s a, (f s a).trk.history = s.trk.history) (l : List α) (s : State) :
    (l.foldl f s).trk.history = s.trk.history :=
  foldl_keeps (fun s => s.trk.history) f h l s
@[simp] theorem foldl_keeps_trk_queued {α : Type} (f : State → α → State) (h : ∀ s a, (f s a).trk.queued = s.trk.queued) (l : List α) (s : State) :
    (l.foldl f s).trk.queued = s.trk.queued :=
  foldl_keeps (fun s => s.trk.queued) f h l s
@[simp] theorem foldl_keeps_trk_single {α : Type} (f : State → α → State) (h : ∀ s a, (f s a).trk.single = s.trk.single) (l : List α) (s : State) :
    (l.foldl f s).trk.single = s.trk.single :=
  foldl_keeps (fun s => s.trk.single) f h l s
@[simp] theorem foldl_keeps_trk_released {α : Type} (f : State → α → State) (h : ∀ s a, (f s a).trk.released = s.trk.released) (l : List α) (s : State) :
    (l.foldl f s).trk.released = s.trk.released :=
  foldl_keeps (fun s => s.trk.released) f h l s
@[simp] theorem foldl_keeps_time_mono {α : Type} (f : State → α → State) (h : ∀ s a, (f s a).time.mono = s.time.mono) (l : List α) (s : State) :
    (l.foldl f s).time.mono = s.time.mono :=
  foldl_keeps (fun s => s.time.mono) f h l s
@[simp] theorem foldl_keeps_time_rights {α : Type} (f : State → α → State) (h : ∀ s a, (f s a).time.rights = s.time.rights) (l : List α) (s : State) :
    (l.foldl f s).time.rights = s.time.rights :=
  foldl_keeps (fun s => s.time.rights) f h l s
@[simp] theorem foldl_keeps_time_rightsSet {α : Type} (f : State → α → State) (h : ∀ s a, (f s a).time.rightsSet = s.time.rightsSet) (l : List α) (s : State) :
    (l.foldl f s).time.rightsSet = s.time.rightsSet :=
  foldl_keeps (fun s => s.time.rightsSet) f h l s
@[simp] theorem foldl_keeps_time_divideCount {α : Type} (f : State → α → State) (h : ∀ s a, (f s a).time.divideCount = s.time.divideCount) (l : List α) (s : State) :
    (l.foldl f s).time.divideCount = s.time.divideCount :=
  foldl_keeps (fun s => s.time.divideCount) f h l s
@[simp] theorem foldl_keeps_time_token {α : Type} (f : State → α → State) (h : ∀ s a, (f s a).time.token = s.time.token) (l : List α) (s : State) :
    (l.foldl f s).time.token = s.time.token :=
  foldl_keeps (fun s => s.time.token) f h l s
@[simp] theorem foldl_keeps_req_lookahead {α : Type} (f : State → α → State) (h : ∀ s a, (f s a).req.lookahead = s.req.lookahead) (l : List α) (s : State) :
    (l.foldl f s).req.lookahead = s.req.lookahead :=
  foldl_keeps (fun s => s.req.lookahead) f h l s
@[simp] theorem foldl_keeps_req_attentionSet {α : Type} (f : State → α → State) (h : ∀ s a, (f s a).req.attentionSet = s.req.attentionSet) (l : List α) (s : State) :
    (l.foldl f s).req.attentionSet = s.req.attentionSet :=
  foldl_keeps (fun s => s.req.attentionSet) f h l s
@[simp] theorem foldl_keeps_req_severities {α : Type} (f : State → α → State) (h : ∀ s a, (f s a).req.severities = s.req.severities) (l : List α) (s : State) :
    (l.foldl f s).req.severities = s.req.severities :=
  foldl_keeps (fun s => s.req.severities) f h l s
@[simp] theorem foldl_keeps_req_divider {α : Type} (f : State → α → State) (h : ∀ s a, (f s a).req.divider = s.req.divider) (l : List α) (s : State) :
    (l.foldl f s).req.divider = s.req.divider :=
  foldl_keeps (fun s => s.req.divider) f h l s
@[simp] theorem foldl_keeps_req_locked {α : Type} (f : State → α → State) (h : ∀ s a, (f s a).req.locked = s.req.locked) (l : List α) (s : State) :
    (l.foldl f s).req.locked = s.req.locked :=
  foldl_keeps (fun s => s.req.locked) f h l s
@[simp] theorem foldl_keeps_req_reply {α : Type} (f : State → α → State) (h : ∀ s a, (f s a).req.reply = s.req.reply) (l : List α) (s : State) :
    (l.foldl f s).req.reply = s.req.reply :=
  foldl_keeps (fun s => s.req.reply) f h l s
@[simp] theorem foldl_keeps_drv_link {α : Type} (f : State → α → State) (h : ∀ s a, (f s a).drv.link = s.drv.link) (l : List α) (s : State) :
    (l.foldl f s).drv.link = s.drv.link :=
  foldl_keeps (fun s => s.drv.link) f h l s
@[simp] theorem foldl_keeps_drv_burst {α : Type} (f : State → α → State) (h : ∀ s a, (f s a).drv.burst = s.drv.burst) (l : List α) (s : State) :
    (l.foldl f s).drv.burst = s.drv.burst :=
  foldl_keeps (fun s => s.drv.burst) f h l s
@[simp] theorem foldl_keeps_drv_discard {α : Type} (f : State → α → State) (h : ∀ s a, (f s a).drv.discard = s.drv.discard) (l : List α) (s : State) :
    (l.foldl f s).drv.discard = s.drv.discard :=
  foldl_keeps (fun s => s.drv.discard) f h l s
@[simp] theorem foldl_keeps_drv_resetState {α : Type} (f : State → α → State) (h : ∀ s a, (f s a).drv.resetState = s.drv.resetState) (l : List α) (s : State) :
    (l.foldl f s).drv.resetState = s.drv.resetState :=
  foldl_keeps (fun s => s.drv.resetState) f h l s
@[simp] theorem foldl_keeps_drv_held {α : Type} (f : State → α → State) (h : ∀ s a, (f s a).drv.held = s.drv.held) (l : List α) (s : State) :
    (l.foldl f s).drv.held = s.drv.held :=
  foldl_keeps (fun s => s.drv.held) f h l s
@[simp] theorem foldl_keeps_up_link {α : Type} (f : State → α → State) (h : ∀ s a, (f s a).up.link = s.up.link) (l : List α) (s : State) :
    (l.foldl f s).up.link = s.up.link :=
  foldl_keeps (fun s => s.up.link) f h l s
@[simp] theorem foldl_keeps_up_sendList {α : Type} (f : State → α → State) (h : ∀ s a, (f s a).up.sendList = s.up.sendList) (l : List α) (s : State) :
    (l.foldl f s).up.sendList = s.up.sendList :=
  foldl_keeps (fun s => s.up.sendList) f h l s
@[simp] theorem foldl_keeps_up_held {α : Type} (f : State → α → State) (h : ∀ s a, (f s a).up.held = s.up.held) (l : List α) (s : State) :
    (l.foldl f s).up.held = s.up.held :=
  foldl_keeps (fun s => s.up.held) f h l s
@[simp] theorem foldl_keeps_up_sent {α : Type} (f : State → α → State) (h : ∀ s a, (f s a).up.sent = s.up.sent) (l : List α) (s : State) :
    (l.foldl f s).up.sent = s.up.sent :=
  foldl_keeps (fun s => s.up.sent) f h l s

/-- What serveSlot leaves unchanged. -/
@[simp] theorem serveSlot_keeps (k : KeyNo) (s : State) :
    (serveSlot k s).up = s.up ∧ (serveSlot k s).drv = s.drv ∧ (serveSlot k s).trk = s.trk ∧
    (serveSlot k s).contexts = s.contexts ∧ (serveSlot k s).regions = s.regions ∧ (serveSlot k s).rings = s.rings ∧
    (serveSlot k s).pool = s.pool ∧ (serveSlot k s).time = s.time ∧ (serveSlot k s).req = s.req ∧
    (serveSlot k s).nq = s.nq ∧ (serveSlot k s).faults = s.faults ∧ (serveSlot k s).choices = s.choices ∧
    (serveSlot k s).pending = s.pending := by
  unfold serveSlot
  try dsimp only
  repeat' split
  all_goals simp

/-- What obtainSlot leaves unchanged. -/
@[simp] theorem obtainSlot_keeps (c : CtxSlot) (s : State) :
    (obtainSlot c s).up = s.up ∧ (obtainSlot c s).drv = s.drv ∧ (obtainSlot c s).trk = s.trk ∧
    (obtainSlot c s).contexts = s.contexts ∧ (obtainSlot c s).regions = s.regions ∧ (obtainSlot c s).rings = s.rings ∧
    (obtainSlot c s).pool = s.pool ∧ (obtainSlot c s).time = s.time ∧ (obtainSlot c s).req = s.req ∧
    (obtainSlot c s).nq = s.nq ∧ (obtainSlot c s).faults = s.faults ∧ (obtainSlot c s).choices = s.choices ∧
    (obtainSlot c s).pending = s.pending := by
  unfold obtainSlot
  try dsimp only
  repeat' split
  all_goals simp

/-- What queueStream leaves unchanged. -/
@[simp] theorem queueStream_keeps (j : StreamJob) (s : State) :
    (queueStream j s).up = s.up ∧ (queueStream j s).drv = s.drv ∧ (queueStream j s).trk = s.trk ∧
    (queueStream j s).contexts = s.contexts ∧ (queueStream j s).regions = s.regions ∧ (queueStream j s).rings = s.rings ∧
    (queueStream j s).pool = s.pool ∧ (queueStream j s).time = s.time ∧ (queueStream j s).req = s.req ∧
    (queueStream j s).nq = s.nq ∧ (queueStream j s).faults = s.faults ∧ (queueStream j s).choices = s.choices ∧
    (queueStream j s).pending = s.pending := by
  unfold queueStream
  try dsimp only
  repeat' split
  all_goals simp

/-- What dropUser leaves unchanged. -/
@[simp] theorem dropUser_keeps (k : KeyNo) (s : State) :
    (dropUser k s).up = s.up ∧ (dropUser k s).drv = s.drv ∧ (dropUser k s).trk = s.trk ∧
    (dropUser k s).contexts = s.contexts ∧ (dropUser k s).regions = s.regions ∧ (dropUser k s).rings = s.rings ∧
    (dropUser k s).pool = s.pool ∧ (dropUser k s).time = s.time ∧ (dropUser k s).req = s.req ∧
    (dropUser k s).nq = s.nq ∧ (dropUser k s).faults = s.faults ∧ (dropUser k s).choices = s.choices ∧
    (dropUser k s).pending = s.pending := by
  unfold dropUser
  try dsimp only
  repeat' split
  all_goals simp

/-- What dropUserOf leaves unchanged. -/
@[simp] theorem dropUserOf_keeps (k : Option KeyNo) (s : State) :
    (dropUserOf k s).up = s.up ∧ (dropUserOf k s).drv = s.drv ∧ (dropUserOf k s).trk = s.trk ∧
    (dropUserOf k s).contexts = s.contexts ∧ (dropUserOf k s).regions = s.regions ∧ (dropUserOf k s).rings = s.rings ∧
    (dropUserOf k s).pool = s.pool ∧ (dropUserOf k s).time = s.time ∧ (dropUserOf k s).req = s.req ∧
    (dropUserOf k s).nq = s.nq ∧ (dropUserOf k s).faults = s.faults ∧ (dropUserOf k s).choices = s.choices ∧
    (dropUserOf k s).pending = s.pending := by
  unfold dropUserOf
  try dsimp only
  repeat' split
  all_goals simp

/-- What withdrawStream leaves unchanged. -/
@[simp] theorem withdrawStream_keeps (p : PoolNo) (s : State) :
    (withdrawStream p s).up = s.up ∧ (withdrawStream p s).drv = s.drv ∧ (withdrawStream p s).trk = s.trk ∧
    (withdrawStream p s).contexts = s.contexts ∧ (withdrawStream p s).regions = s.regions ∧ (withdrawStream p s).rings = s.rings ∧
    (withdrawStream p s).pool = s.pool ∧ (withdrawStream p s).time = s.time ∧ (withdrawStream p s).req = s.req ∧
    (withdrawStream p s).nq = s.nq ∧ (withdrawStream p s).faults = s.faults ∧ (withdrawStream p s).choices = s.choices ∧
    (withdrawStream p s).pending = s.pending := by
  unfold withdrawStream
  try dsimp only
  repeat' split
  all_goals simp

/-- What freeKeySlot leaves unchanged. -/
@[simp] theorem freeKeySlot_keeps (k : KeyNo) (s : State) :
    (freeKeySlot k s).up = s.up ∧ (freeKeySlot k s).drv = s.drv ∧ (freeKeySlot k s).trk = s.trk ∧
    (freeKeySlot k s).contexts = s.contexts ∧ (freeKeySlot k s).regions = s.regions ∧ (freeKeySlot k s).rings = s.rings ∧
    (freeKeySlot k s).pool = s.pool ∧ (freeKeySlot k s).time = s.time ∧ (freeKeySlot k s).req = s.req ∧
    (freeKeySlot k s).nq = s.nq ∧ (freeKeySlot k s).faults = s.faults ∧ (freeKeySlot k s).choices = s.choices ∧
    (freeKeySlot k s).pending = s.pending := by
  unfold freeKeySlot
  try dsimp only
  simp

/-- What returnToSetup leaves unchanged. -/
@[simp] theorem returnToSetup_keeps (k : KeyNo) (s : State) :
    (returnToSetup k s).up = s.up ∧ (returnToSetup k s).drv = s.drv ∧ (returnToSetup k s).trk = s.trk ∧
    (returnToSetup k s).contexts = s.contexts ∧ (returnToSetup k s).regions = s.regions ∧ (returnToSetup k s).rings = s.rings ∧
    (returnToSetup k s).pool = s.pool ∧ (returnToSetup k s).time = s.time ∧ (returnToSetup k s).req = s.req ∧
    (returnToSetup k s).nq = s.nq ∧ (returnToSetup k s).faults = s.faults ∧ (returnToSetup k s).choices = s.choices ∧
    (returnToSetup k s).pending = s.pending := by
  unfold returnToSetup
  try dsimp only
  repeat' split
  all_goals simp

/-- What pinContext leaves unchanged. -/
@[simp] theorem pinContext_keeps (c : CtxSlot) (s : State) :
    (pinContext c s).up = s.up ∧ (pinContext c s).drv = s.drv ∧ (pinContext c s).trk = s.trk ∧
    (pinContext c s).regions = s.regions ∧ (pinContext c s).rings = s.rings ∧ (pinContext c s).pool = s.pool ∧
    (pinContext c s).time = s.time ∧ (pinContext c s).req = s.req ∧ (pinContext c s).nq = s.nq ∧
    (pinContext c s).faults = s.faults ∧ (pinContext c s).choices = s.choices ∧ (pinContext c s).pending = s.pending := by
  unfold pinContext
  try dsimp only
  repeat' split
  all_goals simp

/-- What unpinContext leaves unchanged. -/
@[simp] theorem unpinContext_keeps (c : CtxSlot) (s : State) :
    (unpinContext c s).up = s.up ∧ (unpinContext c s).drv = s.drv ∧ (unpinContext c s).trk = s.trk ∧
    (unpinContext c s).regions = s.regions ∧ (unpinContext c s).rings = s.rings ∧ (unpinContext c s).pool = s.pool ∧
    (unpinContext c s).time = s.time ∧ (unpinContext c s).req = s.req ∧ (unpinContext c s).nq = s.nq ∧
    (unpinContext c s).faults = s.faults ∧ (unpinContext c s).choices = s.choices ∧ (unpinContext c s).pending = s.pending := by
  unfold unpinContext
  try dsimp only
  repeat' split
  all_goals simp

/-- What assignSlot leaves unchanged. -/
@[simp] theorem assignSlot_keeps (o : Owner) (off : Nat) (c : CtxSlot) (lap logical : Nat) (p : PoolNo) (s : State) :
    (assignSlot o off c lap logical p s).up = s.up ∧ (assignSlot o off c lap logical p s).drv = s.drv ∧ (assignSlot o off c lap logical p s).trk = s.trk ∧
    (assignSlot o off c lap logical p s).contexts = s.contexts ∧ (assignSlot o off c lap logical p s).regions = s.regions ∧ (assignSlot o off c lap logical p s).rings = s.rings ∧
    (assignSlot o off c lap logical p s).time = s.time ∧ (assignSlot o off c lap logical p s).req = s.req ∧ (assignSlot o off c lap logical p s).nq = s.nq ∧
    (assignSlot o off c lap logical p s).faults = s.faults ∧ (assignSlot o off c lap logical p s).choices = s.choices ∧ (assignSlot o off c lap logical p s).pending = s.pending := by
  unfold assignSlot
  try dsimp only
  simp

/-- What allocateFrom leaves unchanged. -/
@[simp] theorem allocateFrom_keeps (o : Owner) (e : Entry) (l : List Nat) (s : State) :
    (allocateFrom o e l s).up = s.up ∧ (allocateFrom o e l s).drv = s.drv ∧ (allocateFrom o e l s).trk = s.trk ∧
    (allocateFrom o e l s).contexts = s.contexts ∧ (allocateFrom o e l s).regions = s.regions ∧ (allocateFrom o e l s).rings = s.rings ∧
    (allocateFrom o e l s).time = s.time ∧ (allocateFrom o e l s).req = s.req ∧ (allocateFrom o e l s).nq = s.nq ∧
    (allocateFrom o e l s).faults = s.faults ∧ (allocateFrom o e l s).choices = s.choices ∧ (allocateFrom o e l s).pending = s.pending := by
  induction l generalizing s with
  | nil => simp [allocateFrom]
  | cons off rest ih =>
    unfold allocateFrom
    repeat' split
    all_goals simp [ih]

/-- What refill leaves unchanged. -/
@[simp] theorem refill_keeps (s : State) :
    (refill s).up = s.up ∧ (refill s).drv = s.drv ∧ (refill s).trk = s.trk ∧
    (refill s).contexts = s.contexts ∧ (refill s).regions = s.regions ∧ (refill s).rings = s.rings ∧
    (refill s).time = s.time ∧ (refill s).req = s.req ∧ (refill s).nq = s.nq ∧
    (refill s).faults = s.faults ∧ (refill s).choices = s.choices ∧ (refill s).pending = s.pending := by
  unfold refill
  try dsimp only
  repeat' split
  all_goals simp

/-- What openPoolBurst leaves unchanged. -/
@[simp] theorem openPoolBurst_keeps (e : Entry) (first count : Nat) (s : State) :
    (openPoolBurst e first count s).up = s.up ∧ (openPoolBurst e first count s).drv = s.drv ∧ (openPoolBurst e first count s).trk = s.trk ∧
    (openPoolBurst e first count s).contexts = s.contexts ∧ (openPoolBurst e first count s).regions = s.regions ∧ (openPoolBurst e first count s).rings = s.rings ∧
    (openPoolBurst e first count s).time = s.time ∧ (openPoolBurst e first count s).req = s.req ∧ (openPoolBurst e first count s).nq = s.nq ∧
    (openPoolBurst e first count s).faults = s.faults ∧ (openPoolBurst e first count s).choices = s.choices ∧ (openPoolBurst e first count s).pending = s.pending := by
  unfold openPoolBurst
  try dsimp only
  repeat' split
  all_goals simp

/-- What freePoolSlot leaves unchanged. -/
@[simp] theorem freePoolSlot_keeps (p : PoolNo) (s : State) :
    (freePoolSlot p s).up = s.up ∧ (freePoolSlot p s).drv = s.drv ∧ (freePoolSlot p s).trk = s.trk ∧
    (freePoolSlot p s).contexts = s.contexts ∧ (freePoolSlot p s).regions = s.regions ∧ (freePoolSlot p s).rings = s.rings ∧
    (freePoolSlot p s).time = s.time ∧ (freePoolSlot p s).req = s.req ∧ (freePoolSlot p s).nq = s.nq ∧
    (freePoolSlot p s).faults = s.faults ∧ (freePoolSlot p s).choices = s.choices ∧ (freePoolSlot p s).pending = s.pending := by
  unfold freePoolSlot
  try dsimp only
  simp

/-- What freeSlotsOf leaves unchanged. -/
@[simp] theorem freeSlotsOf_keeps (o : Owner) (s : State) :
    (freeSlotsOf o s).up = s.up ∧ (freeSlotsOf o s).drv = s.drv ∧ (freeSlotsOf o s).trk = s.trk ∧
    (freeSlotsOf o s).contexts = s.contexts ∧ (freeSlotsOf o s).regions = s.regions ∧ (freeSlotsOf o s).rings = s.rings ∧
    (freeSlotsOf o s).time = s.time ∧ (freeSlotsOf o s).req = s.req ∧ (freeSlotsOf o s).nq = s.nq ∧
    (freeSlotsOf o s).faults = s.faults ∧ (freeSlotsOf o s).choices = s.choices ∧ (freeSlotsOf o s).pending = s.pending := by
  unfold freeSlotsOf
  try dsimp only
  simp

/-- What freeAllSlots leaves unchanged. -/
@[simp] theorem freeAllSlots_keeps (s : State) :
    (freeAllSlots s).up = s.up ∧ (freeAllSlots s).drv = s.drv ∧ (freeAllSlots s).trk = s.trk ∧
    (freeAllSlots s).contexts = s.contexts ∧ (freeAllSlots s).regions = s.regions ∧ (freeAllSlots s).rings = s.rings ∧
    (freeAllSlots s).time = s.time ∧ (freeAllSlots s).req = s.req ∧ (freeAllSlots s).nq = s.nq ∧
    (freeAllSlots s).faults = s.faults ∧ (freeAllSlots s).choices = s.choices ∧ (freeAllSlots s).pending = s.pending := by
  unfold freeAllSlots
  try dsimp only
  simp

/-- What settleSector leaves unchanged. -/
@[simp] theorem settleSector_keeps (o : Owner) (e : Entry) (off : Nat) (s : State) :
    (settleSector o e off s).up = s.up ∧ (settleSector o e off s).drv = s.drv ∧ (settleSector o e off s).trk = s.trk ∧
    (settleSector o e off s).contexts = s.contexts ∧ (settleSector o e off s).regions = s.regions ∧ (settleSector o e off s).rings = s.rings ∧
    (settleSector o e off s).time = s.time ∧ (settleSector o e off s).req = s.req ∧ (settleSector o e off s).nq = s.nq ∧
    (settleSector o e off s).faults = s.faults ∧ (settleSector o e off s).choices = s.choices ∧ (settleSector o e off s).pending = s.pending := by
  unfold settleSector
  try dsimp only
  repeat' split
  all_goals simp

/-- What settleFrame leaves unchanged. -/
@[simp] theorem settleFrame_keeps (o : Owner) (n : Nat) (s : State) :
    (settleFrame o n s).up = s.up ∧ (settleFrame o n s).drv = s.drv ∧ (settleFrame o n s).trk = s.trk ∧
    (settleFrame o n s).contexts = s.contexts ∧ (settleFrame o n s).regions = s.regions ∧ (settleFrame o n s).rings = s.rings ∧
    (settleFrame o n s).time = s.time ∧ (settleFrame o n s).req = s.req ∧ (settleFrame o n s).nq = s.nq ∧
    (settleFrame o n s).faults = s.faults ∧ (settleFrame o n s).choices = s.choices ∧ (settleFrame o n s).pending = s.pending := by
  unfold settleFrame
  try dsimp only
  repeat' split
  all_goals simp

/-- What settleHeads leaves unchanged. -/
@[simp] theorem settleHeads_keeps (s : State) :
    (settleHeads s).up = s.up ∧ (settleHeads s).drv = s.drv ∧ (settleHeads s).trk = s.trk ∧
    (settleHeads s).contexts = s.contexts ∧ (settleHeads s).regions = s.regions ∧ (settleHeads s).rings = s.rings ∧
    (settleHeads s).time = s.time ∧ (settleHeads s).req = s.req ∧ (settleHeads s).nq = s.nq ∧
    (settleHeads s).faults = s.faults ∧ (settleHeads s).choices = s.choices ∧ (settleHeads s).pending = s.pending := by
  unfold settleHeads
  try dsimp only
  repeat' split
  all_goals simp

/-- What enterLockdown leaves unchanged. -/
@[simp] theorem enterLockdown_keeps (s : State) :
    (enterLockdown s).up = s.up ∧ (enterLockdown s).drv = s.drv ∧ (enterLockdown s).trk = s.trk ∧
    (enterLockdown s).contexts = s.contexts ∧ (enterLockdown s).regions = s.regions ∧ (enterLockdown s).rings = s.rings ∧
    (enterLockdown s).time = s.time ∧ (enterLockdown s).req = s.req ∧ (enterLockdown s).choices = s.choices ∧
    (enterLockdown s).pending = s.pending := by
  unfold enterLockdown
  try dsimp only
  simp

/-- What raiseFault leaves unchanged. -/
@[simp] theorem raiseFault_keeps (k : FaultKind) (s : State) :
    (raiseFault k s).up = s.up ∧ (raiseFault k s).drv = s.drv ∧ (raiseFault k s).trk = s.trk ∧
    (raiseFault k s).contexts = s.contexts ∧ (raiseFault k s).regions = s.regions ∧ (raiseFault k s).rings = s.rings ∧
    (raiseFault k s).time = s.time ∧ (raiseFault k s).req = s.req ∧ (raiseFault k s).choices = s.choices ∧
    (raiseFault k s).pending = s.pending := by
  unfold raiseFault
  try dsimp only
  repeat' split
  all_goals simp

/-- What forwardEntry leaves unchanged. -/
@[simp] theorem forwardEntry_keeps (o : Owner) (s : State) :
    (forwardEntry o s).up = s.up ∧ (forwardEntry o s).drv = s.drv ∧ (forwardEntry o s).contexts = s.contexts ∧
    (forwardEntry o s).regions = s.regions ∧ (forwardEntry o s).rings = s.rings ∧ (forwardEntry o s).keys = s.keys ∧
    (forwardEntry o s).eng = s.eng ∧ (forwardEntry o s).pool = s.pool ∧ (forwardEntry o s).time = s.time ∧
    (forwardEntry o s).req = s.req ∧ (forwardEntry o s).nq = s.nq ∧ (forwardEntry o s).faults = s.faults ∧
    (forwardEntry o s).choices = s.choices ∧ (forwardEntry o s).pending = s.pending ∧ (forwardEntry o s).trk.accepts = s.trk.accepts ∧
    (forwardEntry o s).trk.history = s.trk.history := by
  unfold forwardEntry
  try dsimp only
  repeat' split
  all_goals simp

/-- What releaseEntry leaves unchanged. -/
@[simp] theorem releaseEntry_keeps (o : Owner) (s : State) :
    (releaseEntry o s).up = s.up ∧ (releaseEntry o s).drv = s.drv ∧ (releaseEntry o s).contexts = s.contexts ∧
    (releaseEntry o s).regions = s.regions ∧ (releaseEntry o s).rings = s.rings ∧ (releaseEntry o s).keys = s.keys ∧
    (releaseEntry o s).eng = s.eng ∧ (releaseEntry o s).pool = s.pool ∧ (releaseEntry o s).time = s.time ∧
    (releaseEntry o s).req = s.req ∧ (releaseEntry o s).nq = s.nq ∧ (releaseEntry o s).faults = s.faults ∧
    (releaseEntry o s).choices = s.choices ∧ (releaseEntry o s).pending = s.pending ∧ (releaseEntry o s).trk.accepts = s.trk.accepts ∧
    (releaseEntry o s).trk.history = s.trk.history := by
  unfold releaseEntry
  try dsimp only
  simp

/-- What noticeVoid leaves unchanged. -/
@[simp] theorem noticeVoid_keeps (c : CtxSlot) (s : State) (x : Span) :
    (noticeVoid c s x).up = s.up ∧ (noticeVoid c s x).drv = s.drv ∧ (noticeVoid c s x).trk = s.trk ∧
    (noticeVoid c s x).contexts = s.contexts ∧ (noticeVoid c s x).regions = s.regions ∧ (noticeVoid c s x).rings = s.rings ∧
    (noticeVoid c s x).keys = s.keys ∧ (noticeVoid c s x).eng = s.eng ∧ (noticeVoid c s x).pool = s.pool ∧
    (noticeVoid c s x).time = s.time ∧ (noticeVoid c s x).req = s.req ∧ (noticeVoid c s x).faults = s.faults ∧
    (noticeVoid c s x).choices = s.choices ∧ (noticeVoid c s x).pending = s.pending := by
  unfold noticeVoid
  try dsimp only
  simp

/-- What reportOutcome leaves unchanged. -/
@[simp] theorem reportOutcome_keeps (c : CtxSlot) (o : Owner) (ok : Bool) (s : State) :
    (reportOutcome c o ok s).up = s.up ∧ (reportOutcome c o ok s).drv = s.drv ∧ (reportOutcome c o ok s).contexts = s.contexts ∧
    (reportOutcome c o ok s).regions = s.regions ∧ (reportOutcome c o ok s).keys = s.keys ∧ (reportOutcome c o ok s).eng = s.eng ∧
    (reportOutcome c o ok s).pool = s.pool ∧ (reportOutcome c o ok s).time = s.time ∧ (reportOutcome c o ok s).req = s.req ∧
    (reportOutcome c o ok s).faults = s.faults ∧ (reportOutcome c o ok s).choices = s.choices ∧ (reportOutcome c o ok s).pending = s.pending ∧
    (reportOutcome c o ok s).trk.accepts = s.trk.accepts ∧ (reportOutcome c o ok s).trk.history = s.trk.history := by
  unfold reportOutcome
  try dsimp only
  repeat' split
  all_goals simp

/-- What rewindRing leaves unchanged. -/
@[simp] theorem rewindRing_keeps (c : CtxSlot) (s : State) :
    (rewindRing s c).up = s.up ∧ (rewindRing s c).drv = s.drv ∧ (rewindRing s c).trk = s.trk ∧
    (rewindRing s c).contexts = s.contexts ∧ (rewindRing s c).regions = s.regions ∧ (rewindRing s c).keys = s.keys ∧
    (rewindRing s c).eng = s.eng ∧ (rewindRing s c).pool = s.pool ∧ (rewindRing s c).time = s.time ∧
    (rewindRing s c).req = s.req ∧ (rewindRing s c).faults = s.faults ∧ (rewindRing s c).choices = s.choices ∧
    (rewindRing s c).pending = s.pending := by
  unfold rewindRing
  try dsimp only
  repeat' split
  all_goals simp

/-- What rewindRings leaves unchanged. -/
@[simp] theorem rewindRings_keeps (s : State) :
    (rewindRings s).up = s.up ∧ (rewindRings s).drv = s.drv ∧ (rewindRings s).trk = s.trk ∧
    (rewindRings s).contexts = s.contexts ∧ (rewindRings s).regions = s.regions ∧ (rewindRings s).keys = s.keys ∧
    (rewindRings s).eng = s.eng ∧ (rewindRings s).pool = s.pool ∧ (rewindRings s).time = s.time ∧
    (rewindRings s).req = s.req ∧ (rewindRings s).faults = s.faults ∧ (rewindRings s).choices = s.choices ∧
    (rewindRings s).pending = s.pending := by
  unfold rewindRings
  try dsimp only
  simp

/-- What deleteRing leaves unchanged. -/
@[simp] theorem deleteRing_keeps (c : CtxSlot) (s : State) :
    (deleteRing c s).up = s.up ∧ (deleteRing c s).drv = s.drv ∧ (deleteRing c s).contexts = s.contexts ∧
    (deleteRing c s).regions = s.regions ∧ (deleteRing c s).keys = s.keys ∧ (deleteRing c s).eng = s.eng ∧
    (deleteRing c s).pool = s.pool ∧ (deleteRing c s).time = s.time ∧ (deleteRing c s).req = s.req ∧
    (deleteRing c s).nq = s.nq ∧ (deleteRing c s).faults = s.faults ∧ (deleteRing c s).choices = s.choices ∧
    (deleteRing c s).pending = s.pending ∧ (deleteRing c s).trk.accepts = s.trk.accepts ∧ (deleteRing c s).trk.history = s.trk.history := by
  unfold deleteRing
  try dsimp only
  repeat' split
  all_goals simp

/-- What expireContext leaves unchanged. -/
@[simp] theorem expireContext_keeps (c : CtxSlot) (s : State) :
    (expireContext s c).up = s.up ∧ (expireContext s c).drv = s.drv ∧ (expireContext s c).trk = s.trk ∧
    (expireContext s c).regions = s.regions ∧ (expireContext s c).rings = s.rings ∧ (expireContext s c).keys = s.keys ∧
    (expireContext s c).eng = s.eng ∧ (expireContext s c).pool = s.pool ∧ (expireContext s c).time = s.time ∧
    (expireContext s c).req = s.req ∧ (expireContext s c).faults = s.faults ∧ (expireContext s c).choices = s.choices ∧
    (expireContext s c).pending = s.pending := by
  unfold expireContext
  try dsimp only
  repeat' split
  all_goals simp

/-- What expiryComparison leaves unchanged. -/
@[simp] theorem expiryComparison_keeps (s : State) :
    (expiryComparison s).up = s.up ∧ (expiryComparison s).drv = s.drv ∧ (expiryComparison s).trk = s.trk ∧
    (expiryComparison s).regions = s.regions ∧ (expiryComparison s).rings = s.rings ∧ (expiryComparison s).keys = s.keys ∧
    (expiryComparison s).eng = s.eng ∧ (expiryComparison s).pool = s.pool ∧ (expiryComparison s).req = s.req ∧
    (expiryComparison s).faults = s.faults ∧ (expiryComparison s).choices = s.choices ∧ (expiryComparison s).pending = s.pending ∧
    (expiryComparison s).time.mono = s.time.mono ∧ (expiryComparison s).time.rights = s.time.rights ∧ (expiryComparison s).time.rightsSet = s.time.rightsSet ∧
    (expiryComparison s).time.divideCount = s.time.divideCount ∧ (expiryComparison s).time.token = s.time.token := by
  unfold expiryComparison
  try dsimp only
  repeat' split
  all_goals simp

/-- What tickEvent leaves unchanged. -/
@[simp] theorem tickEvent_keeps (s : State) :
    (tickEvent s).up = s.up ∧ (tickEvent s).drv = s.drv ∧ (tickEvent s).trk = s.trk ∧
    (tickEvent s).regions = s.regions ∧ (tickEvent s).rings = s.rings ∧ (tickEvent s).keys = s.keys ∧
    (tickEvent s).eng = s.eng ∧ (tickEvent s).pool = s.pool ∧ (tickEvent s).req = s.req ∧
    (tickEvent s).faults = s.faults ∧ (tickEvent s).choices = s.choices ∧ (tickEvent s).pending = s.pending := by
  unfold tickEvent
  try dsimp only
  repeat' split
  all_goals simp

/-- What referencePeriod leaves unchanged. -/
@[simp] theorem referencePeriod_keeps (s : State) :
    (referencePeriod s).up = s.up ∧ (referencePeriod s).drv = s.drv ∧ (referencePeriod s).trk = s.trk ∧
    (referencePeriod s).regions = s.regions ∧ (referencePeriod s).rings = s.rings ∧ (referencePeriod s).keys = s.keys ∧
    (referencePeriod s).eng = s.eng ∧ (referencePeriod s).pool = s.pool ∧ (referencePeriod s).req = s.req ∧
    (referencePeriod s).faults = s.faults ∧ (referencePeriod s).choices = s.choices ∧ (referencePeriod s).pending = s.pending := by
  unfold referencePeriod
  try dsimp only
  repeat' split
  all_goals simp

/-- What completeClose leaves unchanged. -/
@[simp] theorem completeClose_keeps (c : CtxSlot) (s : State) :
    (completeClose c s).up = s.up ∧ (completeClose c s).drv = s.drv ∧ (completeClose c s).trk = s.trk ∧
    (completeClose c s).pool = s.pool ∧ (completeClose c s).time = s.time ∧ (completeClose c s).req = s.req ∧
    (completeClose c s).faults = s.faults ∧ (completeClose c s).choices = s.choices ∧ (completeClose c s).pending = s.pending := by
  unfold completeClose
  try dsimp only
  repeat' split
  all_goals simp

/-- What tryClose leaves unchanged. -/
@[simp] theorem tryClose_keeps (c : CtxSlot) (s : State) :
    (tryClose c s).up = s.up ∧ (tryClose c s).drv = s.drv ∧ (tryClose c s).trk = s.trk ∧
    (tryClose c s).pool = s.pool ∧ (tryClose c s).time = s.time ∧ (tryClose c s).req = s.req ∧
    (tryClose c s).faults = s.faults ∧ (tryClose c s).choices = s.choices ∧ (tryClose c s).pending = s.pending := by
  unfold tryClose
  try dsimp only
  repeat' split
  all_goals simp

/-- What completeSeal leaves unchanged. -/
@[simp] theorem completeSeal_keeps (c : CtxSlot) (s : State) :
    (completeSeal c s).up = s.up ∧ (completeSeal c s).drv = s.drv ∧ (completeSeal c s).trk = s.trk ∧
    (completeSeal c s).regions = s.regions ∧ (completeSeal c s).rings = s.rings ∧ (completeSeal c s).keys = s.keys ∧
    (completeSeal c s).eng = s.eng ∧ (completeSeal c s).pool = s.pool ∧ (completeSeal c s).time = s.time ∧
    (completeSeal c s).req = s.req ∧ (completeSeal c s).faults = s.faults ∧ (completeSeal c s).choices = s.choices ∧
    (completeSeal c s).pending = s.pending := by
  unfold completeSeal
  try dsimp only
  simp

/-- What inFlightZero leaves unchanged. -/
@[simp] theorem inFlightZero_keeps (c : CtxSlot) (s : State) :
    (inFlightZero c s).up = s.up ∧ (inFlightZero c s).drv = s.drv ∧ (inFlightZero c s).trk = s.trk ∧
    (inFlightZero c s).pool = s.pool ∧ (inFlightZero c s).time = s.time ∧ (inFlightZero c s).req = s.req ∧
    (inFlightZero c s).faults = s.faults ∧ (inFlightZero c s).choices = s.choices ∧ (inFlightZero c s).pending = s.pending := by
  unfold inFlightZero
  try dsimp only
  repeat' split
  all_goals simp

/-- What lowerInFlight leaves unchanged. -/
@[simp] theorem lowerInFlight_keeps (c : CtxSlot) (s : State) :
    (lowerInFlight s c).up = s.up ∧ (lowerInFlight s c).drv = s.drv ∧ (lowerInFlight s c).trk = s.trk ∧
    (lowerInFlight s c).pool = s.pool ∧ (lowerInFlight s c).time = s.time ∧ (lowerInFlight s c).req = s.req ∧
    (lowerInFlight s c).faults = s.faults ∧ (lowerInFlight s c).choices = s.choices ∧ (lowerInFlight s c).pending = s.pending := by
  unfold lowerInFlight
  try dsimp only
  repeat' split
  all_goals simp

/-- What raiseInFlight leaves unchanged. -/
@[simp] theorem raiseInFlight_keeps (c : CtxSlot) (s : State) :
    (raiseInFlight s c).up = s.up ∧ (raiseInFlight s c).drv = s.drv ∧ (raiseInFlight s c).trk = s.trk ∧
    (raiseInFlight s c).regions = s.regions ∧ (raiseInFlight s c).rings = s.rings ∧ (raiseInFlight s c).keys = s.keys ∧
    (raiseInFlight s c).eng = s.eng ∧ (raiseInFlight s c).pool = s.pool ∧ (raiseInFlight s c).time = s.time ∧
    (raiseInFlight s c).req = s.req ∧ (raiseInFlight s c).nq = s.nq ∧ (raiseInFlight s c).faults = s.faults ∧
    (raiseInFlight s c).choices = s.choices ∧ (raiseInFlight s c).pending = s.pending := by
  unfold raiseInFlight
  try dsimp only
  simp

/-- What captureView leaves unchanged. -/
@[simp] theorem captureView_keeps (c : CtxSlot) (s : State) :
    (captureView s c).up = s.up ∧ (captureView s c).drv = s.drv ∧ (captureView s c).trk = s.trk ∧
    (captureView s c).regions = s.regions ∧ (captureView s c).rings = s.rings ∧ (captureView s c).keys = s.keys ∧
    (captureView s c).pool = s.pool ∧ (captureView s c).req = s.req ∧ (captureView s c).faults = s.faults ∧
    (captureView s c).choices = s.choices ∧ (captureView s c).pending = s.pending ∧ (captureView s c).time.mono = s.time.mono ∧
    (captureView s c).time.rights = s.time.rights ∧ (captureView s c).time.rightsSet = s.time.rightsSet ∧ (captureView s c).time.divideCount = s.time.divideCount ∧
    (captureView s c).time.token = s.time.token := by
  unfold captureView
  try dsimp only
  simp

/-- What captureViews leaves unchanged. -/
@[simp] theorem captureViews_keeps (plan : List Run) (s : State) :
    (captureViews plan s).up = s.up ∧ (captureViews plan s).drv = s.drv ∧ (captureViews plan s).trk = s.trk ∧
    (captureViews plan s).regions = s.regions ∧ (captureViews plan s).rings = s.rings ∧ (captureViews plan s).keys = s.keys ∧
    (captureViews plan s).pool = s.pool ∧ (captureViews plan s).req = s.req ∧ (captureViews plan s).faults = s.faults ∧
    (captureViews plan s).choices = s.choices ∧ (captureViews plan s).pending = s.pending ∧ (captureViews plan s).time.mono = s.time.mono ∧
    (captureViews plan s).time.rights = s.time.rights ∧ (captureViews plan s).time.rightsSet = s.time.rightsSet ∧ (captureViews plan s).time.divideCount = s.time.divideCount ∧
    (captureViews plan s).time.token = s.time.token := by
  unfold captureViews
  generalize plan.filterMap deliveredCtx = l
  induction l generalizing s with
  | nil => simp
  | cons c l ih =>
    rw [List.foldl_cons]
    have k := ih (if viewPending (ctxOf s c) = true then captureView s c else s)
    split at k <;> simp_all

/-- What passReleased leaves unchanged. -/
@[simp] theorem passReleased_keeps (o : Owner) (s : State) :
    (passReleased s o).up = s.up ∧ (passReleased s o).contexts = s.contexts ∧ (passReleased s o).regions = s.regions ∧
    (passReleased s o).rings = s.rings ∧ (passReleased s o).keys = s.keys ∧ (passReleased s o).eng = s.eng ∧
    (passReleased s o).pool = s.pool ∧ (passReleased s o).time = s.time ∧ (passReleased s o).req = s.req ∧
    (passReleased s o).nq = s.nq ∧ (passReleased s o).faults = s.faults ∧ (passReleased s o).choices = s.choices ∧
    (passReleased s o).pending = s.pending ∧ (passReleased s o).trk.history = s.trk.history ∧ (passReleased s o).trk.queued = s.trk.queued ∧
    (passReleased s o).trk.single = s.trk.single ∧ (passReleased s o).drv.link = s.drv.link ∧ (passReleased s o).drv.burst = s.drv.burst ∧
    (passReleased s o).drv.discard = s.drv.discard ∧ (passReleased s o).drv.resetState = s.drv.resetState ∧ (passReleased s o).drv.held = s.drv.held := by
  unfold passReleased
  try dsimp only
  repeat' split
  all_goals simp

/-- What flushReleased leaves unchanged. -/
@[simp] theorem flushReleased_keeps (s : State) :
    (flushReleased s).up = s.up ∧ (flushReleased s).contexts = s.contexts ∧ (flushReleased s).regions = s.regions ∧
    (flushReleased s).rings = s.rings ∧ (flushReleased s).keys = s.keys ∧ (flushReleased s).eng = s.eng ∧
    (flushReleased s).pool = s.pool ∧ (flushReleased s).time = s.time ∧ (flushReleased s).req = s.req ∧
    (flushReleased s).nq = s.nq ∧ (flushReleased s).faults = s.faults ∧ (flushReleased s).choices = s.choices ∧
    (flushReleased s).pending = s.pending ∧ (flushReleased s).trk.history = s.trk.history ∧ (flushReleased s).trk.queued = s.trk.queued ∧
    (flushReleased s).trk.single = s.trk.single ∧ (flushReleased s).drv.link = s.drv.link ∧ (flushReleased s).drv.burst = s.drv.burst ∧
    (flushReleased s).drv.discard = s.drv.discard ∧ (flushReleased s).drv.resetState = s.drv.resetState ∧ (flushReleased s).drv.held = s.drv.held := by
  unfold flushReleased
  try dsimp only
  simp

/-- What clearQueueWait leaves unchanged. -/
@[simp] theorem clearQueueWait_keeps (s : State) :
    (clearQueueWait s).up = s.up ∧ (clearQueueWait s).drv = s.drv ∧ (clearQueueWait s).contexts = s.contexts ∧
    (clearQueueWait s).regions = s.regions ∧ (clearQueueWait s).rings = s.rings ∧ (clearQueueWait s).keys = s.keys ∧
    (clearQueueWait s).eng = s.eng ∧ (clearQueueWait s).pool = s.pool ∧ (clearQueueWait s).time = s.time ∧
    (clearQueueWait s).req = s.req ∧ (clearQueueWait s).nq = s.nq ∧ (clearQueueWait s).faults = s.faults ∧
    (clearQueueWait s).choices = s.choices ∧ (clearQueueWait s).pending = s.pending ∧ (clearQueueWait s).trk.accepts = s.trk.accepts ∧
    (clearQueueWait s).trk.history = s.trk.history := by
  unfold clearQueueWait
  try dsimp only
  repeat' split
  all_goals simp

/-- What leaveSnapshot leaves unchanged. -/
@[simp] theorem leaveSnapshot_keeps (o : Owner) (s : State) :
    (leaveSnapshot o s).up = s.up ∧ (leaveSnapshot o s).drv = s.drv ∧ (leaveSnapshot o s).trk = s.trk ∧
    (leaveSnapshot o s).contexts = s.contexts ∧ (leaveSnapshot o s).regions = s.regions ∧ (leaveSnapshot o s).rings = s.rings ∧
    (leaveSnapshot o s).keys = s.keys ∧ (leaveSnapshot o s).eng = s.eng ∧ (leaveSnapshot o s).pool = s.pool ∧
    (leaveSnapshot o s).time = s.time ∧ (leaveSnapshot o s).faults = s.faults ∧ (leaveSnapshot o s).choices = s.choices ∧
    (leaveSnapshot o s).pending = s.pending ∧ (leaveSnapshot o s).req.lookahead = s.req.lookahead ∧ (leaveSnapshot o s).req.attentionSet = s.req.attentionSet ∧
    (leaveSnapshot o s).req.severities = s.req.severities ∧ (leaveSnapshot o s).req.divider = s.req.divider ∧ (leaveSnapshot o s).req.locked = s.req.locked ∧
    (leaveSnapshot o s).req.reply = s.req.reply := by
  unfold leaveSnapshot
  try dsimp only
  repeat' split
  all_goals simp

/-- What releaseEntrySlots leaves unchanged. -/
@[simp] theorem releaseEntrySlots_keeps (o : Owner) (e : Entry) (s : State) :
    (releaseEntrySlots o e s).up = s.up ∧ (releaseEntrySlots o e s).drv = s.drv ∧ (releaseEntrySlots o e s).trk = s.trk ∧
    (releaseEntrySlots o e s).contexts = s.contexts ∧ (releaseEntrySlots o e s).regions = s.regions ∧ (releaseEntrySlots o e s).rings = s.rings ∧
    (releaseEntrySlots o e s).time = s.time ∧ (releaseEntrySlots o e s).req = s.req ∧ (releaseEntrySlots o e s).nq = s.nq ∧
    (releaseEntrySlots o e s).faults = s.faults ∧ (releaseEntrySlots o e s).choices = s.choices ∧ (releaseEntrySlots o e s).pending = s.pending := by
  unfold releaseEntrySlots
  try dsimp only
  repeat' split
  all_goals simp

/-- What noticeWithheld leaves unchanged. -/
@[simp] theorem noticeWithheld_keeps (o : Owner) (e : Entry) (s : State) :
    (noticeWithheld o e s).up = s.up ∧ (noticeWithheld o e s).drv = s.drv ∧ (noticeWithheld o e s).trk = s.trk ∧
    (noticeWithheld o e s).contexts = s.contexts ∧ (noticeWithheld o e s).regions = s.regions ∧ (noticeWithheld o e s).rings = s.rings ∧
    (noticeWithheld o e s).keys = s.keys ∧ (noticeWithheld o e s).eng = s.eng ∧ (noticeWithheld o e s).pool = s.pool ∧
    (noticeWithheld o e s).time = s.time ∧ (noticeWithheld o e s).req = s.req ∧ (noticeWithheld o e s).faults = s.faults ∧
    (noticeWithheld o e s).choices = s.choices ∧ (noticeWithheld o e s).pending = s.pending := by
  unfold noticeWithheld
  try dsimp only
  repeat' split
  all_goals simp

/-- What reportEnd leaves unchanged. -/
@[simp] theorem reportEnd_keeps (o : Owner) (e : Entry) (r : Option Bool) (s : State) :
    (reportEnd o e r s).up = s.up ∧ (reportEnd o e r s).drv = s.drv ∧ (reportEnd o e r s).contexts = s.contexts ∧
    (reportEnd o e r s).regions = s.regions ∧ (reportEnd o e r s).keys = s.keys ∧ (reportEnd o e r s).eng = s.eng ∧
    (reportEnd o e r s).pool = s.pool ∧ (reportEnd o e r s).time = s.time ∧ (reportEnd o e r s).req = s.req ∧
    (reportEnd o e r s).faults = s.faults ∧ (reportEnd o e r s).choices = s.choices ∧ (reportEnd o e r s).pending = s.pending ∧
    (reportEnd o e r s).trk.accepts = s.trk.accepts ∧ (reportEnd o e r s).trk.history = s.trk.history := by
  unfold reportEnd
  try dsimp only
  repeat' split
  all_goals simp

/-- What endEntry leaves unchanged. -/
@[simp] theorem endEntry_keeps (o : Owner) (r : Option Bool) (s : State) :
    (endEntry o r s).up = s.up ∧ (endEntry o r s).drv = s.drv ∧ (endEntry o r s).time = s.time ∧
    (endEntry o r s).faults = s.faults ∧ (endEntry o r s).choices = s.choices ∧ (endEntry o r s).pending = s.pending ∧
    (endEntry o r s).trk.accepts = s.trk.accepts ∧ (endEntry o r s).trk.history = s.trk.history ∧ (endEntry o r s).req.lookahead = s.req.lookahead ∧
    (endEntry o r s).req.attentionSet = s.req.attentionSet ∧ (endEntry o r s).req.severities = s.req.severities ∧ (endEntry o r s).req.divider = s.req.divider ∧
    (endEntry o r s).req.locked = s.req.locked ∧ (endEntry o r s).req.reply = s.req.reply := by
  unfold endEntry
  split
  · simp
  · split <;> simp

/-- What refuseQueued leaves unchanged. -/
@[simp] theorem refuseQueued_keeps (c : CommandFrame) (code : Code) (s : State) :
    (refuseQueued c code s).drv = s.drv ∧ (refuseQueued c code s).contexts = s.contexts ∧ (refuseQueued c code s).regions = s.regions ∧
    (refuseQueued c code s).rings = s.rings ∧ (refuseQueued c code s).keys = s.keys ∧ (refuseQueued c code s).eng = s.eng ∧
    (refuseQueued c code s).pool = s.pool ∧ (refuseQueued c code s).time = s.time ∧ (refuseQueued c code s).req = s.req ∧
    (refuseQueued c code s).nq = s.nq ∧ (refuseQueued c code s).faults = s.faults ∧ (refuseQueued c code s).choices = s.choices ∧
    (refuseQueued c code s).pending = s.pending ∧ (refuseQueued c code s).up.link = s.up.link ∧ (refuseQueued c code s).up.inBurst = s.up.inBurst ∧
    (refuseQueued c code s).up.outBurst = s.up.outBurst ∧ (refuseQueued c code s).up.discard = s.up.discard ∧ (refuseQueued c code s).up.held = s.up.held ∧
    (refuseQueued c code s).up.sent = s.up.sent := by
  unfold refuseQueued
  try dsimp only
  simp

/-- What refuseSingle leaves unchanged. -/
@[simp] theorem refuseSingle_keeps (c : CommandFrame) (code : Code) (s : State) :
    (refuseSingle c code s).drv = s.drv ∧ (refuseSingle c code s).contexts = s.contexts ∧ (refuseSingle c code s).regions = s.regions ∧
    (refuseSingle c code s).rings = s.rings ∧ (refuseSingle c code s).keys = s.keys ∧ (refuseSingle c code s).eng = s.eng ∧
    (refuseSingle c code s).pool = s.pool ∧ (refuseSingle c code s).time = s.time ∧ (refuseSingle c code s).req = s.req ∧
    (refuseSingle c code s).nq = s.nq ∧ (refuseSingle c code s).faults = s.faults ∧ (refuseSingle c code s).choices = s.choices ∧
    (refuseSingle c code s).pending = s.pending ∧ (refuseSingle c code s).up.link = s.up.link ∧ (refuseSingle c code s).up.inBurst = s.up.inBurst ∧
    (refuseSingle c code s).up.outBurst = s.up.outBurst ∧ (refuseSingle c code s).up.discard = s.up.discard ∧ (refuseSingle c code s).up.held = s.up.held ∧
    (refuseSingle c code s).up.sent = s.up.sent := by
  unfold refuseSingle
  try dsimp only
  simp

/-- What refusePlain leaves unchanged. -/
@[simp] theorem refusePlain_keeps (code : Code) (s : State) :
    (refusePlain code s).drv = s.drv ∧ (refusePlain code s).trk = s.trk ∧ (refusePlain code s).contexts = s.contexts ∧
    (refusePlain code s).regions = s.regions ∧ (refusePlain code s).rings = s.rings ∧ (refusePlain code s).keys = s.keys ∧
    (refusePlain code s).eng = s.eng ∧ (refusePlain code s).pool = s.pool ∧ (refusePlain code s).time = s.time ∧
    (refusePlain code s).req = s.req ∧ (refusePlain code s).nq = s.nq ∧ (refusePlain code s).faults = s.faults ∧
    (refusePlain code s).choices = s.choices ∧ (refusePlain code s).pending = s.pending ∧ (refusePlain code s).up.link = s.up.link ∧
    (refusePlain code s).up.inBurst = s.up.inBurst ∧ (refusePlain code s).up.outBurst = s.up.outBurst ∧ (refusePlain code s).up.discard = s.up.discard ∧
    (refusePlain code s).up.held = s.up.held ∧ (refusePlain code s).up.sent = s.up.sent := by
  unfold refusePlain
  try dsimp only
  simp

/-- What enter leaves unchanged. -/
@[simp] theorem enter_keeps (o : Owner) (e : Entry) (s : State) :
    (enter o e s).up = s.up ∧ (enter o e s).drv = s.drv ∧ (enter o e s).regions = s.regions ∧
    (enter o e s).rings = s.rings ∧ (enter o e s).keys = s.keys ∧ (enter o e s).eng = s.eng ∧
    (enter o e s).pool = s.pool ∧ (enter o e s).time = s.time ∧ (enter o e s).req = s.req ∧
    (enter o e s).nq = s.nq ∧ (enter o e s).faults = s.faults ∧ (enter o e s).choices = s.choices ∧
    (enter o e s).pending = s.pending ∧ (enter o e s).trk.accepts = s.trk.accepts ∧ (enter o e s).trk.history = s.trk.history := by
  unfold enter
  try dsimp only
  simp

/-- What countCtxWithheld leaves unchanged. -/
@[simp] theorem countCtxWithheld_keeps (w : Option (WithheldReason × CtxSlot)) (s : State) :
    (countCtxWithheld w s).up = s.up ∧ (countCtxWithheld w s).drv = s.drv ∧ (countCtxWithheld w s).trk = s.trk ∧
    (countCtxWithheld w s).regions = s.regions ∧ (countCtxWithheld w s).rings = s.rings ∧ (countCtxWithheld w s).keys = s.keys ∧
    (countCtxWithheld w s).eng = s.eng ∧ (countCtxWithheld w s).pool = s.pool ∧ (countCtxWithheld w s).time = s.time ∧
    (countCtxWithheld w s).req = s.req ∧ (countCtxWithheld w s).nq = s.nq ∧ (countCtxWithheld w s).faults = s.faults ∧
    (countCtxWithheld w s).choices = s.choices ∧ (countCtxWithheld w s).pending = s.pending := by
  unfold countCtxWithheld
  try dsimp only
  repeat' split
  all_goals simp

/-- What passSector leaves unchanged. -/
@[simp] theorem passSector_keeps (o : Owner) (w : Sector) (s : State) :
    ((passSector o w s).2).up = s.up ∧ ((passSector o w s).2).drv = s.drv ∧ ((passSector o w s).2).regions = s.regions ∧
    ((passSector o w s).2).rings = s.rings ∧ ((passSector o w s).2).keys = s.keys ∧ ((passSector o w s).2).eng = s.eng ∧
    ((passSector o w s).2).time = s.time ∧ ((passSector o w s).2).req = s.req ∧ ((passSector o w s).2).nq = s.nq ∧
    ((passSector o w s).2).faults = s.faults ∧ ((passSector o w s).2).pending = s.pending ∧ ((passSector o w s).2).trk.accepts = s.trk.accepts ∧
    ((passSector o w s).2).trk.history = s.trk.history ∧ ((passSector o w s).2).trk.released = s.trk.released := by
  unfold passSector
  repeat' split
  all_goals simp

/-- What passSectors leaves unchanged. -/
@[simp] theorem passSectors_keeps (o : Owner) (l : List Sector) (s : State) :
    ((passSectors o l s).2).up = s.up ∧ ((passSectors o l s).2).drv = s.drv ∧ ((passSectors o l s).2).regions = s.regions ∧
    ((passSectors o l s).2).rings = s.rings ∧ ((passSectors o l s).2).keys = s.keys ∧ ((passSectors o l s).2).eng = s.eng ∧
    ((passSectors o l s).2).time = s.time ∧ ((passSectors o l s).2).req = s.req ∧ ((passSectors o l s).2).nq = s.nq ∧
    ((passSectors o l s).2).faults = s.faults ∧ ((passSectors o l s).2).pending = s.pending ∧ ((passSectors o l s).2).trk.accepts = s.trk.accepts ∧
    ((passSectors o l s).2).trk.history = s.trk.history ∧ ((passSectors o l s).2).trk.released = s.trk.released := by
  induction l generalizing s with
  | nil => simp [passSectors]
  | cons w rest ih => simp [passSectors, ih]

/-- What endEntryBurst leaves unchanged. -/
@[simp] theorem endEntryBurst_keeps (o : Owner) (s : State) :
    (endEntryBurst o s).up = s.up ∧ (endEntryBurst o s).drv = s.drv ∧ (endEntryBurst o s).contexts = s.contexts ∧
    (endEntryBurst o s).regions = s.regions ∧ (endEntryBurst o s).rings = s.rings ∧ (endEntryBurst o s).keys = s.keys ∧
    (endEntryBurst o s).eng = s.eng ∧ (endEntryBurst o s).pool = s.pool ∧ (endEntryBurst o s).time = s.time ∧
    (endEntryBurst o s).req = s.req ∧ (endEntryBurst o s).nq = s.nq ∧ (endEntryBurst o s).faults = s.faults ∧
    (endEntryBurst o s).choices = s.choices ∧ (endEntryBurst o s).pending = s.pending ∧ (endEntryBurst o s).trk.accepts = s.trk.accepts ∧
    (endEntryBurst o s).trk.history = s.trk.history ∧ (endEntryBurst o s).trk.released = s.trk.released := by
  unfold endEntryBurst
  try dsimp only
  simp

/-- What countDriveBurst leaves unchanged. -/
@[simp] theorem countDriveBurst_keeps (n : Nat) (s : State) :
    (countDriveBurst n s).up = s.up ∧ (countDriveBurst n s).contexts = s.contexts ∧ (countDriveBurst n s).regions = s.regions ∧
    (countDriveBurst n s).rings = s.rings ∧ (countDriveBurst n s).keys = s.keys ∧ (countDriveBurst n s).eng = s.eng ∧
    (countDriveBurst n s).time = s.time ∧ (countDriveBurst n s).req = s.req ∧ (countDriveBurst n s).nq = s.nq ∧
    (countDriveBurst n s).faults = s.faults ∧ (countDriveBurst n s).choices = s.choices ∧ (countDriveBurst n s).pending = s.pending ∧
    (countDriveBurst n s).trk.accepts = s.trk.accepts ∧ (countDriveBurst n s).trk.history = s.trk.history ∧ (countDriveBurst n s).trk.released = s.trk.released ∧
    (countDriveBurst n s).drv.link = s.drv.link ∧ (countDriveBurst n s).drv.discard = s.drv.discard ∧ (countDriveBurst n s).drv.resetState = s.drv.resetState ∧
    (countDriveBurst n s).drv.held = s.drv.held ∧ (countDriveBurst n s).drv.sent = s.drv.sent := by
  unfold countDriveBurst
  try dsimp only
  repeat' split
  all_goals simp

/-- What closeUpstreamSide leaves unchanged. -/
@[simp] theorem closeUpstreamSide_keeps (b : DriveBurst) (s : State) :
    (closeUpstreamSide b s).drv = s.drv ∧ (closeUpstreamSide b s).trk = s.trk ∧ (closeUpstreamSide b s).contexts = s.contexts ∧
    (closeUpstreamSide b s).regions = s.regions ∧ (closeUpstreamSide b s).rings = s.rings ∧ (closeUpstreamSide b s).keys = s.keys ∧
    (closeUpstreamSide b s).eng = s.eng ∧ (closeUpstreamSide b s).pool = s.pool ∧ (closeUpstreamSide b s).time = s.time ∧
    (closeUpstreamSide b s).req = s.req ∧ (closeUpstreamSide b s).nq = s.nq ∧ (closeUpstreamSide b s).faults = s.faults ∧
    (closeUpstreamSide b s).choices = s.choices ∧ (closeUpstreamSide b s).pending = s.pending ∧ (closeUpstreamSide b s).up.link = s.up.link ∧
    (closeUpstreamSide b s).up.sendList = s.up.sendList ∧ (closeUpstreamSide b s).up.held = s.up.held ∧ (closeUpstreamSide b s).up.sent = s.up.sent := by
  unfold closeUpstreamSide
  try dsimp only
  repeat' split
  all_goals simp

/-- What closeShort leaves unchanged. -/
@[simp] theorem closeShort_keeps (b : DriveBurst) (s : State) :
    (closeShort b s).contexts = s.contexts ∧ (closeShort b s).regions = s.regions ∧ (closeShort b s).rings = s.rings ∧
    (closeShort b s).time = s.time ∧ (closeShort b s).req = s.req ∧ (closeShort b s).nq = s.nq ∧
    (closeShort b s).faults = s.faults ∧ (closeShort b s).choices = s.choices ∧ (closeShort b s).pending = s.pending ∧
    (closeShort b s).trk.accepts = s.trk.accepts ∧ (closeShort b s).trk.history = s.trk.history ∧ (closeShort b s).up.link = s.up.link ∧
    (closeShort b s).up.sendList = s.up.sendList ∧ (closeShort b s).up.held = s.up.held ∧ (closeShort b s).up.sent = s.up.sent ∧
    (closeShort b s).drv.link = s.drv.link ∧ (closeShort b s).drv.discard = s.drv.discard ∧ (closeShort b s).drv.resetState = s.drv.resetState ∧
    (closeShort b s).drv.held = s.drv.held ∧ (closeShort b s).drv.sent = s.drv.sent := by
  unfold closeShort
  try dsimp only
  simp

/-- What closeOwned leaves unchanged. -/
@[simp] theorem closeOwned_keeps (p : Owner → Bool) (s : State) :
    (closeOwned p s).contexts = s.contexts ∧ (closeOwned p s).regions = s.regions ∧ (closeOwned p s).rings = s.rings ∧
    (closeOwned p s).time = s.time ∧ (closeOwned p s).req = s.req ∧ (closeOwned p s).nq = s.nq ∧
    (closeOwned p s).faults = s.faults ∧ (closeOwned p s).choices = s.choices ∧ (closeOwned p s).pending = s.pending ∧
    (closeOwned p s).trk.accepts = s.trk.accepts ∧ (closeOwned p s).trk.history = s.trk.history ∧ (closeOwned p s).up.link = s.up.link ∧
    (closeOwned p s).up.sendList = s.up.sendList ∧ (closeOwned p s).up.held = s.up.held ∧ (closeOwned p s).up.sent = s.up.sent ∧
    (closeOwned p s).drv.link = s.drv.link ∧ (closeOwned p s).drv.discard = s.drv.discard ∧ (closeOwned p s).drv.resetState = s.drv.resetState ∧
    (closeOwned p s).drv.held = s.drv.held ∧ (closeOwned p s).drv.sent = s.drv.sent := by
  unfold closeOwned
  try dsimp only
  repeat' split
  all_goals simp

/-- What checkShort leaves unchanged. -/
@[simp] theorem checkShort_keeps (o : Owner) (s : State) :
    (checkShort o s).up = s.up ∧ (checkShort o s).drv = s.drv ∧ (checkShort o s).contexts = s.contexts ∧
    (checkShort o s).regions = s.regions ∧ (checkShort o s).rings = s.rings ∧ (checkShort o s).time = s.time ∧
    (checkShort o s).req = s.req ∧ (checkShort o s).choices = s.choices ∧ (checkShort o s).pending = s.pending ∧
    (checkShort o s).trk.accepts = s.trk.accepts ∧ (checkShort o s).trk.history = s.trk.history := by
  unfold checkShort
  try dsimp only
  repeat' split
  all_goals simp

/-- What cutExcess leaves unchanged. -/
@[simp] theorem cutExcess_keeps (n left : Nat) (s : State) :
    (cutExcess n left s).up = s.up ∧ (cutExcess n left s).drv = s.drv ∧ (cutExcess n left s).trk = s.trk ∧
    (cutExcess n left s).contexts = s.contexts ∧ (cutExcess n left s).regions = s.regions ∧ (cutExcess n left s).rings = s.rings ∧
    (cutExcess n left s).time = s.time ∧ (cutExcess n left s).req = s.req ∧ (cutExcess n left s).choices = s.choices ∧
    (cutExcess n left s).pending = s.pending := by
  unfold cutExcess
  try dsimp only
  repeat' split
  all_goals simp

/-- What answerAhead leaves unchanged. -/
@[simp] theorem answerAhead_keeps (t : Tag) (s : State) :
    (answerAhead t s).drv = s.drv ∧ (answerAhead t s).contexts = s.contexts ∧ (answerAhead t s).regions = s.regions ∧
    (answerAhead t s).rings = s.rings ∧ (answerAhead t s).keys = s.keys ∧ (answerAhead t s).eng = s.eng ∧
    (answerAhead t s).pool = s.pool ∧ (answerAhead t s).time = s.time ∧ (answerAhead t s).req = s.req ∧
    (answerAhead t s).nq = s.nq ∧ (answerAhead t s).faults = s.faults ∧ (answerAhead t s).choices = s.choices ∧
    (answerAhead t s).pending = s.pending ∧ (answerAhead t s).trk.queued = s.trk.queued ∧ (answerAhead t s).trk.single = s.trk.single ∧
    (answerAhead t s).trk.history = s.trk.history ∧ (answerAhead t s).trk.released = s.trk.released ∧ (answerAhead t s).up.link = s.up.link ∧
    (answerAhead t s).up.inBurst = s.up.inBurst ∧ (answerAhead t s).up.outBurst = s.up.outBurst ∧ (answerAhead t s).up.discard = s.up.discard ∧
    (answerAhead t s).up.held = s.up.held ∧ (answerAhead t s).up.sent = s.up.sent := by
  unfold answerAhead
  try dsimp only
  repeat' split
  all_goals simp

/-- What putPhase leaves unchanged. -/
@[simp] theorem putPhase_keeps (p : PoolNo) (x : PoolPhase) (s : State) :
    (putPhase p x s).up = s.up ∧ (putPhase p x s).drv = s.drv ∧ (putPhase p x s).trk = s.trk ∧
    (putPhase p x s).contexts = s.contexts ∧ (putPhase p x s).regions = s.regions ∧ (putPhase p x s).rings = s.rings ∧
    (putPhase p x s).keys = s.keys ∧ (putPhase p x s).eng = s.eng ∧ (putPhase p x s).time = s.time ∧
    (putPhase p x s).req = s.req ∧ (putPhase p x s).nq = s.nq ∧ (putPhase p x s).faults = s.faults ∧
    (putPhase p x s).choices = s.choices ∧ (putPhase p x s).pending = s.pending := by
  unfold putPhase
  try dsimp only
  repeat' split
  all_goals simp

/-- What failSlot leaves unchanged. -/
@[simp] theorem failSlot_keeps (k : Option KeyNo) (s : State) :
    (failSlot k s).up = s.up ∧ (failSlot k s).drv = s.drv ∧ (failSlot k s).trk = s.trk ∧
    (failSlot k s).contexts = s.contexts ∧ (failSlot k s).regions = s.regions ∧ (failSlot k s).rings = s.rings ∧
    (failSlot k s).pool = s.pool ∧ (failSlot k s).time = s.time ∧ (failSlot k s).req = s.req ∧
    (failSlot k s).nq = s.nq ∧ (failSlot k s).faults = s.faults ∧ (failSlot k s).choices = s.choices ∧
    (failSlot k s).pending = s.pending := by
  unfold failSlot
  try dsimp only
  repeat' split
  all_goals simp

/-- What failUser leaves unchanged. -/
@[simp] theorem failUser_keeps (k : Option KeyNo) (s : State) :
    (failUser k s).up = s.up ∧ (failUser k s).drv = s.drv ∧ (failUser k s).trk = s.trk ∧
    (failUser k s).contexts = s.contexts ∧ (failUser k s).regions = s.regions ∧ (failUser k s).rings = s.rings ∧
    (failUser k s).eng = s.eng ∧ (failUser k s).pool = s.pool ∧ (failUser k s).time = s.time ∧
    (failUser k s).req = s.req ∧ (failUser k s).nq = s.nq ∧ (failUser k s).faults = s.faults ∧
    (failUser k s).choices = s.choices ∧ (failUser k s).pending = s.pending := by
  unfold failUser
  try dsimp only
  repeat' split
  all_goals simp

/-- What judgeToken leaves unchanged. -/
@[simp] theorem judgeToken_keeps (t : BitVec 32) (check : Block) (s : State) :
    (judgeToken t check s).up = s.up ∧ (judgeToken t check s).drv = s.drv ∧ (judgeToken t check s).trk = s.trk ∧
    (judgeToken t check s).contexts = s.contexts ∧ (judgeToken t check s).regions = s.regions ∧ (judgeToken t check s).rings = s.rings ∧
    (judgeToken t check s).keys = s.keys ∧ (judgeToken t check s).eng = s.eng ∧ (judgeToken t check s).pool = s.pool ∧
    (judgeToken t check s).req = s.req ∧ (judgeToken t check s).faults = s.faults ∧ (judgeToken t check s).choices = s.choices ∧
    (judgeToken t check s).pending = s.pending := by
  unfold judgeToken moveTime
  repeat' split
  all_goals simp

/-- What finishToken leaves unchanged. -/
@[simp] theorem finishToken_keeps (t : BitVec 32) (check : Block) (s : State) :
    (finishToken t check s).up = s.up ∧ (finishToken t check s).drv = s.drv ∧ (finishToken t check s).trk = s.trk ∧
    (finishToken t check s).regions = s.regions ∧ (finishToken t check s).rings = s.rings ∧ (finishToken t check s).keys = s.keys ∧
    (finishToken t check s).eng = s.eng ∧ (finishToken t check s).pool = s.pool ∧ (finishToken t check s).req = s.req ∧
    (finishToken t check s).faults = s.faults ∧ (finishToken t check s).choices = s.choices ∧ (finishToken t check s).pending = s.pending := by
  unfold finishToken
  try dsimp only
  simp

/-- What loseBurst leaves unchanged. -/
@[simp] theorem loseBurst_keeps (s : State) :
    (loseBurst s).trk = s.trk ∧ (loseBurst s).contexts = s.contexts ∧ (loseBurst s).regions = s.regions ∧
    (loseBurst s).rings = s.rings ∧ (loseBurst s).time = s.time ∧ (loseBurst s).req = s.req ∧
    (loseBurst s).nq = s.nq ∧ (loseBurst s).faults = s.faults ∧ (loseBurst s).choices = s.choices ∧
    (loseBurst s).pending = s.pending ∧ (loseBurst s).drv.link = s.drv.link ∧ (loseBurst s).drv.discard = s.drv.discard ∧
    (loseBurst s).drv.resetState = s.drv.resetState ∧ (loseBurst s).drv.held = s.drv.held ∧ (loseBurst s).drv.sent = s.drv.sent ∧
    (loseBurst s).up.link = s.up.link ∧ (loseBurst s).up.held = s.up.held ∧ (loseBurst s).up.sent = s.up.sent := by
  unfold loseBurst
  try dsimp only
  repeat' split
  all_goals simp

end Sys2Proof.Machine
end

