-- ==== Sys2Proof/Laws/Entries.lean ====
section
/-!
SUPPORT. The ends of entries: no operation of an end brings an entry into use, the ended one is FREE, and the ends of all leave none.
-/

namespace Sys2Proof.Machine

open Sys2Proof

/-- Every entry FREE before is FREE after. -/
def Frees (s t : State) : Prop :=
  ∀ o, entryOf s o = none → entryOf t o = none

theorem Frees.refl (s : State) : Frees s s := fun _ h => h

theorem Frees.trans {s t u : State} (h : Frees s t) (k : Frees t u) : Frees s u := fun o e => k o (h o e)

theorem frees_of_trk {s t : State} (h : t.trk = s.trk) : Frees s t := fun o e => by rw [entryOf_congr h, e]

/-- The entries of a state are those of its 32 queued entries and its single slot. -/
theorem frees_of_entries {s t : State} (hq : t.trk.queued = s.trk.queued) (hs : t.trk.single = s.trk.single) : Frees s t := by
  intro o h
  cases o <;> simpa [entryOf, hq, hs] using h

theorem frees_setEntry_none (o : Owner) (s : State) : Frees s (setEntry o none s) := by
  intro p h
  rw [entryOf_setEntry]
  split <;> simp_all

theorem frees_setEntry_some {o : Owner} {e : Entry} (s : State) (x : Entry) (h : entryOf s o = some x) :
    Frees s (setEntry o (some e) s) := by
  intro p hp
  rw [entryOf_setEntry]
  split
  · simp_all
  · exact hp

theorem frees_updateEntry (o : Owner) (f : Entry → Entry) (s : State) : Frees s (updateEntry o f s) := by
  intro p h
  rw [updateEntry, entryOf_setEntry]
  split <;> simp_all

theorem frees_foldl {α : Type} (f : State → α → State) (h : ∀ s a, Frees s (f s a)) (l : List α) (s : State) :
    Frees s (l.foldl f s) := by
  induction l generalizing s with
  | nil => exact .refl s
  | cons a l ih => exact (h s a).trans (ih _)

theorem frees_forwardEntry (o : Owner) (s : State) : Frees s (forwardEntry o s) := by
  unfold forwardEntry
  split
  · exact .refl s
  · rename_i e he
    split
    · exact (frees_setEntry_some s e he).trans (frees_of_entries rfl rfl)
    · exact .refl s

theorem frees_releaseEntry (o : Owner) (s : State) : Frees s (releaseEntry o s) :=
  (frees_updateEntry o _ s).trans (frees_forwardEntry o _)

theorem frees_reportOutcome (c : CtxSlot) (o : Owner) (ok : Bool) (s : State) : Frees s (reportOutcome c o ok s) := by
  unfold reportOutcome
  split
  · exact .refl s
  · split
    · exact .refl s
    · refine Frees.trans (frees_of_trk ?_) (frees_foldl _ (fun s o => frees_releaseEntry o s) _ _)
      simp

theorem frees_reportEnd (o : Owner) (e : Entry) (r : Option Bool) (s : State) : Frees s (reportEnd o e r s) := by
  unfold reportEnd
  split
  · exact frees_reportOutcome _ _ _ _
  · exact .refl s

theorem frees_clearQueueWait (s : State) : Frees s (clearQueueWait s) := by
  unfold clearQueueWait
  split
  · exact .refl s
  · split
    · exact .refl s
    · rename_i e he
      split
      · exact (frees_setEntry_some (o := .single) s e he).trans (frees_forwardEntry _ _)
      · exact .refl s

/-- The end of an entry brings none into use. -/
theorem frees_endEntry (o : Owner) (r : Option Bool) (s : State) : Frees s (endEntry o r s) := by
  unfold endEntry
  split
  · exact .refl s
  · rename_i e he
    have h1 : Frees s (reportEnd o e r (releaseEntrySlots o e s)) :=
      (frees_of_trk (by simp)).trans (frees_reportEnd o e r _)
    have h2 := h1.trans (frees_of_trk (t := e.touched.foldl lowerInFlight (noticeWithheld o e
      (reportEnd o e r (releaseEntrySlots o e s)))) (by simp))
    have h3 := h2.trans (frees_of_trk (t := leaveSnapshot o (e.touched.foldl lowerInFlight (noticeWithheld o e
      (reportEnd o e r (releaseEntrySlots o e s))))) (by simp))
    have h4 := h3.trans (frees_setEntry_none o _)
    split
    · exact h4
    · exact h4.trans (frees_clearQueueWait _)

/-- The entry that has ended is FREE (R33). -/
theorem entryOf_endEntry (o : Owner) (r : Option Bool) (s : State) : entryOf (endEntry o r s) o = none := by
  unfold endEntry
  split
  · assumption
  · split
    · simp [entryOf_setEntry]
    · exact frees_clearQueueWait _ _ (by simp [entryOf_setEntry])

/-- Ends one after another leave every entry among them FREE. -/
theorem entryOf_foldl_endEntry (l : List Owner) (s : State) (o : Owner) (h : o ∈ l) :
    entryOf (l.foldl (fun s o => endEntry o none s) s) o = none := by
  induction l generalizing s with
  | nil => cases h
  | cons a l ih =>
    rcases List.mem_cons.1 h with rfl | h
    · exact frees_foldl _ (fun s o => frees_endEntry o none s) l _ _ (entryOf_endEntry _ _ _)
    · exact ih _ h

/-- Frames of the part placed one after another stand in their order at the tail of the send list. -/
theorem placeParts_eq (l : List Frame) (s : State) :
    l.foldl (fun s f => placePart f s) s =
      { s with up := { s.up with
        sendList := s.up.sendList ++ l.map fun f => { frame := f, owner := none, relayed := false } } } := by
  induction l generalizing s with
  | nil => simp
  | cons f l ih =>
    rw [List.foldl_cons, ih]
    simp [placePart, placeItem]

end Sys2Proof.Machine
end

