-- ==== Sys2Proof/Laws/Keys.lean ====
section
/-!
SUPPORT. What the Key Cache's tests say: which slots are evictable, which STREAM jobs are eligible, the working key a job reads, and the tables of key slots and
pool slots after a change.
-/

namespace Sys2Proof.Machine

open Sys2Proof

/-- An entry of a table after another is written. -/
theorem get_set {α : Type} {n : Nat} (v : Vector α n) (i j : Fin n) (a : α) :
    (v.set i a i.isLt).get j = if i = j then a else v.get j := by
  have h : (v.set i a i.isLt).get j = (v.set i a i.isLt)[j.val] := rfl
  rw [h, Vector.getElem_set]
  by_cases e : i = j
  · simp [e]
  · have : ¬i.val = j.val := fun h => e (Fin.ext h)
    simp [this, e]
    rfl

/-- Evictable: READY, not pinned, no users (R127). -/
theorem evictable_iff (x : KeySlot) : evictable (some x) = true ↔ x.phase ≠ .setup ∧ x.pinned = false ∧ x.users = 0 := by
  obtain ⟨ctx, phase, pinned, users⟩ := x
  cases phase <;> cases pinned <;> cases users <;> simp [evictable]

/-- Eligible: the job's key slot is READY (R133). -/
theorem eligible_iff (s : State) (j : StreamJob) :
    eligible s j = true ↔ ∃ k x w, j.keySlot = some k ∧ s.keys.slots.get k = some x ∧ x.phase = .ready w := by
  unfold eligible
  cases hk : j.keySlot with
  | none => simp
  | some k =>
    cases hx : s.keys.slots.get k with
    | none => simp [hx]
    | some x =>
      obtain ⟨ctx, phase, pinned, users⟩ := x
      cases phase <;> simp [hx]

/-- The working key a job reads is that of its READY key slot (R135). -/
theorem workingKeyOf_ready {s : State} {j : StreamJob} {k : KeyNo} {x : KeySlot} {w : Block} (hk : j.keySlot = some k)
    (hx : s.keys.slots.get k = some x) (hp : x.phase = .ready w) : workingKeyOf s j = some w := by
  obtain ⟨ctx, phase, pinned, users⟩ := x
  subst hp
  simp [workingKeyOf, hk, hx]

/-- With no context waiting, a slot that has become FREE or evictable is left as it is (R130). -/
theorem serveSlot_nobody (k : KeyNo) (s : State) (h : s.keys.waiting = []) : serveSlot k s = s := by
  simp [serveSlot, h]

/-- A user fewer, with no context waiting (R135). -/
theorem dropUser_nobody (k : KeyNo) (s : State) (h : s.keys.waiting = []) :
    dropUser k s = updateSlot k (fun x => { x with users := x.users - 1 }) s := by
  unfold dropUser
  dsimp only
  split
  · exact serveSlot_nobody _ _ h
  · rfl

/-- The context that a found key slot belongs to (R127). -/
theorem slotOf_some {s : State} {c : CtxSlot} {k : KeyNo} (h : slotOf s c = some k) :
    ∃ x, s.keys.slots.get k = some x ∧ x.ctx = c := by
  have := List.find?_some h
  simpa using this

/-- A context with no key slot (R127). -/
theorem slotOf_none {s : State} {c : CtxSlot} : slotOf s c = none ↔ ∀ k x, s.keys.slots.get k = some x → x.ctx ≠ c := by
  simp [slotOf, List.find?_eq_none]

end Sys2Proof.Machine
end

