-- ==== Sys2Proof/Laws/Notices.lean ====
section
/-!
SUPPORT. What an operation does to the Notice Queue: it joins notices, one after another, under an attention set and a lockdown flag that it leaves as
they are (R185, R188).
-/

namespace Sys2Proof.Machine

open Sys2Proof

/-- The queue with notices joined one after another. -/
def joinAll (attentionSet : BitVec 16) (lockdown : Bool) (l : List Notice) (q : NoticeQueue) : NoticeQueue :=
  l.foldl (fun q n => joinQueue attentionSet lockdown n q) q

/-- From s to t notices have joined the queue and nothing else happened to it. -/
def Speaks (s t : State) : Prop :=
  (∃ l, t.nq = joinAll s.req.attentionSet s.faults.lockdown l s.nq) ∧ t.req.attentionSet = s.req.attentionSet ∧
    t.faults.lockdown = s.faults.lockdown

theorem Speaks.refl (s : State) : Speaks s s := ⟨⟨[], rfl⟩, rfl, rfl⟩

theorem Speaks.trans {s t u : State} (h : Speaks s t) (k : Speaks t u) : Speaks s u := by
  obtain ⟨⟨l, hl⟩, ha, hf⟩ := h
  obtain ⟨⟨m, hm⟩, ka, kf⟩ := k
  refine ⟨⟨l ++ m, ?_⟩, ka.trans ha, kf.trans hf⟩
  rw [hm, hl, ha, hf, joinAll, joinAll, joinAll, List.foldl_append]

/-- An operation that leaves the queue, the attention set and the lockdown flag alone. -/
theorem speaks_of_same {s t : State} (h : t.nq = s.nq) (ha : t.req.attentionSet = s.req.attentionSet)
    (hf : t.faults.lockdown = s.faults.lockdown) : Speaks s t :=
  ⟨⟨[], h⟩, ha, hf⟩

theorem speaks_queueNotice (kind : NoticeKind) (ctx : Option CtxSlot) (tag : Option Tag) (detail : Option Code) (value : Nat)
    (s : State) : Speaks s (queueNotice kind ctx tag detail value s) :=
  ⟨⟨[_], rfl⟩, rfl, rfl⟩

theorem speaks_foldl {α : Type} (f : State → α → State) (h : ∀ s a, Speaks s (f s a)) (l : List α) (s : State) :
    Speaks s (l.foldl f s) := by
  induction l generalizing s with
  | nil => exact .refl s
  | cons a l ih => exact (h s a).trans (ih _)

/-- A queue that held at most 32 notices holds at most 32 (R185). -/
theorem joinAll_length (a : BitVec 16) (d : Bool) (l : List Notice) (q : NoticeQueue) (h : q.notices.length ≤ 32) :
    (joinAll a d l q).notices.length ≤ 32 := by
  induction l generalizing q with
  | nil => exact h
  | cons n l ih =>
    refine ih _ ?_
    dsimp only [joinQueue]
    split
    · simp
      omega
    · exact h

/-- Notices held stay at their places. -/
theorem joinAll_grows (a : BitVec 16) (d : Bool) (l : List Notice) (q : NoticeQueue) :
    ∃ m, (joinAll a d l q).notices = q.notices ++ m := by
  induction l generalizing q with
  | nil => exact ⟨[], by simp [joinAll]⟩
  | cons n l ih =>
    obtain ⟨m, hm⟩ := ih (joinQueue a d n q)
    have e : joinAll a d (n :: l) q = joinAll a d l (joinQueue a d n q) := rfl
    rw [e, hm]
    unfold joinQueue
    split
    · exact ⟨n :: m, by simp⟩
    · exact ⟨m, rfl⟩

/-- The attention line stays as the queue asks (R188). -/
theorem joinAll_attention (a : BitVec 16) (d : Bool) (l : List Notice) (q : NoticeQueue)
    (h : q.attention = attentionDue a d q.notices) :
    (joinAll a d l q).attention = attentionDue a d (joinAll a d l q).notices := by
  induction l generalizing q with
  | nil => exact h
  | cons n l ih =>
    refine ih _ ?_
    dsimp only [joinQueue]
    split
    · rfl
    · exact h

/-! ### The operations that speak -/

theorem speaks_noticeVoid (c : CtxSlot) (s : State) (x : Span) : Speaks s (noticeVoid c s x) :=
  speaks_queueNotice _ _ _ _ _ _

theorem speaks_releaseEntry (o : Owner) (s : State) : Speaks s (releaseEntry o s) :=
  speaks_of_same (by simp) (by simp) (by simp)

theorem speaks_reportOutcome (c : CtxSlot) (o : Owner) (ok : Bool) (s : State) : Speaks s (reportOutcome c o ok s) := by
  unfold reportOutcome
  split
  · exact .refl s
  · split
    · exact .refl s
    · refine Speaks.trans ?_ (speaks_foldl _ (fun s o => speaks_releaseEntry o s) _ _)
      refine Speaks.trans ?_ (speaks_foldl _ (speaks_noticeVoid c) _ _)
      exact speaks_of_same rfl rfl rfl

theorem speaks_rewindRing (s : State) (c : CtxSlot) : Speaks s (rewindRing s c) := by
  unfold rewindRing
  split
  · exact .refl s
  · split
    · exact .refl s
    · refine Speaks.trans ?_ (speaks_queueNotice _ _ _ _ _ _)
      exact speaks_of_same rfl rfl rfl

theorem speaks_rewindRings (s : State) : Speaks s (rewindRings s) :=
  speaks_foldl _ speaks_rewindRing _ _

theorem speaks_expireContext (s : State) (c : CtxSlot) : Speaks s (expireContext s c) := by
  unfold expireContext
  split
  · exact .refl s
  · split
    · refine Speaks.trans ?_ (speaks_queueNotice _ _ _ _ _ _)
      exact speaks_of_same rfl rfl rfl
    · exact .refl s

theorem speaks_expiryComparison (s : State) : Speaks s (expiryComparison s) := by
  unfold expiryComparison
  split
  · split
    · exact .refl s
    · split
      · refine Speaks.trans (speaks_foldl _ speaks_expireContext (List.finRange 16) s) ?_
        exact speaks_of_same (by simp) (by simp) (by simp)
      · exact .refl s
  · exact .refl s

theorem speaks_completeClose (c : CtxSlot) (s : State) : Speaks s (completeClose c s) := by
  have h : ∀ u, Speaks u (setCtx c .blank (queueNotice .closed (some c) none none (ctxOf u c).withheld u)) := fun u =>
    (speaks_queueNotice _ _ _ _ _ _).trans (speaks_of_same rfl rfl rfl)
  unfold completeClose
  dsimp only
  refine Speaks.trans (speaks_of_same ?_ ?_ ?_) (h _) <;> split <;> simp

theorem speaks_tryClose (c : CtxSlot) (s : State) : Speaks s (tryClose c s) := by
  unfold tryClose
  split
  · exact speaks_completeClose c s
  · exact .refl s

theorem speaks_completeSeal (c : CtxSlot) (s : State) : Speaks s (completeSeal c s) := by
  refine Speaks.trans ?_ (speaks_queueNotice _ _ _ _ _ _)
  exact speaks_of_same rfl rfl rfl

theorem speaks_lowerInFlight (s : State) (c : CtxSlot) : Speaks s (lowerInFlight s c) := by
  unfold lowerInFlight inFlightZero
  dsimp only
  split
  · split
    · exact Speaks.trans (speaks_of_same rfl rfl rfl) (speaks_completeSeal _ _)
    · exact Speaks.trans (speaks_of_same rfl rfl rfl) (speaks_tryClose _ _)
    · exact speaks_of_same rfl rfl rfl
  · exact speaks_of_same rfl rfl rfl

theorem speaks_captureView (s : State) (c : CtxSlot) : Speaks s (captureView s c) := by
  unfold captureView
  dsimp only
  refine Speaks.trans ?_ (speaks_queueNotice _ _ _ _ _ _)
  exact speaks_of_same (by simp) (by simp) (by simp)

theorem speaks_captureViews (plan : List Run) (s : State) : Speaks s (captureViews plan s) := by
  refine speaks_foldl _ (fun s c => ?_) _ _
  split
  · exact speaks_captureView s c
  · exact .refl s

theorem speaks_leaveSnapshot (o : Owner) (s : State) : Speaks s (leaveSnapshot o s) := by
  unfold leaveSnapshot
  dsimp only
  split
  · split
    · refine Speaks.trans ?_ (speaks_queueNotice _ _ _ _ _ _)
      exact speaks_of_same rfl rfl rfl
    · exact speaks_of_same rfl rfl rfl
  · exact .refl s

theorem speaks_noticeWithheld (o : Owner) (e : Entry) (s : State) : Speaks s (noticeWithheld o e s) := by
  unfold noticeWithheld
  split
  · exact speaks_queueNotice _ _ _ _ _ _
  · exact .refl s

theorem speaks_reportEnd (o : Owner) (e : Entry) (r : Option Bool) (s : State) : Speaks s (reportEnd o e r s) := by
  unfold reportEnd
  split
  · exact speaks_reportOutcome _ _ _ _
  · exact .refl s

/-- The end of an entry. -/
theorem speaks_endEntry (o : Owner) (r : Option Bool) (s : State) : Speaks s (endEntry o r s) := by
  unfold endEntry
  split
  · exact .refl s
  · rename_i e he
    have h1 : Speaks s (releaseEntrySlots o e s) := speaks_of_same (by simp) (by simp) (by simp)
    have h2 := (h1.trans (speaks_reportEnd o e r _)).trans (speaks_noticeWithheld o e _)
    have h3 := (h2.trans (speaks_foldl _ speaks_lowerInFlight e.touched _)).trans (speaks_leaveSnapshot o _)
    have h4 := h3.trans (speaks_of_same (t := setEntry o none _) rfl rfl rfl)
    split
    · exact h4
    · exact h4.trans (speaks_of_same (by simp) (by simp) (by simp))

theorem speaks_judgeToken (time : BitVec 32) (check : Block) (s : State) : Speaks s (judgeToken time check s) := by
  have h : ∀ t, Speaks s (setTime t s) := fun t => by
    refine Speaks.trans ?_ (speaks_queueNotice _ _ _ _ _ _)
    exact speaks_of_same rfl rfl rfl
  unfold judgeToken moveTime
  split
  · exact speaks_queueNotice _ _ _ _ _ _
  · split
    · split
      · exact h _
      · split <;> exact speaks_queueNotice _ _ _ _ _ _
    · exact h _

end Sys2Proof.Machine
end

