-- ==== Sys2Proof/Laws/Ports.lean ====
section
/-!
SUPPORT. Taking a frame leaves the frames standing on the links alone; so where none stands, a frame that arrives is taken and nothing more happens. These
are the lemmas by which a statement about a command reaches the operation behind it.
-/

namespace Sys2Proof.Machine

open Sys2Proof

/-! ### What stands on the links -/

@[simp] theorem raiseFault_held (k : FaultKind) (s : State) :
    (raiseFault k s).up.held = s.up.held ∧ (raiseFault k s).drv.held = s.drv.held := by simp

/-- An accepted command leaves both ports as they are. -/
theorem classify_ports {o : Owner} {c : CommandFrame} {s : State} {a : Accepted} (h : classify o c s = .ok a) :
    a.after.up = s.up ∧ a.after.drv = s.drv := by
  unfold classify classifyRead classifyWrite classifyRing classifyFrontier plainPlan at h
  dsimp only at h
  repeat' split at h
  all_goals first
    | contradiction
    | (cases h; simp)

@[simp] theorem enterQueued_held (c : CommandFrame) (a : Accepted) :
    (enterQueued c a).up.held = a.after.up.held ∧ (enterQueued c a).drv.held = a.after.drv.held := by
  unfold enterQueued
  dsimp only
  split <;> simp

@[simp] theorem enterSingle_held (c : CommandFrame) (a : Accepted) :
    (enterSingle c a).up.held = a.after.up.held ∧ (enterSingle c a).drv.held = a.after.drv.held := by
  unfold enterSingle
  dsimp only
  split <;> simp

/-- A COMMAND leaves the frames standing on the links alone. -/
@[simp] theorem takeCommand_held (c : CommandFrame) (s : State) :
    (takeCommand c s).up.held = s.up.held ∧ (takeCommand c s).drv.held = s.drv.held := by
  unfold takeCommand takeQueued takeSingle takeOther takeBridge
  repeat' split
  all_goals first
    | (simp [plainPlan]; done)
    | (rename_i a h; have := classify_ports h; simp [this])

@[simp] theorem answerRequest_held (x : Executed) :
    (answerRequest x).up.held = x.after.up.held ∧ (answerRequest x).drv.held = x.after.drv.held := by
  unfold answerRequest
  split <;> simp

/-- A request leaves the upstream port as it is, and the frames standing on the drive link. -/
@[simp] theorem executeRequest_held (r : Request) (s : State) :
    (executeRequest r s).after.up = s.up ∧ (executeRequest r s).after.drv.held = s.drv.held := by
  cases r <;> simp only [executeRequest]
  case loadContext slot b =>
    unfold loadContextRequest refuses accepts; repeat' split
    all_goals simp
  case sealContext slot =>
    unfold sealContextRequest refuses accepts; repeat' split
    all_goals simp
  case closeContext slot =>
    unfold closeContextRequest startClose refuses accepts; repeat' split
    all_goals simp
  case readContext slot => unfold readContextRequest refuses replies; split <;> simp
  case readReceipt slot =>
    unfold readReceiptRequest refuses replies; repeat' split
    all_goals simp
  case clearUnit => unfold clearUnitRequest clearUnit refuses accepts; split <;> simp
  case addRegion p =>
    unfold addRegionRequest enableRegion refuses accepts; dsimp only; repeat' split
    all_goals simp
  case removeRegion entry =>
    unfold removeRegionRequest freeRegion refuses accepts; dsimp only; repeat' split
    all_goals simp
  case readRegions start => unfold readRegionsRequest refuses replies; split <;> simp
  case setShiftDepth slot depth =>
    unfold setShiftDepthRequest refuses accepts; dsimp only; repeat' split
    all_goals simp
  case pinKey slot =>
    unfold pinKeyRequest refuses accepts; dsimp only; repeat' split
    all_goals simp
  case unpinKey slot => unfold unpinKeyRequest refuses accepts; split <;> simp
  case setRightsTime time check => unfold setRightsTimeRequest refuses accepts; split <;> simp
  case writeSettings p =>
    unfold writeSettingsRequest applySettings refuses accepts; repeat' split
    all_goals simp
  case lockSettings => simp [lockSettingsRequest, accepts]
  case readStatus => simp [readStatusRequest, replies]
  case drain => unfold drainRequest accepts; dsimp only; split <;> simp
  case readNotices => simp [readNoticesRequest, replies]
  case readHistory => simp [readHistoryRequest, replies]
  case clearFaults set => simp [clearFaultsRequest, accepts]

@[simp] theorem takeRequest_held (block : Sector) (s : State) :
    (takeRequest block s).up.held = s.up.held ∧ (takeRequest block s).drv.held = s.drv.held := by
  unfold takeRequest
  split <;> simp [refuses]

/-- A DATA frame from the controller leaves the frames standing on the links alone. -/
@[simp] theorem takeDataUp_held (d : DataFrame) (s : State) :
    (takeDataUp d s).up.held = s.up.held ∧ (takeDataUp d s).drv.held = s.drv.held := by
  unfold takeDataUp strayDataUp takeBlock passDown
  dsimp only
  repeat' split
  all_goals simp

@[simp] theorem takeUp_held (f : Frame) (s : State) :
    (takeUp f s).up.held = s.up.held ∧ (takeUp f s).drv.held = s.drv.held := by
  unfold takeUp
  repeat' split
  all_goals simp

@[simp] theorem takeReady_held (r : ReadyFrame) (s : State) :
    (takeReady r s).up.held = s.up.held ∧ (takeReady r s).drv.held = s.drv.held := by
  unfold takeReady strayReady slipPastEnd openBurst
  dsimp only
  repeat' split
  all_goals simp

@[simp] theorem takeDataDrive_held (d : DataFrame) (s : State) :
    (takeDataDrive d s).up.held = s.up.held ∧ (takeDataDrive d s).drv.held = s.drv.held := by
  unfold takeDataDrive strayDataDrive passUp
  dsimp only
  repeat' split
  all_goals simp

@[simp] theorem takeStatus_held (t : StatusFrame) (s : State) :
    (takeStatus t s).up.held = s.up.held ∧ (takeStatus t s).drv.held = s.drv.held := by
  unfold takeStatus takeAcceptance acceptedBy rejectedBy completeSingle
  dsimp only
  repeat' split
  all_goals simp

@[simp] theorem endDone_held (l : List Tag) (s : State) :
    (endDone l s).2.up.held = s.up.held ∧ (endDone l s).2.drv.held = s.drv.held := by
  induction l generalizing s with
  | nil => simp [endDone]
  | cons t rest ih =>
    unfold endDone
    dsimp only
    split <;> simp [ih]

@[simp] theorem endFailed_held (p : Byte × Byte) (s : State) :
    (endFailed s p).up.held = s.up.held ∧ (endFailed s p).drv.held = s.drv.held := by simp [endFailed]

@[simp] theorem abortEntries_held (l : List Tag) (s : State) :
    (abortEntries l s).2.up.held = s.up.held ∧ (abortEntries l s).2.drv.held = s.drv.held := by
  induction l generalizing s with
  | nil => simp [abortEntries]
  | cons t rest ih =>
    unfold abortEntries abortEntry
    dsimp only
    repeat' split
    all_goals simp [ih]

@[simp] theorem takeDone_held (d : DoneFrame) (s : State) :
    (takeDone d s).up.held = s.up.held ∧ (takeDone d s).drv.held = s.drv.held := by
  unfold takeDone slipDone abortSingle relayDone abortQueued
  dsimp only
  repeat' split
  all_goals simp

@[simp] theorem takeDrive_held (f : Frame) (s : State) :
    (takeDrive f s).up.held = s.up.held ∧ (takeDrive f s).drv.held = s.drv.held := by
  unfold takeDrive takeInReset
  dsimp only
  repeat' split
  all_goals simp

/-! ### Where no frame stands -/

theorem settleHeads_quiet {s : State} (h : Quiet s) : settleHeads s = s := by
  obtain ⟨h1, h2⟩ := h
  simp [settleHeads, upstreamHead, driveHead, h1, h2]

theorem run_quiet {s : State} (h : Quiet s) : run s = s := by
  rw [run, h.1, h.2]
  exact settleHeads_quiet h

/-- With no frame standing, the frame that arrives is the one the port looks at. -/
theorem arriveUp_quiet {f : Frame} {s : State} (hl : s.up.link = .up) (h : Quiet s)
    (hs : settleHeads { s with up := { s.up with held := [f] } } = { s with up := { s.up with held := [f] } })
    (ht : upTakeable { s with up := { s.up with held := [f] } } f = true) : arriveUp f s = takeUp f s := by
  obtain ⟨h1, h2⟩ := h
  have e : ({ s with up := { s.up with held := ([] : List Frame) } } : State) = s := by
    rw [← h1]
  rw [arriveUp, if_pos hl, h1, List.nil_append, run]
  simp only [h2, List.length_nil, List.length_cons, Nat.zero_add, Nat.add_zero, pump]
  rw [hs]
  have k : takeOne { s with up := { s.up with held := [f] } } = takeUp f s := by
    simp only [takeOne, nextUp, nextDrive, List.head?_cons, h2, List.head?_nil, Option.filter_some, ht, if_true,
      Option.filter_none, stepUp, List.tail_cons, e]
  rw [k]
  exact settleHeads_quiet ⟨by simp [h1], by simp [h2]⟩

theorem arriveDrive_quiet {f : Frame} {s : State} (hl : s.drv.link = .up) (h : Quiet s)
    (hs : settleHeads { s with drv := { s.drv with held := [f] } } = { s with drv := { s.drv with held := [f] } })
    (ht : driveTakeable { s with drv := { s.drv with held := [f] } } = true) : arriveDrive f s = takeDrive f s := by
  obtain ⟨h1, h2⟩ := h
  have e : ({ s with drv := { s.drv with held := ([] : List Frame) } } : State) = s := by
    rw [← h2]
  rw [arriveDrive, if_pos hl, h2, List.nil_append, run]
  simp only [h1, List.length_nil, List.length_cons, Nat.zero_add, pump]
  rw [hs]
  have k : takeOne { s with drv := { s.drv with held := [f] } } = takeDrive f s := by
    simp only [takeOne, nextUp, nextDrive, List.head?_cons, h1, List.head?_nil, Option.filter_some, ht, if_true,
      Option.filter_none, stepDrive, List.tail_cons, e]
  rw [k]
  exact settleHeads_quiet ⟨by simp [h1], by simp [h2]⟩

/-- A COMMAND that arrives with no frame standing reaches the Tracker, unless the drive's reset holds it (R2, R16). -/
theorem arriveUp_command {c : CommandFrame} {s : State} (hl : s.up.link = .up) (h : Quiet s)
    (hr : s.drv.resetState = .none ∨ cmdKind c = .bridge) : arriveUp (.command c) s = takeCommand c s := by
  obtain ⟨h1, h2⟩ := h
  have := arriveUp_quiet (f := .command c) hl ⟨h1, h2⟩
    (by simp [settleHeads, upstreamHead, driveHead, h2]) (by simpa [upTakeable] using hr)
  simpa [takeUp, acceptable] using this

/-- The request block that a bridge command waits for is taken (R171, R172). -/
theorem arriveUp_block {b : BitVec 16} {block : Sector} {s : State} (h : AwaitsBlock s) :
    arriveUp (.data { bytes23 := b, sectors := [block] }) s =
      takeRequest block { s with up := { s.up with inBurst := none } } := by
  obtain ⟨hl, ⟨h1, h2⟩, h3⟩ := h
  have := arriveUp_quiet (f := .data { bytes23 := b, sectors := [block] }) hl ⟨h1, h2⟩
    (by simp [settleHeads, upstreamHead, driveHead, h2, h3])
    (by simp [upTakeable, upstreamHead, h3])
  simpa [takeUp, acceptable, takeDataUp, h3, takeBlock, cutExcess] using this

/-- A frame from the drive other than DATA is taken where no frame stands and none is still to be sent on (R9). -/
theorem arriveDrive_frame {f : Frame} {s : State} (hl : s.drv.link = .up) (hp : relayPending s = false) (h : Quiet s)
    (hd : ∀ d, f ≠ .data d) : arriveDrive f s = takeDrive f s := by
  obtain ⟨h1, h2⟩ := h
  have hh : driveHead { s with drv := { s.drv with held := [f] } } = none := by
    cases f <;> simp_all [driveHead]
  have hu : upstreamHead { s with drv := { s.drv with held := [f] } } = none := by simp [upstreamHead, h1]
  refine arriveDrive_quiet hl ⟨h1, h2⟩ (by simp only [settleHeads, hh, hu]) ?_
  have hp' : relayPending { s with drv := { s.drv with held := [f] } } = false := hp
  simp [driveTakeable, hp', hh]

/-- During a reset every frame from the drive is taken where no frame stands and none is still to be sent on, DATA too (R16). -/
theorem arriveDrive_inReset {f : Frame} {s : State} (hl : s.drv.link = .up) (hp : relayPending s = false) (h : Quiet s)
    (hr : s.drv.resetState ≠ .none) : arriveDrive f s = takeDrive f s := by
  obtain ⟨h1, h2⟩ := h
  have hh : driveHead { s with drv := { s.drv with held := [f] } } = none := by
    cases f <;> cases hb : s.drv.burst <;> simp_all [driveHead]
  have hu : upstreamHead { s with drv := { s.drv with held := [f] } } = none := by simp [upstreamHead, h1]
  refine arriveDrive_quiet hl ⟨h1, h2⟩ (by simp only [settleHeads, hh, hu]) ?_
  have hp' : relayPending { s with drv := { s.drv with held := [f] } } = false := hp
  simp [driveTakeable, hp', hh]

/-- A completion closes the open burst exactly where it names the burst's owner, whatever has become of that owner's entry (R7). -/
theorem closeOwned_open {b : DriveBurst} {s : State} (p : Owner → Bool) (h : s.drv.burst = some b) :
    closeOwned p s = if p b.owner = true then closeShort b s else s := by
  cases hp : p b.owner <;> simp [closeOwned, ownedBurst, h, Option.filter, hp]

/-- With no burst open a completion closes none (R7). -/
theorem closeOwned_closed {s : State} (p : Owner → Bool) (h : s.drv.burst = none) : closeOwned p s = s := by
  simp [closeOwned, ownedBurst, h]

/-- The arbiter sends the first frame on the list that it may choose (R8). -/
theorem transmit_chosen {l m : List SendItem} {i : SendItem} {s : State} (hu : s.up.link = .up) (hl : ∀ j ∈ l, mayChoose s j = false)
    (hi : mayChoose s i = true) (he : s.up.sendList = l ++ i :: m) :
    transmit s = run (sentItem i { s with up := { s.up with sendList := l ++ m, sent := s.up.sent ++ [i.frame] } }) := by
  have h : s.up.sendList.findIdx? (mayChoose s) = some l.length := by
    rw [he, List.findIdx?_append, List.findIdx?_eq_none_iff.2 (by simpa using hl)]
    simp [List.findIdx?_cons, hi]
  rw [transmit, if_pos hu, h]
  simp [he, sendItem, List.eraseIdx_append_of_length_le]

/-- The arbiter sends nothing where it may choose no frame on the list (R8). -/
theorem transmit_nothing {s : State} (h : ∀ j ∈ s.up.sendList, mayChoose s j = false) : transmit s = s := by
  have : s.up.sendList.findIdx? (mayChoose s) = none := List.findIdx?_eq_none_iff.2 h
  simp [transmit, this]

end Sys2Proof.Machine
end

