-- ==== Sys2Proof/Laws/Requests.lean ====
section
/-!
SUPPORT. A request block reads back as its request, and what each answer leaves: the lemmas by which a statement about a bridge request reaches the
operation behind it.
-/

namespace Sys2Proof.Machine

open Sys2Proof

/-- A request block names the request it was written for. -/
theorem decodeRequest_encodeRequest (r : Request) : decodeRequest (encodeRequest r) = some r := by
  cases r <;>
  simp (disch := first | omega | (simp (disch := omega) only [getField_putField_apart, getField_zero]; done)) only
    [decodeRequest, encodeRequest, getField_putField_same, getField_putField_apart, BitVec.toNat_ofNat, Nat.reducePow,
      Nat.reduceMod]

/-- The bridge's answer to the request whose block it waits for. -/
theorem arriveRequest_awaits {r : Request} {s : State} (h : AwaitsBlock s) :
    arriveRequest r s = answerRequest (executeRequest r { s with up := { s.up with inBurst := none } }) := by
  rw [arriveRequest, arriveUp_block h, takeRequest, decodeRequest_encodeRequest]

/-- What an accepted request without a reply leaves. -/
theorem answerRequest_accepts (s : State) (h : s.up.inBurst = none) : answerRequest (accepts s) = answered okFrame s := by
  simp [answerRequest, accepts, setEntry, putEntry, placePart, placeItem, answered, h]

/-- What a refused request leaves. -/
theorem answerRequest_refuses (code : Code) (s : State) (h : s.up.inBurst = none) :
    answerRequest (refuses code s) = answered (errorFrame code) s := by
  simp [answerRequest, refuses, setEntry, putEntry, placePart, placeItem, answered, h]

/-- What a request with a reply leaves. -/
theorem answerRequest_replies (block : Sector) (s : State) (h : s.up.inBurst = none) :
    answerRequest (replies block s) = asked block s := by
  simp [answerRequest, replies, placeItem, asked, h]

end Sys2Proof.Machine
end

