-- ==== Sys2Proof/Laws/PerInstr.lean ====
section
/-!
SUPPORT. One lemma for each command: what carries it, a frame or a request block, is read back as that command (R2, R172).
-/

namespace Sys2Proof.Laws.ReadBack

open Sys2Proof Sys2Proof.Machine

/-- The frame that carries a well-formed command is taken for it, and a request block written for a request's row is that row. -/
def Statement (i : Instr) : Prop :=
  (∀ port f, rowFrame i = some (port, f) → WellFormed i = true → frameRow port f = i) ∧
    ∀ r, requestRow r = i → blockRow (encodeRequest r) = i

/-- The part of the statement that speaks of request blocks holds of every command. -/
theorem block_part (i : Instr) (r : Request) (h : requestRow r = i) : blockRow (encodeRequest r) = i := by
  rw [blockRow, decodeRequest_encodeRequest]
  exact h

theorem powerOn : Statement (.powerOn) := by
  refine ⟨?_, block_part _⟩
  intro p f h w
  cases h

theorem upstreamLinkUp : Statement (.upstreamLinkUp) := by
  refine ⟨?_, block_part _⟩
  intro p f h w
  cases h

theorem linkReset : Statement (.linkReset) := by
  refine ⟨?_, block_part _⟩
  intro p f h w
  cases h

theorem driveLinkUp : Statement (.driveLinkUp) := by
  refine ⟨?_, block_part _⟩
  intro p f h w
  cases h

theorem driveLinkLost : Statement (.driveLinkLost) := by
  refine ⟨?_, block_part _⟩
  intro p f h w
  cases h

theorem tick : Statement (.tick) := by
  refine ⟨?_, block_part _⟩
  intro p f h w
  cases h

theorem read (lba : BitVec 48) (count : BitVec 16) (byte10 : Byte) (rest : BitVec 72) : Statement (.read lba count byte10 rest) := by
  refine ⟨?_, block_part _⟩
  intro p f h w
  cases h
  rfl

theorem write (lba : BitVec 48) (count : BitVec 16) (byte10 : Byte) (rest : BitVec 72) : Statement (.write lba count byte10 rest) := by
  refine ⟨?_, block_part _⟩
  intro p f h w
  cases h
  rfl

theorem qread (lba : BitVec 48) (count : BitVec 16) (byte10 : Byte) (rest : BitVec 72) : Statement (.qread lba count byte10 rest) := by
  refine ⟨?_, block_part _⟩
  intro p f h w
  cases h
  rfl

theorem qwrite (lba : BitVec 48) (count : BitVec 16) (byte10 : Byte) (rest : BitVec 72) : Statement (.qwrite lba count byte10 rest) := by
  refine ⟨?_, block_part _⟩
  intro p f h w
  cases h
  rfl

theorem other (op : Byte) (lba : BitVec 48) (count : BitVec 16) (byte10 : Byte) (rest : BitVec 72) : Statement (.other op lba count byte10 rest) := by
  refine ⟨?_, block_part _⟩
  intro p f h w
  cases h
  simp [WellFormed] at w
  simp [frameRow, acceptable, commandRow, w]

theorem bridge (lba : BitVec 48) (count : BitVec 16) (byte10 : Byte) (rest : BitVec 72) : Statement (.bridge lba count byte10 rest) := by
  refine ⟨?_, block_part _⟩
  intro p f h w
  cases h
  rfl

theorem unexpectedFrame (port : Port) (f : Frame) : Statement (.unexpectedFrame port f) := by
  refine ⟨?_, block_part _⟩
  intro p f h w
  cases h
  simp [WellFormed] at w
  simp [frameRow, w]

theorem dataFromController (bytes23 : BitVec 16) (sectors : List Sector) : Statement (.dataFromController bytes23 sectors) := by
  refine ⟨?_, block_part _⟩
  intro p f h w
  cases h
  simp only [WellFormed] at w
  simp [frameRow, w]

theorem readyFromDrive (r : ReadyFrame) : Statement (.readyFromDrive r) := by
  refine ⟨?_, block_part _⟩
  intro p f h w
  cases h
  simp only [WellFormed] at w
  simp [frameRow, w]

theorem dataFromDrive (bytes23 : BitVec 16) (sectors : List Sector) : Statement (.dataFromDrive bytes23 sectors) := by
  refine ⟨?_, block_part _⟩
  intro p f h w
  cases h
  simp only [WellFormed] at w
  simp [frameRow, w]

theorem statusFromDrive (outcome : Byte) (detail : Byte) : Statement (.statusFromDrive outcome detail) := by
  refine ⟨?_, block_part _⟩
  intro p f h w
  cases h
  simp only [WellFormed] at w
  simp [frameRow, w]

theorem doneFromDrive (d : DoneFrame) : Statement (.doneFromDrive d) := by
  refine ⟨?_, block_part _⟩
  intro p f h w
  cases h
  simp only [WellFormed] at w
  simp [frameRow, w]

theorem sendUpstreamFrame : Statement (.sendUpstreamFrame) := by
  refine ⟨?_, block_part _⟩
  intro p f h w
  cases h

theorem engineJobStart : Statement (.engineJobStart) := by
  refine ⟨?_, block_part _⟩
  intro p f h w
  cases h

theorem setupComplete : Statement (.setupComplete) := by
  refine ⟨?_, block_part _⟩
  intro p f h w
  cases h

theorem streamComplete : Statement (.streamComplete) := by
  refine ⟨?_, block_part _⟩
  intro p f h w
  cases h

theorem parityFailure : Statement (.parityFailure) := by
  refine ⟨?_, block_part _⟩
  intro p f h w
  cases h

theorem unwrapComplete : Statement (.unwrapComplete) := by
  refine ⟨?_, block_part _⟩
  intro p f h w
  cases h

theorem receiptCheckComplete : Statement (.receiptCheckComplete) := by
  refine ⟨?_, block_part _⟩
  intro p f h w
  cases h

theorem timeTokenCheckComplete : Statement (.timeTokenCheckComplete) := by
  refine ⟨?_, block_part _⟩
  intro p f h w
  cases h

theorem loadContext (slot : Byte) (blob : Blob) : Statement (.loadContext slot blob) := by
  refine ⟨?_, block_part _⟩
  intro p f h w
  cases h

theorem sealContext (slot : Byte) : Statement (.sealContext slot) := by
  refine ⟨?_, block_part _⟩
  intro p f h w
  cases h

theorem closeContext (slot : Byte) : Statement (.closeContext slot) := by
  refine ⟨?_, block_part _⟩
  intro p f h w
  cases h

theorem readContext (slot : Byte) : Statement (.readContext slot) := by
  refine ⟨?_, block_part _⟩
  intro p f h w
  cases h

theorem readReceipt (slot : Byte) : Statement (.readReceipt slot) := by
  refine ⟨?_, block_part _⟩
  intro p f h w
  cases h

theorem clearUnit : Statement (.clearUnit) := by
  refine ⟨?_, block_part _⟩
  intro p f h w
  cases h

theorem addRegion (p : RegionParams) : Statement (.addRegion p) := by
  refine ⟨?_, block_part _⟩
  intro p f h w
  cases h

theorem removeRegion (entry : Byte) : Statement (.removeRegion entry) := by
  refine ⟨?_, block_part _⟩
  intro p f h w
  cases h

theorem readRegions (start : Byte) : Statement (.readRegions start) := by
  refine ⟨?_, block_part _⟩
  intro p f h w
  cases h

theorem setShiftDepth (slot : Byte) (depth : BitVec 32) : Statement (.setShiftDepth slot depth) := by
  refine ⟨?_, block_part _⟩
  intro p f h w
  cases h

theorem pinKey (slot : Byte) : Statement (.pinKey slot) := by
  refine ⟨?_, block_part _⟩
  intro p f h w
  cases h

theorem unpinKey (slot : Byte) : Statement (.unpinKey slot) := by
  refine ⟨?_, block_part _⟩
  intro p f h w
  cases h

theorem setRightsTime (time : BitVec 32) (check : Block) : Statement (.setRightsTime time check) := by
  refine ⟨?_, block_part _⟩
  intro p f h w
  cases h

theorem writeSettings (p : SettingsParams) : Statement (.writeSettings p) := by
  refine ⟨?_, block_part _⟩
  intro p f h w
  cases h

theorem lockSettings : Statement (.lockSettings) := by
  refine ⟨?_, block_part _⟩
  intro p f h w
  cases h

theorem readStatus : Statement (.readStatus) := by
  refine ⟨?_, block_part _⟩
  intro p f h w
  cases h

theorem drain : Statement (.drain) := by
  refine ⟨?_, block_part _⟩
  intro p f h w
  cases h

theorem readNotices : Statement (.readNotices) := by
  refine ⟨?_, block_part _⟩
  intro p f h w
  cases h

theorem readHistory : Statement (.readHistory) := by
  refine ⟨?_, block_part _⟩
  intro p f h w
  cases h

theorem clearFaults (set : Byte) : Statement (.clearFaults set) := by
  refine ⟨?_, block_part _⟩
  intro p f h w
  cases h

theorem unknownRequestCode (block : Sector) : Statement (.unknownRequestCode block) := by
  refine ⟨?_, block_part _⟩
  intro p f h w
  cases h

end Sys2Proof.Laws.ReadBack
end

