-- ==== Sys2Proof/Tests/Slice0.lean ====
section
/-!
SUPPORT. The writer's own tests: ill-formed commands that WellFormed refuses, frames written out byte by byte from spec/12 12.1, one small effect of
each command worked by hand from its rule, and for each statement with hypotheses a concrete state that meets them.
-/

namespace Sys2Proof.Tests

open Sys2Proof Sys2Proof.Machine

set_option Elab.async false

/-! ### Small states -/

/-- The state after a command; the same state where it does not answer a next one. -/
def after (i : Instr) (s : State) : State :=
  match exec i s with
  | .next t => t
  | .fault _ => s
  | .refused _ => s

/-- Both links up, no reset in progress, no frame standing and nothing to send. -/
def taking (s : State) : State :=
  { s with
    up := { s.up with link := .up, held := [], sendList := [] }
    drv := { s.drv with link := .up, resetState := .none, held := [] } }

/-- The request burst of a bridge open, no frame standing. -/
def asking (s : State) : State :=
  { s with
    up := { s.up with link := .up, held := [], inBurst := some { owner := .single, left := 1, bridge := true } }
    drv := { s.drv with held := [] } }

theorem asking_awaits (s : State) : AwaitsBlock (asking s) :=
  ⟨rfl, ⟨rfl, rfl⟩, rfl⟩

theorem taking_takesCommands (s : State) : TakesCommands (taking s) :=
  ⟨rfl, rfl, rfl, rfl, rfl⟩

theorem taking_takesDrive (s : State) : TakesDrive (taking s) :=
  ⟨rfl, rfl, rfl, rfl, rfl⟩

theorem taking_quiet (s : State) : Quiet (taking s) :=
  ⟨rfl, rfl⟩

/-- The part with both links up and nothing else done. -/
def linked : State :=
  taking State.reset

/-- The part asked for a request, with nothing else done. -/
def asked0 : State :=
  asking State.reset

/-- The part in lockdown. -/
def locked (s : State) : State :=
  { s with faults := { s.faults with lockdown := true } }

/-- A COMMAND frame of two sectors with tag 5. -/
def frame2 (op : Byte) (lba : BitVec 48) : CommandFrame :=
  { op := op, lba := lba, count := 2#16, byte10 := 5#8, rest := 0#72 }

/-- A COMMAND frame of an operation code, a start and a count, with tag 5. -/
def frameN (op : Byte) (lba : BitVec 48) (count : BitVec 16) : CommandFrame :=
  { op := op, lba := lba, count := count, byte10 := 5#8, rest := 0#72 }

/-- A KEEP context, recording. -/
def keepCtx : Context :=
  { Context.blank with state := .recording, serial := 1#48 }

/-- A TIMED context with a view window of 30 seconds, recording. -/
def timedCtx : Context :=
  { Context.blank with state := .recording, cls := .timed, serial := 2#48, window := 30 }

/-- A SHIFT context, recording. -/
def shiftCtx : Context :=
  { Context.blank with state := .recording, cls := .shift, serial := 3#48 }

/-- Regions of contexts 0, 1 and 2, each of 64 sectors. -/
def keepRegion : Region :=
  { base := 100, limit := 163, ctx := 0, logicalStart := 0 }

def timedRegion : Region :=
  { base := 200, limit := 263, ctx := 1, logicalStart := 10 }

def shiftRegion : Region :=
  { base := 1000, limit := 1063, ctx := 2, logicalStart := 0 }

/-- The three contexts with their regions and the ring of the third. -/
def loaded (s : State) : State :=
  { s with
    contexts := ((s.contexts.set 0 keepCtx).set 1 timedCtx).set 2 shiftCtx
    regions := ((s.regions.set 0 (some keepRegion)).set 1 (some timedRegion)).set 2 (some shiftRegion)
    rings := s.rings.set 2 (some (newRing shiftRegion)) }

/-- The part with both links up and the three contexts loaded. -/
def recording : State :=
  loaded linked

/-- The ring of the third context replaced. -/
def ringed (g : Machine.Ring) : State :=
  setRing 2 (some g) recording

/-- A span of four sectors from a position, on lap 0. -/
def span4 (first : Nat) (t : Tag) (status : SpanStatus) : Span :=
  { first := first, count := 4, lap := 0, owner := .tag t, status := status }

/-- The ring with spans of four sectors of tags 0 and up, each FORWARDED. -/
def ringOfSpans (n : Nat) : Machine.Ring :=
  { newRing shiftRegion with
    issue := 4 * n, spans := (List.range n).map fun k => span4 (4 * k) (Fin.ofNat 32 k) .forwarded }

/-- An entry in use of a queued command with tag 5. -/
def qentry (op : Byte) (state : EntryState) (plan : List Run) : Entry :=
  freshEntry state (kindOf op) (frame2 op 0#48) plan []

/-- The part with the entry of tag 5 set. -/
def tagged (e : Entry) : State :=
  setEntry (.tag 5) (some e) linked

/-- The part with the single slot set. -/
def single (e : Entry) : State :=
  setEntry .single (some e) linked

/-! ### Ill-formed commands (R2, R172) -/

theorem test_illFormed_other_that_is_read : WellFormed (.other 0x2A#8 0#48 1#16 0#8 0#72) = false := by decide

theorem test_illFormed_frame_the_port_takes : WellFormed (.unexpectedFrame .drive (.status { outcome := 2#8, detail := 0#8 })) = false := by
  decide

theorem test_illFormed_data_of_no_sector : WellFormed (.dataFromController 0#16 []) = false := by decide

theorem test_illFormed_data_of_17_sectors : WellFormed (.dataFromDrive 0#16 (List.replicate 17 0#4096)) = false := by decide

theorem test_illFormed_ready_of_tag_32 :
    WellFormed (.readyFromDrive { flags := 2#8, tag := 32#8, byte3 := 0#8, offset := 0#16, count := 1#16 }) = false := by decide

theorem test_illFormed_status_outcome_3 : WellFormed (.statusFromDrive 3#8 0#8) = false := by decide

theorem test_illFormed_done_of_tag_32 :
    WellFormed (.doneFromDrive { flags := 0#8, byte3 := 0#8, doneSet := 0#32, failed := [(32#8, 1#8)] }) = false := by decide

theorem test_illFormed_request_code_20 : WellFormed (.unknownRequestCode (putField 0 20#16 0)) = false := by decide +kernel

/-! ### Frames written out byte by byte (12.1) -/

/-- A READ of 8 sectors at LBA 0x1000: class 1, operation code 0x2A, LBA and count least significant byte first. -/
theorem test_decode_read :
    decodeFrame .upstream
        [0x01#8, 0x2A#8, 0x00#8, 0x10#8, 0#8, 0#8, 0#8, 0#8, 0x08#8, 0#8, 0#8, 0#8, 0#8, 0#8, 0#8, 0#8, 0#8, 0#8, 0#8, 0#8] =
      some (.read 0x1000#48 8#16 0#8 0#72) := by decide +kernel

/-- A QWRITE of 256 sectors with tag 5 in byte 10. -/
theorem test_decode_qwrite :
    decodeFrame .upstream
        [0x01#8, 0x6B#8, 0x01#8, 0x02#8, 0#8, 0#8, 0#8, 0x0A#8, 0#8, 0x01#8, 5#8, 0#8, 0#8, 0#8, 0#8, 0#8, 0#8, 0#8, 0#8, 0x7F#8] =
      some (.qwrite 0x0A0000000201#48 256#16 5#8 0x7F0000000000000000#72) := by decide +kernel

theorem test_decode_status : decodeFrame .drive [0x03#8, 1#8, 0#8] = some (.statusFromDrive 1#8 0#8) := by decide +kernel

/-- A READY to drive of tag 3, offset 16, count 32. -/
theorem test_decode_ready :
    decodeFrame .drive [0x02#8, 2#8, 3#8, 0#8, 0x10#8, 0#8, 0x20#8, 0#8] =
      some (.readyFromDrive { flags := 2#8, tag := 3#8, byte3 := 0#8, offset := 16#16, count := 32#16 }) := by decide +kernel

/-- A DONE of tags 0 and 2, with tag 1 failed. -/
theorem test_decode_done :
    decodeFrame .drive [0x04#8, 0#8, 1#8, 0#8, 5#8, 0#8, 0#8, 0#8, 1#8, 0x44#8] =
      some (.doneFromDrive { flags := 0#8, byte3 := 0#8, doneSet := 5#32, failed := [(1#8, 0x44#8)] }) := by decide +kernel

/-- A CLEAR_FAULTS block: code 0x0014 in bytes 0 and 1, fault set in byte 4. -/
theorem test_decode_clearFaults : blockRow (BitVec.ofNat 4096 0x0500000014) = .clearFaults 5#8 := by decide +kernel

/-! ### Witnesses: the step, power-on and the links -/

/-- A command waiting; one period before the tick; the period of the tick. -/
theorem witness_StepRunsFrontCommand :
    ({ State.reset with pending := [.tick] } : State).pending = [.tick] ∧ State.reset.pending = [] ∧
      26999998 + 1 < State.reset.req.divider ∧ State.reset.req.divider ≤ 26999999 + 1 := by decide +kernel

/-- The part in a reset state, with frames standing upstream. -/
def resetting (r : ResetState) (held : List Frame) : State :=
  { linked with up := { linked.up with held := held }, drv := { linked.drv with resetState := r } }

/-- In each reset state a STATUS of outcome ERROR, a DATA frame and one of no known class at the drive; a QREAD of the controller, and one that stands with a
BRIDGE behind it; a STATUS of the drive still on the send list, and an empty list. -/
theorem witness_LinksComeUpAndResetEnds :
    let c := frame2 0x6A#8 0#48
    rowFrame (.statusFromDrive 2#8 0x44#8) = some (.drive, statusOf 2#8 0x44#8) ∧
      rowFrame (.dataFromDrive 0#16 [1#4096]) = some (.drive, .data { bytes23 := 0#16, sectors := [1#4096] }) ∧
      rowFrame (.unexpectedFrame .drive (.unknown 6#8 [])) = some (.drive, .unknown 6#8 []) ∧
      rowFrame (.qread 0#48 2#16 5#8 0#72) = some (.upstream, .command c) ∧ cmdKind c ≠ .bridge ∧
      rowFrame (.bridge 0#48 1#16 0#8 0#72) = some (.upstream, .command { frameN 0xFC#8 0#48 1#16 with byte10 := 0#8 }) ∧
      relayPending { linked with up := { linked.up with sendList := [fromDrive (statusOf 1#8 0#8)] } } = true ∧ linked.drv.link = .up ∧
      Quiet { linked with up := { linked.up with sendList := [fromDrive (statusOf 1#8 0#8)] } } ∧ linked.up.link = .up ∧
      linked.up.outBurst = none ∧ linked.up.sendList = [] ∧
      (∀ r, (resetting r []).drv.link = .up ∧ relayPending (resetting r []) = false ∧ Quiet (resetting r [])) ∧
      ∀ r, (resetting r [.command c]).up.link = .up ∧ (resetting r [.command c]).up.held = [.command c] ∧
        (resetting r [.command c]).drv.held = [] ∧ relayPending (resetting r [.command c]) = false :=
  ⟨rfl, rfl, rfl, rfl, by decide, rfl, rfl, rfl, ⟨rfl, rfl⟩, rfl, rfl, rfl, fun _ => ⟨rfl, rfl, rfl, rfl⟩, fun _ => ⟨rfl, rfl, rfl, rfl⟩⟩

/-- Both clauses of the drive link, a ring that is kept, and the last notice number that still fits. -/
theorem witness_LinkResetEndsEntries :
    recording.drv.link = .up ∧ State.reset.drv.link = .down ∧ (ringOf (after .linkReset (ringed (ringOfSpans 3))) 2).isSome = true ∧
      ({ linked with nq := { linked.nq with notices := List.replicate 31 ⟨.fault, none, none, none, 0, 0⟩ } } : State).nq.notices.length < 32 := by
  decide +kernel

theorem witness_DriveLossEndsEntries :
    let r := single (qentry 0x2A#8 .forwarded [])
    let b := single (freshEntry .localBridge .bridge (frameN 0xFC#8 0#48 1#16) [] [])
    r.up.held = [] ∧ r.drv.burst = none ∧ singleTransfer r = true ∧ b.up.held = [] ∧ b.drv.burst = none ∧
      b.trk.single.map (·.kind) = some .bridge ∧ (ringOf (after .driveLinkLost (ringed (ringOfSpans 3))) 2).isSome = true := by
  decide +kernel

/-- A TIMED context whose E is 30: at rights time 29 the tick does not pass it, at 30 it does. -/
def nearExpiry (rights : Nat) : State :=
  recomputeCompare
    { setCtx 1 { timedCtx with expiry := some 30 } linked with time := { linked.time with rightsSet := true, rights := rights } }

theorem witness_TickAdvancesAndExpires :
    CompareLaw (nearExpiry 29) ∧ CompareLaw (nearExpiry 30) ∧ ¬30 < min (29 + 1) maxSeconds ∧ 30 < min (30 + 1) maxSeconds := by
  refine ⟨?_, ?_, by decide, by decide⟩ <;> (unfold CompareLaw; decide +kernel)

/-! ### Witnesses: commands of the controller -/

/-- A command of two sectors that ends at the top of the LBA space, in no region. -/
theorem witness_ClearCommandsAdmitted :
    TakesCommands linked ∧ 281474976710654 + cmdCount (frame2 0x2A#8 281474976710654#48) ≤ lbaEnd ∧
      EverySector (frame2 0x2A#8 281474976710654#48) (fun x => lookup linked x = none) ∧
      linked.trk.single = none ∧ queuedWork linked = false ∧ entryOf linked (.tag 5) = none ∧ linked.trk.accepts = [] := by
  refine ⟨taking_takesCommands _, by decide, ?_, rfl, by decide +kernel, by decide +kernel, rfl⟩
  unfold EverySector
  decide +kernel

/-- The same command with a queued entry in use. -/
theorem witness_ClearCommandsAdmitted_waits :
    let s := setEntry (.tag 7) (some (qentry 0x6A#8 .forwarded [])) linked
    TakesCommands s ∧ EverySector (frame2 0x2A#8 281474976710654#48) (fun x => lookup s x = none) ∧
      s.trk.single = none ∧ queuedWork s = true := by
  refine ⟨taking_takesCommands _, ?_, rfl, by decide +kernel⟩
  unfold EverySector
  decide +kernel

/-- A bridge in the single slot does not stand in a queued command's way. -/
theorem witness_ClearCommandsAdmitted_beside_bridge :
    let s := single (freshEntry .localBridge .bridge (frameN 0xFC#8 0#48 1#16) [] [])
    TakesCommands s ∧ EverySector (frame2 0x6A#8 0#48) (fun x => lookup s x = none) ∧ entryOf s (.tag 5) = none ∧
      s.trk.accepts = [] ∧ ∀ e, s.trk.single = some e → e.kind = .bridge := by
  refine ⟨taking_takesCommands _, ?_, by decide +kernel, rfl, fun e h => ?_⟩
  · unfold EverySector
    decide +kernel
  · cases h
    rfl

theorem witness_OtherAndBridgeAdmitted :
    linked.trk.single = none ∧ TakesCommands linked ∧ WellFormed (.other 0#8 0#48 0#16 0#8 0#72) = true ∧ queuedWork linked = false ∧
      linked.up.link = .up ∧ Quiet linked ∧ (2#16 : BitVec 16) ≠ 1#16 ∧ (0#16 : BitVec 16) ≠ 1#16 :=
  ⟨rfl, taking_takesCommands _, by decide, by decide +kernel, rfl, ⟨rfl, rfl⟩, by decide, by decide⟩

/-- A queued command: its tag in use, its tag on the acceptance list with 8 records of history, or the single slot in the way. -/
theorem witness_RefusalsAnswered_queued :
    let inUse := tagged (qentry 0x6A#8 .forwarded [])
    let listedTag : State :=
      { linked with
        trk := { linked.trk with
          accepts := [{ tag := 5, action := .relay }]
          history := List.replicate 8 (recordOf (frame2 0x6A#8 0#48) none .busy linked) } }
    let behind := single (qentry 0x2A#8 .forwarded [])
    rowFrame (.qread 0#48 2#16 5#8 0#72) = some (.upstream, .command (frame2 0x6A#8 0#48)) ∧
      WellFormed (.qread 0#48 2#16 5#8 0#72) = true ∧ kindQueued (cmdKind (frame2 0x6A#8 0#48)) = true ∧
      (entryOf inUse (.tag (cmdTag (frame2 0x6A#8 0#48)))).isSome = true ∧ inUse.trk.history.length ≤ 8 ∧
      (∃ r ∈ listedTag.trk.accepts, r.tag = cmdTag (frame2 0x6A#8 0#48)) ∧ listedTag.trk.history.length ≤ 8 ∧
      (entryOf behind (.tag 5)).isSome = false ∧ behind.trk.accepts = [] ∧ behind.trk.single.map (·.kind) = some .read ∧
      inUse.up.link = .up ∧ inUse.drv.resetState = .none := by decide +kernel

/-- A command of any kind with the drive's link DOWN. -/
theorem witness_RefusalsAnswered_drive_down :
    let s : State := { linked with drv := { linked.drv with link := .down } }
    s.up.link = .up ∧ Quiet s ∧ s.drv.resetState = .none ∧ s.drv.link = .down ∧ s.trk.single = none ∧
      (entryOf s (.tag 5)).isSome = false ∧ s.trk.accepts = [] :=
  ⟨rfl, ⟨rfl, rfl⟩, rfl, rfl, rfl, by decide +kernel, rfl⟩

/-- A command that the Classifier refuses: two sectors from the last LBA. -/
theorem witness_RefusalsAnswered_classified :
    classify (.tag 5) (frame2 0x6A#8 281474976710655#48) linked = .error .outOfRange ∧
      classify .single (frame2 0x3A#8 281474976710655#48) linked = .error .outOfRange ∧ linked.drv.link = .up := by
  refine ⟨?_, ?_, rfl⟩ <;> rfl

/-- A READ, an OTHER and a BRIDGE that find the single slot in use. -/
theorem witness_RefusalsAnswered_busy :
    let s := single (qentry 0x2A#8 .forwarded [])
    s.trk.single.isSome = true ∧ s.up.link = .up ∧ s.drv.resetState = .none ∧ cmdKind (frame2 0x2A#8 0#48) = .read ∧
      cmdKind (frame2 0#8 0#48) = .other ∧ WellFormed (.other 0#8 0#48 2#16 5#8 0#72) = true ∧
      cmdKind (frame2 0xFC#8 0#48) = .bridge := by decide +kernel

/-- The first range that passes the top, and the last that does not. -/
theorem witness_RangePastTopRefused :
    rowFrame (.read 281474976710655#48 2#16 5#8 0#72) = some (.upstream, .command (frame2 0x2A#8 281474976710655#48)) ∧
      kindReads (cmdKind (frame2 0x2A#8 281474976710655#48)) = true ∧
      kindWrites (cmdKind (frame2 0x6B#8 281474976710655#48)) = true ∧
      281474976710655 < (281474976710655#48 : BitVec 48).toNat + cmdCount (frame2 0x2A#8 281474976710655#48) - 1 ∧
      ¬281474976710655 < (281474976710654#48 : BitVec 48).toNat + cmdCount (frame2 0x2A#8 281474976710654#48) - 1 ∧
      linked.up.link = .up ∧ linked.drv.resetState = .none := by decide +kernel

/-! ### Witnesses: classification -/

theorem sectors_in (s : State) (c : CommandFrame) (r : Region) (h : EverySector c fun x => lookup s x = some r) :
    EverySector c fun x => ∃ q, lookup s x = some q ∧ q.ctx = r.ctx :=
  fun k hk => ⟨r, h k hk, rfl⟩

theorem not_clear (s : State) (c : CommandFrame) (r : Region) (h0 : 0 < cmdCount c)
    (h : lookup s (cmdLba c + 0) = some r) : ¬EverySector c fun x => lookup s x = none := by
  intro hc
  exact absurd (h.symm.trans (hc 0 h0)) (by simp)

/-- The last two sectors of the KEEP region. -/
theorem keep_sectors (c : Context) :
    EverySector (frame2 0x6B#8 162#48) fun x => lookup (setCtx 0 c recording) x = some keepRegion := by
  unfold EverySector
  exact (by decide +kernel : ∀ k, k < cmdCount (frame2 0x6B#8 162#48) → lookup recording (cmdLba (frame2 0x6B#8 162#48) + k) = some keepRegion)

/-- Lockdown, a write that starts in the region's last sector and leaves it, a sealed context, and a frontier one above the first logical sector. -/
theorem witness_WriteChecksInOrder :
    let locked : State := { recording with faults := { recording.faults with lockdown := true } }
    kindWrites (cmdKind (frame2 0x6B#8 163#48)) = true ∧ cmdLba (frame2 0x6B#8 163#48) + cmdCount (frame2 0x6B#8 163#48) ≤ lbaEnd ∧
      (¬EverySector (frame2 0x6B#8 163#48) fun x => lookup locked x = none) ∧ locked.faults.lockdown = true ∧
      (¬EverySector (frame2 0x6B#8 163#48) fun x => lookup recording x = none) ∧
      (∀ a, ¬EverySector (frame2 0x6B#8 163#48) fun x => ∃ r, lookup recording x = some r ∧ r.ctx = a) ∧
      recording.faults.lockdown = false := by
  refine ⟨by decide, by decide, not_clear _ _ keepRegion (by decide) (by decide +kernel), rfl,
    not_clear _ _ keepRegion (by decide) (by decide +kernel), fun a h => ?_, rfl⟩
  obtain ⟨r, hr, -⟩ := h 1 (by decide)
  have : lookup recording (cmdLba (frame2 0x6B#8 163#48) + 1) = none := by decide +kernel
  rw [this] at hr
  cases hr

theorem witness_WriteChecksInOrder_frontier :
    let sealed := setCtx 0 { keepCtx with state := .sealed } recording
    let past := setCtx 0 { keepCtx with frontier := 63 } recording
    (EverySector (frame2 0x6B#8 162#48) fun x => ∃ r, lookup sealed x = some r ∧ r.ctx = 0) ∧ (ctxOf sealed 0).state ≠ .recording ∧
      (EverySector (frame2 0x6B#8 162#48) fun x => ∃ r, lookup past x = some r ∧ r.ctx = 0) ∧
      (ctxOf past 0).state = .recording ∧ (ctxOf past 0).cls ≠ .shift ∧
      (∃ k r, k < cmdCount (frame2 0x6B#8 162#48) ∧ lookup past (cmdLba (frame2 0x6B#8 162#48) + k) = some r ∧
        r.logicalStart + (cmdLba (frame2 0x6B#8 162#48) + k - r.base) < (ctxOf past 0).frontier) := by
  refine ⟨sectors_in _ _ keepRegion (keep_sectors _), by decide +kernel, sectors_in _ _ keepRegion (keep_sectors _), by decide +kernel,
    by decide +kernel, 0, keepRegion, by decide, by decide +kernel, by decide +kernel⟩

/-- The ring's checks, each with the others passed: a start one past the issue point, lap 65,536, 12 spans, and one sector too many. -/
theorem witness_WriteChecksInOrder_ring :
    let g := ringOfSpans 0
    let laps : Machine.Ring := { g with issueLap := 65536 }
    let busy := ringOfSpans 12
    let filled : Machine.Ring := { g with issue := 63, spans := [{ span4 0 0 .forwarded with count := 63 }] }
    (ringOf (ringed g) 2 = some g ∧ cmdLba (frame2 0x6B#8 1001#48) ≠ g.base + g.issue) ∧
      (ringOf (ringed laps) 2 = some laps ∧ cmdLba (frame2 0x6B#8 1000#48) = laps.base + laps.issue ∧ laps.issueLap = 65536) ∧
      (ringOf (ringed busy) 2 = some busy ∧ cmdLba (frame2 0x6B#8 1048#48) = busy.base + busy.issue ∧ busy.issueLap ≠ 65536 ∧
        12 ≤ busy.spans.length) ∧
      (ringOf (ringed filled) 2 = some filled ∧ cmdLba (frameN 0x6B#8 1063#48 2#16) = filled.base + filled.issue ∧
        filled.issueLap ≠ 65536 ∧ filled.spans.length < 12 ∧
        filled.length < (filled.spans.map (·.count)).sum + cmdCount (frameN 0x6B#8 1063#48 2#16)) ∧
      (ctxOf (ringed g) 2).state = .recording ∧ (ctxOf (ringed g) 2).cls = .shift := by decide +kernel

/-- The ring's last two sectors and its first two lie in its region. -/
theorem shift_sectors (g : Machine.Ring) :
    (EverySector (frame2 0x6B#8 1000#48) fun x => lookup (ringed g) x = some shiftRegion) ∧
      (EverySector (frame2 0x6B#8 1048#48) fun x => lookup (ringed g) x = some shiftRegion) ∧
      EverySector (frame2 0x6B#8 1062#48) fun x => lookup (ringed g) x = some shiftRegion := by
  unfold EverySector
  exact (by decide +kernel :
    (∀ k, k < cmdCount (frame2 0x6B#8 1000#48) → lookup recording (cmdLba (frame2 0x6B#8 1000#48) + k) = some shiftRegion) ∧
      (∀ k, k < cmdCount (frame2 0x6B#8 1048#48) → lookup recording (cmdLba (frame2 0x6B#8 1048#48) + k) = some shiftRegion) ∧
      ∀ k, k < cmdCount (frame2 0x6B#8 1062#48) → lookup recording (cmdLba (frame2 0x6B#8 1062#48) + k) = some shiftRegion)

/-- A write whose first logical sector is the frontier, in the last two sectors of the region. -/
theorem witness_FrontierWriteAdmitted :
    let s := setCtx 0 { keepCtx with frontier := 62 } recording
    TakesCommands s ∧ s.faults.lockdown = false ∧ (162#48 : BitVec 48).toNat + cmdCount (frame2 0x6B#8 162#48) ≤ lbaEnd ∧
      (EverySector (frame2 0x6B#8 162#48) fun y => lookup s y = some keepRegion) ∧ (ctxOf s 0).state = .recording ∧
      (ctxOf s 0).cls ≠ .shift ∧
      (ctxOf s 0).frontier ≤ keepRegion.logicalStart + ((162#48 : BitVec 48).toNat - keepRegion.base) ∧
      entryOf s (.tag (cmdTag (frame2 0x6B#8 162#48))) = none ∧ s.trk.accepts = [] ∧ s.trk.single = none ∧ queuedWork s = false := by
  refine ⟨taking_takesCommands _, rfl, by decide, keep_sectors _, by decide +kernel, by decide +kernel, by decide +kernel,
    by decide +kernel, rfl, rfl, by decide +kernel⟩

/-- A ring with three spans FORWARDED, and one with four; a third whose write fills the ring and wraps. -/
theorem witness_RingWriteAdmitted :
    let three := { ringOfSpans 3 with issue := 62, spans := [span4 0 0 .forwarded, span4 4 1 .forwarded, { span4 8 2 .forwarded with count := 54 }] }
    let four : Machine.Ring :=
      { three with
        spans := [span4 0 0 .forwarded, span4 4 1 .forwarded, { span4 8 2 .forwarded with count := 27 },
          { span4 35 3 .forwarded with count := 27 }] }
    TakesCommands (ringed three) ∧ (ringed three).faults.lockdown = false ∧
      (1062#48 : BitVec 48).toNat + cmdCount (frame2 0x6B#8 1062#48) ≤ lbaEnd ∧
      (EverySector (frame2 0x6B#8 1062#48) fun y => lookup (ringed three) y = some shiftRegion) ∧
      (EverySector (frame2 0x6B#8 1062#48) fun y => lookup (ringed four) y = some shiftRegion) ∧
      (ctxOf (ringed three) 2).state = .recording ∧ (ctxOf (ringed three) 2).cls = .shift ∧ ringOf (ringed three) 2 = some three ∧
      ringOf (ringed four) 2 = some four ∧
      (1062#48 : BitVec 48).toNat = three.base + three.issue ∧ three.issueLap ≠ 65536 ∧ four.spans.length < 12 ∧
      (four.spans.map (·.count)).sum + cmdCount (frame2 0x6B#8 1062#48) ≤ four.length ∧
      entryOf (ringed four) (.tag 5) = none ∧ (ringed four).trk.accepts = [] ∧ (ringed four).trk.single = none ∧
      ¬4 ≤ (three.spans.filter fun y => y.status = .forwarded).length ∧
      4 ≤ (four.spans.filter fun y => y.status = .forwarded).length := by
  refine ⟨taking_takesCommands _, rfl, by decide, (shift_sectors _).2.2, (shift_sectors _).2.2, ?_⟩
  decide +kernel

/-- The last two sectors of the TIMED region read, with 31 notices queued: with no T0, and with one. -/
theorem witness_FirstViewCaptured :
    let s : State :=
      { recording with
        time := { recording.time with rightsSet := true, rights := 7 }
        nq := { recording.nq with notices := List.replicate 31 ⟨.fault, none, none, none, 0, 0⟩ } }
    let viewed := setCtx 1 { timedCtx with t0 := some 3 } s
    let c := frame2 0x6A#8 262#48
    TakesCommands s ∧ s.faults.lockdown = false ∧ (262#48 : BitVec 48).toNat + cmdCount c ≤ lbaEnd ∧
      (EverySector c fun y => lookup s y = some timedRegion) ∧ (ctxOf s 1).state = .recording ∧ (ctxOf s 1).cls = .timed ∧
      s.time.rightsSet = true ∧ entryOf s (.tag (cmdTag c)) = none ∧ s.trk.accepts = [] ∧ s.trk.single = none ∧
      0 < (ctxOf s 1).window ∧ (ctxOf s 1).t0 = none ∧ s.nq.notices.length < 32 ∧ (ctxOf viewed 1).t0.isSome = true ∧
      (ctxOf viewed 1).state = .recording := by
  refine ⟨taking_takesCommands _, rfl, by decide, ?_, by decide +kernel⟩
  unfold EverySector
  exact (by decide +kernel : ∀ k, k < cmdCount (frame2 0x6A#8 262#48) → lookup recording (cmdLba (frame2 0x6A#8 262#48) + k) = some timedRegion)

/-- Each verdict of R49 has its state, at the first and last LBA of a region and just outside. -/
theorem witness_ReadVerdictsJudged :
    let closing := setCtx 0 { keepCtx with state := .closing } recording
    let expired := setCtx 0 { keepCtx with state := .expired } recording
    lookup recording 99 = none ∧ lookup recording 164 = none ∧ lookup recording 100 = some keepRegion ∧
      lookup recording 163 = some keepRegion ∧ lookup closing 163 = some keepRegion ∧ (ctxOf closing 0).state = .closing ∧
      lookup expired 100 = some keepRegion ∧ (ctxOf expired 0).state = .expired ∧ lookup recording 200 = some timedRegion ∧
      (ctxOf recording 1).cls = .timed ∧ recording.time.rightsSet = false ∧ (ctxOf recording 0).cls = .keep ∧
      lookup recording 1063 = some shiftRegion ∧ (ctxOf recording 2).cls = .shift ∧
      ringOf recording 2 = some (newRing shiftRegion) ∧ recording.faults.lockdown = false := by decide +kernel

/-- Positions of a ring: in flight at the last of a span, unwritten at the commit point of lap 0, at and just below the depth. -/
theorem witness_ReadVerdictsJudged_ring :
    let g : Machine.Ring := { ringOfSpans 1 with commit := 60, issue := 0, commitLap := 0, depth := 10 }
    let free : Machine.Ring := { g with spans := [] }
    g.commit < g.length ∧ g.issue < g.length ∧ g.spans ≠ [] ∧
      (∃ j, j < (g.issue + (g.length - g.commit)) % g.length ∧ 63 = (g.commit + j) % g.length) ∧
      free.spans = [] ∧ free.commit ≤ 60 ∧ free.commitLap = 0 ∧ 49 < free.commit ∧
      free.depth ≤ (free.commit + free.length - 1 - 49) % free.length ∧
      (free.commit + free.length - 1 - 50) % free.length < free.depth := by
  refine ⟨by decide, by decide, by decide, ⟨3, by decide, by decide⟩, ?_⟩
  decide +kernel

/-- Fourteen regions of one sector of the KEEP context, a number of LBAs apart, each ten logical sectors further. -/
def scattered (apart : Nat) : State :=
  { recording with
    regions := Vector.ofFn fun e =>
      if e.val < 14 then some { base := 2000 + apart * e.val, limit := 2000 + apart * e.val, ctx := 0, logicalStart := 10 * e.val } else none }

/-- A read of 8 and one of 9 sectors of alternating verdicts: 7 breaks between runs, and 8. -/
theorem witness_ReadVerdictsJudged_runs :
    let breaks := fun n => ((List.range (n - 1)).filter fun k =>
      readVerdict (scattered 2) (2000 + (k + 1)) ≠ verdictFrom (readVerdict (scattered 2) (2000 + k)) 1).length
    cmdLba (frameN 0x6A#8 2000#48 9#16) + cmdCount (frameN 0x6A#8 2000#48 9#16) ≤ lbaEnd ∧
      kindReads (cmdKind (frameN 0x6A#8 2000#48 9#16)) = true ∧ breaks 8 = 7 ∧ breaks 9 = 8 := by decide +kernel

/-- A write of 9 sectors that fall in 9 regions of one context, no two of them adjacent in its logical sectors: 8 breaks, and 7 in the first 8. -/
theorem witness_ReadVerdictsJudged_writes :
    let c := frameN 0x6B#8 2000#48 9#16
    let breaks := fun n => ((List.range (n - 1)).filter fun k => Verdict.encipher 0 0 (10 * (k + 1)) ≠ verdictFrom (.encipher 0 0 (10 * k)) 1).length
    kindWrites (cmdKind c) = true ∧ (scattered 1).faults.lockdown = false ∧ (ctxOf (scattered 1) 0).state = .recording ∧
      (ctxOf (scattered 1) 0).cls ≠ .shift ∧
      (∀ k, k < cmdCount c → ∃ r, lookup (scattered 1) (cmdLba c + k) = some r ∧ r.ctx = 0 ∧
        10 * k = r.logicalStart + (cmdLba c + k - r.base) ∧ (ctxOf (scattered 1) 0).frontier ≤ 10 * k) ∧
      breaks 8 = 7 ∧ breaks 9 = 8 := by
  refine ⟨by decide, rfl, by decide +kernel, by decide +kernel, fun k hk => ?_, by decide +kernel, by decide +kernel⟩
  have all : ∀ k, k < 9 → lookup (scattered 1) (2000 + k) = some { base := 2000 + k, limit := 2000 + k, ctx := 0, logicalStart := 10 * k } := by
    decide +kernel
  have zero : (ctxOf (scattered 1) 0).frontier = 0 := by decide +kernel
  exact ⟨_, all k hk, rfl, by simp [cmdLba, frameN], by simp [zero]⟩

/-! ### Witnesses: sectors and frames -/

/-- A burst of three sectors with one left, at offset 2 of a command of a count, with the plan of one verdict. -/
def bursting (op : Byte) (count : BitVec 16) (v : Verdict) : Entry :=
  { freshEntry .burst (kindOf op) (frameN op 0#48 count) (if kindOf op = .other then [] else [{ first := 0, count := 3, verdict := v }]) [] with
    openBurst := some { first := 0, count := 3, left := 1 } }

/-- The next sector, at offset 2, of an OTHER; beyond a command of 2; in a command of 3 under each verdict, settled and not. -/
theorem witness_SectorsTreatedByVerdict :
    let sat : State := { linked with pool := { linked.pool with settled := [{ offset := 2, keystream := some 9#4096 }] } }
    let e := fun v => bursting 0x6A#8 3#16 v
    entryOf (tagged (e .clear)) (.tag 5) = some (e .clear) ∧ (e .clear).openBurst = some { first := 0, count := 3, left := 1 } ∧
      (bursting 0#8 3#16 .clear).kind = .other ∧ cmdCount (bursting 0x6A#8 2#16 .clear).cmd ≤ 0 + (3 - 1) ∧
      0 + (3 - 1) < cmdCount (e .clear).cmd ∧ verdictAt (e .clear).plan 2 = some .clear ∧
      verdictAt (e (.withheld .expired 1 5)).plan 2 = some (.withheld .expired 1 7) ∧
      verdictAt (e (.deliver 1 0 5)).plan 2 = some (.deliver 1 0 7) ∧ verdictAt (e (.encipher 1 0 5)).plan 2 = some (.encipher 1 0 7) ∧
      settledWith sat 2 = some 9#4096 ∧ settledWith linked 2 = none := by decide +kernel

/-- A frame no port takes; a fault whose severity is lockdown and one whose is not; a full queue of notices. -/
theorem witness_FaultsRaised :
    WellFormed (.unexpectedFrame .upstream (.status { outcome := 1#8, detail := 0#8 })) = true ∧
      WellFormed (.unexpectedFrame .drive (.unknown 6#8 [])) = true ∧ Quiet linked ∧ linked.up.link = .up ∧ TakesDrive linked ∧
      severityOf .transform linked.req.severities = .lockdown ∧ linked.faults.lockdown = false ∧
      severityOf .protocol linked.req.severities ≠ .lockdown ∧ linked.nq.notices.length < 32 ∧
      ({ linked with nq := { linked.nq with notices := List.replicate 32 ⟨.fault, none, none, none, 0, 0⟩ } } : State).nq.notices.length = 32 :=
  ⟨by decide, by decide, ⟨rfl, rfl⟩, rfl, taking_takesDrive _, rfl, rfl, by decide, by decide +kernel, by decide +kernel⟩

/-- A CLEAR burst of 16 sectors with 16 left, of a command of 16: a frame of 16 closes it and a frame of 1 does not. -/
theorem witness_DataFramesPass :
    let b : OpenBurst := { first := 0, count := 16, left := 16 }
    let c := frameN 0x6B#8 0#48 16#16
    let e := { freshEntry .burst .qwrite c (onePlan c .clear) [] with openBurst := some b }
    let s := tagged e
    let down : State :=
      { s with
        up := { s.up with inBurst := some { owner := .tag 5, left := 16, bridge := false } }
        drv := { s.drv with burst := some { owner := .tag 5, dir := .toDrive, left := 16 } } }
    let up : State := { s with drv := { s.drv with burst := some { owner := .tag 5, dir := .toUpstream, left := 16 } } }
    (List.replicate 16 7#4096).length ≤ 16 ∧ 1 ≤ [7#4096].length ∧ entryOf s (.tag 5) = some e ∧ e.openBurst = some b ∧
      b.first + b.count ≤ cmdCount e.cmd ∧ e.passed ≤ cmdCount e.cmd ∧ e.plan = onePlan e.cmd .clear ∧
      down.up.link = .up ∧ down.up.held = [] ∧ down.drv.held = [] ∧ relayPending up = false ∧ up.drv.link = .up ∧
      up.drv.resetState = .none := by decide +kernel

/-- Discard counts of 3 at both ports, for frames of 2, 3 and 4 sectors, and none. -/
theorem witness_StrayFramesDiscarded :
    let s : State := { linked with up := { linked.up with discard := 3 }, drv := { linked.drv with discard := some 3 } }
    s.up.link = .up ∧ Quiet s ∧ s.up.inBurst = none ∧ TakesDrive s ∧ s.drv.burst = none ∧ linked.drv.discard = none ∧
      [0#4096, 0#4096, 0#4096].length ≤ s.up.discard ∧ s.up.discard < [0#4096, 0#4096, 0#4096, 0#4096].length :=
  ⟨rfl, ⟨rfl, rfl⟩, rfl, ⟨rfl, rfl, rfl, rfl, rfl⟩, rfl, rfl, by decide, by decide⟩

/-- A READY to upstream of 2 sectors of tag 5. -/
def ready5 (offset : BitVec 16) : ReadyFrame :=
  { flags := 3#8, tag := 5#8, byte3 := 0#8, offset := offset, count := 2#16 }

/-- No entry for the READY; one HELD; one of a write for a READY to upstream; a burst open. -/
theorem witness_StrayFramesDiscarded_ready :
    let opened : State := { linked with drv := { linked.drv with burst := some { owner := .single, dir := .toDrive, left := 1 } } }
    WellFormed (.readyFromDrive (ready5 0#16)) = true ∧ TakesDrive linked ∧ TakesDrive opened ∧ opened.drv.burst ≠ none ∧
      entryOf linked (readyOwner (ready5 0#16)) = none ∧ readyDir (ready5 0#16) = .toUpstream ∧
      readyDir { ready5 0#16 with flags := 2#8 } = .toDrive ∧ (qentry 0x6A#8 .held []).state ≠ .forwarded ∧
      (qentry 0x6B#8 .forwarded []).kind = .qwrite :=
  ⟨by decide, taking_takesDrive _, ⟨rfl, rfl, rfl, rfl, rfl⟩, by decide, by decide +kernel, by decide, by decide, by decide, by decide⟩

/-- A command of two sectors read to its end, and one sector past it. -/
theorem witness_ReadyOpensBurst :
    let e := qentry 0x6A#8 .forwarded []
    TakesDrive (tagged e) ∧ (tagged e).drv.burst = none ∧ entryOf (tagged e) (readyOwner (ready5 0#16)) = some e ∧
      e.state = .forwarded ∧ e.kind = .qread ∧ (ready5 0#16).flags.getLsbD 0 = true ∧
      ¬cmdCount e.cmd < (ready5 0#16).offset.toNat + readyCount (ready5 0#16) ∧
      cmdCount e.cmd < (ready5 1#16).offset.toNat + readyCount (ready5 1#16) :=
  ⟨⟨rfl, rfl, rfl, rfl, rfl⟩, rfl, by decide +kernel, rfl, by decide, by decide, by decide, by decide⟩

/-- A READ passed to its end, one sector short, and part-failed; a single slot that is FREE. -/
theorem witness_StatusCompletesSingle :
    let e := qentry 0x2A#8 .forwarded []
    WellFormed (.statusFromDrive 1#8 0#8) = true ∧ TakesDrive (single { e with passed := 2 }) ∧
      (single { e with passed := 2 }).trk.accepts = [] ∧ e.state = .forwarded ∧ e.kind ≠ .other ∧ ¬2 < cmdCount e.cmd ∧
      1 < cmdCount e.cmd ∧ linked.trk.single = none :=
  ⟨by decide, ⟨rfl, rfl, rfl, rfl, rfl⟩, rfl, rfl, by decide, by decide, by decide, rfl⟩

/-- A READ of the KEEP context in the single slot, passed to its end, with the context's state and count, the drain snapshot and the sectors withheld. -/
def ending (x : CtxState) (n : Nat) (snapshot : List Owner) (withheld : Nat) : State :=
  let s := single
    { freshEntry .forwarded .read (frame2 0x2A#8 100#48) (onePlan (frame2 0x2A#8 100#48) (.deliver 0 0 0)) [0] with
      passed := 2, withheld := withheld, firstReason := if withheld = 0 then none else some .transformFault, firstCtx := some 0 }
  setCtx 0 { keepCtx with state := x, inFlight := n } { s with req := { s.req with snapshot := snapshot, drainPending := true } }

/-- The count at 1 in SEALING and in CLOSING, at 2, at 1 in RECORDING; the entry alone in the snapshot, with another, and not in it; no sector withheld and one. -/
theorem witness_StatusCompletesSingle_end :
    (∀ x n l w, TakesDrive (ending x n l w) ∧ (ending x n l w).trk.accepts = [] ∧
        (∃ e, (ending x n l w).trk.single = some e ∧ e.state = .forwarded ∧ e.touched = [0] ∧ e.ringWrite = none ∧ e.partFailed = none ∧
          cmdCount e.cmd ≤ e.passed ∧ e.withheld = w) ∧
        (ending x n l w).keys.waiting = [] ∧ (ending x n l w).nq.notices.length + 3 ≤ 32 ∧ (ending x n l w).drv.burst = none ∧
        (ending x n l w).req.snapshot = l) ∧
      (∀ x : CtxState, (ctxOf (ending x 1 [] 0) 0).inFlight = 1 ∧ (ctxOf (ending x 1 [] 0) 0).state = x ∧ hasJob (ending x 1 [] 0) 0 = false) ∧
      (ctxOf (ending .sealing 2 [] 0) 0).inFlight ≠ 1 ∧ (∀ o ∈ [Owner.single], o = .single) ∧
      ¬(∀ o ∈ [Owner.single, .tag 2], o = .single) ∧ Owner.single ∉ [Owner.tag 2] := by
  refine ⟨fun _ _ _ _ => ⟨⟨rfl, rfl, rfl, rfl, rfl⟩, rfl, ⟨_, rfl, rfl, rfl, rfl, rfl, (by decide : cmdCount (frame2 0x2A#8 100#48) ≤ 2), rfl⟩,
    rfl, (by decide : State.reset.nq.notices.length + 3 ≤ 32), rfl, rfl⟩, ?_⟩
  refine ⟨fun x => ?_, ?_⟩
  · cases x <;> decide +kernel
  · decide +kernel

/-- A record at the head of the list with its entry in use, and with its entry ended. -/
theorem witness_AcceptancesMatched :
    let s := fun a : AcceptAction => ({ tagged (qentry 0x6A#8 .forwarded []) with
      trk := { (tagged (qentry 0x6A#8 .forwarded [])).trk with accepts := [{ tag := 5, action := a }] } } : State)
    let gone : State := { linked with trk := { linked.trk with accepts := [{ tag := 5, action := .relay }] } }
    WellFormed (.statusFromDrive 2#8 0x44#8) = true ∧ (∀ a, TakesDrive (s a)) ∧
      (s .relay).trk.accepts = [{ tag := 5, action := .relay }] ∧ (s .swallow).trk.accepts = [{ tag := 5, action := .swallow }] ∧
      entryOf (s .relay) (.tag 5) = some (qentry 0x6A#8 .forwarded []) ∧ TakesDrive gone ∧ entryOf gone (.tag 5) = none :=
  ⟨by decide, fun _ => ⟨rfl, rfl, rfl, rfl, rfl⟩, rfl, rfl, by decide +kernel, ⟨rfl, rfl, rfl, rfl, rfl⟩, by decide +kernel⟩

/-- A DONE of tag 5, whose command has passed its two sectors. -/
def done5 : DoneFrame :=
  { flags := 0#8, byte3 := 0#8, doneSet := BitVec.twoPow 32 5, failed := [] }

theorem witness_DoneEndsEntries :
    let e := { qentry 0x6A#8 .forwarded [] with passed := 2 }
    WellFormed (.doneFromDrive done5) = true ∧ TakesDrive (tagged e) ∧ done5.flags.getLsbD 0 = false ∧
      done5.doneSet.getLsbD 5 = true ∧ entryOf (tagged e) (.tag 5) = some e ∧ e.state = .forwarded ∧ e.passed = cmdCount e.cmd ∧
      e.partFailed = none ∧ (tagged e).trk.accepts = [] ∧ done5.doneSet.getLsbD 31 = false :=
  ⟨by decide, ⟨rfl, rfl, rfl, rfl, rfl⟩, rfl, by decide, by decide +kernel, rfl, by decide, rfl, rfl, by decide⟩

/-- A ring write of tag 5 at the front with its span FORWARDED, a FAILED span behind it, three more FORWARDED and one HELD, of a command held by the
window alone; passed to its end, and named as failed. -/
theorem witness_DoneEndsEntries_ring :
    let x := span4 0 5 .forwarded
    let m := [span4 4 1 .failed, span4 8 2 .forwarded, span4 12 3 .forwarded, span4 16 4 .forwarded, span4 20 6 .held]
    let g : Machine.Ring := { ringOfSpans 6 with spans := x :: m }
    let e := { qentry 0x6B#8 .forwarded [] with passed := 2, ringWrite := some 2 }
    let a := { qentry 0x6B#8 .held [] with ringWrite := some 2, ringWindow := true }
    let s := setEntry (.tag 6) (some a) (setEntry (.tag 5) (some e) (ringed g))
    let failing : DoneFrame := { done5 with doneSet := 0#32, failed := [(BitVec.ofNat 8 (5 : Tag), 0x44#8)] }
    WellFormed (.doneFromDrive failing) = true ∧ TakesDrive s ∧ failing.flags.getLsbD 0 = false ∧ failing.doneSet = 0#32 ∧
      failing.failed = [(BitVec.ofNat 8 (5 : Tag), 0x44#8)] ∧ done5.doneSet = BitVec.twoPow 32 5 ∧ done5.failed = [] ∧
      e.passed = cmdCount e.cmd ∧ e.partFailed = none ∧ entryOf s (.tag 5) = some e ∧ e.state = .forwarded ∧ e.ringWrite = some 2 ∧
      (ctxOf s 2).state ≠ .closing ∧ ringOf s 2 = some g ∧ g.spans = [] ++ x :: m ∧ x.owner = .tag 5 ∧ x.status = .forwarded ∧
      s.nq.notices.length + 2 ≤ 32 ∧ entryOf s (.tag 6) = some a ∧ a.state = .held ∧ a.queueWait = false :=
  ⟨by decide, ⟨rfl, rfl, rfl, rfl, rfl⟩, rfl, rfl, rfl, rfl, rfl, by decide, rfl, by decide +kernel, rfl, rfl, by decide +kernel,
    by decide +kernel, rfl, rfl, rfl, by decide +kernel, by decide +kernel, rfl, rfl⟩

theorem witness_AbortEndsQueuedEntries :
    WellFormed (.doneFromDrive { done5 with flags := 1#8 }) = true ∧ TakesDrive (ringed (ringOfSpans 3)) ∧
      ({ done5 with flags := 1#8 } : DoneFrame).flags.getLsbD 0 = true ∧
      (ringOf (after (.doneFromDrive { done5 with flags := 1#8 }) (ringed (ringOfSpans 3))) 2).isSome = true :=
  ⟨by decide, ⟨rfl, rfl, rfl, rfl, rfl⟩, by decide, by decide +kernel⟩

/-- A ring of three spans and one of none, at the abort of no tag. -/
theorem witness_AbortEndsQueuedEntries_rewind :
    let d : DoneFrame := { done5 with flags := 1#8, doneSet := 0#32 }
    (∀ n, Quiet (ringed (ringOfSpans n)) ∧ TakesDrive (ringed (ringOfSpans n))) ∧ d.flags.getLsbD 0 = true ∧ d.doneSet = 0#32 ∧ d.failed = [] ∧
      ringOf (ringed (ringOfSpans 3)) 2 = some (ringOfSpans 3) ∧ (ringOfSpans 3).spans ≠ [] ∧
      ringOf (ringed (ringOfSpans 0)) 2 = some (ringOfSpans 0) ∧ (ringOfSpans 0).spans = [] ∧
      (ctxOf (ringed (ringOfSpans 3)) 2).state ≠ .closing :=
  ⟨fun _ => ⟨⟨rfl, rfl⟩, ⟨rfl, rfl, rfl, rfl, rfl⟩⟩, by decide, rfl, rfl, by decide +kernel, by decide, by decide +kernel, rfl, by decide +kernel⟩

/-- A send list, with or without bursts open upstream. -/
def sending (l : List SendItem) (inB outB : Option UpBurst) : State :=
  { linked with up := { linked.up with sendList := l, inBurst := inB, outBurst := outB } }

/-- A READY to drive that waits behind an open inbound burst, ahead of a STATUS. -/
theorem witness_ArbiterSendsOldestEligible_order :
    let b : UpBurst := { owner := .tag 5, left := 2, bridge := false }
    let w : SendItem := { frame := .ready { ready5 0#16 with flags := 2#8 }, owner := some (.tag 5), relayed := true }
    let t := fromPart (statusOf 1#8 0#8)
    let u : SendItem := { frame := .ready (ready5 0#16), owner := some (.tag 5), relayed := true }
    Quiet (sending [w, t] (some b) none) ∧ (sending [w, t] (some b) none).up.link = .up ∧
      (∀ j ∈ [w], ∃ r, j.frame = .ready r ∧ readyDir r = .toDrive ∧ (sending [w, t] (some b) none).up.inBurst ≠ none) ∧
      (∃ f, t.frame = .status f) ∧ readyDir (ready5 0#16) = .toUpstream ∧ u.relayed = true ∧ u.owner = some (.tag 5) ∧
      readyDir { ready5 0#16 with flags := 2#8 } = .toDrive ∧ State.reset.up.link = .down ∧ Quiet State.reset := by
  refine ⟨⟨rfl, rfl⟩, rfl, fun j hj => ?_, ⟨_, rfl⟩, by decide, rfl, rfl, by decide, rfl, rfl, rfl⟩
  rw [List.mem_singleton.mp hj]
  exact ⟨_, rfl, by decide, by simp [sending]⟩

/-- The next frame of an open outbound burst of 2 behind a frame that is not of it; a burst whose next frame is not listed. -/
theorem witness_ArbiterSendsOldestEligible_burst :
    let b : UpBurst := { owner := .tag 5, left := 2, bridge := false }
    let x : SendItem := { frame := .data { bytes23 := 0#16, sectors := [1#4096, 2#4096] }, owner := some (.tag 5), relayed := true }
    let t := fromPart (statusOf 1#8 0#8)
    (sending [t, x] none (some b)).up.outBurst = some b ∧ x.owner = some b.owner ∧ x.relayed = true ∧
      (∀ j ∈ [t], ∀ c, j.frame = .data c → j.owner ≠ some b.owner ∨ j.relayed = false) ∧ b.left ≤ 2 ∧ ¬b.left ≤ 1 ∧
      (∀ j ∈ [t], ∀ d, j.frame = .data d → j.owner ≠ some b.owner ∨ j.relayed = b.bridge) :=
  ⟨rfl, rfl, rfl, fun _ hj _ _ => .inl (by rw [List.mem_singleton.mp hj]; decide), by decide, by decide,
    fun _ hj _ _ => .inl (by rw [List.mem_singleton.mp hj]; decide)⟩

theorem witness_BridgeReplySent :
    let s : State := { sending [bridgeReadyFrame 1#8] none none with req := { linked.req with reply := some 7#4096 } }
    let d : SendItem := { frame := .data { bytes23 := 0#16, sectors := [7#4096] }, owner := some .single, relayed := false }
    let p := sending [d] none (some { owner := .single, left := 1, bridge := true })
    Quiet s ∧ s.up.link = .up ∧ s.up.outBurst = none ∧ s.up.sendList = [bridgeReadyFrame 1#8] ∧ s.req.reply = some 7#4096 ∧
      Quiet p ∧ p.up.outBurst = some { owner := .single, left := 1, bridge := true } ∧ p.up.sendList = [d] :=
  ⟨⟨rfl, rfl⟩, rfl, rfl, rfl, rfl, ⟨rfl, rfl⟩, rfl, rfl⟩

/-! ### Witnesses: the Transform Engine -/

/-- A key slot of the first context, READY with a key. -/
def keySlot0 : KeySlot :=
  { ctx := 0, phase := .ready 9#128, pinned := false, users := 1 }

/-- A STREAM job of pool slot 3 counted in key slot 0. -/
def job3 (retried : Bool) : StreamJob :=
  { pool := 3, ctx := 0, lap := 0, logical := 4, retried := retried, order := 0, keySlot := some 0 }

/-- The pool slot of that job, ASSIGNED. -/
def slot3 : PoolSlot :=
  { owner := .tag 5, offset := 0, ctx := 0, lap := 0, logical := 4, order := 0, phase := .assigned }

/-- The part with key slot 0 and pool slot 3 set and an engine. -/
def engaged (e : Engine) : State :=
  { recording with
    keys := { recording.keys with slots := recording.keys.slots.set 0 (some keySlot0) }
    pool := { recording.pool with slots := recording.pool.slots.set 3 (some slot3) }
    eng := e }

/-- A SETUP first; then a retried STREAM job behind one that is not, with an UNWRAP queued; then that; then nothing. -/
theorem witness_EngineArbiterOrder :
    let e : Engine := { setups := [], streams := [{ job3 false with pool := 2 }, job3 true], others := [], running := none }
    let b : Blob := { serial := 0, cls := 0, opening := 0, notAfter := 0, window := 0, wrapValue := 0, maskedKey := 0, check := 0 }
    (engaged e).eng.running = none ∧ (engaged e).eng.setups = [] ∧
      (engaged e).eng.streams = [{ job3 false with pool := 2 }] ++ job3 true :: [] ∧ (job3 true).keySlot = some 0 ∧
      (∃ x w, (engaged e).keys.slots.get 0 = some x ∧ x.phase = .ready w) ∧ (job3 true).retried = true ∧
      ({ job3 false with pool := 2 } : StreamJob).retried = false ∧
      (engaged { e with setups := [{ slot := 1, ctx := 1 }] }).eng.setups = [{ slot := 1, ctx := 1 }] ∧
      (engaged { e with streams := [], others := [.unwrap 4 b] }).eng.others = [.unwrap 4 b] ∧
      (engaged { e with streams := [] }).eng.streams = [] ∧
      (engaged { e with running := some (.setup { slot := 1, ctx := 1 } false) }).eng.running.isSome = true :=
  ⟨rfl, rfl, rfl, rfl, ⟨keySlot0, 9#128, by decide +kernel, rfl⟩, rfl, rfl, rfl, rfl, rfl, rfl⟩

theorem witness_SetupAndStreamComplete :
    let e : Engine := { setups := [], streams := [], others := [], running := some (.setup { slot := 0, ctx := 0 } false) }
    let d : Engine := { e with running := some (.setup { slot := 0, ctx := 0 } true) }
    let r : Engine := { e with running := some (.stream (job3 false) false) }
    (engaged e).keys.slots.get 0 = some keySlot0 ∧ (ctxOf (engaged e) 0).state ≠ .closing ∧ (engaged e).keys.waiting = [] ∧
      (engaged d).eng.running = some (.setup { slot := 0, ctx := 0 } true) ∧ (engaged { e with running := none }).eng.running = none ∧
      (engaged r).eng.running = some (.stream (job3 false) false) ∧ (engaged r).keys.slots.get 0 = some keySlot0 ∧
      keySlot0.phase = .ready 9#128 ∧ (engaged r).pool.slots.get 3 = some slot3 ∧ slot3.phase = .assigned ∧
      (engaged r).up.held = [] ∧ (engaged r).drv.held = [] := by decide +kernel

theorem witness_ParityFailuresHandled :
    let r := fun b => ({ setups := [], streams := [], others := [], running := some (.stream (job3 b) false) } : Engine)
    (∀ b, (engaged (r b)).eng.running = some (.stream (job3 b) false)) ∧ (∀ b, (job3 b).keySlot = some 0 ∧ (job3 b).retried = b) ∧
      (engaged (r true)).keys.slots.get 0 = some keySlot0 ∧ (engaged (r true)).pool.slots.get 3 = some slot3 ∧
      slot3.phase = .assigned ∧ Quiet (engaged (r true)) :=
  ⟨fun _ => rfl, fun _ => ⟨rfl, rfl⟩, by decide +kernel, by decide +kernel, rfl, rfl, rfl⟩

/-- A blob that carries the check value, and a blob that does not: of two values at most one is the check. -/
theorem witness_UnwrapAndReceiptComplete :
    let e := fun b : Blob => ({ setups := [], streams := [], others := [], running := some (.other (.unwrap 4 b)) } : Engine)
    let s := fun b : Blob => setCtx 4 { Context.blank with state := .loading } (engaged (e b))
    let of := fun v : Block => ({ serial := 0, cls := 0, opening := 0, notAfter := 0, window := 0, wrapValue := 0, maskedKey := 0, check := v } : Blob)
    let value := Config.checkFunction Config.unitKey ([0x01#8] ++ bytesLE 6 (0#48) ++ [0#8, 0#8] ++ bytesLE 4 (0#32) ++ bytesLE 4 (0#32)
      ++ bytesLE 16 (0#128) ++ bytesLE 16 (0#128))
    (∀ b, (s b).eng.running = some (.other (.unwrap 4 b)) ∧ (ctxOf (s b) 4).state = .loading) ∧ CompareLaw (s (of 0)) ∧
      (of value).check = value ∧ (of (~~~value)).check ≠ value ∧ (ctxOf (engaged (e (of 0))) 4).state = .empty := by
  refine ⟨fun b => ⟨rfl, ?_⟩, ?_, rfl, ?_, by decide +kernel⟩
  · exact (by decide +kernel : (ctxOf (setCtx 4 { Context.blank with state := .loading } recording) 4).state = .loading)
  · unfold CompareLaw
    decide +kernel
  · intro h
    have h0 := congrArg (fun v : Block => v.getLsbD 0) h
    simp at h0

/-- A receipt's CHECK at a PENDING receipt, and a job of a context closed meanwhile: with a command in flight, with another job queued, and with neither. -/
theorem witness_UnwrapAndReceiptComplete_closing :
    let b : Blob := { serial := 0, cls := 0, opening := 0, notAfter := 0, window := 0, wrapValue := 0, maskedKey := 0, check := 0 }
    let r : Engine := { setups := [], streams := [], others := [], running := some (.other (.receipt 1 2#48 7 37)) }
    let u : Engine := { r with running := some (.other (.unwrap 1 b)) }
    let s := fun e n => setCtx 1 { timedCtx with state := .closing, inFlight := n } (engaged e)
    let idle := fun e n => ({ s e n with eng := { (s e n).eng with running := none } } : State)
    let p := setCtx 1 { timedCtx with receipt := .pending } (engaged r)
    p.eng.running = some (.other (.receipt 1 2#48 7 37)) ∧ (ctxOf p 1).state ≠ .closing ∧ (ctxOf p 1).receipt = .pending ∧
      (∀ n, (s u n).eng.running = some (.other (.unwrap 1 b)) ∧ (s r n).eng.running = some (.other (.receipt 1 2#48 7 37))) ∧
      (ctxOf (s u 0) 1).state = .closing ∧ (ctxOf (s r 0) 1).receipt ≠ .pending ∧ (ctxOf (s u 0) 1).inFlight = 0 ∧
      hasJob (idle u 0) 1 = false ∧ hasJob (idle r 0) 1 = false ∧ (ctxOf (s u 1) 1).inFlight ≠ 0 ∧
      hasJob (idle { r with setups := [{ slot := 1, ctx := 1 }] } 0) 1 = true := by
  refine ⟨rfl, by decide +kernel, by decide +kernel, fun _ => ⟨rfl, rfl⟩, ?_⟩
  decide +kernel

/-- A QREAD and a QWRITE of two sectors, each with a plan of one verdict. -/
def protectedEntry (dir : Dir) (state : EntryState) : Entry :=
  match dir with
  | .toUpstream => freshEntry state .qread (frame2 0x6A#8 100#48) (onePlan (frame2 0x6A#8 100#48) (.deliver 0 0 4)) [0]
  | .toDrive => freshEntry state .qwrite (frame2 0x6B#8 100#48) (onePlan (frame2 0x6B#8 100#48) (.encipher 0 0 4)) [0]

/-- A READY of two protected sectors at its entry, with a lookahead of 1 and of 8 and every pool slot FREE, and in lockdown; and one to the drive. -/
theorem witness_ProtectedSectorsServed_ready :
    let e := protectedEntry .toUpstream .forwarded
    let s := setEntry (.tag 5) (some e) recording
    WellFormed (.readyFromDrive (ready5 0#16)) = true ∧ TakesDrive s ∧ s.drv.burst = none ∧ entryOf s (readyOwner (ready5 0#16)) = some e ∧
      e.state = .forwarded ∧ kindAllows e.kind (readyDir (ready5 0#16)) = true ∧
      (ready5 0#16).offset.toNat + readyCount (ready5 0#16) ≤ cmdCount e.cmd ∧ slotsHeld s (.tag 5) = 0 ∧ s.faults.lockdown = false ∧
      (((List.range 2).map (0 + ·)).filter fun off => (protectedAt e off).isSome) = [0, 1] ∧
      ((List.finRange 64).filter fun p => (s.pool.slots.get p).isNone).length = 64 ∧ s.req.lookahead = 8 ∧
      (locked s).faults.lockdown = true ∧
      kindAllows (protectedEntry .toDrive .forwarded).kind (readyDir { ready5 0#16 with flags := 2#8 }) = true := by
  refine ⟨by decide, ⟨rfl, rfl, rfl, rfl, rfl⟩, ?_⟩
  decide +kernel

/-- A burst of the two sectors open, with a pool slot for each in a phase, and frames standing. -/
def serving (dir : Dir) (first second : PoolPhase) (frames : List Frame) : State :=
  let s := engaged { setups := [], streams := [], others := [], running := some (.stream { job3 false with pool := 1, logical := 5 } false) }
  let slot := fun off phase => ({ slot3 with offset := off, logical := 4 + off, phase := phase } : PoolSlot)
  let s := setEntry (.tag 5) (some { protectedEntry dir .burst with openBurst := some { first := 0, count := 2, left := 2 } })
    { s with pool := { s.pool with slots := ((s.pool.slots.set 3 none).set 0 (some (slot 0 first))).set 1 (some (slot 1 second)) } }
  let s := { s with drv := { s.drv with burst := some { owner := .tag 5, dir := dir, left := 2 } } }
  match dir with
  | .toUpstream => { s with drv := { s.drv with held := frames } }
  | .toDrive => { s with up := { s.up with held := frames, inBurst := some { owner := .tag 5, left := 2, bridge := false } } }

/-- In each direction: the second sector's slot ASSIGNED, READY and FAULTED, for a frame of two sectors that arrives. -/
theorem witness_ProtectedSectorsServed_data : ∀ (dir : Dir) (first second : PoolPhase),
    let s := serving dir first second []
    let e := { protectedEntry dir .burst with openBurst := some { first := 0, count := 2, left := 2 } }
    entryOf s (.tag 5) = some e ∧ BurstStands dir (.tag 5) { first := 0, count := 2, left := 2 } s ∧ 0 + 2 ≤ cmdCount e.cmd ∧
      e.kind ≠ .other ∧ s.pool.unserved = [] ∧ s.pool.marked = [] ∧ s.pool.settled = [] ∧ Quiet s ∧
      (protectedAt e 0).isSome = true ∧ (protectedAt e 1).isSome = true ∧
      ((slotFor s (.tag 5) 1).bind fun p => s.pool.slots.get p).map (·.phase) = some second := by
  intro dir first second
  cases dir
  · exact ⟨rfl, ⟨rfl, rfl, rfl⟩, by decide, by decide, rfl, rfl, rfl, ⟨rfl, rfl⟩, by decide, by decide, rfl⟩
  · exact ⟨rfl, ⟨rfl, rfl, rfl, rfl⟩, by decide, by decide, rfl, rfl, rfl, ⟨rfl, rfl⟩, by decide, by decide, rfl⟩

/-- A frame of one sector of the two in a burst, whose slot is READY or FAULTED while the other sector waits for a slot; and WRITE_SETTINGS with that burst open,
raising L from 1, the number of slots held, to 2. -/
theorem witness_ProtectedSectorsServed_refill : ∀ phase : PoolPhase,
    let e := { protectedEntry .toUpstream .burst with openBurst := some { first := 0, count := 2, left := 2 } }
    let s := serving .toUpstream phase .assigned []
    let s := { s with pool := { s.pool with slots := s.pool.slots.set 1 none, unserved := [1] }, req := { s.req with lookahead := 1 } }
    entryOf s (.tag 5) = some e ∧ BurstStands .toUpstream (.tag 5) { first := 0, count := 2, left := 2 } s ∧ Quiet s ∧ s.pool.settled = [] ∧
      slotFor s (.tag 5) 0 = some 0 ∧ (s.pool.slots.get 0).map (·.phase) = some phase ∧ (protectedAt e 0).isSome = true ∧ 0 ∉ s.pool.marked ∧
      (∀ u ∈ s.pool.unserved, (protectedAt e u).isSome = true) ∧ slotsHeld s (.tag 5) = 1 ∧ AwaitsBlock (asking s) ∧
      (asking s).drv.burst = some { owner := .tag 5, dir := .toUpstream, left := 2 } ∧ (asking s).req.locked = false ∧
      (asking s).faults.lockdown = false ∧ (∀ v ∈ [0#8, 1#8, 0#8, 1#8], v.toNat ≤ 1) ∧ max 1 (min (2#8 : Byte).toNat 16) = 2 := by
  intro phase e s
  refine ⟨rfl, ⟨rfl, rfl, rfl, rfl⟩, ⟨rfl, rfl⟩, rfl, rfl, rfl, by decide, List.not_mem_nil,
    fun u h => by rw [List.mem_singleton.mp h]; decide, rfl, asking_awaits _, rfl, rfl, rfl, by decide, by decide⟩

/-- In each direction a frame of two sectors stands: the first sector is settled, and the second waits for the STREAM job that runs. -/
theorem witness_ProtectedSectorsServed_stream : ∀ dir : Dir,
    let d : DataFrame := { bytes23 := 0#16, sectors := [1#4096, 2#4096] }
    let s := serving dir (.ready 7#4096) .assigned [.data d]
    let s := { s with pool := { s.pool with slots := s.pool.slots.set 0 none, settled := [{ offset := 0, keystream := some 7#4096 }] } }
    standing dir s = [.data d] ∧ (∀ dir', dir' ≠ dir → standing dir' s = []) ∧
      s.eng.running = some (.stream { job3 false with pool := 1, logical := 5 } false) ∧ s.keys.slots.get 0 = some keySlot0 ∧
      keySlot0.phase = .ready 9#128 ∧ (s.pool.slots.get 1).map (·.phase) = some .assigned ∧ slotFor s (.tag 5) 1 = some 1 ∧
      s.pool.marked = [] ∧ isSettled s 1 = false ∧ isSettled s 0 = true ∧ s.pool.unserved = [] := by
  intro dir d s
  refine ⟨by cases dir <;> rfl, fun x h => by cases dir <;> cases x <;> first | rfl | exact absurd rfl h, by cases dir <;> rfl, ?_⟩
  cases dir <;> decide +kernel

/-- A token 300 seconds behind, one 301 behind, one level with rights time, with its check value and with another. -/
theorem witness_TokenSetsRightsTime :
    let v := fun t : BitVec 32 => Config.checkFunction Config.unitKey ([0x02#8] ++ bytesLE 4 t)
    let s := fun (t : BitVec 32) (c : Block) => ({ linked with
      time := { linked.time with rightsSet := true, rights := 1000 }
      eng := { linked.eng with running := some (.other (.token t c)) } } : State)
    (∀ t c, (s t c).eng.running = some (.other (.token t c)) ∧ (s t c).time.compare = none ∧ (s t c).time.rightsSet = true ∧
        (s t c).time.rights = 1000) ∧
      (∀ t, ~~~v t ≠ v t) ∧ (1000#32 : BitVec 32).toNat = 1000 ∧ (700#32 : BitVec 32).toNat + 300 = 1000 ∧
      (699#32 : BitVec 32).toNat + 300 < 1000 := by
  refine ⟨fun t c => ⟨rfl, rfl, rfl, rfl⟩, fun t h => ?_, by decide, by decide, by decide⟩
  have h0 := congrArg (fun v : Block => v.getLsbD 0) h
  simp at h0

/-! ### Witnesses: bridge requests -/

/-- A blob of a KEEP context for recording. -/
def keepBlob : Blob :=
  { serial := 1#48, cls := 0#8, opening := 0#8, notAfter := 0#32, window := 0#32, wrapValue := 0#128, maskedKey := 0#128,
    check := 0#128 }

/-- The part asked for a request, with the three contexts loaded. -/
def askedLoaded : State :=
  asking (loaded State.reset)

/-- Slot 16 and slot 15; a slot in use; a serial in use; lockdown; an unknown class; a proper blob. -/
theorem witness_LoadContextQueuesUnwrap :
    AwaitsBlock askedLoaded ∧ AwaitsBlock (locked askedLoaded) ∧ 16 ≤ (16#8 : Byte).toNat ∧ (15 : CtxSlot).val = (15#8 : Byte).toNat ∧
      (ctxOf askedLoaded 0).state ≠ .empty ∧ (ctxOf askedLoaded 15).state = .empty ∧
      (∃ d, d ≠ 15 ∧ (ctxOf askedLoaded d).state ≠ .empty ∧ (ctxOf askedLoaded d).serial = keepBlob.serial) ∧
      (∀ d, ¬(d ≠ 15 ∧ (ctxOf askedLoaded d).state ≠ .empty ∧ (ctxOf askedLoaded d).serial = 9#48)) ∧
      (locked askedLoaded).faults.lockdown = true ∧ askedLoaded.faults.lockdown = false ∧ ¬(3#8 : Byte).toNat ≤ 2 ∧
      keepBlob.cls.toNat ≤ 2 ∧ keepBlob.opening.toNat ≤ 1 ∧ keepBlob.cls ≠ 1#8 ∧ keepBlob.notAfter = 0#32 ∧
      keepBlob.window = 0#32 := by
  refine ⟨asking_awaits _, asking_awaits _, ?_⟩
  decide +kernel

theorem witness_SealContextSeals :
    let busy := asking (setCtx 0 { keepCtx with inFlight := 1 } (loaded State.reset))
    AwaitsBlock askedLoaded ∧ AwaitsBlock busy ∧ 16 ≤ (16#8 : Byte).toNat ∧ (15 : CtxSlot).val = (15#8 : Byte).toNat ∧
      (ctxOf askedLoaded 15).state ≠ .recording ∧ (ctxOf askedLoaded 0).state = .recording ∧ (ctxOf askedLoaded 0).inFlight = 0 ∧
      (ctxOf busy 0).inFlight ≠ 0 := by
  refine ⟨asking_awaits _, asking_awaits _, ?_⟩
  decide +kernel

theorem witness_CloseContextCloses :
    let busy := asking (setCtx 0 { keepCtx with inFlight := 1 } (loaded State.reset))
    let closing := asking (setCtx 0 { keepCtx with state := .closing } (loaded State.reset))
    AwaitsBlock askedLoaded ∧ AwaitsBlock busy ∧ AwaitsBlock closing ∧ 16 ≤ (16#8 : Byte).toNat ∧
      (15 : CtxSlot).val = (15#8 : Byte).toNat ∧ (ctxOf askedLoaded 15).state = .empty ∧ (ctxOf closing 0).state = .closing ∧
      (ctxOf busy 0).inFlight ≠ 0 ∧ (ctxOf askedLoaded 0).state ≠ .empty ∧ (ctxOf askedLoaded 0).state ≠ .closing ∧
      (ctxOf askedLoaded 0).inFlight = 0 ∧ (∀ j ∈ askedLoaded.eng.setups, j.ctx ≠ 0) ∧ askedLoaded.eng.running = none ∧
      askedLoaded.keys.waiting = [] ∧ askedLoaded.nq.notices.length < 32 := by
  refine ⟨asking_awaits _, asking_awaits _, asking_awaits _, ?_⟩
  decide +kernel

/-- Slots 15 and 16, entries 127 and 128, a TIMED and a KEEP context, and the codes 0 and 21, which name no request, beside 1 and 20. -/
theorem witness_ReadRequestsReply :
    AwaitsBlock askedLoaded ∧ 16 ≤ (16#8 : Byte).toNat ∧ 128 ≤ (128#8 : Byte).toNat ∧ (127 : EntryNo).val = (127#8 : Byte).toNat ∧
      (15 : CtxSlot).val = (15#8 : Byte).toNat ∧ (ctxOf askedLoaded 1).state = .recording ∧ (ctxOf askedLoaded 1).cls = .timed ∧
      (ctxOf askedLoaded 0).cls ≠ .timed ∧ WellFormed (.unknownRequestCode 0#4096) = true ∧
      WellFormed (.unknownRequestCode (putField 0 21#16 0)) = true ∧ WellFormed (.unknownRequestCode (putField 0 1#16 0)) = false := by
  refine ⟨asking_awaits _, ?_⟩
  decide +kernel

/-- The laws of the status reply; slots EMPTY and loaded, with a ring and without; each state of a receipt; the last entry, and the last with 16 behind it. -/
theorem witness_ReplyFields :
    (SettingsLaw State.reset ∧ ClockLaw State.reset ∧ RecordsLaw State.reset) ∧ (ctxOf recording 3).state = .empty ∧
      (ctxOf recording 0).state ≠ .empty ∧ ringOf recording 0 = none ∧ ringOf recording 2 = some (newRing shiftRegion) ∧
      slotOf (engaged { setups := [], streams := [], others := [], running := none }) 0 = some 0 ∧ slotOf recording 0 = none ∧
      (ctxOf recording 1).receipt = .absent ∧ (ctxOf (setCtx 1 { timedCtx with receipt := .ready 7#128 } recording) 1).receipt = .ready 7#128 ∧
      (ctxOf (setCtx 1 { timedCtx with receipt := .pending } recording) 1).receipt = .pending ∧
      min 16 (128 - (127 : EntryNo).val) = 1 ∧ min 16 (128 - (112 : EntryNo).val) = 16 ∧ regionOf recording 0 = some keepRegion ∧
      regionOf recording 127 = none := by
  unfold SettingsLaw ClockLaw RecordsLaw
  decide +kernel

/-- A history of 8 records. -/
theorem witness_HistoryReplyFields :
    let r : HistoryRecord := { kind := .qread, tag := some 5, lba := 100#48, count := 65536, code := .busy, stamp := 3 }
    let s : State := { asked0 with trk := { asked0.trk with history := List.replicate 8 r } }
    AwaitsBlock s ∧ s.trk.history.length ≤ 8 ∧ s.trk.history[7]? = some r := by
  refine ⟨asking_awaits _, ?_⟩
  decide +kernel

/-- A queue of 32 notices. -/
theorem witness_NoticesLeaveQueue :
    let n : Notice := ⟨.fault, none, none, none, 0, 0⟩
    let s : State := { asked0 with nq := { asked0.nq with notices := List.replicate 32 n } }
    AwaitsBlock s ∧ s.nq.notices.length ≤ 32 ∧ s.trk.history.length ≤ 8 ∧ s.nq.notices[14]? = some n := by
  refine ⟨asking_awaits _, ?_⟩
  decide +kernel

/-- Idle with a SETUP running; a queued entry in use; an UNWRAP queued; a CHECK running. -/
theorem witness_ClearUnitEmptiesTables :
    let j : RunningJob := .setup { slot := 0, ctx := 0 } false
    let s : State := { askedLoaded with eng := { askedLoaded.eng with running := some j } }
    AwaitsBlock s ∧ (∀ k : Tag, entryOf s (.tag k) = none) ∧ s.eng.others = [] ∧ s.eng.running = some j ∧
      (entryOf (asking (tagged (qentry 0x6A#8 .forwarded []))) (.tag 5)).isSome = true := by
  refine ⟨asking_awaits _, ?_⟩
  decide +kernel

/-- The parameters of a region of a slot. -/
def regionParams (entry slot : Byte) (base limit : BitVec 48) (first : BitVec 40) : RegionParams :=
  { entry := entry, slot := slot, base := base, limit := limit, logicalStart := first }

/-- Entries 128 and 127; an enabled entry; a limit below its base; the top of the logical space and one past it; a window that meets a region in one
sector. -/
theorem witness_AddRegionChecked_ranges :
    AwaitsBlock askedLoaded ∧ 128 ≤ (128#8 : Byte).toNat ∧ (127 : EntryNo).val = (127#8 : Byte).toNat ∧
      (regionOf askedLoaded 0).isSome = true ∧ regionOf askedLoaded 127 = none ∧ (299#48 : BitVec 48).toNat < (300#48 : BitVec 48).toNat ∧
      (1099511627712#40 : BitVec 40).toNat + (363 - 300 + 1) ≤ 1099511627776 ∧
      1099511627776 < (1099511627713#40 : BitVec 40).toNat + (363 - 300 + 1) ∧
      (∃ e r, regionOf askedLoaded e = some r ∧ 163 ≤ r.limit ∧ r.base ≤ 170) := by
  refine ⟨asking_awaits _, by decide, by decide, by decide +kernel, by decide +kernel, by decide, by decide, by decide, 0, keepRegion,
    by decide +kernel, by decide, by decide⟩

/-- A region that meets no other, for slot 16; for a slot that is EMPTY; sharing a logical sector; a second one of a SHIFT context; a SHIFT context
without a region, for 63, 64 and 2,147,483,648 sectors and one more; a KEEP context. -/
theorem witness_AddRegionChecked_contexts :
    let free : State := { askedLoaded with regions := askedLoaded.regions.set 2 none, rings := askedLoaded.rings.set 2 none }
    (∀ e, ¬(regionOf askedLoaded e).any (fun r => 300 ≤ r.limit && r.base ≤ 363)) ∧ 16 ≤ (16#8 : Byte).toNat ∧
      (15 : CtxSlot).val = (15#8 : Byte).toNat ∧ (ctxOf askedLoaded 15).state = .empty ∧ (ctxOf askedLoaded 0).state = .recording ∧
      keepRegion.logicalStart + (keepRegion.limit - keepRegion.base) = 63 ∧ regionOf askedLoaded 0 = some keepRegion ∧
      (∀ e, ¬(regionOf askedLoaded e).any (fun r => r.ctx = 0 && 64 ≤ r.logicalStart + (r.limit - r.base))) ∧
      (ctxOf askedLoaded 2).cls = .shift ∧ regionOf askedLoaded 2 = some shiftRegion ∧ shiftRegion.ctx = 2 ∧
      AwaitsBlock free ∧ (ctxOf free 2).state = .recording ∧ (∀ e, ¬(regionOf free e).any (fun r => r.ctx = 2)) ∧
      ¬64 ≤ 362 - 300 + 1 ∧ 64 ≤ 363 - 300 + 1 ∧ 2147483947 - 300 + 1 ≤ 2147483648 ∧ ¬2147483948 - 300 + 1 ≤ 2147483648 := by
  refine ⟨by decide +kernel, by decide, by decide, by decide +kernel, by decide +kernel, rfl, by decide +kernel, by decide +kernel,
    by decide +kernel, by decide +kernel, rfl, asking_awaits _, by decide +kernel, by decide +kernel, ?_⟩
  decide

/-- A ring of four spans FORWARDED and one HELD, whose QWRITE of tag 5 is HELD with RING_WINDOW. -/
theorem witness_RemoveRegionFrees :
    let g : Machine.Ring := { ringOfSpans 4 with spans := (ringOfSpans 4).spans ++ [span4 16 5 .held] }
    let x := { qentry 0x6B#8 .held [] with ringWindow := true }
    let s := asking (setEntry (.tag 5) (some x) (ringed g))
    AwaitsBlock s ∧ 128 ≤ (128#8 : Byte).toNat ∧ (127 : EntryNo).val = (127#8 : Byte).toNat ∧ regionOf s 127 = none ∧
      regionOf s 0 = some keepRegion ∧ (ctxOf s keepRegion.ctx).cls ≠ .shift ∧ regionOf s 2 = some shiftRegion ∧
      (ctxOf s shiftRegion.ctx).cls = .shift ∧ ringOf s 2 = some g ∧ (∃ y ∈ g.spans, y.owner = .tag 5 ∧ y.status = .held) ∧
      entryOf s (.tag 5) = some x ∧ x.state = .held ∧ x.queueWait = false := by
  refine ⟨asking_awaits _, ?_⟩
  decide +kernel

theorem witness_ShiftDepthClamped :
    AwaitsBlock askedLoaded ∧ 16 ≤ (16#8 : Byte).toNat ∧ (15 : CtxSlot).val = (15#8 : Byte).toNat ∧
      ringOf askedLoaded 15 = none ∧ (ctxOf askedLoaded 0).cls ≠ .shift ∧ (ctxOf askedLoaded 2).cls = .shift ∧
      (ctxOf askedLoaded 2).state = .recording ∧ ringOf askedLoaded 2 = some (newRing shiftRegion) ∧
      2 ≤ (newRing shiftRegion).length := by
  refine ⟨asking_awaits _, ?_⟩
  decide +kernel

/-- The part with a number of contexts pinned, from slot 3 on, and a key slot for context 0. -/
def pinnedUp (n : Nat) (slot : Option KeySlot) (waiting : List CtxSlot) : State :=
  asking
    { loaded State.reset with
      contexts := Vector.ofFn fun c =>
        if 3 ≤ c.val ∧ c.val < 3 + n then { keepCtx with pin := true } else (loaded State.reset).contexts.get c
      keys := { State.reset.keys with slots := State.reset.keys.slots.set 0 slot, waiting := waiting } }

/-- Six contexts pinned and seven; context 0 with a slot, waiting, and with neither; an EMPTY context; a pinned one with a slot and without. -/
theorem witness_PinsSetAndCleared :
    let six := pinnedUp 6 (some keySlot0) []
    let waits := pinnedUp 6 none [0]
    let fresh := pinnedUp 6 none []
    (∀ n k w, AwaitsBlock (pinnedUp n k w)) ∧ 16 ≤ (16#8 : Byte).toNat ∧ (15 : CtxSlot).val = (15#8 : Byte).toNat ∧
      (ctxOf six 15).state = .empty ∧ (ctxOf six 0).state = .recording ∧ (ctxOf six 0).pin = false ∧ (ctxOf six 3).pin = true ∧
      (ctxOf six 3).state = .recording ∧ ((List.finRange 16).filter fun d => (ctxOf six d).pin).length < 7 ∧
      7 ≤ ((List.finRange 16).filter fun d => (ctxOf (pinnedUp 7 none []) d).pin).length ∧
      slotOf six 0 = some 0 ∧ six.keys.slots.get 0 = some keySlot0 ∧ slotOf waits 0 = none ∧ 0 ∈ waits.keys.waiting ∧
      slotOf fresh 0 = none ∧ 0 ∉ fresh.keys.waiting ∧ fresh.keys.slots.get 0 = none ∧ fresh.eng.streams = [] ∧
      slotOf (pinnedUp 6 (some { keySlot0 with ctx := 3 }) []) 3 = some 0 ∧ six.keys.waiting = [] ∧ slotOf fresh 3 = none := by
  refine ⟨fun _ _ _ => asking_awaits _, ?_⟩
  decide +kernel

/-- The part asked for a request with every key slot occupied: slot k by context 8 + k, READY, but for one slot; a pinned context 0. -/
def crowded (pin : Bool) (k : KeyNo) (x : KeySlot) (waiting : List CtxSlot) : State :=
  let s := asking (loaded State.reset)
  let slots : Vector (Option KeySlot) 8 :=
    Vector.ofFn fun j => if j = k then some x else some { ctx := Fin.ofNat 16 (8 + j), phase := .ready 9#128, pinned := true, users := 0 }
  setCtx 0 { keepCtx with pin := pin } { s with keys := { s.keys with slots := slots, waiting := waiting } }

/-- No slot FREE: slot 5 alone evictable, and none; the slot of context 0 unpinned with context 1 waiting: evictable then, in SETUP, and with a user. -/
theorem witness_PinsSetAndCleared_crowded :
    let evicts := fun (s : State) k =>
      (s.keys.slots.get k).any fun y => (match y.phase with | .ready _ => true | .setup => false) && !y.pinned && y.users == 0
    let other : KeySlot := { ctx := 13, phase := .ready 9#128, pinned := false, users := 0 }
    let mine : KeySlot := { ctx := 0, phase := .ready 9#128, pinned := true, users := 0 }
    let one := crowded false 5 other []
    let nothing := crowded false 5 { other with users := 1 } []
    (∀ b k x w, AwaitsBlock (crowded b k x w)) ∧ (ctxOf one 0).state = .recording ∧ (ctxOf one 0).pin = false ∧
      ((List.finRange 16).filter fun d => (ctxOf one d).pin).length < 7 ∧ slotOf one 0 = none ∧ 0 ∉ one.keys.waiting ∧
      (∀ j, one.keys.slots.get j ≠ none) ∧ one.keys.lru = [0, 1, 2, 3, 4] ++ 5 :: [6, 7] ∧ evicts one 5 = true ∧
      (∀ j ∈ [(0 : KeyNo), 1, 2, 3, 4], evicts one j = false) ∧ one.eng.streams = [] ∧ slotOf nothing 0 = none ∧
      (∀ k ∈ nothing.keys.lru, evicts nothing k = false) ∧
      (∀ y ∈ [mine, { mine with phase := .setup }, { mine with users := 1 }], (ctxOf (crowded true 5 y [1]) 0).pin = true ∧
        slotOf (crowded true 5 y [1]) 0 = some 5 ∧ (crowded true 5 y [1]).keys.slots.get 5 = some y ∧
        (crowded true 5 y [1]).keys.waiting = 1 :: []) ∧
      mine.phase ≠ .setup ∧ mine.users = 0 := by
  refine ⟨fun _ _ _ _ => asking_awaits _, ?_⟩
  decide +kernel

/-- A token pending and none; no write in use, and a QWRITE with an ENCIPHER run. -/
theorem witness_TimeAndDrainRequests :
    let p : State := { asked0 with time := { asked0.time with token := some { time := 1#32, check := 0#128 } } }
    let w := asking (tagged (qentry 0x6B#8 .forwarded [{ first := 0, count := 2, verdict := .encipher 0 0 4 }]))
    AwaitsBlock p ∧ p.time.token.isSome = true ∧ AwaitsBlock asked0 ∧ asked0.time.token = none ∧ drainEntries asked0 = [] ∧
      AwaitsBlock w ∧ drainEntries w = [.tag 5] :=
  ⟨asking_awaits _, rfl, asking_awaits _, rfl, by decide +kernel, asking_awaits _, by decide +kernel⟩

/-- Settings with each severity at 0 or 1, and with one at 2. -/
theorem witness_SettingsWrittenAndLocked :
    let s : State := { asked0 with req := { asked0.req with locked := true } }
    AwaitsBlock s ∧ s.req.locked = true ∧ AwaitsBlock asked0 ∧ asked0.req.locked = false ∧ asked0.drv.burst = none ∧
      (1#8 : Byte).toNat ≤ 1 ∧ ¬(2#8 : Byte).toNat ≤ 1 :=
  ⟨asking_awaits _, rfl, asking_awaits _, rfl, rfl, by decide, by decide⟩

theorem witness_ClearFaultsRemovesNamed :
    AwaitsBlock asked0 ∧ (0xF0#8 : Byte).toNat % 16 = 0 ∧ asked0.faults.first = none :=
  ⟨asking_awaits _, by decide, rfl⟩

/-- A DATA frame of 16 sectors, a DONE with a failed pair, and an unnamed class are frames that read back. -/
theorem witness_CommandsReadBack :
    WellFormed (.dataFromController 0#16 (List.replicate 16 0#4096)) = true ∧ WellFormed (.doneFromDrive done5) = true ∧
      WellFormed (.unexpectedFrame .drive (.unknown 6#8 [])) = true ∧ (5 : Nat) < (6#8 : Byte).toNat ∧
      requestRow (.sealContext 3#8) = .sealContext 3#8 := by decide +kernel

/-! ### Witnesses: the laws -/

/-- The part with its three contexts loaded, an entry forwarded, and a command waiting. -/
def busy : State :=
  { setEntry (.tag 5) (some (qentry 0x6A#8 .forwarded [])) (ringed (ringOfSpans 3)) with pending := [.upstreamLinkUp] }

theorem busy_steps : step busy = .next { busy with pending := [] } := rfl

theorem busy_regions :
    ∀ e, regionOf busy e = if e = 0 then some keepRegion else if e = 1 then some timedRegion else if e = 2 then some shiftRegion else none := by
  decide +kernel

theorem busy_rings : ∀ c, ringOf busy c = if c = 2 then some (ringOfSpans 3) else none := by decide +kernel

theorem busy_contexts :
    ∀ c, ctxOf busy c = if c = 0 then keepCtx else if c = 1 then timedCtx else if c = 2 then shiftCtx else Context.blank := by decide +kernel

theorem busy_slots : ∀ k, busy.keys.slots.get k = none := by decide +kernel

theorem witness_RecordsAndAttentionKept : RecordsLaw busy ∧ AttentionLaw busy := by
  unfold RecordsLaw AttentionLaw
  decide +kernel

theorem witness_ClocksAndCompareKept : SettingsLaw busy ∧ ClockLaw busy ∧ CompareLaw busy := by
  unfold SettingsLaw ClockLaw CompareLaw
  decide +kernel

/-- In lockdown and under the lock. -/
theorem witness_OnlyPowerOnUndoes :
    let s := { locked busy with req := { busy.req with locked := true } }
    ¬PowersOn s ∧ step s = .next { s with pending := [] } ∧ ClockLaw s ∧ s.faults.lockdown = true ∧ s.req.locked = true := by
  refine ⟨?_, rfl, ?_, rfl, rfl⟩
  · unfold PowersOn
    decide +kernel
  · unfold ClockLaw
    decide +kernel

theorem witness_TableLawsKept : RegionLaw busy ∧ SerialLaw busy := by
  refine ⟨⟨fun e r h => ?_, fun e f r q hne hr hq => ?_⟩, fun c d hne hc hd => ?_⟩
  · rw [busy_regions] at h
    split_ifs at h <;> cases h <;> (unfold RegionInRange; decide)
  · rw [busy_regions] at hr hq
    split_ifs at hr hq <;> cases hr <;> cases hq <;> simp_all [keepRegion, timedRegion, shiftRegion] <;> omega
  · rw [busy_contexts] at *
    rw [busy_contexts] at *
    split_ifs at * <;> simp_all [keepCtx, timedCtx, shiftCtx, Context.blank]

theorem witness_TableLawsKept_binding : BindingLaw busy := by
  refine ⟨fun e r h => ?_, fun e f r q hne hr hq hc => ?_, fun e r h hc => ?_, fun c g h => ?_⟩
  · rw [busy_regions] at h
    split_ifs at h <;> cases h <;> decide +kernel
  · rw [busy_regions] at hr hq
    split_ifs at hr hq <;> cases hr <;> cases hq <;> first | (exfalso; simp_all; done) | (revert hc; decide)
  · rw [busy_regions] at h
    split_ifs at h <;> cases h <;> first | decide +kernel | (revert hc; decide +kernel)
  · rw [busy_rings] at h
    split_ifs at h with hc
    cases h
    subst hc
    exact ⟨by decide +kernel, 2, shiftRegion, by decide +kernel⟩

theorem witness_TableLawsKept_expiry : ExpiryLaw busy := by
  intro c h
  rw [busy_contexts] at h ⊢
  split_ifs at h ⊢ <;> decide

theorem busy_entry (o : Owner) (e : Entry) (h : entryOf busy o = some e) : o = .tag 5 ∧ e = qentry 0x6A#8 .forwarded [] := by
  have all : ∀ t : Tag, entryOf busy (.tag t) = if t = 5 then some (qentry 0x6A#8 .forwarded []) else none := by decide +kernel
  cases o with
  | single => cases h
  | tag t =>
    rw [all] at h
    split_ifs at h with ht
    cases h
    exact ⟨by rw [ht], rfl⟩

theorem witness_EntryLawKept : EntryLaw busy := by
  intro o e h
  obtain ⟨rfl, rfl⟩ := busy_entry o e h
  unfold EntryLegal
  decide +kernel

/-- An entry in use that names the KEEP context, whose count is 1, with its acceptance record. -/
def counted : State :=
  let e := freshEntry .forwarded .qread (frame2 0x6A#8 100#48) (onePlan (frame2 0x6A#8 100#48) (.deliver 0 0 0)) [0]
  let s := setEntry (.tag 5) (some e) (setCtx 0 { keepCtx with inFlight := 1 } recording)
  { s with trk := { s.trk with accepts := [{ tag := 5, action := .relay }] }, pending := [.upstreamLinkUp] }

theorem counted_entry (o : Owner) (e : Entry) (h : entryOf counted o = some e) :
    o = .tag 5 ∧ e = freshEntry .forwarded .qread (frame2 0x6A#8 100#48) (onePlan (frame2 0x6A#8 100#48) (.deliver 0 0 0)) [0] := by
  have all : ∀ t : Tag, entryOf counted (.tag t) =
      if t = 5 then some (freshEntry .forwarded .qread (frame2 0x6A#8 100#48) (onePlan (frame2 0x6A#8 100#48) (.deliver 0 0 0)) [0])
      else none := by decide +kernel
  cases o with
  | single => cases h
  | tag t =>
    rw [all] at h
    split_ifs at h with ht
    cases h
    exact ⟨by rw [ht], rfl⟩

theorem witness_EntryLawKept_counts :
    EntryLaw counted ∧ AcceptLaw counted ∧ BridgeLaw counted ∧ InFlightLaw counted ∧ step counted = .next { counted with pending := [] } := by
  refine ⟨fun o e h => ?_, ⟨by decide +kernel, rfl, fun k e h hs => ?_⟩, ?_, ⟨fun o e h => ?_, by decide +kernel⟩, rfl⟩
  · obtain ⟨rfl, rfl⟩ := counted_entry o e h
    unfold EntryLegal
    decide +kernel
  · obtain ⟨-, rfl⟩ := counted_entry _ e h
    cases hs
  · unfold BridgeLaw
    refine ⟨by decide +kernel, fun h => absurd h (by decide +kernel), fun e h => ?_, fun b h => ?_, fun i h => ?_⟩ <;> cases h
  · obtain ⟨rfl, rfl⟩ := counted_entry o e h
    decide

theorem witness_RingLawsKept : RingLaw busy ∧ RingPointsLaw busy := by
  refine ⟨fun c r h => ?_, fun c r h => ?_⟩ <;>
    (rw [busy_rings] at h; split_ifs at h; cases h)
  · decide +kernel
  · refine ⟨?_, ?_, ?_⟩
    · unfold ringOfSpans
      simp [SpansRun, List.range, List.range.loop, span4, advancePoint, newRing, shiftRegion]
    · decide +kernel
    · decide +kernel

theorem witness_KeyLawKept : KeyLaw busy := by
  refine ⟨fun j k x y _ h _ => ?_, by decide +kernel, by decide +kernel, fun c h => ?_⟩
  · rw [busy_slots] at h
    cases h
  · cases h

/-- With every slot in SETUP a context waits. -/
theorem witness_KeyLawKept_waiting :
    let slots : Vector (Option KeySlot) 8 := Vector.ofFn fun j => some { ctx := Fin.ofNat 16 (8 + j), phase := .setup, pinned := false, users := 0 }
    let s : State := { recording with keys := { recording.keys with slots := slots, waiting := [0] } }
    KeyLaw s ∧ KeyWaitLaw s := by
  intro slots s
  have all : ∀ k : KeyNo, s.keys.slots.get k = some { ctx := Fin.ofNat 16 (8 + k), phase := .setup, pinned := false, users := 0 } := by
    decide +kernel
  refine ⟨⟨fun j k x y hne hx hy hc => ?_, by decide +kernel, by decide +kernel, by decide +kernel⟩, by decide +kernel, fun _ k => ⟨_, all k, .inl rfl⟩⟩
  rw [all] at hx hy
  cases hx
  cases hy
  revert hne hc
  revert j k
  decide

theorem witness_PoolLawKept : PoolLaw busy := by
  have free : ∀ p, busy.pool.slots.get p = none := by decide +kernel
  refine ⟨by decide +kernel, fun o => ?_⟩
  simp [slotsHeld, free]

/-- Each clause: the frontier rises at an accepted write, and is lowered where the slot has been emptied. -/
theorem witness_FrontierNeverDecreases :
    let write : Instr := .write 110#48 2#16 0#8 0#72
    step { recording with pending := [write] } = .next (after write { recording with pending := [] }) ∧
      (ctxOf recording 0).frontier < (ctxOf (after write { recording with pending := [] }) 0).frontier ∧
      step { recording with pending := [.powerOn] } = .next (after .powerOn { recording with pending := [] }) ∧
      (ctxOf (after .powerOn { recording with pending := [] }) 0).state = .empty := by
  refine ⟨rfl, ?_, rfl, ?_⟩ <;> decide +kernel

/-- The last byte of a counter block and of a sector's keystream. -/
theorem witness_KeystreamBytes : 15 < 16 ∧ 511 < 512 := by decide

/-! ### One effect of each command -/

/-- R195: the divider is 27,000,000 again and lockdown is over. -/
theorem test_powerOn : (after .powerOn (locked linked)).req.divider = 27000000 ∧ (after .powerOn (locked linked)).faults.lockdown = false := by
  decide +kernel

/-- R1. -/
theorem test_upstreamLinkUp : (after .upstreamLinkUp State.reset).up.link = .up := by decide +kernel

/-- R15: a reset is sent to a drive whose link is UP, and its completion is awaited. -/
theorem test_linkReset : (after .linkReset linked).drv.sent = [.reset] ∧ (after .linkReset linked).drv.resetState = .awaitRelay := by
  decide +kernel

/-- R18. -/
theorem test_driveLinkUp : (after .driveLinkUp State.reset).drv.resetState = .awaitLocal := by decide +kernel

/-- R40: an unanswered queued command is answered STATUS ERROR DRIVE_LOST (0x84). -/
theorem test_driveLinkLost :
    let s := after (.qread 0#48 2#16 5#8 0#72) linked
    (after .driveLinkLost s).up.sendList = [fromPart (statusOf 2#8 0x84#8)] := by decide +kernel

/-- R160, R161: monotonic time rises; rights time rises only while SET. -/
theorem test_tick : (after .tick State.reset).time.mono = 1 ∧ (after .tick State.reset).time.rights = 0 := by decide +kernel

/-- R167: at the tick that brings rights time to 31 the context whose E is 30 expires. -/
theorem test_tick_expires : (ctxOf (after .tick (nearExpiry 30)) 1).state = .expired ∧ (ctxOf (after .tick (nearExpiry 29)) 1).state = .recording := by
  decide +kernel

/-- R49: a READ across the end of a KEEP region has a DELIVER run and a CLEAR run. -/
theorem test_read :
    (after (.read 163#48 2#16 0#8 0#72) recording).trk.single.map (·.plan) =
      some [{ first := 0, count := 1, verdict := .deliver 0 0 63 }, { first := 1, count := 1, verdict := .clear }] := by decide +kernel

/-- R53: the frontier is one past the highest logical sector written. -/
theorem test_write : (ctxOf (after (.write 110#48 2#16 0#8 0#72) recording) 0).frontier = 12 := by decide +kernel

/-- R49: without rights time a TIMED context withholds. -/
theorem test_qread :
    (entryOf (after (.qread 200#48 2#16 5#8 0#72) recording) (.tag 5)).map (·.plan) =
      some [{ first := 0, count := 2, verdict := .withheld .noTime 1 10 }] := by decide +kernel

/-- R106: a write that ends at N takes the issue point to 0 and the issue lap up by 1. -/
theorem test_qwrite_wraps :
    (ringOf (after (.qwrite 1062#48 2#16 5#8 0#72) (ringed { newRing shiftRegion with issue := 62 })) 2).map (fun g => (g.issue, g.issueLap)) =
      some (0, 1) := by decide +kernel

/-- R107: a fifth span is HELD, and its command is answered and not sent down. -/
theorem test_qwrite_held :
    (after (.qwrite 1016#48 2#16 5#8 0#72) (ringed (ringOfSpans 4))).drv.sent = [] ∧
      (after (.qwrite 1016#48 2#16 5#8 0#72) (ringed (ringOfSpans 4))).up.sendList = [fromPart (statusOf 0#8 0#8)] := by decide +kernel

/-- R22: an OTHER waits for queued work. -/
theorem test_other :
    (after (.other 0#8 0#48 0#16 0#8 0#72) (tagged (qentry 0x6A#8 .forwarded []))).trk.single.map (·.state) = some .held := by decide +kernel

/-- R171: a bridge of count 2 is answered MALFORMED (0x8F). -/
theorem test_bridge : (after (.bridge 0#48 2#16 0#8 0#72) linked).up.sendList = [fromPart (statusOf 2#8 0x8F#8)] := by decide +kernel

/-- R2. -/
theorem test_unexpectedFrame : (after (.unexpectedFrame .drive (.unknown 9#8 [])) linked).faults.first = some .protocol := by decide +kernel

/-- R10: two of three discarded sectors are counted off. -/
theorem test_dataFromController :
    (after (.dataFromController 0#16 [1#4096, 2#4096]) { linked with up := { linked.up with discard := 3 } }).up.discard = 1 := by
  decide +kernel

/-- R4, R13: a READY past the end of its command opens the burst and raises PROTOCOL. -/
theorem test_readyFromDrive :
    (after (.readyFromDrive (ready5 1#16)) (tagged (qentry 0x6A#8 .forwarded []))).drv.burst =
        some { owner := .tag 5, dir := .toUpstream, left := 2 } ∧
      (after (.readyFromDrive (ready5 1#16)) (tagged (qentry 0x6A#8 .forwarded []))).faults.set.protocol = true := by decide +kernel

/-- R10: DATA with no burst and no discard burst raises PROTOCOL. -/
theorem test_dataFromDrive : (after (.dataFromDrive 0#16 [1#4096]) linked).faults.set.protocol = true := by decide +kernel

/-- R16: during a reset a DATA frame is discarded and raises no fault. -/
theorem test_dataFromDrive_reset : after (.dataFromDrive 0#16 [1#4096]) (resetting .awaitLocal []) = resetting .awaitLocal [] := by decide +kernel

/-- R32: an OK of a READ one sector short is relayed as ERROR PROTOCOL (0x9B). -/
theorem test_statusFromDrive :
    (after (.statusFromDrive 1#8 0#8) (single { qentry 0x2A#8 .forwarded [] with passed := 1 })).up.sendList =
      [fromDrive (statusOf 2#8 0x9B#8)] := by decide +kernel

/-- R32: a DONE of a tag short of its count moves it to the failed list. -/
theorem test_doneFromDrive :
    (after (.doneFromDrive done5) (tagged { qentry 0x6A#8 .forwarded [] with passed := 1 })).up.sendList =
      [fromDrive (.done { done5 with doneSet := 0#32, failed := [(5#8, 0x9B#8)] })] := by decide +kernel

/-- R7: a DONE that names the tag of a burst closes it, though the entry has ended. -/
theorem test_doneFromDrive_closes :
    (after (.doneFromDrive done5)
      { linked with drv := { linked.drv with burst := some { owner := .tag 5, dir := .toUpstream, left := 2 } } }).drv.burst = none := by
  decide +kernel

/-- R8: a READY to drive waits while an inbound burst is open, and the STATUS behind it is sent. -/
theorem test_sendUpstreamFrame :
    (after .sendUpstreamFrame
        (sending [{ frame := .ready { ready5 0#16 with flags := 2#8 }, owner := some (.tag 5), relayed := true }, fromPart (statusOf 1#8 0#8)]
          (some { owner := .tag 5, left := 2, bridge := false }) none)).up.sent = [statusOf 1#8 0#8] := by decide +kernel

/-- R133: a SETUP starts ahead of a STREAM job that is ready. -/
theorem test_engineJobStart :
    (after .engineJobStart (engaged { setups := [{ slot := 1, ctx := 1 }], streams := [job3 false], others := [], running := none })).eng.running =
      some (.setup { slot := 1, ctx := 1 } false) := by decide +kernel

/-- R134: the slot becomes READY with the context's content key. -/
theorem test_setupComplete :
    let s := engaged { setups := [], streams := [], others := [], running := some (.setup { slot := 0, ctx := 0 } false) }
    (after .setupComplete
      (setCtx 0 { keepCtx with key := 77#128 }
        { s with keys := { s.keys with slots := s.keys.slots.set 0 (some { keySlot0 with phase := .setup }) } })).keys.slots.get 0 =
      some { keySlot0 with phase := .ready 77#128 } := by decide +kernel

/-- R148: the key slot loses its user. -/
theorem test_streamComplete :
    ((after .streamComplete (engaged { setups := [], streams := [], others := [], running := some (.stream (job3 false) false) })).keys.slots.get
      0).map (·.users) = some 0 := by decide +kernel

/-- R138: a second failure raises TRANSFORM, which enters lockdown by its severity at power-on. -/
theorem test_parityFailure :
    (after .parityFailure (engaged { setups := [], streams := [], others := [], running := some (.stream (job3 true) false) })).faults.lockdown =
      true := by decide +kernel

/-- R84: with no UNWRAP running the event changes nothing. -/
theorem test_unwrapComplete : after .unwrapComplete recording = recording := by decide +kernel

/-- R96: a receipt no longer PENDING takes nothing. -/
theorem test_receiptCheckComplete :
    (ctxOf (after .receiptCheckComplete (engaged { setups := [], streams := [], others := [], running := some (.other (.receipt 1 2#48 7 37)) })) 1).receipt =
      .absent := by decide +kernel

/-- R163: with no CHECK running the event changes nothing. -/
theorem test_timeTokenCheckComplete : after .timeTokenCheckComplete recording = recording := by decide +kernel

/-- R82: class 3 is MALFORMED (0x8F). -/
theorem test_loadContext :
    (after (.loadContext 0#8 { keepBlob with cls := 3#8 }) asked0).up.sendList = [fromPart (statusOf 2#8 0x8F#8)] := by decide +kernel

/-- R88: with a command in flight the seal waits. -/
theorem test_sealContext :
    (ctxOf (after (.sealContext 0#8) (asking (setCtx 0 { keepCtx with inFlight := 1 } (loaded State.reset)))) 0).state = .sealing := by
  decide +kernel

/-- R94: the close takes the regions of the context. -/
theorem test_closeContext : regionOf (after (.closeContext 0#8) askedLoaded) 0 = none ∧ (ctxOf (after (.closeContext 0#8) askedLoaded) 0).state = .empty := by
  decide +kernel

/-- 12.3: byte 0 of a reply gives the request's code. -/
theorem test_readContext : ((after (.readContext 0#8) askedLoaded).req.reply.map fun b => getField 0 16 b) = some 4#16 := by decide +kernel

/-- R97: a receipt of a KEEP context is WRONG_STATE (0x92). -/
theorem test_readReceipt : (after (.readReceipt 0#8) askedLoaded).up.sendList = [fromPart (statusOf 2#8 0x92#8)] := by decide +kernel

/-- R98: NOT_IDLE (0x96) with a queued entry in use. -/
theorem test_clearUnit :
    (after .clearUnit (asking (tagged (qentry 0x6A#8 .forwarded [])))).up.sendList = [fromPart (statusOf 2#8 0x96#8)] := by decide +kernel

/-- R67: a window of one sector that meets a region is LBA_OVERLAP (0x91). -/
theorem test_addRegion :
    (after (.addRegion (regionParams 9#8 0#8 163#48 163#48 500#40)) askedLoaded).up.sendList = [fromPart (statusOf 2#8 0x91#8)] := by decide +kernel

/-- R75: the ring goes with its region. -/
theorem test_removeRegion : ringOf (after (.removeRegion 2#8) askedLoaded) 2 = none := by decide +kernel

/-- R76: the reply gives entry 2 and that it is enabled. -/
theorem test_readRegions :
    ((after (.readRegions 2#8) askedLoaded).req.reply.map fun b => (getField 8 8 b, getField 9 8 b)) = some (2#8, 1#8) := by decide +kernel

/-- R118: a depth above N - 1 is N - 1. -/
theorem test_setShiftDepth : (ringOf (after (.setShiftDepth 2#8 64#32) askedLoaded) 2).map (·.depth) = some 63 := by decide +kernel

/-- R131: a pin of a context with no slot queues a SETUP for the lowest FREE one. -/
theorem test_pinKey : (after (.pinKey 0#8) askedLoaded).eng.setups = [{ slot := 0, ctx := 0 }] := by decide +kernel

/-- R132. -/
theorem test_unpinKey : (ctxOf (after (.unpinKey 3#8) (pinnedUp 1 none [])) 3).pin = false := by decide +kernel

/-- R162: a second token is BUSY (0x83). -/
theorem test_setRightsTime :
    (after (.setRightsTime 1#32 0#128) { asked0 with time := { asked0.time with token := some { time := 1#32, check := 0#128 } } }).up.sendList =
      [fromPart (statusOf 2#8 0x83#8)] := by decide +kernel

/-- R177: L is held to 16 and the divider to 1,000,000. -/
theorem test_writeSettings :
    let t := after (.writeSettings
      { lookahead := 17#8, keyParity := 0#8, transform := 1#8, protocol := 0#8, driveLost := 0#8, attentionSet := 0#32, divider := 5#32 }) asked0
    t.req.lookahead = 16 ∧ t.req.divider = 1000000 := by decide +kernel

/-- R179. -/
theorem test_lockSettings : (after .lockSettings asked0).req.locked = true := by decide +kernel

/-- R180: in lockdown the unit mode byte is 1. -/
theorem test_readStatus : ((after .readStatus (locked asked0)).req.reply.map fun b => getField 4 8 b) = some 1#8 := by decide +kernel

/-- R183: a drain with nothing to wait for queues DRAINED with 0. -/
theorem test_drain : (after .drain asked0).nq.notices.map (fun n => (n.kind, n.value)) = [(.drained, 0)] := by decide +kernel

/-- R187: the notices taken leave the queue. -/
theorem test_readNotices :
    (after .readNotices
      { asked0 with nq := { asked0.nq with notices := List.replicate 16 ⟨.fault, none, none, none, 0, 0⟩ } }).nq.notices.length = 1 := by
  decide +kernel

/-- R27: the number of records. -/
theorem test_readHistory : ((after .readHistory asked0).req.reply.map fun b => getField 4 8 b) = some 0#8 := by decide +kernel

/-- R191: naming PROTOCOL (bit 2) removes it and leaves DRIVE_LOST. -/
theorem test_clearFaults :
    let f : FaultSet := { keyParity := false, transform := false, protocol := true, driveLost := true }
    (after (.clearFaults 4#8) { asked0 with faults := { asked0.faults with set := f } }).faults.set = { f with protocol := false } := by
  decide +kernel

/-- R172. -/
theorem test_unknownRequestCode : (after (.unknownRequestCode 0#4096) asked0).up.sendList = [fromPart (statusOf 2#8 0x8F#8)] := by
  decide +kernel

end Sys2Proof.Tests
end

