-- ==== Sys2Proof/Proofs/Arbiter.lean ====
section
namespace Sys2Proof.LinkPassage
open Sys2Proof Sys2Proof.Machine

/-! ### Commands that hold the single slot without a plan, and the bridge's reply -/

/-- An OTHER that finds the single slot FREE and no queued work is forwarded without a plan (R3, R22). -/
theorem takeOther_forwarded {c : CommandFrame} {s : State} (hk : cmdKind c = .other) (hs : s.trk.single = none)
    (hl : s.drv.link = .up) (hq : queuedWork s = false) :
    takeCommand c s = sentDown [.command c]
      { s with trk := { s.trk with single := some (freshEntry .forwarded .other c [] []) } } := by
  have ht : touchedBy [] = [] := by decide
  simp [takeCommand, hk, takeOther, hs, hl, enterSingle, plainPlan, hq, enter, newEntry, ht, setEntry, putEntry, sendDown,
    sentDown, freshEntry]

/-- A BRIDGE that finds the single slot FREE: of count 1 it is LOCAL and its request READY is listed, of another it is MALFORMED (R23, R171). -/
theorem takeBridge_free {c : CommandFrame} {s : State} (hk : cmdKind c = .bridge) (hs : s.trk.single = none) :
    takeCommand c s =
      if c.count = 1#16 then listed [bridgeReadyFrame 0#8]
        { s with trk := { s.trk with single := some (freshEntry .localBridge .bridge c [] []) } }
      else listed [fromPart (statusOf 2#8 0x8F#8)] s := by
  have ht : touchedBy [] = [] := by decide
  by_cases hc : c.count = 1#16
  · simp [takeCommand, hk, takeBridge, hs, hc, bridgeEntry, newEntry, ht, setEntry, putEntry, placeItem, listed,
      bridgeReady, bridgeReadyFrame, freshEntry]
  · simp [takeCommand, hk, takeBridge, hs, hc, placePart, placeItem, listed, fromPart, errorFrame, statusOf, codeByte]

/-- Settles O10: each command is the operation that the Tracker runs on its frame. -/
theorem otherAndBridgeAdmitted : Obligations.OtherAndBridgeAdmitted := by
  intro op lba count byte10 rest s hs
  have hbridge : cmdKind { op := 0xFC#8, lba := lba, count := count, byte10 := byte10, rest := rest } = .bridge := rfl
  refine ⟨?_, ?_, ?_⟩
  · rintro ⟨hu, hd, hr, hq⟩ hw hn
    have hk : cmdKind { op := op, lba := lba, count := count, byte10 := byte10, rest := rest } = .other := by
      simpa [WellFormed, cmdKind] using hw
    change Host.Outcome.next _ = _
    rw [arriveUp_command hu hq (.inl hr), takeOther_forwarded hk hs hd hn]
  · rintro hu hq rfl
    change Host.Outcome.next _ = _
    rw [arriveUp_command hu hq (.inr hbridge), takeBridge_free hbridge hs, if_pos rfl]
  · intro hu hq hc
    change Host.Outcome.next _ = _
    rw [arriveUp_command hu hq (.inr hbridge), takeBridge_free hbridge hs, if_neg hc]

/-- The sending of a frame leaves the frames standing on the links alone. -/
@[simp] theorem sentItem_held (i : SendItem) (s : State) :
    (sentItem i s).up.held = s.up.held ∧ (sentItem i s).drv.held = s.drv.held := by
  unfold sentItem sentReady sentData openUpstream placeReply
  dsimp only
  repeat' split
  all_goals simp

/-- Where no frame stands on the links, the arbiter's turn is the sending of the first frame that it may choose (R8). -/
theorem transmit_quiet {l m : List SendItem} {i : SendItem} {s : State} (hq : Quiet s) (hu : s.up.link = .up)
    (hl : ∀ j ∈ l, mayChoose s j = false) (hi : mayChoose s i = true) (he : s.up.sendList = l ++ i :: m) :
    transmit s = sentItem i { s with up := { s.up with sendList := l ++ m, sent := s.up.sent ++ [i.frame] } } := by
  rw [transmit_chosen hu hl hi he, run_quiet]
  exact ⟨by simp [hq.1], by simp [hq.2]⟩

/-- Settles O29: each time the arbiter may choose the frame at the head of its list. -/
theorem bridgeReplySent : Obligations.BridgeReplySent := by
  intro block rest s hq hu
  refine ⟨fun ho hl hr => ?_, fun ho hl => ?_⟩
  · change Host.Outcome.next (transmit s) = _
    rw [transmit_quiet (l := []) hq hu (by simp) (by simp [mayChoose, ho, sendEligible, bridgeReadyFrame, readyDir]) hl]
    simp [sentItem, bridgeReadyFrame, sentReady, openUpstream, readyDir, readyCount, countOf, placeReply, hr, placeItem]
  · change Host.Outcome.next (transmit s) = _
    rw [transmit_quiet (l := []) hq hu (by simp) (by simp [mayChoose, ho, inOutBurst]) hl]
    simp [sentItem, sentData, ho, countUpBurst, placePart, placeItem, setEntry, putEntry, fromPart, okFrame, statusOf]

/-- Settles O28: a turn that may choose nothing sends nothing; else the frame ahead of which nothing may be chosen is sent. -/
theorem arbiterSendsOldestEligible : Obligations.ArbiterSendsOldestEligible := by
  intro s hq
  have hwait : s.up.outBurst = none → ∀ j : SendItem, (∃ r, j.frame = .ready r ∧ readyDir r = .toDrive ∧ s.up.inBurst ≠ none) →
      mayChoose s j = false := by
    rintro ho j ⟨r, hf, hd, hb⟩
    cases hi : s.up.inBurst <;> simp_all [mayChoose, sendEligible]
  have hother : ∀ u, s.up.outBurst = some u → ∀ j : SendItem,
      (∀ d, j.frame = .data d → j.owner ≠ some u.owner ∨ j.relayed = u.bridge) → mayChoose s j = false := by
    intro u ho j hj
    cases hf : j.frame
    case data d => rcases hj d hf with h | h <;> simp [mayChoose, ho, inOutBurst, hf, h]
    all_goals simp [mayChoose, ho, inOutBurst, hf]
  refine ⟨fun hd => ?_, fun hu ho hl => ?_, fun u hu ho hl => ?_, fun l m i hu he => ⟨fun ho hl => ⟨?_, ?_, ?_⟩, ?_⟩⟩
  · change Host.Outcome.next (transmit s) = _
    simp [transmit, hd]
  · change Host.Outcome.next (transmit s) = _
    rw [transmit_nothing fun j hj => hwait ho j (hl j hj)]
  · change Host.Outcome.next (transmit s) = _
    rw [transmit_nothing fun j hj => hother u ho j (hl j hj)]
  · intro hf
    change Host.Outcome.next (transmit s) = _
    rw [transmit_quiet hq hu (fun j hj => hwait ho j (hl j hj)) (by rcases hf with ⟨t, hf⟩ | ⟨d, hf⟩ <;>
      simp [mayChoose, ho, sendEligible, hf]) he]
    rcases hf with ⟨t, hf⟩ | ⟨d, hf⟩ <;> simp [sentItem, hf]
  · intro r o hf hown hdir hrel
    change Host.Outcome.next (transmit s) = _
    rw [transmit_quiet hq hu (fun j hj => hwait ho j (hl j hj)) (by simp [mayChoose, ho, sendEligible, hf, hdir]) he]
    simp [sentItem, hf, sentReady, openUpstream, hdir, hown, hrel]
  · intro r o hf hown hdir hin
    change Host.Outcome.next (transmit s) = _
    rw [transmit_quiet hq hu (fun j hj => hwait ho j (hl j hj)) (by simp [mayChoose, ho, sendEligible, hf, hin]) he]
    simp [sentItem, hf, sentReady, openUpstream, hdir, hown]
  · intro u d ho hb hf hown hrel hl
    change Host.Outcome.next (transmit s) = _
    rw [transmit_quiet hq hu (fun j hj => hother u ho j (by simpa [hb] using hl j hj))
      (by simp [mayChoose, ho, inOutBurst, hf, hown, hrel, hb]) he]
    simp [sentItem, hf, sentData, ho, hb, countUpBurst]

end Sys2Proof.LinkPassage
end

