-- ==== Sys2Proof/Proofs/EntryMoves.lean ====
section
namespace Sys2Proof.LinkPassage
open Sys2Proof Sys2Proof.Machine

/-! ### Changes of an entry in place -/

/-- A change of an entry in use that keeps its command, its plan and its legality, and holds it only if it was HELD before. -/
structure EntryMove (e e' : Entry) : Prop where
  cmd : e'.cmd = e.cmd
  kind : e'.kind = e.kind
  plan : e'.plan = e.plan
  touched : e'.touched = e.touched
  held : e'.state = .held → e.state = .held
  legal : ∀ o, EntryLegal o e → EntryLegal o e'

theorem EntryMove.refl (e : Entry) : EntryMove e e := ⟨rfl, rfl, rfl, rfl, id, fun _ h => h⟩

theorem EntryMove.trans {e f g : Entry} (h : EntryMove e f) (k : EntryMove f g) : EntryMove e g :=
  ⟨k.cmd.trans h.cmd, k.kind.trans h.kind, k.plan.trans h.plan, k.touched.trans h.touched, fun x => h.held (k.held x),
    fun o x => k.legal o (h.legal o x)⟩

/-- A change that keeps the state, the hold reasons and whether a burst is open. -/
theorem EntryMove.of_same {e e' : Entry} (cmd : e'.cmd = e.cmd) (kind : e'.kind = e.kind) (plan : e'.plan = e.plan)
    (touched : e'.touched = e.touched) (state : e'.state = e.state) (wait : e'.queueWait = e.queueWait)
    (window : e'.ringWindow = e.ringWindow) (burst : e'.openBurst.isSome = e.openBurst.isSome) : EntryMove e e' :=
  ⟨cmd, kind, plan, touched, fun h => state ▸ h, fun o h => by simpa only [EntryLegal, cmd, kind, state, wait, window, burst] using h⟩

/-- A held entry that loses one hold reason stays HELD under the other one, or else becomes FORWARDED (R28). -/
theorem EntryMove.unhold (e : Entry) (wait window : Bool) (hw : wait = true → e.queueWait = true)
    (hr : window = true → e.ringWindow = true) :
    EntryMove e { e with
      queueWait := wait, ringWindow := window
      state := if e.state = .held ∧ wait = false ∧ window = false then .forwarded else e.state } := by
  refine ⟨rfl, rfl, rfl, rfl, fun h => ?_, fun o ⟨hk, ho, hh, hb, hl⟩ => ⟨hk, ho, ?_⟩⟩
  · dsimp only at h
    split at h
    · contradiction
    · exact h
  · dsimp only
    split
    next hf => simp_all
    next hf => cases wait <;> cases window <;> simp_all

/-- A READY that a FORWARDED entry matches moves it to BURST (R4, R31). -/
theorem EntryMove.burst (r : ReadyFrame) {e : Entry} (hs : e.state = .forwarded) (hk : e.kind ≠ .bridge) :
    EntryMove e (burstEntry r e) := by
  refine ⟨rfl, rfl, rfl, rfl, fun h => ?_, fun o ⟨hkind, ho, hh, hb, hl⟩ => ⟨hkind, ho, ?_⟩⟩
  · cases h
  · simp_all [burstEntry]

/-- An entry whose burst has ended returns to FORWARDED (R6, R31). -/
theorem EntryMove.endBurst (e : Entry) :
    EntryMove e (if e.openBurst.isSome then { e with state := .forwarded, openBurst := none } else e) := by
  split
  next hb =>
    refine ⟨rfl, rfl, rfl, rfl, fun h => (by cases h), fun o ⟨hkind, ho, hh, hburst, hl⟩ => ⟨hkind, ho, ?_⟩⟩
    have : e.state = .burst := hburst.2 hb
    simp_all
  next => exact .refl e

/-! ### The entries of a state and their claims on the acceptance list -/

/-- Every entry in use in t was in use in s and has only been changed in place; entries may have ended. -/
def Fades (s t : State) : Prop :=
  ∀ o e', entryOf t o = some e' → ∃ e, entryOf s o = some e ∧ EntryMove e e'

/-- Every entry in use in s is in use in t. -/
def Stays (s t : State) : Prop :=
  ∀ o, (entryOf s o).isSome = true → (entryOf t o).isSome = true

/-- The entries with a record on the acceptance list or a COMMAND released and not yet sent, which will have one (R28, R30). -/
def claims (s : State) : List Owner :=
  (s.trk.accepts.map fun r => Owner.tag r.tag) ++ s.trk.released

/-- At most one claim for each entry, and none for a HELD one: the law of the acceptance list within an event. -/
def Claimed (s : State) : Prop :=
  (claims s).Nodup ∧ ∀ o e, entryOf s o = some e → e.state = .held → o ∉ claims s

/-- The law of the acceptance list is the law of the claims where no released command waits. -/
theorem acceptLaw_iff (s : State) : AcceptLaw s ↔ Claimed s ∧ s.trk.released = [] := by
  constructor
  · rintro ⟨hn, hr, hh⟩
    have hc : claims s = s.trk.accepts.map fun r => Owner.tag r.tag := by simp [claims, hr]
    refine ⟨⟨?_, fun o e he hs hm => ?_⟩, hr⟩
    · have := hn.map (f := Owner.tag) fun a b h => by simpa using h
      simpa only [hc, List.map_map, Function.comp_def] using this
    · rw [hc] at hm
      obtain ⟨r, hr, rfl⟩ := List.mem_map.1 hm
      exact hh r.tag e he hs r hr rfl
  · rintro ⟨⟨hn, hh⟩, hr⟩
    have hc : claims s = s.trk.accepts.map fun r => Owner.tag r.tag := by simp [claims, hr]
    refine ⟨?_, hr, fun k e he hs r hm hk => hh _ e he hs ?_⟩
    · exact List.Nodup.of_map Owner.tag (by simpa only [hc, List.map_map, Function.comp_def] using hn)
    · rw [hc]
      exact List.mem_map.2 ⟨r, hm, by rw [hk]⟩

/-- No entry enters from s to t: each is changed in place or ends, and the claims stay in order. -/
structure Tracks (s t : State) : Prop where
  fades : Fades s t
  claims : Claimed s → Claimed t

/-- No entry enters or ends from s to t. -/
structure Shifts (s t : State) : Prop extends Tracks s t where
  stays : Stays s t

theorem Fades.refl (s : State) : Fades s s := fun _ e h => ⟨e, h, .refl e⟩

theorem Fades.trans {s t u : State} (h : Fades s t) (k : Fades t u) : Fades s u := by
  intro o e he
  obtain ⟨f, hf, hfe⟩ := k o e he
  obtain ⟨g, hg, hgf⟩ := h o f hf
  exact ⟨g, hg, hgf.trans hfe⟩

theorem Tracks.refl (s : State) : Tracks s s := ⟨.refl s, id⟩

theorem Tracks.trans {s t u : State} (h : Tracks s t) (k : Tracks t u) : Tracks s u :=
  ⟨h.fades.trans k.fades, fun c => k.claims (h.claims c)⟩

theorem Shifts.refl (s : State) : Shifts s s := ⟨.refl s, fun _ h => h⟩

theorem Shifts.trans {s t u : State} (h : Shifts s t) (k : Shifts t u) : Shifts s u :=
  ⟨h.toTracks.trans k.toTracks, fun o x => k.stays o (h.stays o x)⟩

/-- Legal entries stay legal where none enters (R19, R20). -/
theorem Fades.entryLaw {s t : State} (h : Fades s t) (hs : EntryLaw s) : EntryLaw t := by
  intro o e' he
  obtain ⟨e, hold, hm⟩ := h o e' he
  exact hm.legal o (hs o e hold)

/-- Where no entry enters and the claims only lose members, they stay in order. -/
theorem Fades.claimed {s t : State} (h : Fades s t) (hc : (claims t).Sublist (claims s)) (hs : Claimed s) : Claimed t := by
  refine ⟨hs.1.sublist hc, fun o e' he hst hm => ?_⟩
  obtain ⟨e, hold, hmove⟩ := h o e' he
  exact hs.2 o e hold (hmove.held hst) (hc.subset hm)

theorem Fades.tracks {s t : State} (h : Fades s t) (hc : (claims t).Sublist (claims s)) : Tracks s t := ⟨h, h.claimed hc⟩

theorem fades_of_entries {s t : State} (h : ∀ o, entryOf t o = entryOf s o) : Fades s t := fun o e he => ⟨e, h o ▸ he, .refl e⟩

/-- An operation that leaves the entries as they are and adds no claim. -/
theorem shifts_of_entries {s t : State} (h : ∀ o, entryOf t o = entryOf s o) (hc : (claims t).Sublist (claims s)) : Shifts s t :=
  ⟨(fades_of_entries h).tracks hc, fun o x => by rwa [h o]⟩

/-- An operation that leaves the Tracker alone. -/
theorem shifts_of_trk {s t : State} (h : t.trk = s.trk) : Shifts s t :=
  shifts_of_entries (entryOf_congr h) (by simp [claims, h])

theorem tracks_of_trk {s t : State} (h : t.trk = s.trk) : Tracks s t := (shifts_of_trk h).toTracks

theorem Shifts.foldl {α : Type} (f : State → α → State) (h : ∀ s a, Shifts s (f s a)) (l : List α) (s : State) :
    Shifts s (l.foldl f s) := by
  induction l generalizing s with
  | nil => exact .refl s
  | cons a l ih => exact (h s a).trans (ih _)

theorem Tracks.foldl {α : Type} (f : State → α → State) (h : ∀ s a, Tracks s (f s a)) (l : List α) (s : State) :
    Tracks s (l.foldl f s) := by
  induction l generalizing s with
  | nil => exact .refl s
  | cons a l ih => exact (h s a).trans (ih _)

@[simp] theorem claims_setEntry (o : Owner) (e : Option Entry) (s : State) : claims (setEntry o e s) = claims s := by
  simp [claims]

/-- One entry changed in place. -/
theorem shifts_setEntry {o : Owner} {e e' : Entry} {s : State} (he : entryOf s o = some e) (h : EntryMove e e') :
    Shifts s (setEntry o (some e') s) := by
  refine ⟨Fades.tracks (fun p x hx => ?_) (by simp), fun p hp => ?_⟩
  · rw [entryOf_setEntry] at hx
    split at hx
    next hpo => subst hpo; cases hx; exact ⟨e, he, h⟩
    next => exact ⟨x, hx, .refl x⟩
  · rw [entryOf_setEntry]
    split
    · rfl
    · exact hp

/-- One entry ends. -/
theorem tracks_setEntry_none (o : Owner) (s : State) : Tracks s (setEntry o none s) := by
  refine Fades.tracks (fun p x hx => ?_) (by simp)
  rw [entryOf_setEntry] at hx
  split at hx
  · contradiction
  · exact ⟨x, hx, .refl x⟩

theorem updateEntry_free {o : Owner} {s : State} (f : Entry → Entry) (h : entryOf s o = none) : updateEntry o f s = setEntry o none s := by
  simp [updateEntry, h]

theorem updateEntry_used {o : Owner} {e : Entry} {s : State} (f : Entry → Entry) (h : entryOf s o = some e) :
    updateEntry o f s = setEntry o (some (f e)) s := by
  simp [updateEntry, h]

/-- A FREE entry is set FREE again. -/
theorem setEntry_free {o : Owner} {s : State} (h : entryOf s o = none) : setEntry o none s = s := by
  cases o with
  | single => simp only [entryOf] at h; simp only [setEntry, putEntry, ← h]
  | tag k =>
    have hk : s.trk.queued.set k none = s.trk.queued := by
      rw [entryOf, Vector.get_eq_getElem] at h
      rw [← h]
      simp
    simp only [setEntry, putEntry, hk]

/-- A change in place of whatever entry an owner has. -/
theorem shifts_updateEntry {o : Owner} {f : Entry → Entry} {s : State} (h : ∀ e, entryOf s o = some e → EntryMove e (f e)) :
    Shifts s (updateEntry o f s) := by
  cases he : entryOf s o with
  | none => rw [updateEntry_free f he, setEntry_free he]; exact .refl s
  | some e => rw [updateEntry_used f he]; exact shifts_setEntry he (h e he)

end Sys2Proof.LinkPassage
end

