-- ==== Sys2Proof/Proofs/TrackerMoves.lean ====
section
namespace Sys2Proof.LinkPassage
open Sys2Proof Sys2Proof.Machine

/-! ### Holding, forwarding and the commands released (R28, R33) -/

@[simp] theorem setEntry_setEntry (o : Owner) (e f : Option Entry) (s : State) : setEntry o f (setEntry o e s) = setEntry o f s := by
  cases o <;> simp [setEntry, putEntry]

/-- The state with an entry's COMMAND among those to be sent when the event ends (R28). -/
def toSend (o : Owner) (s : State) : State :=
  { s with trk := { s.trk with released := s.trk.released ++ [o] } }

@[simp] theorem entryOf_toSend (o p : Owner) (s : State) : entryOf (toSend o s) p = entryOf s p := by cases p <;> rfl

/-- An entry that has just been written is forwarded where it is HELD with no hold reason left (R28). -/
theorem forwardEntry_setEntry (o : Owner) (e : Entry) (s : State) :
    forwardEntry o (setEntry o (some e) s) =
      if e.state = .held ∧ e.queueWait = false ∧ e.ringWindow = false then
        toSend o (setEntry o (some { e with state := .forwarded }) s)
      else setEntry o (some e) s := by
  simp [forwardEntry, entryOf_setEntry, toSend]

/-- A HELD entry that is forwarded takes a claim that it had not (R28, R30). -/
theorem claimed_toSend {o : Owner} {e e' : Entry} {s : State} (he : entryOf s o = some e) (hs : e.state = .held)
    (hf : e'.state ≠ .held) (h : Claimed s) : Claimed (toSend o (setEntry o (some e') s)) := by
  have hc : claims (toSend o (setEntry o (some e') s)) = claims s ++ [o] := by simp [claims, toSend]
  refine ⟨?_, fun p x hx hheld => ?_⟩
  · rw [hc, List.nodup_append]
    exact ⟨h.1, by simp, fun a ha b hb => by
      rw [List.mem_singleton.1 hb]; rintro rfl; exact h.2 a e he hs ha⟩
  · rw [entryOf_toSend, entryOf_setEntry] at hx
    split at hx
    next => cases hx; exact absurd hheld hf
    next hp => simpa [hc, hp] using h.2 p x hx hheld

/-- An entry that loses hold reasons, and is forwarded where it has none left (R28). -/
theorem shifts_unhold {o : Owner} {e : Entry} {s : State} (he : entryOf s o = some e) (wait window : Bool)
    (hw : wait = true → e.queueWait = true) (hr : window = true → e.ringWindow = true) :
    Shifts s (forwardEntry o (setEntry o (some { e with queueWait := wait, ringWindow := window }) s)) := by
  have hm := EntryMove.unhold e wait window hw hr
  rw [forwardEntry_setEntry]
  dsimp only
  split
  next hf =>
    rw [if_pos hf] at hm
    obtain ⟨⟨hfade, -⟩, hstay⟩ := shifts_setEntry he hm
    exact ⟨⟨fun p x hx => hfade p x (by simpa using hx), claimed_toSend he hf.1 (by simp)⟩,
      fun p hp => by simpa using hstay p hp⟩
  next hf =>
    rw [if_neg hf] at hm
    exact shifts_setEntry he hm

/-- What the release of a span does to its owner's entry, if it is in use (R28, R109). -/
theorem releaseEntry_eq (o : Owner) (s : State) :
    releaseEntry o s =
      match entryOf s o with
      | none => s
      | some e => forwardEntry o (setEntry o (some { e with queueWait := e.queueWait, ringWindow := false }) s) := by
  unfold releaseEntry
  split
  next he => rw [updateEntry_free _ he, setEntry_free he]; simp [forwardEntry, he]
  next e he => rw [updateEntry_used _ he]

theorem shifts_releaseEntry (o : Owner) (s : State) : Shifts s (releaseEntry o s) := by
  rw [releaseEntry_eq]
  split
  next => exact .refl s
  next e he => exact shifts_unhold he e.queueWait false id (by simp)

theorem shifts_clearQueueWait (s : State) : Shifts s (clearQueueWait s) := by
  unfold clearQueueWait
  split
  next => exact .refl s
  next =>
    split
    next => exact .refl s
    next e he =>
      split
      next => exact shifts_unhold (o := .single) he false e.ringWindow (by simp) id
      next => exact .refl s

theorem shifts_reportOutcome (c : CtxSlot) (o : Owner) (ok : Bool) (s : State) : Shifts s (reportOutcome c o ok s) := by
  unfold reportOutcome
  split
  next => exact .refl s
  next =>
    split
    next => exact .refl s
    next => exact Shifts.trans (shifts_of_trk (by simp)) (Shifts.foldl _ (fun s o => shifts_releaseEntry o s) _ _)

theorem shifts_deleteRing (c : CtxSlot) (s : State) : Shifts s (deleteRing c s) := by
  unfold deleteRing
  split
  next => exact .refl s
  next => exact Shifts.trans (shifts_of_trk (by simp)) (Shifts.foldl _ (fun s o => shifts_releaseEntry o s) _ _)

theorem shifts_reportEnd (o : Owner) (e : Entry) (r : Option Bool) (s : State) : Shifts s (reportEnd o e r s) := by
  unfold reportEnd
  split
  next => exact shifts_reportOutcome _ _ _ _
  next => exact .refl s

/-! ### The commands sent when an event ends (R28) -/

/-- The COMMAND that is sent for a released entry; none where it has ended. -/
def commandOf (s : State) (o : Owner) : Option DownFrame :=
  (entryOf s o).map fun e => .command e.cmd

/-- The acceptance record that a released entry adds: a queued one's, where it is still in use (R28). -/
def swallowOf (s : State) : Owner → Option AcceptRecord
  | .single => none
  | .tag k => (entryOf s (.tag k)).map fun _ => { tag := k, action := .swallow }

theorem foldl_passReleased (l : List Owner) (s : State) :
    l.foldl passReleased s =
      { s with
        drv := { s.drv with sent := s.drv.sent ++ l.filterMap (commandOf s) }
        trk := { s.trk with accepts := s.trk.accepts ++ l.filterMap (swallowOf s) } } := by
  induction l generalizing s with
  | nil => simp
  | cons o l ih =>
    have hc : commandOf (passReleased s o) = commandOf s := by
      funext p; cases p <;> simp [commandOf, entryOf]
    have hs : swallowOf (passReleased s o) = swallowOf s := by
      funext p; cases p <;> simp [swallowOf, entryOf]
    rw [List.foldl_cons, ih, hc, hs]
    cases he : entryOf s o with
    | none => cases o <;> simp [passReleased, he, commandOf, swallowOf, List.filterMap_cons]
    | some e => cases o <;> simp [passReleased, he, commandOf, swallowOf, sendDown, List.filterMap_cons]

/-- What is sent, and what joins the acceptance list, for the commands released in an event (R28, R33). -/
theorem flushReleased_eq (s : State) :
    flushReleased s =
      { s with
        drv := { s.drv with sent := s.drv.sent ++ s.trk.released.filterMap (commandOf s) }
        trk := { s.trk with
          accepts := s.trk.accepts ++ s.trk.released.filterMap (swallowOf s), released := [] } } := by
  have hc : commandOf { s with trk := { s.trk with released := [] } } = commandOf s := by funext p; cases p <;> rfl
  have hs : swallowOf { s with trk := { s.trk with released := [] } } = swallowOf s := by funext p; cases p <;> rfl
  rw [flushReleased, foldl_passReleased, hc, hs]

@[simp] theorem flushReleased_released (s : State) : (flushReleased s).trk.released = [] := by rw [flushReleased_eq]

@[simp] theorem entryOf_flushReleased (s : State) (o : Owner) : entryOf (flushReleased s) o = entryOf s o := by
  cases o <;> simp [entryOf]

theorem shifts_flushReleased (s : State) : Shifts s (flushReleased s) := by
  have h : ∀ l : List Owner, ((l.filterMap (swallowOf s)).map fun r => Owner.tag r.tag).Sublist l := by
    intro l
    induction l with
    | nil => simp
    | cons o l ih =>
      cases h : swallowOf s o with
      | none => rw [List.filterMap_cons_none h]; exact ih.cons o
      | some r =>
        have : Owner.tag r.tag = o := by
          cases o <;> simp [swallowOf] at h
          obtain ⟨_, _, rfl⟩ := h
          rfl
        rw [List.filterMap_cons_some h, List.map_cons, this]
        exact ih.cons_cons o
  refine shifts_of_entries (entryOf_flushReleased s) ?_
  rw [flushReleased_eq]
  simpa [claims] using h s.trk.released

/-! ### The end of an entry (R33) -/

theorem tracks_endEntry (o : Owner) (r : Option Bool) (s : State) : Tracks s (endEntry o r s) := by
  unfold endEntry
  split
  next => exact .refl s
  next e he =>
    have h1 : Tracks s (reportEnd o e r (releaseEntrySlots o e s)) :=
      (tracks_of_trk (by simp)).trans (shifts_reportEnd o e r _).toTracks
    have h2 := h1.trans (tracks_of_trk (t := leaveSnapshot o (e.touched.foldl lowerInFlight (noticeWithheld o e
      (reportEnd o e r (releaseEntrySlots o e s))))) (by simp))
    have h3 := h2.trans (tracks_setEntry_none o _)
    split
    next => exact h3
    next => exact h3.trans (shifts_clearQueueWait _).toTracks

/-! ### Bursts and completions -/

theorem shifts_endEntryBurst (o : Owner) (s : State) : Shifts s (endEntryBurst o s) :=
  shifts_updateEntry fun e _ => EntryMove.endBurst e

theorem shifts_countDriveBurst (n : Nat) (s : State) : Shifts s (countDriveBurst n s) := by
  unfold countDriveBurst
  split
  next => exact .refl s
  next =>
    split
    next => exact (shifts_of_trk (by rfl)).trans (shifts_endEntryBurst _ _)
    next => exact shifts_of_trk rfl

theorem shifts_closeUpstreamSide (b : DriveBurst) (s : State) : Shifts s (closeUpstreamSide b s) := shifts_of_trk (by simp)

theorem shifts_closeShort (b : DriveBurst) (s : State) : Shifts s (closeShort b s) := by
  unfold closeShort
  dsimp only
  refine Shifts.trans (Shifts.trans (shifts_of_trk ?_) (shifts_endEntryBurst b.owner _)) (shifts_closeUpstreamSide b _)
  simp

theorem shifts_closeOwned (p : Owner → Bool) (s : State) : Shifts s (closeOwned p s) := by
  unfold closeOwned
  split
  next => exact .refl s
  next => exact shifts_closeShort _ _

theorem EntryMove.markFailed (p : PartFail) (e : Entry) : EntryMove e (markFailed p e) :=
  .of_same rfl rfl rfl rfl rfl rfl rfl rfl

theorem shifts_checkShort (o : Owner) (s : State) : Shifts s (checkShort o s) := by
  unfold checkShort
  split
  next => exact .refl s
  next =>
    split
    next => exact (shifts_updateEntry (o := o) fun e _ => EntryMove.markFailed .protocol e).trans (shifts_of_trk (by simp))
    next => exact .refl s

theorem shifts_cutExcess (n left : Nat) (s : State) : Shifts s (cutExcess n left s) := shifts_of_trk (by simp)

theorem EntryMove.passed (off : Nat) (t : Treated) (e : Entry) : EntryMove e (passedEntry off t e) := by
  unfold passedEntry countWithheld countPassed Machine.markFailed
  refine .of_same ?_ ?_ ?_ ?_ ?_ ?_ ?_ ?_ <;> (dsimp only; repeat' split) <;> simp

theorem shifts_passSector (o : Owner) (w : Sector) (s : State) : Shifts s (passSector o w s).2 := by
  unfold passSector
  split
  next e he =>
    split
    next b _ =>
      have h := shifts_setEntry he (EntryMove.passed (nextOffset b) (treatSector s e (nextOffset b) w) e)
      exact h.trans (shifts_of_trk (by simp))
    next => exact shifts_of_trk rfl
  next => exact shifts_of_trk rfl

theorem shifts_passSectors (o : Owner) (l : List Sector) (s : State) : Shifts s (passSectors o l s).2 := by
  induction l generalizing s with
  | nil => exact .refl s
  | cons w l ih => exact (shifts_passSector o w s).trans (ih _)

theorem shifts_answerAhead (k : Tag) (s : State) : Shifts s (answerAhead k s) := by
  have hmap : (s.trk.accepts.map fun r => if r.tag = k then { r with action := .swallow } else r).map (fun r => Owner.tag r.tag) =
      s.trk.accepts.map fun r => Owner.tag r.tag := by
    rw [List.map_map]
    refine List.map_congr_left fun r _ => ?_
    by_cases h : r.tag = k <;> simp [h]
  unfold answerAhead
  split
  next => exact shifts_of_entries (fun o => by cases o <;> rfl) (by simp [claims, placePart, placeItem, hmap])
  next => exact .refl s

/-! ### Frames from the drive -/

theorem shifts_openBurst {r : ReadyFrame} {e : Entry} {s : State} (he : entryOf s (readyOwner r) = some e) (hs : e.state = .forwarded)
    (hk : e.kind ≠ .bridge) : Shifts s (openBurst r e s) := by
  refine (shifts_setEntry he (EntryMove.burst r hs hk)).trans (shifts_of_trk ?_)
  simp [openBurst]
  rfl

/-- A READY is matched to a FORWARDED entry of a transfer command or an OTHER (R4). -/
theorem readyMatch_some {r : ReadyFrame} {s : State} {e : Entry} (h : readyMatch r s = some e) :
    s.drv.burst = none ∧ entryOf s (readyOwner r) = some e ∧ e.state = .forwarded ∧ kindAllows e.kind (readyDir r) = true := by
  unfold readyMatch at h
  split at h
  · contradiction
  · simp_all [Option.filter_eq_some_iff]

theorem kindAllows_ne_bridge {k : CmdKind} {d : Dir} (h : kindAllows k d = true) : k ≠ .bridge := by
  rintro rfl; simp [kindAllows] at h

theorem shifts_takeReady (r : ReadyFrame) (s : State) : Shifts s (takeReady r s) := by
  unfold takeReady
  split
  next => exact shifts_of_trk (by unfold strayReady; split <;> simp)
  next e he =>
    obtain ⟨-, he, hs, hk⟩ := readyMatch_some he
    have h := shifts_openBurst he hs (kindAllows_ne_bridge hk)
    dsimp only
    split
    next =>
      refine (h.trans (shifts_updateEntry (o := readyOwner r) fun e _ => EntryMove.markFailed .protocol e)).trans
        (shifts_of_trk ?_)
      simp [slipPastEnd]
    next => exact h

theorem strayDataDrive_trk (n : Nat) (s : State) : (strayDataDrive n s).trk = s.trk := by
  unfold strayDataDrive
  repeat' split
  all_goals simp

theorem shifts_takeDataDrive (d : DataFrame) (s : State) : Shifts s (takeDataDrive d s) := by
  unfold takeDataDrive
  split
  next b _ =>
    split
    next =>
      unfold passUp
      dsimp only
      refine Shifts.trans (Shifts.trans ?_ (shifts_countDriveBurst _ _)) (shifts_cutExcess _ _ _)
      exact (shifts_passSectors _ _ s).trans (shifts_of_trk (by rfl))
    next => exact shifts_of_trk (strayDataDrive_trk _ _)
  next => exact shifts_of_trk (strayDataDrive_trk _ _)

theorem shifts_acceptedBy (r : AcceptRecord) (f : StatusFrame) (s : State) : Shifts s (acceptedBy r f s) := by
  unfold acceptedBy
  split
  next =>
    have h : Shifts s (updateEntry (.tag r.tag) (fun e => { e with answered := true }) s) :=
      shifts_updateEntry fun e _ => .of_same rfl rfl rfl rfl rfl rfl rfl rfl
    exact h.trans (shifts_of_trk (by rfl))
  next => exact .refl s

theorem tracks_rejectedBy (r : AcceptRecord) (f : StatusFrame) (s : State) : Tracks s (rejectedBy r f s) := by
  refine (tracks_endEntry (.tag r.tag) (some false) s).trans (tracks_of_trk ?_)
  unfold rejectedBy
  cases r.action <;> rfl

/-- A record that leaves the acceptance list takes its claim with it. -/
theorem shifts_dropRecord {r : AcceptRecord} {rest : List AcceptRecord} {s : State} (h : s.trk.accepts = r :: rest) :
    Shifts s { s with trk := { s.trk with accepts := rest } } :=
  shifts_of_entries (fun o => by cases o <;> rfl) (by simp [claims, h])

theorem tracks_takeAcceptance {r : AcceptRecord} {rest : List AcceptRecord} {s : State} (f : StatusFrame)
    (h : s.trk.accepts = r :: rest) : Tracks s (takeAcceptance r rest f s) := by
  refine ((shifts_dropRecord h).toTracks.trans ?_).trans (shifts_flushReleased _).toTracks
  split
  next => exact (shifts_clearQueueWait _).toTracks
  next =>
    split
    next => exact ((shifts_acceptedBy r f _).trans (shifts_clearQueueWait _)).toTracks
    next => exact tracks_rejectedBy r f _

theorem tracks_completeSingle (f : StatusFrame) (s : State) : Tracks s (completeSingle f s) := by
  have h1 : ∀ u : State, Shifts u (if f.outcome = 1#8 then checkShort .single u else u) := fun u => by
    split
    · exact shifts_checkShort _ u
    · exact .refl u
  unfold completeSingle
  dsimp only
  refine Tracks.trans (Tracks.trans ((shifts_closeOwned (· = .single) s).trans (h1 _)).toTracks ?_) (shifts_flushReleased _).toTracks
  split
  next => split <;> exact (tracks_endEntry _ _ _).trans (tracks_of_trk rfl)
  next => exact (tracks_endEntry _ _ _).trans (tracks_of_trk rfl)

theorem tracks_takeStatus (f : StatusFrame) (s : State) : Tracks s (takeStatus f s) := by
  unfold takeStatus
  split
  next h =>
    split
    next => exact tracks_of_trk (by simp)
    next => exact tracks_takeAcceptance f h
  next =>
    split
    next => exact tracks_completeSingle f s
    next => exact tracks_of_trk (by simp)

theorem tracks_endDone (l : List Tag) (s : State) : Tracks s (endDone l s).2 := by
  induction l generalizing s with
  | nil => exact .refl s
  | cons k rest ih =>
    have h := ((shifts_checkShort (.tag k) s).trans (shifts_answerAhead k _)).toTracks
    unfold endDone
    dsimp only
    split <;> exact (h.trans (tracks_endEntry _ _ _)).trans (ih _)

theorem tracks_endFailed (s : State) (p : Byte × Byte) : Tracks s (endFailed s p) :=
  (shifts_answerAhead _ s).toTracks.trans (tracks_endEntry _ _ _)

theorem tracks_abortEntries (l : List Tag) (s : State) : Tracks s (abortEntries l s).2 := by
  have h1 : ∀ (k : Tag) (e : Entry) (u : State), Tracks u (abortEntry k e u).2 := fun k e u => by
    unfold abortEntry
    repeat' split
    all_goals exact (tracks_endEntry _ _ _).trans (tracks_of_trk rfl)
  induction l generalizing s with
  | nil => exact .refl s
  | cons k rest ih =>
    unfold abortEntries
    split
    next => exact ih s
    next e _ => exact (h1 k e s).trans (ih _)

/-- The acceptance list is emptied (R36, R39, R40). -/
theorem shifts_noAccepts (s : State) : Shifts s { s with trk := { s.trk with accepts := [] } } :=
  shifts_of_entries (fun o => by cases o <;> rfl) (by simp [claims])

theorem shifts_clearAccepts (s : State) : Shifts s (clearAccepts s) :=
  shifts_of_entries (fun o => by cases o <;> rfl) (by simp [claims, clearAccepts])

theorem tracks_abortQueued (s : State) : Tracks s (abortQueued s).2 :=
  ((tracks_abortEntries (List.finRange 32) s).trans (shifts_noAccepts _).toTracks).trans (tracks_of_trk (by simp [abortQueued]))

theorem tracks_abortSingle (s : State) : Tracks s (abortSingle s) := by
  unfold abortSingle
  split
  next => exact .refl s
  next =>
    split
    next => exact (tracks_endEntry _ _ _).trans (tracks_of_trk rfl)
    next => exact (shifts_clearQueueWait s).toTracks

theorem relayDone_trk (d : DoneFrame) (l : List Tag) (m : List (Byte × Byte)) (s : State) : (relayDone d l m s).trk = s.trk := by
  unfold relayDone
  split <;> rfl

theorem slipDone_trk (b : Bool) (s : State) : (slipDone b s).trk = s.trk := by
  unfold slipDone
  split <;> simp

theorem tracks_takeDone (d : DoneFrame) (s : State) : Tracks s (takeDone d s) := by
  unfold takeDone
  dsimp only
  refine Tracks.trans ?_ (shifts_flushReleased _).toTracks
  have h1 := (shifts_closeOwned (doneNames d) s).toTracks.trans
    (tracks_of_trk (slipDone_trk (doneRemoves d (checkDone d (closeOwned (doneNames d) s))) _))
  have h2 := (h1.trans (tracks_endDone (checkDone d (closeOwned (doneNames d) s)).tags _)).trans
    (Tracks.foldl endFailed tracks_endFailed (checkDone d (closeOwned (doneNames d) s)).pairs _)
  split
  next => exact ((h2.trans (tracks_abortQueued _)).trans (tracks_of_trk (relayDone_trk _ _ _ _))).trans (tracks_abortSingle _)
  next => exact h2.trans (tracks_of_trk (relayDone_trk _ _ _ _))

theorem tracks_takeDrive (f : Frame) (s : State) : Tracks s (takeDrive f s) := by
  unfold takeDrive
  split
  next =>
    unfold takeInReset
    split
    next => dsimp only; split <;> exact tracks_of_trk rfl
    all_goals exact .refl s
  next =>
    split
    next =>
      split
      next => exact (shifts_takeReady _ s).toTracks
      next => exact (shifts_takeDataDrive _ s).toTracks
      next => exact tracks_takeStatus _ s
      next => exact tracks_takeDone _ s
      all_goals exact .refl s
    next => exact tracks_of_trk (by simp)

end Sys2Proof.LinkPassage
end

