-- ==== Sys2Proof/Proofs/StepEvents.lean ====
section
namespace Sys2Proof.LinkPassage
open Sys2Proof Sys2Proof.Machine

/-! ### The events of a step -/

/-- What one step does to the state behind the queue: the events of the rows, and the reference period of an empty queue. -/
inductive Event (s : State) : State → Prop
  | powerOn : Event s (powerOnEvent s)
  | upstreamUp : Event s (upstreamUpEvent s)
  | linkReset : Event s (linkResetEvent s)
  | driveUp : Event s (driveUpEvent s)
  | driveLost : Event s (driveLostEvent s)
  | tick : Event s (tickEvent s)
  | period : Event s (referencePeriod s)
  | up (f : Frame) : Event s (arriveUp f s)
  | drive (f : Frame) : Event s (arriveDrive f s)
  | send : Event s (transmit s)
  | start : Event s (startJob s)
  | setup : Event s (setupEvent s)
  | stream : Event s (streamEvent s)
  | parity : Event s (parityEvent s)
  | unwrap : Event s (unwrapEvent s)
  | receipt : Event s (receiptEvent s)
  | token : Event s (tokenEvent s)

/-- Every row is one of the events (log 6: a request row is the arrival of its DATA frame). -/
theorem event_of_exec {i : Instr} {s t : State} (h : exec i s = .next t) : Event s t := by
  cases i <;> (obtain rfl := Host.Outcome.next.inj h)
  case powerOn => exact .powerOn
  case upstreamLinkUp => exact .upstreamUp
  case linkReset => exact .linkReset
  case driveLinkUp => exact .driveUp
  case driveLinkLost => exact .driveLost
  case tick => exact .tick
  case unexpectedFrame port f => cases port <;> [exact .up f; exact .drive f]
  case readyFromDrive => exact .drive _
  case dataFromDrive => exact .drive _
  case statusFromDrive => exact .drive _
  case doneFromDrive => exact .drive _
  case sendUpstreamFrame => exact .send
  case engineJobStart => exact .start
  case setupComplete => exact .setup
  case streamComplete => exact .stream
  case parityFailure => exact .parity
  case unwrapComplete => exact .unwrap
  case receiptCheckComplete => exact .receipt
  case timeTokenCheckComplete => exact .token
  all_goals exact .up _

/-- A step is an event, of the state whose queue has lost its first command if it had one. -/
theorem event_of_step {s t : State} (h : step s = .next t) : ∃ l, Event { s with pending := l } t := by
  unfold step at h
  split at h
  · cases h; exact ⟨s.pending, .period⟩
  · exact ⟨_, event_of_exec h⟩

/-! ### What the ports keep -/

/-- A property that frames standing on the links, free values and the queue do not touch, and that the settling and the taking of a frame keep. -/
structure KeptByPorts (P : State → Prop) : Prop where
  links : ∀ (s : State) (u d : List Frame) (n : Nat), P s →
    P { s with up := { s.up with held := u }, drv := { s.drv with held := d }, choices := n }
  settle : ∀ s, P s → P (settleHeads s)
  up : ∀ f s, P s → P (takeUp f s)
  drive : ∀ f s, P s → P (takeDrive f s)

/-- What the ports keep holds after they have taken all they can (R9; log 4). -/
theorem KeptByPorts.run {P : State → Prop} (h : KeptByPorts P) {s : State} (hs : P s) : P (run s) := by
  have hone : ∀ s, P s → P (takeOne s) := by
    intro s hs
    unfold takeOne stepUp stepDrive
    split
    next => exact hs
    next f _ _ => exact h.up f _ (h.links s s.up.held.tail s.drv.held s.choices hs)
    next g _ _ => exact h.drive g _ (h.links s s.up.held s.drv.held.tail s.choices hs)
    next f g _ _ =>
      split
      · exact h.up f _ (h.links s s.up.held.tail s.drv.held _ hs)
      · exact h.drive g _ (h.links s s.up.held s.drv.held.tail _ hs)
  have hpump : ∀ n s, P s → P (pump n s) := by
    intro n
    induction n with
    | zero => exact h.settle
    | succ n ih => exact fun s hs => ih _ (hone _ (h.settle s hs))
  exact hpump _ s hs

theorem KeptByPorts.arriveUp {P : State → Prop} (h : KeptByPorts P) (f : Frame) {s : State} (hs : P s) : P (arriveUp f s) := by
  unfold Machine.arriveUp
  split
  · exact h.run (h.links s _ s.drv.held s.choices hs)
  · exact hs

theorem KeptByPorts.arriveDrive {P : State → Prop} (h : KeptByPorts P) (f : Frame) {s : State} (hs : P s) : P (arriveDrive f s) := by
  unfold Machine.arriveDrive
  split
  · exact h.run (h.links s s.up.held _ s.choices hs)
  · exact hs

/-! ### Admission -/

/-- The Classifier leaves the Tracker alone. -/
theorem classify_trk {o : Owner} {c : CommandFrame} {s : State} {a : Accepted} (h : classify o c s = .ok a) : a.after.trk = s.trk := by
  unfold classify classifyRead classifyWrite classifyRing classifyFrontier plainPlan at h
  dsimp only at h
  repeat' split at h
  all_goals first
    | contradiction
    | (cases h; simp)

@[simp] theorem entryOf_enter (o p : Owner) (e : Entry) (s : State) : entryOf (enter o e s) p = if p = o then some e else entryOf s p := by
  rw [enter, entryOf_congr (t := e.touched.foldl raiseInFlight _) (s := setEntry o (some e) s) (by simp), entryOf_setEntry]

@[simp] theorem claims_enter (o : Owner) (e : Entry) (s : State) : claims (enter o e s) = claims s := by
  simp [claims, enter]

/-- The entry of an admitted command is legal under its own owner (R19, R24). -/
theorem newEntry_legal {c : CommandFrame} (plan : List Run) (ring : Option CtxSlot) (wait window ans : Bool)
    (hk : cmdKind c ≠ .bridge) : EntryLegal (cmdOwner c) (newEntry c plan ring wait window ans) := by
  refine ⟨rfl, rfl, ?_⟩
  cases wait <;> cases window <;> simp [newEntry, hk]

theorem entryLaw_enter {o : Owner} {e : Entry} {s : State} (hs : EntryLaw s) (he : EntryLegal o e) : EntryLaw (enter o e s) := by
  intro p x hx
  rw [entryOf_enter] at hx
  split at hx
  next h => cases hx; exact h ▸ he
  next => exact hs p x hx

/-- A HELD entry that enters has no claim. -/
theorem Claimed.enter {o : Owner} {e : Entry} {s : State} (hs : Claimed s) (h : e.state = .held → o ∉ claims s) :
    Claimed (enter o e s) := by
  refine ⟨by simpa using hs.1, fun p x hx hheld => ?_⟩
  rw [entryOf_enter] at hx
  rw [claims_enter]
  split at hx
  next hp => cases hx; exact hp ▸ h hheld
  next => exact hs.2 p x hx hheld

/-- A law that reads the Tracker alone. -/
theorem entryLaw_congr {s t : State} (h : t.trk = s.trk) (hs : EntryLaw s) : EntryLaw t := (tracks_of_trk h).fades.entryLaw hs

theorem Claimed.congr {s t : State} (h : t.trk = s.trk) (hs : Claimed s) : Claimed t := (tracks_of_trk h).claims hs

/-- Entries as they are, and a new record at the tail of the acceptance list for an entry that is not HELD and had no claim. -/
theorem Claimed.addRecord {r : AcceptRecord} {s : State} (hs : Claimed s) (hr : s.trk.released = [])
    (hn : ∀ q ∈ s.trk.accepts, q.tag ≠ r.tag) (he : ∀ e, entryOf s (.tag r.tag) = some e → e.state ≠ .held) :
    Claimed { s with trk := { s.trk with accepts := s.trk.accepts ++ [r] } } := by
  have hc : claims { s with trk := { s.trk with accepts := s.trk.accepts ++ [r] } } = claims s ++ [.tag r.tag] := by
    simp [claims, hr]
  have hnew : Owner.tag r.tag ∉ claims s := by
    simp [claims, hr]
    exact fun q hq => hn q hq
  refine ⟨?_, fun o e ho hheld => ?_⟩
  · rw [hc, List.nodup_append]
    exact ⟨hs.1, by simp, fun a ha b hb => by rw [List.mem_singleton.1 hb]; rintro rfl; exact hnew ha⟩
  · have ho' : entryOf s o = some e := by cases o <;> exact ho
    rw [hc, List.mem_append, List.mem_singleton]
    rintro (h | rfl)
    · exact hs.2 o e ho' hheld h
    · exact he e ho' hheld

theorem refuseQueued_entries (c : CommandFrame) (code : Code) (s : State) : Shifts s (refuseQueued c code s) :=
  shifts_of_entries (fun o => by cases o <;> rfl) (by simp [claims, refuseQueued, placePart, placeItem, recordRefusal])

theorem refuseSingle_entries (c : CommandFrame) (code : Code) (s : State) : Shifts s (refuseSingle c code s) :=
  shifts_of_entries (fun o => by cases o <;> rfl) (by simp [claims, refuseSingle, placePart, placeItem, recordRefusal])

/-- What can become of a COMMAND: it is refused, an accepted queued or non-queued command enters, or a BRIDGE becomes LOCAL (R21 to R23). -/
inductive Taken (c : CommandFrame) (s : State) : State → Prop
  | refusedQueued (code : Code) : Taken c s (refuseQueued c code s)
  | refusedSingle (code : Code) : Taken c s (refuseSingle c code s)
  | refusedPlain (code : Code) : Taken c s (refusePlain code s)
  | queued (a : Accepted) : cmdOwner c = .tag (cmdTag c) → cmdKind c ≠ .bridge → entryOf s (.tag (cmdTag c)) = none →
      (∀ r ∈ s.trk.accepts, r.tag ≠ cmdTag c) → classify (.tag (cmdTag c)) c s = .ok a → Taken c s (enterQueued c a)
  | single (a : Accepted) : cmdOwner c = .single → cmdKind c ≠ .bridge → s.trk.single = none →
      classify .single c s = .ok a → Taken c s (enterSingle c a)
  | other : cmdOwner c = .single → cmdKind c ≠ .bridge → s.trk.single = none →
      Taken c s (enterSingle c (plainPlan [] s))
  | bridge : cmdOwner c = .single → cmdKind c = .bridge → s.trk.single = none →
      Taken c s (placeItem (bridgeReady .toDrive) (setEntry .single (some (bridgeEntry c)) s))

theorem taken_takeCommand (c : CommandFrame) (s : State) : Taken c s (takeCommand c s) := by
  have hq : kindQueued (cmdKind c) = true → Taken c s (takeQueued c s) := by
    intro hk
    have hb : cmdKind c ≠ .bridge := by intro h; simp [h, kindQueued] at hk
    unfold takeQueued
    split
    next => exact .refusedQueued _
    next hfree =>
      split
      next => exact .refusedQueued _
      next =>
        split
        next => exact .refusedQueued _
        next =>
          split
          next => exact .refusedQueued _
          next a ha =>
            simp only [Bool.or_eq_true, Option.isSome_iff_ne_none, List.any_eq_true, decide_eq_true_eq, not_or, not_not,
              not_exists, not_and] at hfree
            exact .queued a (by simp [cmdOwner, hk]) hb hfree.1 hfree.2 ha
  have hs : cmdKind c = .read ∨ cmdKind c = .write → Taken c s (takeSingle c s) := by
    intro hk
    have ho : cmdOwner c = .single := by rcases hk with hk | hk <;> simp [cmdOwner, hk, kindQueued]
    have hb : cmdKind c ≠ .bridge := by rcases hk with hk | hk <;> simp [hk]
    unfold takeSingle
    split
    next => exact .refusedSingle _
    next hfree =>
      split
      next => exact .refusedSingle _
      next =>
        split
        next => exact .refusedSingle _
        next a ha => exact .single a ho hb (by simpa using hfree) ha
  unfold takeCommand
  split
  next h => exact hq (by simp [h, kindQueued])
  next h => exact hq (by simp [h, kindQueued])
  next h => exact hs (.inl h)
  next h => exact hs (.inr h)
  next h =>
    unfold takeOther
    split
    next => exact .refusedPlain _
    next hfree =>
      split
      next => exact .refusedPlain _
      next => exact .other (by simp [cmdOwner, h, kindQueued]) (by simp [h]) (by simpa using hfree)
  next h =>
    unfold takeBridge
    split
    next => exact .refusedPlain _
    next hfree =>
      split
      next => exact .refusedPlain .malformed
      next => exact .bridge (by simp [cmdOwner, h, kindQueued]) h (by simpa using hfree)

/-- The entries behind the admission of a queued command, whatever is sent or placed for it. -/
theorem entryOf_enterQueued (c : CommandFrame) (a : Accepted) (p : Owner) :
    entryOf (enterQueued c a) p =
      if p = .tag (cmdTag c) then some (newEntry c a.plan a.ringWrite false a.heldSpan a.heldSpan) else entryOf a.after p := by
  rw [← entryOf_enter]
  unfold enterQueued
  dsimp only
  split <;> cases p <;> rfl

theorem entryOf_enterSingle (c : CommandFrame) (a : Accepted) (p : Owner) :
    entryOf (enterSingle c a) p =
      if p = .single then some (newEntry c a.plan a.ringWrite (queuedWork a.after) a.heldSpan false) else entryOf a.after p := by
  rw [← entryOf_enter]
  unfold enterSingle
  dsimp only
  split <;> cases p <;> rfl

theorem bridgeEntry_legal {c : CommandFrame} (hk : cmdKind c = .bridge) (ho : cmdOwner c = .single) :
    EntryLegal .single (bridgeEntry c) :=
  ⟨rfl, ho, by simp [bridgeEntry, newEntry], by simp [bridgeEntry, newEntry], by simp [bridgeEntry, newEntry, hk]⟩

/-- A COMMAND keeps every entry legal (R19, R20). -/
theorem entryLaw_takeCommand (c : CommandFrame) {s : State} (hs : EntryLaw s) : EntryLaw (takeCommand c s) := by
  have h := taken_takeCommand c s
  generalize takeCommand c s = t at h ⊢
  cases h with
  | refusedQueued code => exact (refuseQueued_entries c code s).fades.entryLaw hs
  | refusedSingle code => exact (refuseSingle_entries c code s).fades.entryLaw hs
  | refusedPlain code => exact entryLaw_congr rfl hs
  | queued a ho hk hf hn ha =>
    intro p x hx
    rw [entryOf_enterQueued] at hx
    split at hx
    next hp => cases hx; rw [hp, ← ho]; exact newEntry_legal _ _ _ _ _ hk
    next => exact hs p x (by rwa [entryOf_congr (classify_trk ha)] at hx)
  | single a ho hk hf ha =>
    intro p x hx
    rw [entryOf_enterSingle] at hx
    split at hx
    next hp => cases hx; rw [hp, ← ho]; exact newEntry_legal _ _ _ _ _ hk
    next => exact hs p x (by rwa [entryOf_congr (classify_trk ha)] at hx)
  | other ho hk hf =>
    intro p x hx
    rw [entryOf_enterSingle] at hx
    split at hx
    next hp => cases hx; rw [hp, ← ho]; exact newEntry_legal _ _ _ _ _ hk
    next => exact hs p x hx
  | bridge ho hk hf =>
    refine entryLaw_congr (s := setEntry .single (some (bridgeEntry c)) s) rfl fun p x hx => ?_
    rw [entryOf_setEntry] at hx
    split at hx
    next hp => cases hx; exact hp ▸ bridgeEntry_legal hk ho
    next => exact hs p x hx

theorem enterQueued_released (c : CommandFrame) (a : Accepted) : (enterQueued c a).trk.released = a.after.trk.released := by
  unfold enterQueued
  dsimp only
  split <;> simp [enter, placePart, placeItem, sendDown]

theorem enterSingle_released (c : CommandFrame) (a : Accepted) : (enterSingle c a).trk.released = a.after.trk.released := by
  unfold enterSingle
  dsimp only
  split <;> simp [enter, sendDown]

/-- A COMMAND leaves none waiting to be sent. -/
theorem takeCommand_released {c : CommandFrame} {s : State} (hr : s.trk.released = []) : (takeCommand c s).trk.released = [] := by
  have h := taken_takeCommand c s
  generalize takeCommand c s = t at h ⊢
  cases h with
  | queued a ho hk hf hn ha => rw [enterQueued_released, classify_trk ha, hr]
  | single a ho hk hf ha => rw [enterSingle_released, classify_trk ha, hr]
  | other ho hk hf => rw [enterSingle_released]; exact hr
  | _ => exact hr

/-- The single slot has no record on the acceptance list. -/
theorem single_unclaimed {s : State} (h : s.trk.released = []) : Owner.single ∉ claims s := by
  simp [claims, h]

theorem claimed_enterSingle {c : CommandFrame} {a : Accepted} (hs : Claimed a.after) (hr : a.after.trk.released = []) :
    Claimed (enterSingle c a) := by
  have h := hs.enter (o := .single) (e := newEntry c a.plan a.ringWrite (queuedWork a.after) a.heldSpan false)
    fun _ => single_unclaimed hr
  unfold enterSingle
  dsimp only
  split
  · exact h
  · exact h.congr rfl

/-- A COMMAND keeps the claims in order: a queued one takes a record exactly where it is forwarded (R21). -/
theorem claimed_takeCommand {c : CommandFrame} {s : State} (hs : Claimed s) (hr : s.trk.released = []) : Claimed (takeCommand c s) := by
  have h := taken_takeCommand c s
  generalize takeCommand c s = t at h ⊢
  cases h with
  | refusedQueued code => exact (refuseQueued_entries c code s).claims hs
  | refusedSingle code => exact (refuseSingle_entries c code s).claims hs
  | refusedPlain code => exact hs.congr rfl
  | queued a ho hk hf hn ha =>
    have htrk := classify_trk ha
    have hfree : Owner.tag (cmdTag c) ∉ claims a.after := by
      simp [claims, htrk, hr]
      exact hn
    have h := (hs.congr htrk).enter (o := .tag (cmdTag c)) (e := newEntry c a.plan a.ringWrite false a.heldSpan a.heldSpan)
      fun _ => hfree
    unfold enterQueued
    dsimp only
    split
    next => exact h.congr rfl
    next hheld =>
      have h' := h.congr (t := sendDown (.command c) (enter (.tag (cmdTag c)) (newEntry c a.plan a.ringWrite false a.heldSpan
        a.heldSpan) a.after)) rfl
      refine h'.addRecord (r := { tag := cmdTag c, action := .relay }) ?_ ?_ ?_
      · simp [enter, sendDown, htrk, hr]
      · simpa [enter, sendDown, htrk] using hn
      · intro e he
        have : entryOf (sendDown (.command c) (enter (.tag (cmdTag c)) (newEntry c a.plan a.ringWrite false a.heldSpan
            a.heldSpan) a.after)) (.tag (cmdTag c)) = _ := entryOf_enter _ (.tag (cmdTag c)) _ a.after
        rw [if_pos rfl] at this
        rw [show e = _ from Option.some.inj (he.symm.trans this)]
        simp [newEntry, hheld]
  | single a ho hk hf ha => exact claimed_enterSingle (hs.congr (classify_trk ha)) (by rw [classify_trk ha, hr])
  | other ho hk hf => exact claimed_enterSingle (a := plainPlan [] s) hs hr
  | bridge ho hk hf =>
    refine Claimed.congr (s := setEntry .single (some (bridgeEntry c)) s) rfl ⟨by simpa using hs.1, fun p x hx hheld => ?_⟩
    rw [entryOf_setEntry] at hx
    split at hx
    next hp => subst hp; simpa using single_unclaimed hr
    next => simpa using hs.2 p x hx hheld

end Sys2Proof.LinkPassage
end

