-- ==== Sys2Proof/Proofs/TrackerLaws.lean ====
section
namespace Sys2Proof.LinkPassage
open Sys2Proof Sys2Proof.Machine

/-! ### Requests -/

/-- Of the requests only REMOVE_REGION reaches the Tracker, by the release of HELD spans (R75). -/
theorem executeRequest_trk (r : Request) (s : State) (h : ∀ e, r ≠ .removeRegion e) : (executeRequest r s).after.trk = s.trk := by
  cases r <;> simp only [executeRequest]
  case loadContext slot b => unfold loadContextRequest refuses accepts; repeat' split
                             all_goals simp
  case sealContext slot => unfold sealContextRequest refuses accepts; repeat' split
                           all_goals simp
  case closeContext slot => unfold closeContextRequest startClose refuses accepts; repeat' split
                            all_goals simp
  case readContext slot => unfold readContextRequest refuses replies; split <;> rfl
  case readReceipt slot => unfold readReceiptRequest refuses replies; repeat' split
                           all_goals rfl
  case clearUnit => unfold clearUnitRequest refuses accepts; split <;> rfl
  case addRegion p => unfold addRegionRequest enableRegion refuses accepts; dsimp only; repeat' split
                      all_goals rfl
  case removeRegion entry => exact absurd rfl (h entry)
  case readRegions start => unfold readRegionsRequest refuses replies; split <;> rfl
  case setShiftDepth slot depth => unfold setShiftDepthRequest refuses accepts; dsimp only; repeat' split
                                   all_goals rfl
  case pinKey slot => unfold pinKeyRequest refuses accepts; dsimp only; repeat' split
                      all_goals simp
  case unpinKey slot => unfold unpinKeyRequest refuses accepts; split <;> simp
  case setRightsTime time check => unfold setRightsTimeRequest refuses accepts; split <;> rfl
  case writeSettings p => unfold writeSettingsRequest applySettings refuses accepts; repeat' split
                          all_goals simp
  case lockSettings => rfl
  case readStatus => rfl
  case drain => unfold drainRequest accepts; dsimp only; split <;> rfl
  case readNotices => rfl
  case readHistory => rfl
  case clearFaults set => rfl

/-- What REMOVE_REGION does: nothing, or the region's entry is freed (R74). -/
theorem removeRegion_after (entry : Byte) (s : State) :
    (removeRegionRequest entry s).after = s ∨ ∃ e r, regionOf s e = some r ∧ (removeRegionRequest entry s).after = freeRegion e r s := by
  unfold removeRegionRequest
  split
  next => exact .inl rfl
  next e _ =>
    split
    next => exact .inl rfl
    next r hr => exact .inr ⟨e, r, hr, rfl⟩

theorem shifts_freeRegion (e : EntryNo) (r : Region) (s : State) : Shifts s (freeRegion e r s) := by
  unfold freeRegion
  dsimp only
  split
  next => exact Shifts.trans (Shifts.trans (shifts_of_trk (by rfl)) (shifts_deleteRing _ _)) (shifts_flushReleased _)
  next => exact shifts_of_trk rfl

theorem shifts_executeRequest (r : Request) (s : State) : Shifts s (executeRequest r s).after := by
  by_cases h : ∃ e, r = .removeRegion e
  · obtain ⟨entry, rfl⟩ := h
    rcases removeRegion_after entry s with h | ⟨e, r, -, h⟩
    · rw [executeRequest, h]; exact .refl s
    · rw [executeRequest, h]; exact shifts_freeRegion e r s
  · exact shifts_of_trk (executeRequest_trk r s fun e he => h ⟨e, he⟩)

theorem executeRequest_released {r : Request} {s : State} (hr : s.trk.released = []) : (executeRequest r s).after.trk.released = [] := by
  by_cases h : ∃ e, r = .removeRegion e
  · obtain ⟨entry, rfl⟩ := h
    rcases removeRegion_after entry s with h | ⟨e, r, -, h⟩
    · rw [executeRequest, h, hr]
    · rw [executeRequest, h, freeRegion]
      split
      · simp
      · exact hr
  · rw [executeRequest_trk r s fun e he => h ⟨e, he⟩, hr]

theorem tracks_answerRequest (x : Executed) : Tracks x.after (answerRequest x) := by
  unfold answerRequest
  split
  next => exact Tracks.trans (tracks_of_trk (by rfl)) (tracks_setEntry_none _ _)
  next => exact Tracks.trans (tracks_of_trk (by rfl)) (tracks_setEntry_none _ _)
  next => exact tracks_of_trk rfl

theorem answerRequest_released (x : Executed) : (answerRequest x).trk.released = x.after.trk.released := by
  unfold answerRequest
  split <;> simp

theorem tracks_takeRequest (block : Sector) (s : State) : Tracks s (takeRequest block s) := by
  unfold takeRequest
  split
  next => exact tracks_answerRequest (refuses .malformed s)
  next r _ => exact (shifts_executeRequest r s).toTracks.trans (tracks_answerRequest _)

theorem takeRequest_released {block : Sector} {s : State} (h : s.trk.released = []) : (takeRequest block s).trk.released = [] := by
  unfold takeRequest
  split
  next => rw [answerRequest_released]; exact h
  next r _ => rw [answerRequest_released, executeRequest_released h]

/-! ### What the ports keep of the Tracker's laws -/

theorem strayDataUp_trk (n : Nat) (s : State) : (strayDataUp n s).trk = s.trk := by
  unfold strayDataUp
  split <;> simp

theorem shifts_passDown (b : UpBurst) (d : DataFrame) (s : State) : Shifts s (passDown b d s) := by
  unfold passDown
  dsimp only
  refine Shifts.trans (Shifts.trans ?_ (shifts_countDriveBurst _ _)) (shifts_cutExcess _ _ _)
  exact (shifts_passSectors _ _ s).trans (shifts_of_trk (by rfl))

theorem tracks_takeDataUp (d : DataFrame) (s : State) : Tracks s (takeDataUp d s) := by
  unfold takeDataUp
  split
  next => exact tracks_of_trk (strayDataUp_trk _ _)
  next b _ =>
    split
    next =>
      unfold takeBlock
      split
      next => exact .refl s
      next =>
        exact Tracks.trans (Tracks.trans (tracks_of_trk (by rfl)) (tracks_takeRequest _ _)) (shifts_cutExcess _ _ _).toTracks
    next => exact (shifts_passDown b d s).toTracks

theorem takeDataUp_released {d : DataFrame} {s : State} (h : s.trk.released = []) : (takeDataUp d s).trk.released = [] := by
  unfold takeDataUp takeBlock passDown
  dsimp only
  split
  next => rw [strayDataUp_trk, h]
  next =>
    split
    next =>
      split
      next => exact h
      next block _ _ => simpa using takeRequest_released (block := block) (s := { s with up := { s.up with inBurst := none } }) h
    next => simpa [sendDown] using h

theorem takeReady_released {r : ReadyFrame} {s : State} (h : s.trk.released = []) : (takeReady r s).trk.released = [] := by
  unfold takeReady strayReady slipPastEnd openBurst
  dsimp only
  repeat' split
  all_goals simp [h]

theorem takeDrive_released {f : Frame} {s : State} (h : s.trk.released = []) : (takeDrive f s).trk.released = [] := by
  unfold takeDrive
  split
  next =>
    unfold takeInReset
    split
    next => dsimp only; split <;> exact h
    all_goals exact h
  next =>
    split
    next =>
      split
      next => exact takeReady_released h
      next =>
        unfold takeDataDrive passUp
        dsimp only
        repeat' split
        all_goals simp [strayDataDrive_trk, placeItem, h]
      next =>
        unfold takeStatus takeAcceptance completeSingle
        repeat' split
        all_goals simp [h]
      next => simp [takeDone]
      all_goals exact h
    next => simp [h]

theorem entryLaw_ports : KeptByPorts EntryLaw where
  links s u d n h := entryLaw_congr rfl h
  settle s h := entryLaw_congr (by simp) h
  up f s h := by
    unfold takeUp
    split
    next =>
      split
      next c _ => exact entryLaw_takeCommand c h
      next d _ => exact (tracks_takeDataUp d s).fades.entryLaw h
      all_goals exact h
    next => exact entryLaw_congr (by simp) h
  drive f s h := (tracks_takeDrive f s).fades.entryLaw h

/-- The law of the claims between the takings of frames: none waits to be sent. -/
def ClaimLaw (s : State) : Prop := Claimed s ∧ s.trk.released = []

theorem ClaimLaw.congr {s t : State} (h : t.trk = s.trk) (hs : ClaimLaw s) : ClaimLaw t := ⟨hs.1.congr h, by rw [h, hs.2]⟩

theorem claimLaw_ports : KeptByPorts ClaimLaw where
  links s u d n h := h.congr rfl
  settle s h := h.congr (by simp)
  up f s h := by
    unfold takeUp
    split
    next =>
      split
      next c _ => exact ⟨claimed_takeCommand h.1 h.2, takeCommand_released h.2⟩
      next d _ => exact ⟨(tracks_takeDataUp d s).claims h.1, takeDataUp_released h.2⟩
      all_goals exact h
    next => exact h.congr (by simp)
  drive f s h := ⟨(tracks_takeDrive f s).claims h.1, takeDrive_released h.2⟩

/-! ### The events that are no frames -/

/-- The ends of all queued entries (R39, R40). -/
theorem tracks_endQueued (s : State) : Tracks s (endQueued s) :=
  Tracks.foldl _ (fun s o => tracks_endEntry o none s) _ s

theorem tracks_endLost (s : State) : Tracks s (endLost s) := by
  unfold endLost
  split
  · exact (tracks_endQueued s).trans (tracks_endEntry _ _ _)
  · exact tracks_endQueued s

/-- The ports at drive link lost (R17). -/
def lostPorts (s : State) : State :=
  { loseBurst s with drv := lostDrive (loseBurst s).drv }

/-- The commands that a lost drive ends have been answered (R40). -/
def answerLoss (s u : State) : State :=
  (lossAnswers s).foldl (fun s f => placePart f s) u

/-- A lost drive before the frames that stood for its reset are taken (R17, R40, R190, R115). -/
def lossEvent (s : State) : State :=
  rewindRings (raiseFault .driveLost (queueNotice .driveLost none none none (lossCount s)
    (answerLoss s (clearAccepts (endLost (lostPorts s))))))

theorem driveLostEvent_eq (s : State) : driveLostEvent s = run (lossEvent s) := rfl

@[simp] theorem answerLoss_trk (s u : State) : (answerLoss s u).trk = u.trk :=
  foldl_keeps_trk (fun s f => placePart f s) (fun _ _ => rfl) (lossAnswers s) u

theorem tracks_lossEvent (s : State) : Tracks s (lossEvent s) := by
  have h1 : Tracks s (lostPorts s) := tracks_of_trk (by simp [lostPorts])
  have h2 := (h1.trans (tracks_endLost _)).trans (shifts_clearAccepts _).toTracks
  exact h2.trans (tracks_of_trk (by simp [lossEvent]))

theorem lossEvent_released (s : State) : (lossEvent s).trk.released = [] := by
  simp [lossEvent, clearAccepts]

/-- The ports at a link reset, with its notice and the reset cause (R15, R194). -/
def resetPorts (s : State) : State :=
  let s := queueNotice .linkReset none none none (entriesInUse s) s
  { s with up := resetUpstream s.up, drv := resetDrive s.drv, faults := { s.faults with cause := .linkReset } }

/-- Every entry has ended at a link reset, and the acceptance list is empty (R39). -/
def resetEntries (s : State) : State :=
  clearAccepts (endEntry .single none (endQueued (freeAllSlots (resetPorts s))))

/-- No reply waits for its READY any more (R15). -/
def dropReply (s : State) : State :=
  { s with req := { s.req with reply := none } }

theorem linkResetEvent_eq (s : State) :
    linkResetEvent s = rewindRings (dropReply (resetEntries s)) := by
  unfold linkResetEvent dropReply resetEntries resetPorts
  dsimp only

theorem tracks_linkReset (s : State) : Tracks s (linkResetEvent s) := by
  have h1 : Tracks s (freeAllSlots (resetPorts s)) := tracks_of_trk (by simp [resetPorts])
  have h2 := (h1.trans (tracks_endQueued _)).trans (tracks_endEntry .single none _)
  have h3 := h2.trans (shifts_clearAccepts _).toTracks
  exact h3.trans (tracks_of_trk (by simp [linkResetEvent_eq, dropReply, resetEntries]))

theorem linkReset_released (s : State) : (linkResetEvent s).trk.released = [] := by
  simp [linkResetEvent_eq, dropReply, resetEntries, clearAccepts]

theorem sentItem_tracks (i : SendItem) (s : State) : Tracks s (sentItem i s) ∧ (sentItem i s).trk.released = s.trk.released := by
  unfold sentItem sentReady sentData openUpstream placeReply
  dsimp only
  split
  next => refine ⟨tracks_of_trk ?_, ?_⟩ <;> (repeat' split) <;> rfl
  next =>
    split
    next => exact ⟨.refl s, rfl⟩
    next =>
      split
      next => exact ⟨Tracks.trans (tracks_of_trk (by rfl)) (tracks_setEntry_none _ _), by simp⟩
      next => exact ⟨tracks_of_trk rfl, rfl⟩
  all_goals exact ⟨.refl s, rfl⟩

/-- The arbiter's turn: nothing, or the sending of an item on the list and what then can be taken (R8). -/
theorem transmit_cases (s : State) :
    transmit s = s ∨ ∃ k i, s.up.sendList[k]? = some i ∧ mayChoose s i = true ∧ transmit s = run (sendItem k i s) := by
  unfold transmit
  split
  next =>
    split
    next => exact .inl rfl
    next k hk =>
      split
      next => exact .inl rfl
      next i hi =>
        refine .inr ⟨k, i, hi, ?_, rfl⟩
        obtain ⟨hlt, hc, -⟩ := List.findIdx?_eq_some_iff_getElem.1 hk
        rw [List.getElem?_eq_getElem hlt] at hi
        exact Option.some.inj hi ▸ hc
  next => exact .inl rfl

theorem setupEvent_trk (s : State) : (setupEvent s).trk = s.trk := by
  unfold setupEvent finishSetup
  dsimp only
  repeat' split
  all_goals simp [endRunning]

theorem unwrapEvent_trk (s : State) : (unwrapEvent s).trk = s.trk := by
  unfold unwrapEvent finishUnwrap acceptBlob rejectBlob
  dsimp only
  repeat' split
  all_goals simp [endRunning]

theorem receiptEvent_trk (s : State) : (receiptEvent s).trk = s.trk := by
  unfold receiptEvent finishReceipt
  repeat' split
  all_goals simp [endRunning]

theorem tokenEvent_trk (s : State) : (tokenEvent s).trk = s.trk := by
  unfold tokenEvent
  split <;> simp [endRunning]

theorem startJob_trk (s : State) : (startJob s).trk = s.trk := by
  unfold startJob startNext
  repeat' split
  all_goals rfl

/-- The state in which the ports take what a completed STREAM job lets them (R135, R148). -/
def streamDone (s : State) : State :=
  match s.eng.running with
  | some (.stream j discard) => if discard then dropUserOf j.keySlot (endRunning s) else finishStream j (endRunning s)
  | _ => s

theorem streamEvent_cases (s : State) : streamEvent s = s ∨ streamEvent s = run (streamDone s) := by
  unfold streamEvent
  split
  next h => exact .inr (by rw [streamDone, h])
  next => exact .inl rfl

theorem streamDone_trk (s : State) : (streamDone s).trk = s.trk := by
  unfold streamDone finishStream
  repeat' split
  all_goals simp [endRunning]

/-- The state in which the ports take what a parity failure lets them (R137, R138). -/
def parityDone (s : State) : State :=
  match s.eng.running with
  | some (.stream j discard) => if j.retried then secondFailure j discard (endRunning s) else firstFailure j discard (endRunning s)
  | _ => s

theorem parityEvent_cases (s : State) : parityEvent s = s ∨ parityEvent s = run (parityDone s) := by
  unfold parityEvent
  split
  next h => exact .inr (by rw [parityDone, h])
  next => exact .inl rfl

theorem parityDone_trk (s : State) : (parityDone s).trk = s.trk := by
  unfold parityDone firstFailure secondFailure requeue
  dsimp only
  repeat' split
  all_goals simp [endRunning]

/-- A law of the Tracker alone that the ports keep, kept where entries end and the claims stay in order, holds after every step. -/
theorem trackerLaw_step {P : State → Prop} (hp : KeptByPorts P) (hc : ∀ s t : State, t.trk = s.trk → P s → P t)
    (ht : ∀ s t, Tracks s t → t.trk.released = [] ∨ t.trk.released = s.trk.released → P s → P t) (h0 : P State.reset)
    {s t : State} (h : step s = .next t) (hs : P s) : P t := by
  obtain ⟨l, he⟩ := event_of_step h
  have hs' : P { s with pending := l } := hc s _ rfl hs
  generalize ({ s with pending := l } : State) = u at he hs'
  cases he with
  | powerOn => exact hc State.reset _ rfl h0
  | upstreamUp => exact hc u _ rfl hs'
  | linkReset => exact ht u _ (tracks_linkReset u) (.inl (linkReset_released u)) hs'
  | driveUp => exact hp.run (hc u _ rfl hs')
  | driveLost =>
    rw [driveLostEvent_eq]
    exact hp.run (ht u _ (tracks_lossEvent u) (.inl (lossEvent_released u)) hs')
  | tick => exact hc u _ (by simp) hs'
  | period => exact hc u _ (by simp) hs'
  | up f => exact hp.arriveUp f hs'
  | drive f => exact hp.arriveDrive f hs'
  | send =>
    rcases transmit_cases u with h | ⟨k, i, -, -, h⟩ <;> rw [h]
    · exact hs'
    · obtain ⟨h1, h2⟩ := sentItem_tracks i
        { u with up := { u.up with sendList := u.up.sendList.eraseIdx k, sent := u.up.sent ++ [i.frame] } }
      exact hp.run (ht _ _ h1 (.inr h2) (hc u _ rfl hs'))
  | start => exact hc u _ (startJob_trk u) hs'
  | setup => exact hc u _ (setupEvent_trk u) hs'
  | stream => rcases streamEvent_cases u with h | h <;> rw [h]; exacts [hs', hp.run (hc u _ (streamDone_trk u) hs')]
  | parity => rcases parityEvent_cases u with h | h <;> rw [h]; exacts [hs', hp.run (hc u _ (parityDone_trk u) hs')]
  | unwrap => exact hc u _ (unwrapEvent_trk u) hs'
  | receipt => exact hc u _ (receiptEvent_trk u) hs'
  | token => exact hc u _ (tokenEvent_trk u) hs'

theorem entryOf_reset (o : Owner) : entryOf State.reset o = none := by
  cases o <;> simp [entryOf, State.reset, Tracker.reset, Vector.get_eq_getElem]

/-- Every step keeps every entry legal (R19, R20). -/
theorem entryLaw_step {s t : State} (h : step s = .next t) (hs : EntryLaw s) : EntryLaw t :=
  trackerLaw_step entryLaw_ports (fun _ _ => entryLaw_congr) (fun _ _ h _ => h.fades.entryLaw)
    (fun o e he => by rw [entryOf_reset] at he; contradiction) h hs

/-- Every step keeps at most one acceptance record for a tag, and none for a HELD entry (R30). -/
theorem acceptLaw_step {s t : State} (h : step s = .next t) (hs : AcceptLaw s) : AcceptLaw t := by
  rw [acceptLaw_iff] at hs ⊢
  refine trackerLaw_step claimLaw_ports (fun _ _ => ClaimLaw.congr) (fun s t h hr hs => ⟨h.claims hs.1, ?_⟩) ?_ h hs
  · rcases hr with hr | hr <;> simp [hr, hs.2]
  · exact ⟨⟨by simp [claims, State.reset, Tracker.reset], fun o e he => by rw [entryOf_reset] at he; contradiction⟩, rfl⟩

/-- Records of different tags are at most as many as there are tags. -/
theorem accepts_length {s : State} (h : AcceptLaw s) : s.trk.accepts.length ≤ 32 := by
  have := h.1.length_le_card
  simpa using this

end Sys2Proof.LinkPassage
end

