-- ==== Sys2Proof/Proofs/PlanLaws.lean ====
section
namespace Sys2Proof.LinkPassage
open Sys2Proof Sys2Proof.Machine

/-! ### The entries that name a context (R37) -/

/-- Whether an entry's plan names a context (R24, R37). -/
def names (c : CtxSlot) (e : Entry) : Bool :=
  e.plan.any fun r => verdictCtx r.verdict = some c

/-- Every owner, each once. -/
def owners : List Owner := (List.finRange 32).map Owner.tag ++ [.single]

theorem mem_owners (o : Owner) : o ∈ owners := by cases o <;> simp [owners]

theorem owners_nodup : owners.Nodup := by
  simp only [owners, List.nodup_append]
  exact ⟨(List.nodup_finRange 32).map fun a b h => by simpa using h, by simp, by simp⟩

/-- The number of entries that name a context is a count over all owners. -/
theorem entriesNaming_eq (s : State) (c : CtxSlot) :
    entriesNaming s c = owners.countP fun o => (entryOf s o).any (names c) := by
  have h : (List.filter (fun k => (entryOf s (.tag k)).any (names c)) (List.finRange 32)).length =
      List.countP ((fun o => (entryOf s o).any (names c)) ∘ Owner.tag) (List.finRange 32) := by
    rw [List.countP_eq_length_filter]; rfl
  rw [owners, List.countP_append, List.countP_map, ← h]
  simp only [List.countP_cons, List.countP_nil, Nat.zero_add]
  rfl

/-- Two counts over a list without repetition whose tests differ at one member at most. -/
theorem countP_differ {α : Type} [DecidableEq α] {l : List α} (hn : l.Nodup) {a : α} (ha : a ∈ l) {p q : α → Bool}
    (h : ∀ b, b ≠ a → p b = q b) : l.countP p + (q a).toNat = l.countP q + (p a).toNat := by
  induction l with
  | nil => contradiction
  | cons x l ih =>
    obtain ⟨hx, hl⟩ := List.nodup_cons.1 hn
    by_cases hxa : x = a
    · subst hxa
      have : l.countP p = l.countP q := by
        refine List.countP_congr fun b hb => ?_
        rw [h b (by rintro rfl; exact hx hb)]
      cases hp : p x <;> cases hq : q x <;> simp [hp, hq, this]
    · have := ih hl (by simpa [Ne.symm hxa] using ha)
      cases hq : q x <;> simp [h x hxa, hq] <;> omega

/-- The count after one owner's entry is replaced. -/
theorem entriesNaming_setEntry (o : Owner) (x : Option Entry) (s : State) (c : CtxSlot) :
    entriesNaming (setEntry o x s) c + ((entryOf s o).any (names c)).toNat = entriesNaming s c + (x.any (names c)).toNat := by
  have := countP_differ owners_nodup (mem_owners o) (p := fun p => (entryOf (setEntry o x s) p).any (names c))
    (q := fun p => (entryOf s p).any (names c)) fun b hb => by simp [entryOf_setEntry, hb]
  simpa [entriesNaming_eq, entryOf_setEntry] using this

theorem entriesNaming_congr {s t : State} (h : ∀ o, (entryOf t o).map (·.plan) = (entryOf s o).map (·.plan)) (c : CtxSlot) :
    entriesNaming t c = entriesNaming s c := by
  have hany : ∀ u : State, ∀ o, (entryOf u o).any (names c) =
      ((entryOf u o).map (·.plan)).any fun p => p.any fun r => verdictCtx r.verdict = some c := by
    intro u o; cases entryOf u o <;> rfl
  rw [entriesNaming_eq, entriesNaming_eq]
  exact List.countP_congr fun o _ => by rw [hany, hany, h]

theorem mem_touchedBy (plan : List Run) (c : CtxSlot) :
    c ∈ touchedBy plan ↔ (plan.any fun r => verdictCtx r.verdict = some c) = true := by simp [touchedBy]

theorem touchedBy_nodup (plan : List Run) : (touchedBy plan).Nodup := (List.nodup_finRange 16).filter _

/-- Entries that are only changed in place keep their plans. -/
theorem Shifts.plan {s t : State} (h : Shifts s t) (o : Owner) : (entryOf t o).map (·.plan) = (entryOf s o).map (·.plan) := by
  cases ht : entryOf t o with
  | some e' =>
    obtain ⟨e, he, hm⟩ := h.fades o e' ht
    simp [he, hm.plan]
  | none =>
    cases hs : entryOf s o with
    | none => rfl
    | some e => have := h.stays o; simp [hs, ht] at this

theorem Shifts.entriesNaming {s t : State} (h : Shifts s t) (c : CtxSlot) : entriesNaming t c = entriesNaming s c :=
  entriesNaming_congr h.plan c

/-! ### Contexts, regions and rings as the laws read them -/

/-- A context slot that no region and no entry names: EMPTY or LOADING (R37, R46). -/
def Idle (x : Context) : Prop := x.state = .empty ∨ x.state = .loading

/-- The fields of a ring that its region fixes (R101). -/
def ringShape (r : Machine.Ring) : Nat × Nat × Nat := (r.base, r.length, r.logicalStart)

/-- What the law of binding reads of the tables is as it was; a context may leave EMPTY or LOADING. -/
structure BindKept (s t : State) : Prop where
  regions : t.regions = s.regions
  cls : ∀ c, (ctxOf t c).cls = (ctxOf s c).cls
  idle : ∀ c, Idle (ctxOf t c) → Idle (ctxOf s c)
  rings : ∀ c, (ringOf t c).map ringShape = (ringOf s c).map ringShape

/-- The same, with every in-flight count. -/
structure TablesKept (s t : State) : Prop extends BindKept s t where
  inFlight : ∀ c, (ctxOf t c).inFlight = (ctxOf s c).inFlight

theorem TablesKept.refl (s : State) : TablesKept s s := ⟨⟨rfl, fun _ => rfl, fun _ h => h, fun _ => rfl⟩, fun _ => rfl⟩

theorem TablesKept.trans {s t u : State} (h : TablesKept s t) (k : TablesKept t u) : TablesKept s u :=
  ⟨⟨k.regions.trans h.regions, fun c => (k.cls c).trans (h.cls c), fun c x => h.idle c (k.idle c x),
    fun c => (k.rings c).trans (h.rings c)⟩, fun c => (k.inFlight c).trans (h.inFlight c)⟩

/-- The contexts, the regions and the rings are as they were. -/
def SameTables (s t : State) : Prop :=
  t.contexts = s.contexts ∧ t.regions = s.regions ∧ t.rings = s.rings

theorem tables_of_same {s t : State} (h : SameTables s t) : TablesKept s t := by
  obtain ⟨hc, hr, hg⟩ := h
  exact ⟨⟨hr, fun c => by rw [ctxOf_congr hc], fun c h => by rwa [ctxOf_congr hc] at h, fun c => by rw [ringOf_congr hg]⟩,
    fun c => by rw [ctxOf_congr hc]⟩

/-- One context record replaced by one of the same class, EMPTY or LOADING only if it was. -/
theorem bind_setCtx {c : CtxSlot} {x : Context} {s : State} (hc : x.cls = (ctxOf s c).cls) (hd : Idle x → Idle (ctxOf s c)) :
    BindKept s (setCtx c x s) := by
  refine ⟨rfl, fun d => ?_, fun d => ?_, fun d => rfl⟩ <;> rw [ctxOf_setCtx] <;> split <;> simp_all

/-- One context record replaced by one of the same class and in-flight count, EMPTY or LOADING only if it was. -/
theorem tables_setCtx {c : CtxSlot} {x : Context} {s : State} (hi : x.inFlight = (ctxOf s c).inFlight) (hc : x.cls = (ctxOf s c).cls)
    (hd : Idle x → Idle (ctxOf s c)) : TablesKept s (setCtx c x s) := by
  refine ⟨bind_setCtx hc hd, fun d => ?_⟩
  rw [ctxOf_setCtx]
  split <;> simp_all

/-- One ring replaced by one of the same shape. -/
theorem tables_setRing {c : CtxSlot} {r g : Machine.Ring} {s : State} (hr : ringOf s c = some r) (hg : ringShape g = ringShape r) :
    TablesKept s (setRing c (some g) s) := by
  refine ⟨⟨rfl, fun d => rfl, fun d h => h, fun d => ?_⟩, fun d => rfl⟩
  rw [ringOf_setRing]
  split <;> simp_all

theorem TablesKept.foldl {α : Type} (f : State → α → State) (h : ∀ s a, TablesKept s (f s a)) (l : List α) (s : State) :
    TablesKept s (l.foldl f s) := by
  induction l generalizing s with
  | nil => exact .refl s
  | cons a l ih => exact (h s a).trans (ih _)

/-- The binding of regions, contexts and rings is kept with the tables (R46, R71, R101). -/
theorem BindKept.binding {s t : State} (h : BindKept s t) (hs : BindingLaw s) : BindingLaw t := by
  obtain ⟨hnamed, hone, hring, hbound⟩ := hs
  have hreg : ∀ e, regionOf t e = regionOf s e := regionOf_congr h.regions
  refine ⟨fun e r hr => ?_, fun e f r q hef hr hq hc => ?_, fun e r hr hc => ?_, fun c g hg => ?_⟩
  · rw [hreg] at hr
    have h1 := hnamed e r hr
    have h2 : ¬Idle (ctxOf t r.ctx) := fun hi => by
      rcases h.idle _ hi with hi | hi
      exacts [h1.1 hi, h1.2 hi]
    exact ⟨fun hi => h2 (.inl hi), fun hi => h2 (.inr hi)⟩
  · rw [hreg] at hr hq
    rw [h.cls]
    exact hone e f r q hef hr hq hc
  · rw [hreg] at hr
    rw [h.cls] at hc
    have := congrArg Option.isSome (h.rings r.ctx)
    simpa [hring e r hr hc] using this
  · have := h.rings c
    rw [hg] at this
    cases hg' : ringOf s c with
    | none => simp [hg'] at this
    | some g' =>
      obtain ⟨hcls, e, r, hr, hrc, hb, hl, hs'⟩ := hbound c g' hg'
      rw [hg'] at this
      simp only [Option.map_some, Option.some.injEq, ringShape, Prod.mk.injEq] at this
      obtain ⟨h1, h2, h3⟩ := this
      refine ⟨by rw [h.cls, hcls], e, r, by rw [hreg, hr], hrc, ?_, ?_, ?_⟩
      · rw [h1, hb]
      · rw [h2, hl]
      · rw [h3, hs']

/-! ### The upstream port as the bridge's law reads it -/

/-- A frame that is neither a READY nor DATA: it opens no burst and belongs to none. -/
def Plain (f : Frame) : Prop := (∀ r, f ≠ .ready r) ∧ ∀ d, f ≠ .data d

/-- A frame that, if it is a READY or DATA, is of one sector, as the bridge's are (R5). -/
def OneSector (f : Frame) : Prop := (∀ r, f = .ready r → readyCount r = 1) ∧ ∀ d, f = .data d → d.sectors.length = 1

theorem Plain.oneSector {f : Frame} (h : Plain f) : OneSector f := ⟨fun r hr => absurd hr (h.1 r), fun d hd => absurd hd (h.2 d)⟩

/-- The bridge has no more bursts and READYs at the upstream port than before, and what of it is new there is of one sector (R5). -/
structure UpKept (s t : State) : Prop where
  bursts : bridgeBursts t ≤ bridgeBursts s
  out : ∀ b, t.up.outBurst = some b → b.bridge = true → s.up.outBurst = some b ∨ b.left = 1
  items : ∀ i ∈ t.up.sendList, i.relayed = false → i ∈ s.up.sendList ∨ OneSector i.frame

theorem UpKept.refl (s : State) : UpKept s s := ⟨le_rfl, fun _ h _ => .inl h, fun _ h _ => .inl h⟩

theorem UpKept.trans {s t u : State} (h : UpKept s t) (k : UpKept t u) : UpKept s u := by
  refine ⟨k.bursts.trans h.bursts, fun b hb hbr => ?_, fun i hi hr => ?_⟩
  · rcases k.out b hb hbr with hb | hl
    exacts [h.out b hb hbr, .inr hl]
  · rcases k.items i hi hr with hi | hp
    exacts [h.items i hi hr, .inr hp]

theorem bridgeBursts_congr {s t : State} (h : t.up = s.up) : bridgeBursts t = bridgeBursts s := by simp [bridgeBursts, h]

theorem up_of_same {s t : State} (h : t.up = s.up) : UpKept s t :=
  ⟨(bridgeBursts_congr h).le, fun b hb _ => .inl (by rwa [h] at hb), fun i hi _ => .inl (by rwa [h] at hi)⟩

/-- An item that is no READY of the bridge joins the send list; one of the part is of one sector. -/
theorem up_addItem {i : SendItem} (s : State) (h : isBridgeReady i = false) (h1 : i.relayed = false → OneSector i.frame) :
    UpKept s (placeItem i s) := by
  refine ⟨?_, fun b hb _ => .inl hb, fun j hj hr => ?_⟩
  · simp [bridgeBursts, List.filter_append, h]
  · rcases List.mem_append.1 hj with hj | hj
    · exact .inl hj
    · rw [List.mem_singleton.1 hj] at hr ⊢
      exact .inr (h1 hr)

/-- An item that is relayed, or no READY and no DATA, joins the send list. -/
theorem up_placeItem {i : SendItem} (s : State) (h : i.relayed = true ∨ Plain i.frame) : UpKept s (placeItem i s) := by
  refine up_addItem s ?_ fun hr => ?_
  · unfold isBridgeReady
    split
    next r hr => rcases h with h | h; exacts [by simp [h], absurd hr (h.1 r)]
    next => rfl
  · rcases h with h | h
    · simp [h] at hr
    · exact h.oneSector

theorem plain_status (t : StatusFrame) : Plain (.status t) := ⟨nofun, nofun⟩

theorem plain_done (d : DoneFrame) : Plain (.done d) := ⟨nofun, nofun⟩

theorem up_placePart {f : Frame} (s : State) (h : Plain f) : UpKept s (placePart f s) := up_placeItem s (.inr h)

theorem up_placeRelayed (f : Frame) (s : State) : UpKept s (placeRelayed f s) := up_placeItem s (.inl rfl)

theorem UpKept.foldl {α : Type} (f : State → α → State) (h : ∀ s a, UpKept s (f s a)) (l : List α) (s : State) :
    UpKept s (l.foldl f s) := by
  induction l generalizing s with
  | nil => exact .refl s
  | cons a l ih => exact (h s a).trans (ih _)

/-- The upstream port with its bursts of relayed frames changed and items gone from its send list. -/
theorem up_of_relayed {s t : State} (hl : t.up.sendList.Sublist s.up.sendList)
    (hin : t.up.inBurst.any (·.bridge) = true → s.up.inBurst.any (·.bridge) = true)
    (hout : ∀ b, t.up.outBurst = some b → b.bridge = true → s.up.outBurst = some b) : UpKept s t := by
  refine ⟨?_, fun b hb hbr => .inl (hout b hb hbr), fun i hi _ => .inl (hl.subset hi)⟩
  have h1 := (hl.filter isBridgeReady).length_le
  have h2 : (t.up.inBurst.any (·.bridge)).toNat ≤ (s.up.inBurst.any (·.bridge)).toNat := by
    cases ht : t.up.inBurst.any (·.bridge)
    · simp
    · simp [hin ht]
  have h3 : (t.up.outBurst.any (·.bridge)).toNat ≤ (s.up.outBurst.any (·.bridge)).toNat := by
    cases ht : t.up.outBurst with
    | none => simp
    | some b =>
      cases hb : b.bridge
      · simp [hb]
      · simp [hout b ht hb]
  unfold bridgeBursts
  omega

theorem up_closeUpstreamSide (b : DriveBurst) (s : State) : UpKept s (closeUpstreamSide b s) := by
  unfold closeUpstreamSide
  repeat' split
  all_goals first
    | exact .refl s
    | (refine up_of_relayed (List.Sublist.refl _) ?_ ?_ <;> simp_all)

/-! ### The laws together -/

/-- The laws that the in-flight counts rest on, together (R5, R19, R37, R46). -/
structure PlanLaw (s : State) : Prop where
  entry : EntryLaw s
  binding : BindingLaw s
  bridge : BridgeLaw s
  counts : InFlightLaw s

/-- No entry enters or ends, and what the laws read of the tables and of the upstream port is as it was. -/
structure Calm (s t : State) : Prop where
  shifts : Shifts s t
  tables : TablesKept s t
  up : UpKept s t

theorem Calm.refl (s : State) : Calm s s := ⟨.refl s, .refl s, .refl s⟩

theorem Calm.trans {s t u : State} (h : Calm s t) (k : Calm t u) : Calm s u :=
  ⟨h.shifts.trans k.shifts, h.tables.trans k.tables, h.up.trans k.up⟩

theorem Calm.foldl {α : Type} (f : State → α → State) (h : ∀ s a, Calm s (f s a)) (l : List α) (s : State) :
    Calm s (l.foldl f s) := by
  induction l generalizing s with
  | nil => exact .refl s
  | cons a l ih => exact (h s a).trans (ih _)

theorem Calm.foldl_mem {α : Type} (f : State → α → State) (l : List α) (h : ∀ a ∈ l, ∀ s, Calm s (f s a)) (s : State) :
    Calm s (l.foldl f s) := by
  induction l generalizing s with
  | nil => exact .refl s
  | cons a l ih => exact (h a List.mem_cons_self s).trans (ih (fun b hb => h b (List.mem_cons_of_mem _ hb)) _)

/-- An operation on none of the Tracker, the tables and the upstream port. -/
theorem calm_of_same {s t : State} (h : t.trk = s.trk ∧ t.contexts = s.contexts ∧ t.regions = s.regions ∧ t.rings = s.rings ∧ t.up = s.up) :
    Calm s t := by
  obtain ⟨ht, hc, hr, hg, hu⟩ := h
  exact ⟨shifts_of_trk ht, tables_of_same ⟨hc, hr, hg⟩, up_of_same hu⟩

/-- The bridge's law where entries end but a bridge's only with its bursts. -/
theorem bridgeLaw_kept {s t : State} (hu : UpKept s t) (hf : Fades s t)
    (hb : ∀ e, s.trk.single = some e → e.kind = .bridge → t.trk.single.isSome = true ∨ bridgeBursts t = 0) (hs : BridgeLaw s) :
    BridgeLaw t := by
  obtain ⟨hone, hsingle, hplan, hleft, hitems⟩ := hs
  have hlaw : ∀ e', t.trk.single = some e' → ∃ e, s.trk.single = some e ∧ EntryMove e e' := hf .single
  refine ⟨hu.bursts.trans hone, fun ht => ?_, fun e' he' hk => ?_, fun b hb' hbr => ?_, fun i hi hr => ?_⟩
  · obtain ⟨e, he, hk⟩ := hsingle (by have := hu.bursts; omega)
    rcases hb e he hk with hsome | hz
    · obtain ⟨e', he'⟩ := Option.isSome_iff_exists.1 hsome
      obtain ⟨e0, he0, hm⟩ := hlaw e' he'
      rw [he] at he0
      exact ⟨e', he', by rw [hm.kind, ← Option.some.inj he0, hk]⟩
    · omega
  · obtain ⟨e, he, hm⟩ := hlaw e' he'
    rw [hm.plan]
    exact hplan e he (by rw [← hm.kind, hk])
  · rcases hu.out b hb' hbr with hb' | hl
    exacts [hleft b hb' hbr, hl]
  · rcases hu.items i hi hr with hi | hp
    exacts [hitems i hi hr, hp]

/-- The law of the in-flight counts where no entry enters or ends. -/
theorem inFlightLaw_kept {s t : State} (hm : Shifts s t) (ht : TablesKept s t) (hs : InFlightLaw s) : InFlightLaw t := by
  obtain ⟨htouch, hcount⟩ := hs
  refine ⟨fun o e' he' => ?_, fun c => ?_⟩
  · obtain ⟨e, he, hmove⟩ := hm.fades o e' he'
    rw [hmove.touched, hmove.plan, htouch o e he]
  · rw [ht.inFlight, hm.entriesNaming]
    exact ⟨(hcount c).1, fun hi => (hcount c).2 (ht.idle c hi)⟩

/-- The laws are kept where nothing happens that they speak of. -/
theorem Calm.planLaw {s t : State} (h : Calm s t) (hs : PlanLaw s) : PlanLaw t :=
  ⟨h.shifts.fades.entryLaw hs.entry, h.tables.binding hs.binding,
    bridgeLaw_kept h.up h.shifts.fades (fun e he _ => .inl (h.shifts.stays .single (by simp [entryOf, he]))) hs.bridge,
    inFlightLaw_kept h.shifts h.tables hs.counts⟩

end Sys2Proof.LinkPassage
end

