-- ==== Sys2Proof/Proofs/CalmOperations.lean ====
section
namespace Sys2Proof.LinkPassage
open Sys2Proof Sys2Proof.Machine

/-! ### Operations on which the laws stay calm -/

theorem calm_queueNotice (k : NoticeKind) (c : Option CtxSlot) (t : Option Tag) (d : Option Code) (v : Nat) (s : State) :
    Calm s (queueNotice k c t d v s) := calm_of_same (by simp)

theorem calm_raiseFault (k : FaultKind) (s : State) : Calm s (raiseFault k s) := calm_of_same (by simp)

theorem calm_placeRelayed (f : Frame) (s : State) : Calm s (placeRelayed f s) :=
  ⟨shifts_of_trk rfl, tables_of_same ⟨rfl, rfl, rfl⟩, up_placeRelayed f s⟩

theorem calm_placePart {f : Frame} (s : State) (h : Plain f) : Calm s (placePart f s) :=
  ⟨shifts_of_trk rfl, tables_of_same ⟨rfl, rfl, rfl⟩, up_placePart s h⟩

/-- An operation on the Tracker alone. -/
theorem calm_of_shifts {s t : State} (h : Shifts s t) (hs : SameTables s t) (hu : t.up = s.up) : Calm s t :=
  ⟨h, tables_of_same hs, up_of_same hu⟩

theorem calm_releaseEntry (o : Owner) (s : State) : Calm s (releaseEntry o s) :=
  calm_of_shifts (shifts_releaseEntry o s) (by simp [SameTables]) (by simp)

theorem calm_clearQueueWait (s : State) : Calm s (clearQueueWait s) :=
  calm_of_shifts (shifts_clearQueueWait s) (by simp [SameTables]) (by simp)

theorem calm_flushReleased (s : State) : Calm s (flushReleased s) :=
  calm_of_shifts (shifts_flushReleased s) (by simp [SameTables]) (by simp)

theorem calm_setRing {c : CtxSlot} {r g : Machine.Ring} {s : State} (hr : ringOf s c = some r) (hg : ringShape g = ringShape r) :
    Calm s (setRing c (some g) s) :=
  ⟨shifts_of_trk rfl, tables_setRing hr hg, up_of_same rfl⟩

theorem calm_setCtx {c : CtxSlot} {x : Context} {s : State} (hi : x.inFlight = (ctxOf s c).inFlight) (hc : x.cls = (ctxOf s c).cls)
    (hd : Idle x → Idle (ctxOf s c)) : Calm s (setCtx c x s) :=
  ⟨shifts_of_trk rfl, tables_setCtx hi hc hd, up_of_same rfl⟩

theorem calm_reportOutcome (c : CtxSlot) (o : Owner) (ok : Bool) (s : State) : Calm s (reportOutcome c o ok s) := by
  unfold reportOutcome
  split
  next => exact .refl s
  next r hr =>
    split
    next => exact .refl s
    next =>
      refine Calm.trans (Calm.trans ?_ (Calm.foldl (noticeVoid c) (fun s x => calm_queueNotice _ _ _ _ _ s) _ _))
        (Calm.foldl _ (fun s o => calm_releaseEntry o s) _ _)
      exact calm_setRing hr rfl

theorem calm_rewindRings (s : State) : Calm s (rewindRings s) := by
  refine Calm.foldl _ (fun s c => ?_) _ s
  unfold rewindRing
  split
  next => exact .refl s
  next r hr =>
    split
    next => exact .refl s
    next =>
      refine Calm.trans ?_ (calm_queueNotice _ _ _ _ _ _)
      exact calm_setRing hr rfl

theorem calm_reportEnd (o : Owner) (e : Entry) (r : Option Bool) (s : State) : Calm s (reportEnd o e r s) := by
  unfold reportEnd
  split
  next => exact calm_reportOutcome _ _ _ _
  next => exact .refl s

theorem calm_noticeWithheld (o : Owner) (e : Entry) (s : State) : Calm s (noticeWithheld o e s) := calm_of_same (by simp)

theorem calm_releaseEntrySlots (o : Owner) (e : Entry) (s : State) : Calm s (releaseEntrySlots o e s) := calm_of_same (by simp)

theorem calm_closeOwned (p : Owner → Bool) (s : State) : Calm s (closeOwned p s) := by
  refine ⟨shifts_closeOwned p s, tables_of_same (by simp [SameTables]), ?_⟩
  unfold closeOwned
  split
  next => exact .refl s
  next => exact UpKept.trans (up_of_same (by simp)) (up_closeUpstreamSide _ _)

theorem calm_checkShort (o : Owner) (s : State) : Calm s (checkShort o s) :=
  calm_of_shifts (shifts_checkShort o s) (by simp [SameTables]) (by simp)

theorem calm_answerAhead (k : Tag) (s : State) : Calm s (answerAhead k s) := by
  refine ⟨shifts_answerAhead k s, tables_of_same (by simp [SameTables]), ?_⟩
  unfold answerAhead
  split
  next => exact UpKept.trans (up_of_same (by rfl)) (up_placePart _ (plain_status _))
  next => exact .refl s

theorem tables_countCtxWithheld (w : Option (WithheldReason × CtxSlot)) (s : State) : TablesKept s (countCtxWithheld w s) := by
  unfold countCtxWithheld
  split
  next => exact .refl s
  next => exact tables_setCtx rfl rfl id

theorem calm_passSectors (o : Owner) (l : List Sector) (s : State) : Calm s (passSectors o l s).2 := by
  refine ⟨shifts_passSectors o l s, ?_, up_of_same (by simp)⟩
  induction l generalizing s with
  | nil => exact .refl s
  | cons w l ih =>
    refine TablesKept.trans ?_ (ih _)
    unfold passSector
    split
    next e _ =>
      split
      next b _ =>
        have h : TablesKept s (setEntry o (some (passedEntry (nextOffset b) (treatSector s e (nextOffset b) w) e)) s) :=
          tables_of_same ⟨rfl, rfl, rfl⟩
        exact (h.trans (tables_countCtxWithheld _ _)).trans (tables_of_same ⟨by rfl, by rfl, by rfl⟩)
      next => exact tables_of_same ⟨rfl, rfl, rfl⟩
    next => exact tables_of_same ⟨rfl, rfl, rfl⟩

theorem calm_countDriveBurst (n : Nat) (s : State) : Calm s (countDriveBurst n s) :=
  calm_of_shifts (shifts_countDriveBurst n s) (by simp [SameTables]) (by simp)

theorem calm_cutExcess (n left : Nat) (s : State) : Calm s (cutExcess n left s) := calm_of_same (by simp)

theorem calm_takeReady (r : ReadyFrame) (s : State) : Calm s (takeReady r s) := by
  refine ⟨shifts_takeReady r s, tables_of_same ?_, ?_⟩
  · unfold takeReady strayReady slipPastEnd openBurst
    dsimp only
    repeat' split
    all_goals simp [SameTables]
  · unfold takeReady
    split
    next => exact up_of_same (by unfold strayReady; split <;> simp)
    next e _ =>
      have h : UpKept s (openBurst r e s) := UpKept.trans (up_of_same (by simp)) (up_placeItem _ (.inl rfl))
      dsimp only
      split
      next => exact h.trans (up_of_same (by simp [slipPastEnd]))
      next => exact h

theorem calm_passUp (b : DriveBurst) (d : DataFrame) (s : State) : Calm s (passUp b d s) := by
  unfold passUp
  dsimp only
  refine Calm.trans (Calm.trans (Calm.trans (calm_passSectors b.owner (d.sectors.take (min d.sectors.length b.left)) s) ?_)
    (calm_countDriveBurst _ _)) (calm_cutExcess _ _ _)
  exact ⟨shifts_of_trk rfl, tables_of_same ⟨rfl, rfl, rfl⟩, up_placeItem _ (.inl rfl)⟩

theorem calm_strayDataDrive (n : Nat) (s : State) : Calm s (strayDataDrive n s) := by
  unfold strayDataDrive
  repeat' split
  all_goals exact calm_of_same (by simp)

theorem calm_takeDataDrive (d : DataFrame) (s : State) : Calm s (takeDataDrive d s) := by
  unfold takeDataDrive
  split
  next =>
    split
    next => exact calm_passUp _ _ _
    next => exact calm_strayDataDrive _ _
  next => exact calm_strayDataDrive _ _

theorem calm_passDown {b : UpBurst} {s : State} (d : DataFrame) (hr : b.bridge = false) :
    Calm s (passDown b d s) := by
  unfold passDown
  dsimp only
  refine Calm.trans (Calm.trans (Calm.trans (calm_passSectors b.owner (d.sectors.take (min d.sectors.length b.left)) s) ?_)
    (calm_countDriveBurst _ _)) (calm_cutExcess _ _ _)
  refine ⟨shifts_of_trk rfl, tables_of_same ⟨rfl, rfl, rfl⟩, up_of_relayed (List.Sublist.refl _) (fun h => ?_) fun b h _ => h⟩
  simp only [countUpBurst] at h
  split at h <;> simp_all

theorem calm_strayDataUp (n : Nat) (s : State) : Calm s (strayDataUp n s) := by
  unfold strayDataUp
  split
  next => exact ⟨shifts_of_trk rfl, tables_of_same ⟨rfl, rfl, rfl⟩, up_of_relayed (List.Sublist.refl _) id fun b h _ => h⟩
  next =>
    refine ⟨shifts_of_trk (by simp), tables_of_same (by simp [SameTables]), up_of_relayed ?_ ?_ fun b h _ => ?_⟩ <;> simp_all

theorem calm_acceptedBy (r : AcceptRecord) (f : StatusFrame) (s : State) : Calm s (acceptedBy r f s) := by
  refine ⟨shifts_acceptedBy r f s, tables_of_same ?_, ?_⟩ <;> unfold acceptedBy <;> split
  · simp [SameTables]
  · simp [SameTables]
  · exact UpKept.trans (up_of_same (by rfl)) (up_placeRelayed _ _)
  · exact .refl s

theorem calm_noAccepts (s : State) : Calm s { s with trk := { s.trk with accepts := [] } } :=
  calm_of_shifts (shifts_noAccepts s) ⟨rfl, rfl, rfl⟩ rfl

theorem calm_clearAccepts (s : State) : Calm s (clearAccepts s) :=
  calm_of_shifts (shifts_clearAccepts s) ⟨rfl, rfl, rfl⟩ rfl

theorem calm_relayDone (d : DoneFrame) (l : List Tag) (m : List (Byte × Byte)) (s : State) : Calm s (relayDone d l m s) := by
  unfold relayDone
  split
  next => exact .refl s
  next => exact calm_placeRelayed _ _

theorem calm_slipDone (b : Bool) (s : State) : Calm s (slipDone b s) := by
  unfold slipDone
  split
  next => exact calm_raiseFault _ _
  next => exact .refl s

theorem calm_expiryComparison (s : State) : Calm s (expiryComparison s) := by
  unfold expiryComparison
  split
  next =>
    split
    next => exact .refl s
    next =>
      split
      next =>
        refine Calm.trans (Calm.foldl expireContext (fun s c => ?_) (List.finRange 16) s) (calm_of_same (by simp))
        unfold expireContext
        split
        next => exact .refl s
        next =>
          split
          next =>
            refine Calm.trans ?_ (calm_queueNotice _ _ _ _ _ _)
            exact calm_setCtx rfl rfl (by simp [Idle])
          next => exact .refl s
      next => exact .refl s
  next => exact .refl s

theorem calm_tickEvent (s : State) : Calm s (tickEvent s) :=
  Calm.trans (calm_of_same (by simp)) (calm_expiryComparison _)

theorem Calm.eng {s t : State} (h : Calm s t) (e : Engine) : Calm s { t with eng := e } :=
  h.trans (calm_of_same ⟨rfl, rfl, rfl, rfl, rfl⟩)

theorem calm_recomputeCompare (s : State) : Calm s (recomputeCompare s) := calm_of_same (by simp)

theorem calm_captureViews (plan : List Run) (s : State) : Calm s (captureViews plan s) := by
  refine Calm.foldl _ (fun s c => ?_) _ s
  split
  next =>
    unfold captureView
    dsimp only
    refine Calm.trans (Calm.eng (Calm.trans ?_ (calm_recomputeCompare _)) _) (calm_queueNotice _ _ _ _ _ _)
    exact calm_setCtx rfl rfl id
  next => exact .refl s

/-! ### A context's close (R94) -/

theorem ctxOf_completeClose (c d : CtxSlot) (s : State) :
    ctxOf (completeClose c s) d = if d = c then Context.blank else ctxOf s d := by
  unfold completeClose
  dsimp only
  rw [ctxOf_setCtx]
  split
  next => rfl
  next => split <;> exact ctxOf_congr (by simp) d

theorem freeRegionsOf_get (c : CtxSlot) (t : Vector (Option Region) 128) (e : EntryNo) :
    (freeRegionsOf c t).get e = (t.get e).filter fun r => r.ctx ≠ c := by
  simp [freeRegionsOf, Vector.get_eq_getElem]

theorem regionOf_completeClose (c : CtxSlot) (e : EntryNo) (s : State) :
    regionOf (completeClose c s) e = (regionOf s e).filter fun r => r.ctx ≠ c := by
  have h : (completeClose c s).regions = freeRegionsOf c s.regions := by
    unfold completeClose
    dsimp only
    split <;> simp
  rw [regionOf, h, freeRegionsOf_get, regionOf]

theorem ringOf_completeClose (c d : CtxSlot) (s : State) :
    ringOf (completeClose c s) d = if d = c then none else ringOf s d := by
  have h : (completeClose c s).rings = (setRing c none { s with regions := freeRegionsOf c s.regions }).rings := by
    unfold completeClose
    dsimp only
    split <;> simp
  have h' : ringOf { s with regions := freeRegionsOf c s.regions } d = ringOf s d := ringOf_congr (by rfl) d
  rw [ringOf_congr h, ringOf_setRing, h']

/-- A closed context takes its regions and its ring with it (R77, R94). -/
theorem binding_completeClose {c : CtxSlot} {s : State} (hs : BindingLaw s) : BindingLaw (completeClose c s) := by
  obtain ⟨hnamed, hone, hring, hbound⟩ := hs
  have hreg : ∀ e r, regionOf (completeClose c s) e = some r ↔ regionOf s e = some r ∧ r.ctx ≠ c := by
    intro e r
    simp [regionOf_completeClose, Option.filter_eq_some_iff]
  refine ⟨fun e r hr => ?_, fun e f r q hef hr hq hc => ?_, fun e r hr hcls => ?_, fun d g hg => ?_⟩
  · obtain ⟨hr, hrc⟩ := (hreg e r).1 hr
    rw [ctxOf_completeClose, if_neg hrc]
    exact hnamed e r hr
  · obtain ⟨hr, hrc⟩ := (hreg e r).1 hr
    rw [ctxOf_completeClose, if_neg hrc]
    exact hone e f r q hef hr ((hreg f q).1 hq).1 hc
  · obtain ⟨hr, hrc⟩ := (hreg e r).1 hr
    rw [ctxOf_completeClose, if_neg hrc] at hcls
    rw [ringOf_completeClose, if_neg hrc]
    exact hring e r hr hcls
  · rw [ringOf_completeClose] at hg
    split at hg
    next => contradiction
    next hdc =>
      obtain ⟨hcls, e, r, hr, hrc, hrest⟩ := hbound d g hg
      exact ⟨by rw [ctxOf_completeClose, if_neg hdc, hcls], e, r, (hreg e r).2 ⟨hr, by rwa [hrc]⟩, hrc, hrest⟩

end Sys2Proof.LinkPassage
end

