-- ==== Sys2Proof/Proofs/EntryEnds.lean ====
section
namespace Sys2Proof.LinkPassage
open Sys2Proof Sys2Proof.Machine

/-! ### The end of an entry: the contexts it touched (R33, R37) -/

/-- What the lowering of one context's in-flight count does to the tables (R33, R80). -/
structure Lowered (c : CtxSlot) (s t : State) : Prop where
  binding : BindingLaw s → BindingLaw t
  other : ∀ d, d ≠ c → ctxOf t d = ctxOf s d
  count : (ctxOf t c).inFlight = (ctxOf s c).inFlight - 1
  idle : Idle (ctxOf t c) → Idle (ctxOf s c) ∨ (ctxOf s c).inFlight = 1

theorem Lowered.of_setCtx {c : CtxSlot} {x : Context} {s t : State} (ht : SameTables (setCtx c x s) t)
    (hc : x.cls = (ctxOf s c).cls) (hi : Idle x → Idle (ctxOf s c)) (hn : x.inFlight = (ctxOf s c).inFlight - 1) : Lowered c s t := by
  have hctx : ∀ d, ctxOf t d = if d = c then x else ctxOf s d := fun d => by rw [ctxOf_congr ht.1, ctxOf_setCtx]
  refine ⟨fun hb => (tables_of_same ht).binding ((bind_setCtx hc hi).binding hb), fun d hd => by rw [hctx, if_neg hd],
    by rw [hctx, if_pos rfl, hn], fun h => .inl (hi ?_)⟩
  rwa [hctx, if_pos rfl] at h

theorem lowered_lowerInFlight (c : CtxSlot) (s : State) : Lowered c s (lowerInFlight s c) := by
  have hdown : ∀ t, SameTables (updateCtx c (fun x => { x with inFlight := (ctxOf s c).inFlight - 1 }) s) t → Lowered c s t :=
    fun t ht => .of_setCtx ht rfl id rfl
  unfold lowerInFlight
  dsimp only
  split
  next hone =>
    unfold inFlightZero
    split
    next hseal =>
      rw [updateCtx, ctxOf_setCtx, if_pos rfl] at hseal
      refine .of_setCtx (x := { ctxOf s c with inFlight := (ctxOf s c).inFlight - 1, state := .sealed }) ?_ rfl (by simp [Idle]) rfl
      simp [SameTables, completeSeal, updateCtx, setCtx, ctxOf, Vector.get_eq_getElem]
    next =>
      unfold tryClose
      split
      next =>
        have hcount : BindKept s (updateCtx c (fun x => { x with inFlight := (ctxOf s c).inFlight - 1 }) s) :=
          bind_setCtx (x := { ctxOf s c with inFlight := (ctxOf s c).inFlight - 1 }) rfl id
        refine ⟨fun hb => binding_completeClose (hcount.binding hb), fun d hd => ?_, ?_, fun _ => .inr hone⟩
        · rw [ctxOf_completeClose, if_neg hd, updateCtx, ctxOf_setCtx, if_neg hd]
        · rw [ctxOf_completeClose, if_pos rfl, hone]; rfl
      next => exact hdown _ ⟨rfl, rfl, rfl⟩
    next => exact hdown _ ⟨rfl, rfl, rfl⟩
  next => exact hdown _ ⟨rfl, rfl, rfl⟩

/-- What the lowering of the in-flight counts of several contexts, each once, does to the tables. -/
theorem foldl_lowerInFlight {l : List CtxSlot} (hl : l.Nodup) (s : State) :
    (BindingLaw s → BindingLaw (l.foldl lowerInFlight s)) ∧
      ∀ c, (c ∉ l → ctxOf (l.foldl lowerInFlight s) c = ctxOf s c) ∧
        (c ∈ l → (ctxOf (l.foldl lowerInFlight s) c).inFlight = (ctxOf s c).inFlight - 1 ∧
          (Idle (ctxOf (l.foldl lowerInFlight s) c) → Idle (ctxOf s c) ∨ (ctxOf s c).inFlight = 1)) := by
  induction l generalizing s with
  | nil => simp
  | cons a l ih =>
    obtain ⟨ha, hl⟩ := List.nodup_cons.1 hl
    have hlow := lowered_lowerInFlight a s
    obtain ⟨hb, hc⟩ := ih hl (lowerInFlight s a)
    refine ⟨fun h => hb (hlow.binding h), fun c => ⟨fun hn => ?_, fun hm => ?_⟩⟩
    · simp only [List.mem_cons, not_or] at hn
      rw [List.foldl_cons, (hc c).1 hn.2, hlow.other c hn.1]
    · rw [List.foldl_cons]
      by_cases hca : c = a
      · subst hca
        rw [(hc c).1 ha]
        exact ⟨hlow.count, hlow.idle⟩
      · have hm : c ∈ l := by simpa [hca] using hm
        rw [← hlow.other c hca]
        exact (hc c).2 hm

theorem bridgeBursts_le_zero {s t : State} (h : UpKept s t) (hz : bridgeBursts s = 0) : bridgeBursts t = 0 := by
  have := h.bursts
  omega

/-- An entry's place is freed, and each context that its plan names is lowered by 1: the laws are kept (R33, R37). -/
theorem planLaw_lower {o : Owner} {e : Entry} {s : State} (hs : PlanLaw s) (he : entryOf s o = some e)
    (hb : o = .single → e.kind = .bridge → bridgeBursts s = 0) :
    PlanLaw (setEntry o none (e.touched.foldl lowerInFlight s)) := by
  obtain ⟨hentry, hbind, hbridge, htouch, hcount⟩ := hs
  have htou := htouch o e he
  obtain ⟨hb', hlow⟩ := foldl_lowerInFlight (htou ▸ touchedBy_nodup e.plan) s
  have htrk : (e.touched.foldl lowerInFlight s).trk = s.trk := by simp
  have hfade : Fades s (setEntry o none (e.touched.foldl lowerInFlight s)) :=
    (tracks_of_trk htrk).fades.trans (tracks_setEntry_none o _).fades
  have hcnt : ∀ c, entriesNaming (setEntry o none (e.touched.foldl lowerInFlight s)) c + (names c e).toNat = entriesNaming s c := by
    intro c
    have h1 := entriesNaming_setEntry o none (e.touched.foldl lowerInFlight s) c
    have h2 : entriesNaming (e.touched.foldl lowerInFlight s) c = entriesNaming s c :=
      entriesNaming_congr (fun p => by rw [entryOf_congr htrk]) c
    rw [entryOf_congr htrk, he, h2] at h1
    simpa using h1
  refine ⟨hfade.entryLaw hentry, (tables_of_same ⟨rfl, rfl, rfl⟩).binding (hb' hbind),
    bridgeLaw_kept (up_of_same (by simp)) hfade (fun x hx hk => ?_) hbridge, fun p x hx => ?_, fun c => ?_⟩
  · by_cases ho : o = .single
    · subst ho
      have hx' : entryOf s .single = some x := hx
      have hz := hb rfl (by rw [Option.some.inj (he.symm.trans hx'), hk])
      exact .inr (bridgeBursts_le_zero (up_of_same (by simp)) hz)
    · left
      cases o with
      | single => exact absurd rfl ho
      | tag k => simp [htrk, hx]
  · obtain ⟨e0, he0, hm⟩ := hfade p x hx
    rw [hm.touched, hm.plan, htouch p e0 he0]
  · have hctx : ctxOf (setEntry o none (e.touched.foldl lowerInFlight s)) c = ctxOf (e.touched.foldl lowerInFlight s) c := rfl
    have hc := hcnt c
    rw [hctx]
    by_cases hn : c ∈ e.touched
    · have hname : names c e = true := by rwa [htou, mem_touchedBy] at hn
      obtain ⟨h1, h2⟩ := (hlow c).2 hn
      rw [hname, Bool.toNat_true] at hc
      refine ⟨by rw [h1, (hcount c).1]; omega, fun hi => ?_⟩
      rcases h2 hi with hi | hi
      · have := (hcount c).2 hi; omega
      · have := (hcount c).1; omega
    · have hname : names c e = false := by
        rw [htou, mem_touchedBy] at hn
        exact Bool.eq_false_iff.2 hn
      rw [hname, Bool.toNat_false, Nat.add_zero] at hc
      rw [(hlow c).1 hn, hc]
      exact hcount c

/-- The end of an entry keeps the laws; a bridge's ends only when it has no burst (R33, R173). -/
theorem planLaw_endEntry {o : Owner} (r : Option Bool) {s : State} (hs : PlanLaw s)
    (hb : o = .single → ∀ e, entryOf s o = some e → e.kind = .bridge → bridgeBursts s = 0) : PlanLaw (endEntry o r s) := by
  unfold endEntry
  split
  next => exact hs
  next e he =>
    have hcalm := ((calm_releaseEntrySlots o e s).trans (calm_reportEnd o e r _)).trans (calm_noticeWithheld o e _)
    have hlaw := hcalm.planLaw hs
    obtain ⟨e', he'⟩ := Option.isSome_iff_exists.1 (hcalm.shifts.stays o (by rw [he]; rfl))
    obtain ⟨e0, he0, hm⟩ := hcalm.shifts.fades o e' he'
    obtain rfl : e = e0 := Option.some.inj (he.symm.trans he0)
    have hlow := planLaw_lower hlaw he' fun ho hk =>
      bridgeBursts_le_zero hcalm.up (hb ho e he (by rw [← hm.kind, hk]))
    rw [hm.touched] at hlow
    have hleft : Calm (setEntry o none (e.touched.foldl lowerInFlight (noticeWithheld o e (reportEnd o e r (releaseEntrySlots o e s)))))
        (setEntry o none (leaveSnapshot o (e.touched.foldl lowerInFlight (noticeWithheld o e
          (reportEnd o e r (releaseEntrySlots o e s)))))) :=
      calm_of_same (by simp [setEntry])
    have hend := hleft.planLaw hlow
    split
    next => exact hend
    next => exact (calm_clearQueueWait _).planLaw hend

/-- A queued entry's end keeps the laws. -/
theorem planLaw_endTag (k : Tag) (r : Option Bool) {s : State} (hs : PlanLaw s) : PlanLaw (endEntry (.tag k) r s) :=
  planLaw_endEntry r hs fun h => by cases h

/-- The single slot holds no bridge. -/
def NoBridge (s : State) : Prop := ∀ e, s.trk.single = some e → e.kind ≠ .bridge

theorem Fades.noBridge {s t : State} (h : Fades s t) (hs : NoBridge s) : NoBridge t := by
  intro e he
  obtain ⟨e0, he0, hm⟩ := h .single e he
  rw [hm.kind]
  exact hs e0 he0

theorem planLaw_endSingle (r : Option Bool) {s : State} (hs : PlanLaw s) (hb : NoBridge s) : PlanLaw (endEntry .single r s) :=
  planLaw_endEntry r hs fun _ e he hk => absurd hk (hb e he)

/-! ### Frames from the drive -/

theorem planLaw_rejectedBy (r : AcceptRecord) (f : StatusFrame) {s : State} (hs : PlanLaw s) : PlanLaw (rejectedBy r f s) := by
  have h := planLaw_endTag r.tag (some false) hs
  unfold rejectedBy
  dsimp only
  split
  next => exact (calm_placeRelayed _ _).planLaw h
  next => exact (calm_placePart _ (plain_done _)).planLaw h

theorem planLaw_takeAcceptance {r : AcceptRecord} {rest : List AcceptRecord} (f : StatusFrame) {s : State} (hs : PlanLaw s)
    (h : s.trk.accepts = r :: rest) : PlanLaw (takeAcceptance r rest f s) := by
  have hdrop := (calm_of_shifts (shifts_dropRecord h) ⟨rfl, rfl, rfl⟩ rfl).planLaw hs
  refine (calm_flushReleased _).planLaw ?_
  split
  next => exact (calm_clearQueueWait _).planLaw hdrop
  next =>
    split
    next => exact ((calm_acceptedBy r f _).trans (calm_clearQueueWait _)).planLaw hdrop
    next => exact planLaw_rejectedBy r f hdrop

/-- A single slot that is with the drive holds no bridge (R20, R23). -/
theorem noBridge_of_withDrive {s : State} (hs : EntryLaw s) (h : singleWithDrive s = true) : NoBridge s := by
  intro e he hk
  obtain ⟨-, -, -, -, hl⟩ := hs .single e he
  simp [singleWithDrive, he, hl.2 hk] at h

theorem planLaw_completeSingle (f : StatusFrame) {s : State} (hs : PlanLaw s) (hb : NoBridge s) : PlanLaw (completeSingle f s) := by
  have hend : ∀ {u} (r), Calm s u → PlanLaw (endEntry .single r u) := fun r h =>
    planLaw_endSingle r (h.planLaw hs) (h.shifts.fades.noBridge hb)
  have hclose := calm_closeOwned (· = .single) s
  have hshort := hclose.trans (calm_checkShort .single _)
  unfold completeSingle
  refine (calm_flushReleased _).planLaw ?_
  split
  next h1 =>
    split
    next => exact (calm_placeRelayed _ _).planLaw (hend _ hshort)
    next => exact (calm_placeRelayed _ _).planLaw (hend _ hshort)
  next h1 =>
    exact (calm_placeRelayed _ _).planLaw (hend _ hclose)

theorem planLaw_takeStatus (f : StatusFrame) {s : State} (hs : PlanLaw s) : PlanLaw (takeStatus f s) := by
  unfold takeStatus
  split
  next h =>
    split
    next => exact (calm_raiseFault _ _).planLaw hs
    next => exact planLaw_takeAcceptance f hs h
  next =>
    split
    next h => exact planLaw_completeSingle f hs (noBridge_of_withDrive hs.entry h.2)
    next => exact (calm_raiseFault _ _).planLaw hs

theorem planLaw_endDone (l : List Tag) {s : State} (hs : PlanLaw s) : PlanLaw (endDone l s).2 := by
  induction l generalizing s with
  | nil => exact hs
  | cons k rest ih =>
    have h := ((calm_checkShort (.tag k) s).trans (calm_answerAhead k _)).planLaw hs
    unfold endDone
    dsimp only
    split <;> exact ih (planLaw_endTag _ _ h)

theorem planLaw_endFailed (s : State) (p : Byte × Byte) (hs : PlanLaw s) : PlanLaw (endFailed s p) :=
  planLaw_endTag _ _ ((calm_answerAhead _ s).planLaw hs)

theorem planLaw_foldl {α : Type} {f : State → α → State} (h : ∀ s a, PlanLaw s → PlanLaw (f s a)) (l : List α) {s : State}
    (hs : PlanLaw s) : PlanLaw (l.foldl f s) := by
  induction l generalizing s with
  | nil => exact hs
  | cons a l ih => exact ih (h s a hs)

theorem planLaw_abortEntries (l : List Tag) {s : State} (hs : PlanLaw s) : PlanLaw (abortEntries l s).2 := by
  have h1 : ∀ (k : Tag) (e : Entry) {u : State}, PlanLaw u → PlanLaw (abortEntry k e u).2 := fun k e u hu => by
    have h := planLaw_endTag k none hu
    unfold abortEntry
    split
    next => exact h
    next =>
      split
      next => exact h
      next => exact (calm_placePart _ (plain_status _)).planLaw h
  induction l generalizing s with
  | nil => exact hs
  | cons k rest ih =>
    unfold abortEntries
    split
    next => exact ih hs
    next e _ => exact ih (h1 k e hs)

theorem planLaw_abortQueued {s : State} (hs : PlanLaw s) : PlanLaw (abortQueued s).2 := by
  have h := (calm_noAccepts _).planLaw (planLaw_abortEntries (List.finRange 32) hs)
  have h' := (calm_rewindRings _).planLaw h
  unfold abortQueued
  dsimp only
  exact h'

theorem planLaw_abortSingle {s : State} (hs : PlanLaw s) : PlanLaw (abortSingle s) := by
  unfold abortSingle
  cases he : s.trk.single with
  | none => exact hs
  | some e =>
    dsimp only
    split
    next h =>
      have hb : NoBridge s := fun x hx => by
        obtain rfl := Option.some.inj (hx.symm.trans he)
        simp [h.1]
      exact (calm_placePart _ (plain_status _)).planLaw (planLaw_endSingle none hs hb)
    next => exact (calm_clearQueueWait s).planLaw hs

/-- The end of a DONE: with the abort flag the rest of the queue ends too (R36, R14). -/
theorem planLaw_finishDone (d : DoneFrame) (q : (List Tag × List (Byte × Byte)) × State) (c : CheckedDone) (hs : PlanLaw q.2) :
    PlanLaw (if doneAborts d then
      abortSingle (relayDone d q.1.1 (c.pairs ++ q.1.2 ++ (abortQueued (c.pairs.foldl endFailed q.2)).1)
        (abortQueued (c.pairs.foldl endFailed q.2)).2)
      else relayDone d q.1.1 (c.pairs ++ q.1.2) (c.pairs.foldl endFailed q.2)) := by
  have h3 := planLaw_foldl planLaw_endFailed c.pairs hs
  split
  next => exact planLaw_abortSingle ((calm_relayDone _ _ _ _).planLaw (planLaw_abortQueued h3))
  next => exact (calm_relayDone _ _ _ _).planLaw h3

theorem planLaw_takeDone (d : DoneFrame) {s : State} (hs : PlanLaw s) : PlanLaw (takeDone d s) := by
  have h1 := (calm_slipDone (doneRemoves d (checkDone d (closeOwned (doneNames d) s))) _).planLaw
    ((calm_closeOwned (doneNames d) s).planLaw hs)
  have h2 := planLaw_endDone (checkDone d (closeOwned (doneNames d) s)).tags h1
  exact (calm_flushReleased _).planLaw (planLaw_finishDone d _ _ h2)

theorem planLaw_takeDrive (f : Frame) {s : State} (hs : PlanLaw s) : PlanLaw (takeDrive f s) := by
  unfold takeDrive
  split
  next =>
    unfold takeInReset
    split
    next =>
      dsimp only
      split
      next => exact (Calm.trans (calm_of_same (by simp)) (calm_placeRelayed _ _)).planLaw hs
      next => exact Calm.planLaw (s := s) (calm_of_same (by simp)) hs
    all_goals exact hs
  next =>
    split
    next =>
      split
      next => exact (calm_takeReady _ s).planLaw hs
      next => exact (calm_takeDataDrive _ s).planLaw hs
      next => exact planLaw_takeStatus _ hs
      next => exact planLaw_takeDone _ hs
      all_goals exact hs
    next => exact (calm_raiseFault _ _).planLaw hs

end Sys2Proof.LinkPassage
end

