-- ==== Sys2Proof/Proofs/TableChanges.lean ====
section
namespace Sys2Proof.LinkPassage
open Sys2Proof Sys2Proof.Machine

/-! ### Requests and the laws -/

theorem calm_updateCtx {c : CtxSlot} {f : Context → Context} (s : State) (hi : (f (ctxOf s c)).inFlight = (ctxOf s c).inFlight)
    (hc : (f (ctxOf s c)).cls = (ctxOf s c).cls) (hd : Idle (f (ctxOf s c)) → Idle (ctxOf s c)) : Calm s (updateCtx c f s) :=
  calm_setCtx hi hc hd

/-- No entry names an idle context, no region binds it, and it has no ring (R37, R46). -/
theorem PlanLaw.idle {s : State} (hs : PlanLaw s) {c : CtxSlot} (hc : Idle (ctxOf s c)) :
    entriesNaming s c = 0 ∧ (∀ e r, regionOf s e = some r → r.ctx ≠ c) ∧ ringOf s c = none := by
  obtain ⟨hnamed, -, -, hbound⟩ := hs.binding
  have hfree : ∀ e r, regionOf s e = some r → r.ctx ≠ c := by
    rintro e r hr rfl
    rcases hc with h | h
    exacts [(hnamed e r hr).1 h, (hnamed e r hr).2 h]
  refine ⟨(hs.counts.2 c).2 hc, hfree, ?_⟩
  cases hg : ringOf s c with
  | none => rfl
  | some g =>
    obtain ⟨-, e, r, hr, hrc, -⟩ := hbound c g hg
    exact absurd hrc (hfree e r hr)

/-- Where the contexts, the regions and the rings change and the Tracker and the upstream port do not. -/
theorem PlanLaw.of_tables {s t : State} (hs : PlanLaw s) (ht : t.trk = s.trk) (hu : t.up = s.up) (hb : BindingLaw t)
    (hc : ∀ c, (ctxOf t c).inFlight = entriesNaming s c ∧ (Idle (ctxOf t c) → entriesNaming s c = 0)) : PlanLaw t := by
  have hsh := shifts_of_trk ht
  exact ⟨hsh.fades.entryLaw hs.entry, hb,
    bridgeLaw_kept (up_of_same hu) hsh.fades (fun e he _ => .inl (by rw [ht, he]; rfl)) hs.bridge,
    fun o e he => hs.counts.1 o e (by rwa [entryOf_congr ht] at he), fun c => by rw [hsh.entriesNaming]; exact hc c⟩

/-- An idle context's slot takes a record with nothing in flight (R83, R86). -/
theorem planLaw_setCtx_idle {c : CtxSlot} {x : Context} {s : State} (hs : PlanLaw s) (hc : Idle (ctxOf s c)) (hx : x.inFlight = 0) :
    PlanLaw (setCtx c x s) := by
  obtain ⟨hnone, hfree, hring⟩ := hs.idle hc
  obtain ⟨hnamed, hone, hsome, hbound⟩ := hs.binding
  have hctx : ∀ d, d ≠ c → ctxOf (setCtx c x s) d = ctxOf s d := fun d hd => by rw [ctxOf_setCtx, if_neg hd]
  refine hs.of_tables rfl rfl ⟨fun e r hr => ?_, fun e f r q hef hr hq hcq => ?_, fun e r hr hcls => ?_, fun d g hg => ?_⟩ fun d => ?_
  · rw [hctx _ (hfree e r hr)]; exact hnamed e r hr
  · rw [hctx _ (hfree e r hr)]; exact hone e f r q hef hr hq hcq
  · rw [hctx _ (hfree e r hr)] at hcls; exact hsome e r hr hcls
  · have hdc : d ≠ c := fun h => by
      rw [h] at hg
      exact absurd (show ringOf s c = some g from hg) (by simp [hring])
    rw [hctx d hdc]
    exact hbound d g hg
  · by_cases hd : d = c
    · subst hd
      rw [ctxOf_setCtx, if_pos rfl, hnone]
      exact ⟨hx, fun _ => rfl⟩
    · rw [hctx d hd]
      exact hs.counts.2 d

theorem planLaw_completeClose {c : CtxSlot} {s : State} (hs : PlanLaw s) (hc : (ctxOf s c).inFlight = 0) : PlanLaw (completeClose c s) := by
  have hnone : entriesNaming s c = 0 := by rw [← (hs.counts.2 c).1, hc]
  have htrk : (completeClose c s).trk = s.trk := by simp
  refine hs.of_tables htrk (by simp) (binding_completeClose hs.binding) fun d => ?_
  rw [ctxOf_completeClose]
  split
  next h => rw [h, hnone]; exact ⟨rfl, fun _ => rfl⟩
  next => exact hs.counts.2 d

theorem planLaw_tryClose (c : CtxSlot) {s : State} (hs : PlanLaw s) : PlanLaw (tryClose c s) := by
  unfold tryClose
  split
  next h => exact planLaw_completeClose hs h.2.1
  next => exact hs

theorem calm_completeSeal (c : CtxSlot) (s : State) : Calm s (completeSeal c s) := by
  unfold completeSeal
  exact Calm.trans (calm_updateCtx _ rfl rfl (by simp [Idle])) (calm_queueNotice _ _ _ _ _ _)

theorem calm_unpinContext (c : CtxSlot) (s : State) : Calm s (unpinContext c s) := by
  unfold unpinContext
  dsimp only
  split
  next =>
    refine Calm.trans (calm_updateCtx (c := c) (f := fun x => { x with pin := false }) s rfl rfl id) ?_
    split
    next => split <;> exact calm_of_same (by simp)
    next => split <;> exact calm_of_same (by simp)
  next => exact .refl s

theorem calm_pinContext (c : CtxSlot) (s : State) : Calm s (pinContext c s) := by
  unfold pinContext
  dsimp only
  refine Calm.trans (calm_updateCtx (c := c) (f := fun x => { x with pin := true }) s rfl rfl id) ?_
  split <;> exact calm_of_same (by simp)

theorem planLaw_startClose (c : CtxSlot) {s : State} (hs : PlanLaw s) : PlanLaw (startClose c s) := by
  unfold startClose
  dsimp only
  have h := calm_updateCtx (c := c) (f := fun x => { x with state := .closing, receipt := closingReceipt x.receipt }) s rfl rfl
    (by simp [Idle])
  exact planLaw_tryClose c ((((h.eng _).trans (calm_unpinContext c _)).trans (calm_recomputeCompare _)).planLaw hs)

/-- The single slot holds the bridge, whose request burst has closed (R172). -/
def Served (s : State) : Prop := (∃ e, s.trk.single = some e ∧ e.kind = .bridge) ∧ bridgeBursts s = 0

theorem planLaw_clearUnit {s : State} (hs : PlanLaw s) (hb : Served s) (hi : unitIdle s = true) : PlanLaw (clearUnit s) := by
  obtain ⟨⟨e, he, hk⟩, -⟩ := hb
  have hplan : e.plan = [] := hs.bridge.2.2.1 e he hk
  have htags : ∀ k, entryOf s (.tag k) = none := by
    intro k
    simp only [unitIdle, Bool.and_eq_true] at hi
    have := hi.1.1
    simp [tagsInUse] at this
    simpa [entryOf] using this k
  have hnone : ∀ c, entriesNaming s c = 0 := by
    intro c
    rw [entriesNaming_eq, List.countP_eq_zero]
    intro o _
    cases o with
    | tag k => simp [htags]
    | single => simp [entryOf, he, names, hplan]
  have hreg : ∀ n, regionOf (clearUnit s) n = none := fun n => by simp [regionOf, clearUnit, Vector.get_eq_getElem]
  have hring : ∀ c, ringOf (clearUnit s) c = none := fun c => by simp [ringOf, clearUnit, Vector.get_eq_getElem]
  have hctx : ∀ c, ctxOf (clearUnit s) c = .blank := fun c => by simp [ctxOf, clearUnit, Vector.get_eq_getElem]
  refine hs.of_tables rfl rfl ⟨fun e r hr => ?_, fun e f r q _ hr => ?_, fun e r hr => ?_, fun c g hg => ?_⟩ fun c => ?_
  · simp [hreg] at hr
  · simp [hreg] at hr
  · simp [hreg] at hr
  · simp [hring] at hg
  · rw [hctx, hnone]
    exact ⟨rfl, fun _ => rfl⟩

/-! ### Regions come and go (R66, R74) -/

theorem regionOf_set (e f : EntryNo) (x : Option Region) (s : State) :
    regionOf { s with regions := s.regions.set e x } f = if f = e then x else regionOf s f := by
  rw [regionOf, regionOf, Vector.get_eq_getElem, Vector.get_eq_getElem, Vector.getElem_set]
  by_cases h : f = e
  · simp [h]
  · rw [if_neg h, if_neg fun hv => h (Fin.ext hv.symm)]

theorem mem_enabledRegions {s : State} {r : Region} : r ∈ enabledRegions s ↔ ∃ e, regionOf s e = some r := by
  simp only [enabledRegions, List.mem_filterMap, id_eq, exists_eq_right, Vector.mem_toList_iff, Vector.mem_iff_getElem]
  constructor
  · rintro ⟨i, hi, h⟩
    exact ⟨⟨i, hi⟩, by rwa [regionOf, Vector.get_eq_getElem]⟩
  · rintro ⟨e, h⟩
    exact ⟨e, e.isLt, by rwa [regionOf, Vector.get_eq_getElem] at h⟩

/-- What ADD_REGION has checked of the context it binds (R69, R71). -/
theorem regionRefusal_none {s : State} {r : Region} (h : regionRefusal s r = none) :
    ¬Idle (ctxOf s r.ctx) ∧ ((ctxOf s r.ctx).cls = .shift → ∀ f q, regionOf s f = some q → q.ctx ≠ r.ctx) := by
  unfold regionRefusal at h
  dsimp only at h
  split at h
  next => contradiction
  next hst =>
    split at h
    next => contradiction
    next =>
      split at h
      next => contradiction
      next hone =>
        refine ⟨fun hi => hst fun hx => ?_, fun hc f q hq hqc => hone ⟨hc, ?_⟩⟩
        · rcases hi with hi | hi <;> simp [hi] at hx
        · exact List.any_eq_true.2 ⟨q, mem_enabledRegions.2 ⟨f, hq⟩, by simpa using hqc⟩

theorem planLaw_enableRegion {e : EntryNo} {r : Region} {s : State} (hs : PlanLaw s) (he : regionOf s e = none)
    (hr : regionRefusal s r = none) : PlanLaw (enableRegion e r s) := by
  obtain ⟨hidle, hsole⟩ := regionRefusal_none hr
  obtain ⟨hnamed, hone, hsome, hbound⟩ := hs.binding
  have htrk : (enableRegion e r s).trk = s.trk := by unfold enableRegion; dsimp only; split <;> rfl
  have hup : (enableRegion e r s).up = s.up := by unfold enableRegion; dsimp only; split <;> rfl
  have hctx : ∀ c, ctxOf (enableRegion e r s) c = ctxOf s c := fun c => by unfold enableRegion; dsimp only; split <;> rfl
  have hreg : ∀ f, regionOf (enableRegion e r s) f = if f = e then some r else regionOf s f := fun f => by
    rw [← regionOf_set]
    unfold enableRegion; dsimp only; split <;> rfl
  have hring : ∀ c, ringOf (enableRegion e r s) c =
      if (ctxOf s r.ctx).cls = .shift ∧ c = r.ctx then some (newRing r) else ringOf s c := fun c => by
    have hc : ctxOf { s with regions := s.regions.set e (some r) } r.ctx = ctxOf s r.ctx := rfl
    unfold enableRegion
    dsimp only
    rw [hc]
    split
    next h =>
      rw [ringOf_setRing]
      simp only [h, true_and]
      rfl
    next h => simp only [h, false_and, if_false]; rfl
  refine hs.of_tables htrk hup ⟨fun f q hq => ?_, fun f g q p hfg hq hp hqp => ?_, fun f q hq hc => ?_, fun c g hg => ?_⟩ fun c => ?_
  · rw [hctx]
    rw [hreg] at hq
    split at hq
    next => cases hq; exact ⟨fun h => hidle (.inl h), fun h => hidle (.inr h)⟩
    next => exact hnamed f q hq
  · rw [hctx]
    rw [hreg] at hq hp
    split at hq
    next hf =>
      cases hq
      rw [if_neg fun h => hfg (hf.trans h.symm)] at hp
      exact fun hc => hsole hc g p hp hqp.symm
    next =>
      split at hp
      next => cases hp; exact fun hc => hsole (hqp ▸ hc) f q hq hqp
      next => exact hone f g q p hfg hq hp hqp
  · rw [hctx] at hc
    rw [hreg] at hq
    rw [hring]
    split
    next => rfl
    next h =>
      split at hq
      next => cases hq; exact absurd ⟨hc, rfl⟩ h
      next => exact hsome f q hq hc
  · rw [hctx]
    rw [hring] at hg
    split at hg
    next h =>
      cases hg
      obtain ⟨hc, rfl⟩ := h
      exact ⟨hc, e, r, by rw [hreg, if_pos rfl], rfl, rfl, rfl, rfl⟩
    next =>
      obtain ⟨hc, f, q, hq, hrest⟩ := hbound c g hg
      have hf : f ≠ e := by rintro rfl; simp [he] at hq
      exact ⟨hc, f, q, by rw [hreg, if_neg hf, hq], hrest⟩
  · rw [hctx]
    exact hs.counts.2 c

/-- A region freed with its ring, if its context has one (R74, R75). -/
def withoutRegion (e : EntryNo) (r : Region) (s : State) : State :=
  let s := { s with regions := s.regions.set e none }
  if (ctxOf s r.ctx).cls = .shift then setRing r.ctx none s else s

theorem binding_withoutRegion {e : EntryNo} {r : Region} {s : State} (hs : BindingLaw s) (he : regionOf s e = some r) :
    BindingLaw (withoutRegion e r s) := by
  obtain ⟨hnamed, hone, hsome, hbound⟩ := hs
  have hctx : ∀ c, ctxOf (withoutRegion e r s) c = ctxOf s c := fun c => by unfold withoutRegion; dsimp only; split <;> rfl
  have hreg : ∀ f q, regionOf (withoutRegion e r s) f = some q ↔ f ≠ e ∧ regionOf s f = some q := fun f q => by
    have h : regionOf (withoutRegion e r s) f = if f = e then none else regionOf s f := by
      rw [← regionOf_set]
      unfold withoutRegion; dsimp only; split <;> rfl
    rw [h]
    by_cases hf : f = e <;> simp [hf]
  have hring : ∀ c, ringOf (withoutRegion e r s) c =
      if (ctxOf s r.ctx).cls = .shift ∧ c = r.ctx then none else ringOf s c := fun c => by
    have hc : ctxOf { s with regions := s.regions.set e none } r.ctx = ctxOf s r.ctx := rfl
    unfold withoutRegion
    dsimp only
    rw [hc]
    split
    next h =>
      rw [ringOf_setRing]
      simp only [h, true_and]
      rfl
    next h => simp only [h, false_and, if_false]; rfl
  refine ⟨fun f q hq => ?_, fun f g q p hfg hq hp hqp => ?_, fun f q hq hc => ?_, fun c g hg => ?_⟩
  · rw [hctx]
    exact hnamed f q ((hreg f q).1 hq).2
  · rw [hctx]
    exact hone f g q p hfg ((hreg f q).1 hq).2 ((hreg g p).1 hp).2 hqp
  · rw [hctx] at hc
    obtain ⟨hfe, hq⟩ := (hreg f q).1 hq
    rw [hring, if_neg fun h => hone f e q r hfe hq he h.2 hc]
    exact hsome f q hq hc
  · rw [hring] at hg
    split at hg
    next => contradiction
    next hkeep =>
      obtain ⟨hc, f, q, hq, hqc, hrest⟩ := hbound c g hg
      have hfe : f ≠ e := by
        rintro rfl
        obtain rfl := Option.some.inj (hq.symm.trans he)
        exact hkeep ⟨hqc ▸ hc, hqc.symm⟩
      exact ⟨by rw [hctx, hc], f, q, (hreg f q).2 ⟨hfe, hq⟩, hqc, hrest⟩

theorem planLaw_freeRegion {e : EntryNo} {r : Region} {s : State} (hs : PlanLaw s) (he : regionOf s e = some r) :
    PlanLaw (freeRegion e r s) := by
  have hw : PlanLaw (withoutRegion e r s) := by
    have hbind := binding_withoutRegion hs.binding he
    unfold withoutRegion at hbind ⊢
    dsimp only at hbind ⊢
    split at hbind
    next h => rw [if_pos h]; exact hs.of_tables rfl rfl hbind hs.counts.2
    next h => rw [if_neg h]; exact hs.of_tables rfl rfl hbind hs.counts.2
  unfold withoutRegion at hw
  unfold freeRegion deleteRing
  dsimp only at hw ⊢
  split
  next h =>
    rw [if_pos h] at hw
    refine (calm_flushReleased _).planLaw ?_
    obtain ⟨g, hg⟩ := Option.isSome_iff_exists.1 (hs.binding.2.2.1 e r he h)
    have hg' : ringOf { s with regions := s.regions.set e none } r.ctx = some g := hg
    rw [hg']
    exact (Calm.foldl _ (fun s o => calm_releaseEntry o s) _ _).planLaw hw
  next h => rwa [if_neg h] at hw

end Sys2Proof.LinkPassage
end

