-- ==== Sys2Proof/Proofs/BridgeRequests.lean ====
section
namespace Sys2Proof.LinkPassage
open Sys2Proof Sys2Proof.Machine

/-! ### The requests of the bridge -/

theorem planLaw_loadContext (slot : Byte) (b : Blob) {s : State} (hs : PlanLaw s) : PlanLaw (loadContextRequest slot b s).after := by
  unfold loadContextRequest refuses accepts
  split
  next => exact hs
  next c _ =>
    split
    next => exact hs
    next hst =>
      have hidle : Idle (ctxOf s c) := .inl (by simpa using hst)
      have hload : ∀ cls opening others, PlanLaw { setCtx c (loadingContext b cls opening) s with eng := others } :=
        fun cls opening others => ((Calm.refl _).eng _).planLaw (planLaw_setCtx_idle hs hidle rfl)
      dsimp only
      repeat' split
      all_goals first
        | exact hs
        | exact hload _ _ _

theorem calm_sealContext (slot : Byte) (s : State) : Calm s (sealContextRequest slot s).after := by
  unfold sealContextRequest refuses accepts
  split
  next => exact .refl s
  next c _ =>
    split
    next => exact .refl s
    next =>
      split
      next => exact calm_completeSeal c s
      next => exact calm_updateCtx (c := c) (f := fun x => { x with state := .sealing }) s rfl rfl (by simp [Idle])

theorem planLaw_closeContext (slot : Byte) {s : State} (hs : PlanLaw s) : PlanLaw (closeContextRequest slot s).after := by
  unfold closeContextRequest refuses accepts
  split
  next => exact hs
  next c _ =>
    split
    next => exact hs
    next =>
      split
      next => exact hs
      next => exact planLaw_startClose c hs

theorem planLaw_addRegion (p : RegionParams) {s : State} (hs : PlanLaw s) : PlanLaw (addRegionRequest p s).after := by
  unfold addRegionRequest refuses accepts
  split
  next => exact hs
  next e _ =>
    by_cases he : (regionOf s e).isSome = true
    · rw [if_pos he]; exact hs
    · rw [if_neg he]
      repeat' split
      all_goals first
        | exact hs
        | exact planLaw_enableRegion hs (by simpa using he) (by assumption)

theorem calm_setShiftDepth (slot : Byte) (depth : BitVec 32) (s : State) : Calm s (setShiftDepthRequest slot depth s).after := by
  unfold setShiftDepthRequest refuses accepts
  split
  next => exact .refl s
  next c _ =>
    dsimp only
    split
    next => exact .refl s
    next =>
      split
      next => exact .refl s
      next r hr => exact calm_setRing hr rfl

theorem calm_pinKey (slot : Byte) (s : State) : Calm s (pinKeyRequest slot s).after := by
  unfold pinKeyRequest refuses accepts
  dsimp only
  split
  next => exact .refl s
  next c _ =>
    split
    next => exact .refl s
    next =>
      split
      next => exact .refl s
      next =>
        split
        next => exact .refl s
        next => exact calm_pinContext c s

theorem calm_unpinKey (slot : Byte) (s : State) : Calm s (unpinKeyRequest slot s).after := by
  unfold unpinKeyRequest refuses accepts
  split
  next => exact .refl s
  next => exact calm_unpinContext _ s

/-- A request keeps the laws; CLEAR_UNIT, which empties the tables, is taken with the bridge alone in use (R98). -/
theorem planLaw_executeRequest (r : Request) {s : State} (hs : PlanLaw s) (hb : Served s) : PlanLaw (executeRequest r s).after := by
  have hsame : ∀ {t : State}, t.trk = s.trk ∧ t.contexts = s.contexts ∧ t.regions = s.regions ∧ t.rings = s.rings ∧ t.up = s.up →
      PlanLaw t := fun h => (calm_of_same h).planLaw hs
  cases r <;> simp only [executeRequest]
  case loadContext slot b => exact planLaw_loadContext slot b hs
  case sealContext slot => exact (calm_sealContext slot s).planLaw hs
  case closeContext slot => exact planLaw_closeContext slot hs
  case readContext slot => unfold readContextRequest refuses replies; split <;> exact hs
  case readReceipt slot => unfold readReceiptRequest refuses replies; repeat' split
                           all_goals exact hs
  case clearUnit =>
    unfold clearUnitRequest refuses accepts
    split
    next h => exact planLaw_clearUnit hs hb h
    next => exact hs
  case addRegion p => exact planLaw_addRegion p hs
  case removeRegion entry =>
    rcases removeRegion_after entry s with h | ⟨e, r, hr, h⟩
    · rw [h]; exact hs
    · rw [h]; exact planLaw_freeRegion hs hr
  case readRegions start => unfold readRegionsRequest refuses replies; split <;> exact hs
  case setShiftDepth slot depth => exact (calm_setShiftDepth slot depth s).planLaw hs
  case pinKey slot => exact (calm_pinKey slot s).planLaw hs
  case unpinKey slot => exact (calm_unpinKey slot s).planLaw hs
  case setRightsTime time check =>
    unfold setRightsTimeRequest refuses accepts
    split
    next => exact hs
    next => exact hsame (by simp)
  case writeSettings p =>
    unfold writeSettingsRequest applySettings refuses accepts
    repeat' split
    all_goals exact hsame (by simp)
  case lockSettings => exact hsame (by simp [lockSettingsRequest, accepts])
  case readStatus => exact hs
  case drain => unfold drainRequest accepts; dsimp only; split <;> exact hsame (by simp)
  case readNotices => exact hsame (by simp [readNoticesRequest, replies])
  case readHistory => exact hs
  case clearFaults set => exact hsame (by simp [clearFaultsRequest, accepts])

theorem executeRequest_up (r : Request) (s : State) : (executeRequest r s).after.up = s.up := by
  cases r <;> simp only [executeRequest]
  case loadContext slot b => unfold loadContextRequest refuses accepts; repeat' split
                             all_goals simp
  case sealContext slot => unfold sealContextRequest refuses accepts; repeat' split
                           all_goals simp
  case closeContext slot => unfold closeContextRequest startClose refuses accepts; repeat' split
                            all_goals simp
  case readContext slot => unfold readContextRequest refuses replies; split <;> rfl
  case readReceipt slot => unfold readReceiptRequest refuses replies; repeat' split
                           all_goals rfl
  case clearUnit => unfold clearUnitRequest refuses accepts; split <;> rfl
  case addRegion p => unfold addRegionRequest enableRegion refuses accepts; dsimp only; repeat' split
                      all_goals rfl
  case removeRegion entry =>
    rcases removeRegion_after entry s with h | ⟨e, r, -, h⟩ <;> rw [h]
    unfold freeRegion
    dsimp only
    split <;> simp
  case readRegions start => unfold readRegionsRequest refuses replies; split <;> rfl
  case setShiftDepth slot depth => unfold setShiftDepthRequest refuses accepts; dsimp only; repeat' split
                                   all_goals rfl
  case pinKey slot => unfold pinKeyRequest refuses accepts; dsimp only; repeat' split
                      all_goals simp
  case unpinKey slot => unfold unpinKeyRequest refuses accepts; split <;> simp
  case setRightsTime time check => unfold setRightsTimeRequest refuses accepts; split <;> rfl
  case writeSettings p => unfold writeSettingsRequest applySettings refuses accepts; repeat' split
                          all_goals simp
  case lockSettings => rfl
  case readStatus => rfl
  case drain => unfold drainRequest accepts; dsimp only; split <;> simp
  case readNotices => simp [readNoticesRequest, replies]
  case readHistory => rfl
  case clearFaults set => rfl

/-- A request leaves the bridge served: its entry and the upstream port are as they were. -/
theorem served_kept {s t : State} (hs : Served s) (h : Shifts s t) (hu : t.up = s.up) : Served t := by
  obtain ⟨⟨e, he, hk⟩, hz⟩ := hs
  obtain ⟨e', he'⟩ := Option.isSome_iff_exists.1 (h.stays .single (by rw [entryOf, he]; rfl))
  obtain ⟨e0, he0, hm⟩ := h.fades .single e' he'
  obtain rfl := Option.some.inj (he0.symm.trans he)
  exact ⟨⟨e', he', hm.kind.trans hk⟩, by rw [bridgeBursts_congr hu, hz]⟩

/-- The bridge's entry ends once it has no burst; it names no context (R173). -/
theorem planLaw_freeBridge {s : State} (hs : PlanLaw s) (hb : Served s) : PlanLaw (setEntry .single none s) := by
  obtain ⟨⟨e, he, hk⟩, hz⟩ := hb
  have htouch : e.touched = [] := by
    rw [hs.counts.1 .single e he, hs.bridge.2.2.1 e he hk]
    simp [touchedBy]
  have h := planLaw_lower (o := .single) hs he fun _ _ => hz
  rwa [htouch] at h

/-- A READY of the bridge joins the send list while its entry is in use and it has no burst (R171, R173). -/
theorem planLaw_placeBridge (d : Dir) {s : State} (hs : PlanLaw s) (hb : Served s) : PlanLaw (placeItem (bridgeReady d) s) := by
  obtain ⟨⟨e, he, hk⟩, hz⟩ := hb
  have hone : bridgeBursts (placeItem (bridgeReady d) s) = 1 := by
    have : isBridgeReady (bridgeReady d) = true := rfl
    simp only [bridgeBursts, placeItem, List.filter_append] at hz ⊢
    simp [this]
    omega
  obtain ⟨-, -, hplan, hleft, hitems⟩ := hs.bridge
  refine ⟨hs.entry, hs.binding, ⟨hone.le, fun _ => ⟨e, he, hk⟩, hplan, hleft, fun i hi hr => ?_⟩, hs.counts⟩
  rcases List.mem_append.1 hi with hi | hi
  · exact hitems i hi hr
  · rw [List.mem_singleton.1 hi]
    exact ⟨fun r hr => by cases hr; rfl, nofun⟩

theorem planLaw_answerRequest (x : Executed) (hs : PlanLaw x.after) (hb : Served x.after) : PlanLaw (answerRequest x) := by
  have hfree : ∀ f, Plain f → PlanLaw (setEntry .single none (placePart f x.after)) := fun f hf =>
    planLaw_freeBridge ((calm_placePart _ hf).planLaw hs)
      ⟨hb.1, bridgeBursts_le_zero (up_placePart x.after hf) hb.2⟩
  unfold answerRequest
  split
  next => exact hfree _ (plain_status _)
  next => exact hfree _ (plain_status _)
  next b _ =>
    have hreply : Calm x.after { x.after with req := { x.after.req with reply := some b } } := calm_of_same (by simp)
    exact planLaw_placeBridge _ (hreply.planLaw hs) hb

theorem planLaw_takeRequest (block : Sector) {s : State} (hs : PlanLaw s) (hb : Served s) : PlanLaw (takeRequest block s) := by
  unfold takeRequest
  split
  next => exact planLaw_answerRequest (refuses .malformed s) hs hb
  next r _ =>
    exact planLaw_answerRequest _ (planLaw_executeRequest r hs hb)
      (served_kept hb (shifts_executeRequest r s) (executeRequest_up r s))

/-! ### Frames from the controller -/

/-- The request block closes the request burst: the bridge then has no burst. -/
theorem served_of_inBurst {s : State} {b : UpBurst} (hs : BridgeLaw s) (hb : s.up.inBurst = some b) (hbr : b.bridge = true) :
    Served { s with up := { s.up with inBurst := none } } := by
  obtain ⟨hone, hsingle, -⟩ := hs
  have hsum : bridgeBursts s = bridgeBursts { s with up := { s.up with inBurst := none } } + 1 := by
    simp [bridgeBursts, hb, hbr]
    omega
  exact ⟨hsingle (by omega), by omega⟩

theorem planLaw_takeDataUp (d : DataFrame) {s : State} (hs : PlanLaw s) : PlanLaw (takeDataUp d s) := by
  unfold takeDataUp
  split
  next => exact (calm_strayDataUp _ s).planLaw hs
  next b hb =>
    split
    next hbr =>
      unfold takeBlock
      split
      next => exact hs
      next block _ _ =>
        have hclose : Calm s { s with up := { s.up with inBurst := none } } :=
          ⟨shifts_of_trk rfl, tables_of_same ⟨rfl, rfl, rfl⟩, up_of_relayed (List.Sublist.refl _) (by simp) fun b h _ => h⟩
        exact (calm_cutExcess _ _ _).planLaw
          (planLaw_takeRequest block (hclose.planLaw hs) (served_of_inBurst hs.bridge hb hbr))
    next hbr => exact (calm_passDown d (by simpa using hbr)).planLaw hs

end Sys2Proof.LinkPassage
end

