-- ==== Sys2Proof/Proofs/Admission.lean ====
section
namespace Sys2Proof.LinkPassage
open Sys2Proof Sys2Proof.Machine

/-! ### The contexts that a plan names are in use (R46, R49, R51) -/

theorem mem_formRuns {r : Run} {l : List Verdict} {k : Nat} (h : r ∈ formRuns k l) : r.verdict ∈ l := by
  induction l generalizing k r with
  | nil => contradiction
  | cons v rest ih =>
    unfold formRuns at h
    split at h
    next => rw [List.mem_singleton.1 h]; exact List.mem_cons_self
    next q rs hq =>
      have hrest : ∀ x ∈ q :: rs, x.verdict ∈ rest := fun x hx => ih (hq ▸ hx)
      split at h
      next =>
        rcases List.mem_cons.1 h with rfl | h
        · exact List.mem_cons_self
        · exact List.mem_cons_of_mem _ (hrest r (List.mem_cons_of_mem _ h))
      next =>
        rcases List.mem_cons.1 h with rfl | h
        · exact List.mem_cons_self
        · exact List.mem_cons_of_mem _ (hrest r h)

theorem regionVerdict_ctx {s : State} {r : Region} {x : Nat} {c : CtxSlot} (h : verdictCtx (regionVerdict s r x) = some c) : r.ctx = c := by
  unfold regionVerdict ringVerdict at h
  dsimp only at h
  repeat' split at h
  all_goals exact Option.some.inj h

theorem lookup_region {s : State} {x : Nat} {r : Region} (h : lookup s x = some r) : ∃ e, regionOf s e = some r :=
  mem_enabledRegions.1 (List.mem_of_find?_eq_some h)

theorem readPlan_active {s : State} (hs : BindingLaw s) {c : CommandFrame} {r : Run} {d : CtxSlot} (h : r ∈ readPlan s c)
    (hd : verdictCtx r.verdict = some d) : ¬Idle (ctxOf s d) := by
  obtain ⟨x, -, hx⟩ := List.mem_map.1 (mem_formRuns h)
  rw [← hx, readVerdict] at hd
  split at hd
  next => contradiction
  next q hq =>
    obtain ⟨e, he⟩ := lookup_region hq
    have hn := hs.1 e q he
    rw [regionVerdict_ctx hd] at hn
    rintro (hi | hi)
    exacts [hn.1 hi, hn.2 hi]

theorem writePlan_ctx {s : State} {c : CommandFrame} {x d : CtxSlot} {lap : Nat} {r : Run} (h : r ∈ writePlan s c x lap)
    (hd : verdictCtx r.verdict = some d) : d = x := by
  obtain ⟨l, -, hl⟩ := List.mem_map.1 (mem_formRuns h)
  rw [← hl] at hd
  exact (Option.some.inj hd).symm

/-- What the laws need of an accepted command: its effects are calm, and the contexts its plan names are in use. -/
structure Sound (s : State) (a : Accepted) : Prop where
  calm : Calm s a.after
  active : ∀ r ∈ a.plan, ∀ c, verdictCtx r.verdict = some c → ¬Idle (ctxOf s c)

theorem sound_classify {o : Owner} {c : CommandFrame} {s : State} {a : Accepted} (hs : BindingLaw s) (h : classify o c s = .ok a) :
    Sound s a := by
  unfold classify at h
  split at h
  next => contradiction
  next =>
    split at h
    next =>
      unfold classifyRead at h
      split at h
      next => contradiction
      next =>
        cases h
        exact ⟨calm_captureViews _ s, fun r hr d hd => readPlan_active hs hr hd⟩
    next =>
      unfold classifyWrite at h
      dsimp only at h
      split at h
      next =>
        cases h
        exact ⟨.refl s, fun r hr d hd => by rw [List.mem_singleton.1 hr] at hd; contradiction⟩
      next =>
        split at h
        next => contradiction
        next =>
          split at h
          next => contradiction
          next x _ =>
            split at h
            next => contradiction
            next hst =>
              have hact : ¬Idle (ctxOf s x) := by
                simp only [ne_eq, not_not] at hst
                simp [Idle, hst]
              split at h
              next =>
                unfold classifyRing at h
                split at h
                next => contradiction
                next g hg =>
                  split at h
                  next => contradiction
                  next =>
                    split at h
                    next => contradiction
                    next =>
                      cases h
                      exact ⟨calm_setRing hg rfl, fun r hr d hd => writePlan_ctx hr hd ▸ hact⟩
              next =>
                unfold classifyFrontier at h
                split at h
                next => contradiction
                next =>
                  split at h
                  next => contradiction
                  next =>
                    cases h
                    have hcalm := calm_updateCtx (c := x) (f := fun x => { x with frontier := highest (writeLogicals s c) + 1 }) s rfl rfl id
                    exact ⟨hcalm, fun r hr d hd => writePlan_ctx hr hd ▸ hact⟩

/-! ### An entry enters (R24, R37) -/

theorem ctxOf_raiseInFlight (s : State) (c d : CtxSlot) :
    ctxOf (raiseInFlight s c) d = if d = c then { ctxOf s c with inFlight := (ctxOf s c).inFlight + 1 } else ctxOf s d :=
  ctxOf_setCtx c d _ s

/-- The in-flight counts of several contexts raised, each once. -/
theorem ctxOf_foldl_raise {l : List CtxSlot} (hl : l.Nodup) (s : State) (c : CtxSlot) :
    ctxOf (l.foldl raiseInFlight s) c =
      if c ∈ l then { ctxOf s c with inFlight := (ctxOf s c).inFlight + 1 } else ctxOf s c := by
  induction l generalizing s with
  | nil => rfl
  | cons a l ih =>
    obtain ⟨ha, hl⟩ := List.nodup_cons.1 hl
    rw [List.foldl_cons, ih hl, ctxOf_raiseInFlight]
    by_cases hca : c = a
    · subst hca; simp [ha]
    · simp [hca]

/-- An entry enters whose plan names only contexts in use, and a bridge without a plan: the laws are kept (R24, R37). -/
theorem planLaw_enter {o : Owner} {e : Entry} {s : State} (hs : PlanLaw s) (hfree : entryOf s o = none) (hlegal : EntryLegal o e)
    (hk : e.kind = .bridge → e.plan = []) (ht : e.touched = touchedBy e.plan) (hact : ∀ c, names c e = true → ¬Idle (ctxOf s c)) :
    PlanLaw (enter o e s) := by
  have hnod : e.touched.Nodup := ht ▸ touchedBy_nodup e.plan
  have hctx : ∀ c, ctxOf (enter o e s) c =
      if names c e = true then { ctxOf s c with inFlight := (ctxOf s c).inFlight + 1 } else ctxOf s c := fun c => by
    rw [enter, ctxOf_foldl_raise hnod]
    simp only [ht, mem_touchedBy]
    rfl
  have hbind : BindKept s (enter o e s) := by
    refine ⟨by simp [enter], fun c => ?_, fun c => ?_, fun c => by rw [ringOf_congr (s := s) (by simp [enter])]⟩
    · rw [hctx]; split <;> rfl
    · rw [hctx]; split <;> exact id
  have hup : bridgeBursts (enter o e s) = bridgeBursts s := bridgeBursts_congr (by simp [enter])
  obtain ⟨hone, hsingle, hplan, hleft, hitems⟩ := hs.bridge
  have hent : ∀ p x, entryOf (enter o e s) p = some x → p = o ∧ x = e ∨ entryOf s p = some x := fun p x hx => by
    rw [entryOf_enter] at hx
    split at hx
    next h => exact .inl ⟨h, (Option.some.inj hx).symm⟩
    next => exact .inr hx
  refine ⟨entryLaw_enter hs.entry hlegal, hbind.binding hs.binding, ⟨hup ▸ hone, fun h => ?_, fun x hx hxk => ?_, ?_, ?_⟩,
    fun p x hx => ?_, fun c => ?_⟩
  · obtain ⟨b, hb, hbk⟩ := hsingle (hup ▸ h)
    refine ⟨b, ?_, hbk⟩
    have ho : o ≠ .single := by rintro rfl; simp [entryOf, hb] at hfree
    have := entryOf_enter o .single e s
    rwa [if_neg fun h => ho h.symm, entryOf, entryOf, hb] at this
  · rcases hent .single x hx with ⟨-, rfl⟩ | hx
    exacts [hk hxk, hplan x hx hxk]
  · simpa [enter] using hleft
  · simpa [enter] using hitems
  · rcases hent p x hx with ⟨-, rfl⟩ | hx
    exacts [ht, hs.counts.1 p x hx]
  · have hcount := entriesNaming_setEntry o (some e) s c
    have hsame : entriesNaming (enter o e s) c = entriesNaming (setEntry o (some e) s) c :=
      entriesNaming_congr (fun p => by rw [entryOf_enter, entryOf_setEntry]) c
    simp only [hfree, Option.any_none, Bool.toNat_false, Nat.add_zero, Option.any_some] at hcount
    rw [hctx, hsame, hcount]
    obtain ⟨h1, h2⟩ := hs.counts.2 c
    by_cases hn : names c e = true
    · rw [if_pos hn]
      exact ⟨by simp [h1, hn], fun hi => absurd hi (hact c hn)⟩
    · rw [if_neg hn]
      simp only [Bool.not_eq_true] at hn
      simpa [hn] using ⟨h1, h2⟩

/-- The entries, the tables and the upstream port are as they were, whatever happened to the acceptance list. -/
theorem planLaw_of_entries {s t : State} (hs : PlanLaw s) (he : ∀ o, entryOf t o = entryOf s o) (ht : SameTables s t) (hu : UpKept s t) :
    PlanLaw t := by
  have hf := fades_of_entries he
  refine ⟨hf.entryLaw hs.entry, (tables_of_same ht).binding hs.binding,
    bridgeLaw_kept hu hf (fun e h _ => .inl ?_) hs.bridge, fun o e h => hs.counts.1 o e (he o ▸ h), fun c => ?_⟩
  · have := he .single
    rw [entryOf, entryOf, h] at this
    rw [this]; rfl
  · rw [ctxOf_congr ht.1, entriesNaming_congr (s := s) fun o => by rw [he]]
    exact hs.counts.2 c

theorem names_eq {c : CtxSlot} {e : Entry} : names c e = true ↔ ∃ r ∈ e.plan, verdictCtx r.verdict = some c := by
  simp [names]

theorem planLaw_enterQueued {c : CommandFrame} {s : State} {a : Accepted} (hs : PlanLaw s) (ha : Sound s a)
    (hk : cmdKind c ≠ .bridge) (ho : cmdOwner c = .tag (cmdTag c)) (hf : entryOf a.after (.tag (cmdTag c)) = none) :
    PlanLaw (enterQueued c a) := by
  have hen := planLaw_enter (ha.calm.planLaw hs) hf
    (ho ▸ newEntry_legal a.plan a.ringWrite false a.heldSpan a.heldSpan hk) (fun h => absurd h hk) rfl fun x hx hi => by
      obtain ⟨r, hr, hv⟩ := names_eq.1 hx
      exact ha.active r hr x hv (ha.calm.tables.idle x hi)
  unfold enterQueued
  dsimp only
  split
  next => exact (calm_placePart _ (plain_status _)).planLaw hen
  next => exact planLaw_of_entries hen (fun o => by cases o <;> rfl) ⟨rfl, rfl, rfl⟩ (up_of_same rfl)

theorem planLaw_enterSingle {c : CommandFrame} {s : State} {a : Accepted} (hs : PlanLaw s) (ha : Sound s a)
    (hk : cmdKind c ≠ .bridge) (ho : cmdOwner c = .single) (hf : entryOf a.after .single = none) : PlanLaw (enterSingle c a) := by
  have hen := planLaw_enter (ha.calm.planLaw hs) hf
    (ho ▸ newEntry_legal a.plan a.ringWrite (queuedWork a.after) a.heldSpan false hk) (fun h => absurd h hk) rfl fun x hx hi => by
      obtain ⟨r, hr, hv⟩ := names_eq.1 hx
      exact ha.active r hr x hv (ha.calm.tables.idle x hi)
  unfold enterSingle
  dsimp only
  split
  next => exact hen
  next => exact planLaw_of_entries hen (fun o => by cases o <;> rfl) ⟨rfl, rfl, rfl⟩ (up_of_same rfl)

/-- A free single slot has no burst of the bridge. -/
theorem bridgeBursts_of_free {s : State} (hs : BridgeLaw s) (hf : s.trk.single = none) : bridgeBursts s = 0 := by
  obtain ⟨hone, hsingle, -⟩ := hs
  by_contra hz
  obtain ⟨e, he, -⟩ := hsingle (by omega)
  simp [hf] at he

theorem planLaw_recordRefusal (c : CommandFrame) (code : Code) {s : State} (hs : PlanLaw s) : PlanLaw (recordRefusal c code s) :=
  planLaw_of_entries hs (fun o => by cases o <;> rfl) ⟨rfl, rfl, rfl⟩ (up_of_same rfl)

theorem planLaw_takeCommand (c : CommandFrame) {s : State} (hs : PlanLaw s) : PlanLaw (takeCommand c s) := by
  have h := taken_takeCommand c s
  generalize takeCommand c s = t at h ⊢
  cases h with
  | refusedQueued code =>
    exact ((calm_placePart _ (plain_status _)).trans (calm_placePart _ (plain_done _))).planLaw (planLaw_recordRefusal c code hs)
  | refusedSingle code =>
    exact (calm_placePart _ (plain_status _)).planLaw (planLaw_recordRefusal c code hs)
  | refusedPlain code => exact (calm_placePart _ (plain_status _)).planLaw hs
  | queued a ho hk hf hn ha =>
    exact planLaw_enterQueued hs (sound_classify hs.binding ha) hk ho (by rwa [entryOf_congr (classify_trk ha)])
  | single a ho hk hf ha =>
    exact planLaw_enterSingle hs (sound_classify hs.binding ha) hk ho (by rw [entryOf_congr (classify_trk ha), entryOf, hf])
  | other ho hk hf => exact planLaw_enterSingle hs ⟨.refl s, nofun⟩ hk ho hf
  | bridge ho hk hf =>
    have hz := bridgeBursts_of_free hs.bridge hf
    have hen : PlanLaw (enter .single (bridgeEntry c) s) :=
      planLaw_enter hs hf (bridgeEntry_legal hk ho) (fun _ => rfl) rfl fun x hx => by simp [names, bridgeEntry, newEntry] at hx
    exact planLaw_placeBridge .toDrive hen ⟨⟨bridgeEntry c, rfl, hk⟩, hz⟩

end Sys2Proof.LinkPassage
end

