-- ==== Sys2Proof/Proofs/EntryLawKept.lean ====
section
namespace Sys2Proof.LinkPassage
open Sys2Proof Sys2Proof.Machine

/-! ### Every event keeps the laws of the in-flight counts -/

theorem planLaw_ports : KeptByPorts PlanLaw where
  links s u d n h := by
    refine Calm.planLaw (s := s) ⟨shifts_of_trk rfl, tables_of_same ⟨rfl, rfl, rfl⟩, ?_⟩ h
    exact up_of_relayed (List.Sublist.refl _) id fun _ h _ => h
  settle s h := (calm_of_same (by simp)).planLaw h
  up f s h := by
    unfold takeUp
    split
    next =>
      split
      next c _ => exact planLaw_takeCommand c h
      next d _ => exact planLaw_takeDataUp d h
      all_goals exact h
    next => exact (calm_raiseFault _ _).planLaw h
  drive f s h := planLaw_takeDrive f h

/-! #### The arbiter -/

/-- An item leaves the send list, and what is sent is noted. -/
def unlist (k : Nat) (i : SendItem) (s : State) : State :=
  { s with up := { s.up with sendList := s.up.sendList.eraseIdx k, sent := s.up.sent ++ [i.frame] } }

theorem calm_unlist (k : Nat) (i : SendItem) (s : State) : Calm s (unlist k i s) :=
  ⟨shifts_of_trk rfl, tables_of_same ⟨rfl, rfl, rfl⟩, up_of_relayed (List.eraseIdx_sublist ..) id fun _ h _ => h⟩

/-- A listed READY of the bridge is one of its bursts; with the item gone from the list there is one fewer (R5). -/
theorem bridgeBursts_unlist {k : Nat} {i : SendItem} {s : State} (h : s.up.sendList[k]? = some i) :
    bridgeBursts (unlist k i s) + (isBridgeReady i).toNat = bridgeBursts s := by
  obtain ⟨hk, rfl⟩ := List.getElem?_eq_some_iff.1 h
  have hcount : (s.up.sendList.eraseIdx k).countP isBridgeReady + (isBridgeReady s.up.sendList[k]).toNat =
      s.up.sendList.countP isBridgeReady := by
    have hsplit := List.take_append_drop k s.up.sendList
    rw [List.drop_eq_getElem_cons hk] at hsplit
    rw [List.eraseIdx_eq_take_drop_succ]
    conv_rhs => rw [← hsplit]
    have hbit : (isBridgeReady s.up.sendList[k]).toNat = if isBridgeReady s.up.sendList[k] = true then 1 else 0 := by
      cases isBridgeReady s.up.sendList[k] <;> rfl
    simp only [List.countP_append, List.countP_cons]
    omega
  simp only [List.countP_eq_length_filter] at hcount
  simp only [bridgeBursts, unlist]
  omega

theorem calm_placeReply (s : State) : Calm s (placeReply s) := by
  unfold placeReply
  split
  next => exact .refl s
  next block _ =>
    refine ⟨shifts_of_trk rfl, tables_of_same ⟨rfl, rfl, rfl⟩, UpKept.trans (up_of_same (by rfl)) (up_addItem _ rfl fun _ => ?_)⟩
    exact ⟨nofun, fun d hd => by cases hd; rfl⟩

/-- A READY that the arbiter may choose opens its burst where none was open: the bridge's goes from the list to its burst (R5, R8). -/
theorem calm_openUpstream {k : Nat} {i : SendItem} {r : ReadyFrame} {s : State} (hs : BridgeLaw s) (hi : s.up.sendList[k]? = some i)
    (hr : i.frame = .ready r) (hm : mayChoose s i = true) : Calm s (openUpstream r i (unlist k i s)) := by
  obtain ⟨-, -, -, -, hitems⟩ := hs
  have hone : i.relayed = false → readyCount r = 1 := fun h => (hitems i (List.mem_of_getElem? hi) h).1 r hr
  have hlist := bridgeBursts_unlist hi
  have hready : isBridgeReady i = !i.relayed := by rw [isBridgeReady, hr]
  have hout : s.up.outBurst = none := by
    cases hb : s.up.outBurst with
    | none => rfl
    | some u => simp [mayChoose, hb, inOutBurst, hr] at hm
  have hin : readyDir r ≠ .toUpstream → s.up.inBurst = none := by
    simpa [mayChoose, hout, sendEligible, hr, or_iff_not_imp_left] using hm
  have hin' : ∀ j ∈ (unlist k i s).up.sendList, j ∈ s.up.sendList := fun j hj => List.mem_of_mem_eraseIdx hj
  rw [hready] at hlist
  unfold openUpstream
  dsimp only
  split
  next =>
    refine ⟨shifts_of_trk rfl, tables_of_same ⟨rfl, rfl, rfl⟩, ?_, fun b hb hbr => .inr ?_, fun j hj _ => .inl (hin' j hj)⟩
    · simp [bridgeBursts, unlist, hout] at hlist ⊢
      omega
    · cases hb
      exact hone (by simpa using hbr)
  next hd =>
    refine ⟨shifts_of_trk rfl, tables_of_same ⟨rfl, rfl, rfl⟩, ?_, fun b hb hbr => .inl hb, fun j hj _ => .inl (hin' j hj)⟩
    simp [bridgeBursts, unlist, hin (by simp [hd])] at hlist ⊢
    omega

/-- The sectors of a sent frame count off the outbound burst (R6). -/
def countOut (n : Nat) (u : UpBurst) (s : State) : State :=
  { s with up := { s.up with outBurst := countUpBurst n u } }

/-- The bridge's reply DATA closes its outbound burst, and its entry ends (R173). -/
theorem planLaw_sentData {k : Nat} {i : SendItem} {d : DataFrame} {s : State} (hs : PlanLaw s) (hi : s.up.sendList[k]? = some i)
    (hd : i.frame = .data d) (hm : mayChoose s i = true) : PlanLaw (sentData d (unlist k i s)) := by
  have hun := (calm_unlist k i s).planLaw hs
  unfold sentData
  split
  next => exact hun
  next u hu =>
    have hu : s.up.outBurst = some u := hu
    have hnext : inOutBurst u i = true := by simpa [mayChoose, hu] using hm
    have hrel : i.relayed = !u.bridge := by
      simp only [inOutBurst, hd, Bool.and_eq_true, decide_eq_true_eq] at hnext
      exact hnext.2
    have hcount : u.bridge = true → countUpBurst d.sectors.length u = none := fun hb => by
      have hleft : u.left = 1 := hs.bridge.2.2.2.1 u hu hb
      have hlen : d.sectors.length = 1 := (hs.bridge.2.2.2.2 i (List.mem_of_getElem? hi) (by simp [hrel, hb])).2 d hd
      simp [countUpBurst, hleft, hlen]
    have hcalm : Calm (unlist k i s) (countOut d.sectors.length u (unlist k i s)) := by
      refine ⟨shifts_of_trk rfl, tables_of_same ⟨rfl, rfl, rfl⟩, up_of_relayed (List.Sublist.refl _) id fun b hb hbr => ?_⟩
      have hb : countUpBurst d.sectors.length u = some b := hb
      have hub : b.bridge = u.bridge := by
        unfold countUpBurst at hb
        split at hb
        · contradiction
        · cases hb; rfl
      rw [hcount (hub ▸ hbr)] at hb
      contradiction
    dsimp only
    split
    next hb =>
      obtain ⟨hone, hsingle, -⟩ := hun.bridge
      have hsum : bridgeBursts (unlist k i s) =
          bridgeBursts (countOut d.sectors.length u (unlist k i s)) + 1 := by
        have hu' : (unlist k i s).up.outBurst = some u := hu
        simp [bridgeBursts, countOut, hcount hb, hu', hb]
      have hok : Calm (countOut d.sectors.length u (unlist k i s)) (placePart okFrame (countOut d.sectors.length u (unlist k i s))) :=
        calm_placePart _ (plain_status _)
      exact planLaw_freeBridge (hok.planLaw (hcalm.planLaw hun)) ⟨hsingle (by omega), bridgeBursts_le_zero hok.up (by omega)⟩
    next => exact hcalm.planLaw hun

theorem planLaw_sendItem {k : Nat} {i : SendItem} {s : State} (hs : PlanLaw s) (hi : s.up.sendList[k]? = some i)
    (hm : mayChoose s i = true) : PlanLaw (sendItem k i s) := by
  change PlanLaw (sentItem i (unlist k i s))
  unfold sentItem
  split
  next r hr =>
    have hopen := (calm_openUpstream hs.bridge hi hr hm).planLaw hs
    unfold sentReady
    dsimp only
    split
    next => exact (calm_placeReply _).planLaw hopen
    next => exact hopen
  next d hd => exact planLaw_sentData hs hi hd hm
  all_goals exact (calm_unlist k i s).planLaw hs

/-! #### The engine -/

theorem planLaw_setupEvent {s : State} (hs : PlanLaw s) : PlanLaw (setupEvent s) := by
  unfold setupEvent finishSetup
  dsimp only
  split
  next =>
    split
    next => exact ((Calm.refl s).eng _).planLaw hs
    next =>
      refine planLaw_tryClose _ (Calm.planLaw ?_ hs)
      split <;> exact calm_of_same (by simp [endRunning])
  next => exact hs

theorem planLaw_unwrapEvent {s : State} (hs : PlanLaw s) : PlanLaw (unwrapEvent s) := by
  unfold unwrapEvent
  split
  next c b _ =>
    have hs' : PlanLaw (endRunning s) := ((Calm.refl s).eng _).planLaw hs
    generalize endRunning s = u at hs'
    unfold finishUnwrap
    split
    next hl =>
      split
      next =>
        unfold acceptBlob
        dsimp only
        refine (calm_queueNotice _ _ _ _ _ _).planLaw ?_
        have hload := calm_updateCtx (c := c) (f := loadedContext (unwrapKey b)) u rfl rfl fun _ => .inr hl
        split
        next => exact (hload.trans (calm_recomputeCompare _)).planLaw hs'
        next => exact hload.planLaw hs'
      next => exact (calm_queueNotice _ _ _ _ _ _).planLaw (planLaw_setCtx_idle hs' (.inr hl) rfl)
    next => exact planLaw_tryClose c hs'
  next => exact hs

theorem planLaw_receiptEvent {s : State} (hs : PlanLaw s) : PlanLaw (receiptEvent s) := by
  unfold receiptEvent finishReceipt
  split
  next c serial t0 e _ =>
    have hs' : PlanLaw (endRunning s) := ((Calm.refl s).eng _).planLaw hs
    refine planLaw_tryClose c ?_
    split
    next =>
      exact (calm_updateCtx (c := c) (f := fun x => { x with receipt := .ready (receiptCheck serial t0 e) }) _ rfl rfl id).planLaw hs'
    next => exact hs'
  next => exact hs

theorem calm_judgeToken (time : BitVec 32) (check : Block) (s : State) : Calm s (judgeToken time check s) := by
  unfold judgeToken moveTime setTime
  repeat' split
  all_goals exact calm_of_same (by simp)

theorem calm_tokenEvent (s : State) : Calm s (tokenEvent s) := by
  unfold tokenEvent finishToken
  split
  next => exact Calm.trans (Calm.trans (calm_of_same (by simp [endRunning])) (calm_judgeToken _ _ _)) (calm_expiryComparison _)
  next => exact .refl s

theorem calm_startJob (s : State) : Calm s (startJob s) := by
  unfold startJob startNext
  repeat' split
  all_goals first
    | exact .refl s
    | exact calm_of_same ⟨rfl, rfl, rfl, rfl, rfl⟩

theorem calm_streamDone (s : State) : Calm s (streamDone s) := by
  unfold streamDone finishStream
  repeat' split
  all_goals exact calm_of_same (by simp [endRunning])

theorem calm_parityDone (s : State) : Calm s (parityDone s) := by
  unfold parityDone firstFailure secondFailure requeue
  dsimp only
  repeat' split
  all_goals exact calm_of_same (by simp [endRunning])

/-! #### The links -/

theorem up_loseBurst (s : State) : UpKept s (loseBurst s) := by
  unfold loseBurst
  split
  next => exact .refl s
  next b _ =>
    dsimp only
    split
    next => exact UpKept.trans (up_of_same (by simp)) (up_of_relayed List.filter_sublist id fun _ h _ => h)
    next => exact UpKept.trans (up_of_same (by simp)) (up_closeUpstreamSide b _)

theorem calm_lostPorts (s : State) : Calm s (lostPorts s) :=
  ⟨shifts_of_trk (by simp [lostPorts]), tables_of_same (by simp [SameTables, lostPorts]), (up_loseBurst s).trans (up_of_same rfl)⟩

theorem planLaw_endQueued {s : State} (hs : PlanLaw s) : PlanLaw (endQueued s) := by
  unfold endQueued
  rw [List.foldl_map]
  exact planLaw_foldl (fun s k h => planLaw_endTag k none h) _ hs

theorem planLaw_endLost {s : State} (hs : PlanLaw s) : PlanLaw (endLost s) := by
  have h := planLaw_endQueued hs
  unfold endLost
  split
  next hb =>
    refine planLaw_endSingle none h ((tracks_endQueued s).fades.noBridge fun e he => ?_)
    simpa [singleTransfer, he] using hb
  next => exact h

theorem plain_lossAnswers {s : State} {f : Frame} (h : f ∈ lossAnswers s) : Plain f := by
  unfold lossAnswers at h
  simp only [List.mem_append, List.mem_map] at h
  rcases h with (⟨t, -, rfl⟩ | h) | h
  · exact plain_status _
  · split at h
    · rw [List.mem_singleton.1 h]; exact plain_status _
    · contradiction
  · split at h
    · contradiction
    · rw [List.mem_singleton.1 h]; exact plain_done _

theorem calm_answerLoss (s u : State) : Calm u (answerLoss s u) :=
  Calm.foldl_mem _ _ (fun _ hf s => calm_placePart s (plain_lossAnswers hf)) u

theorem planLaw_lossEvent {s : State} (hs : PlanLaw s) : PlanLaw (lossEvent s) := by
  have h := (calm_clearAccepts _).planLaw (planLaw_endLost ((calm_lostPorts s).planLaw hs))
  exact ((((calm_answerLoss s _).trans (calm_queueNotice _ _ _ _ _ _)).trans (calm_raiseFault _ _)).trans (calm_rewindRings _)).planLaw h

/-- At a link reset the upstream port is empty, so the bridge has no burst when its entry ends (R15, R39). -/
theorem planLaw_linkReset {s : State} (hs : PlanLaw s) : PlanLaw (linkResetEvent s) := by
  have hports : Calm s (resetPorts s) := by
    refine ⟨shifts_of_trk (by simp [resetPorts]), tables_of_same (by simp [SameTables, resetPorts]), ?_⟩
    refine up_of_relayed ?_ ?_ ?_ <;> simp [resetPorts, resetUpstream, Upstream.reset]
  have hqueued : PlanLaw (endQueued (freeAllSlots (resetPorts s))) :=
    planLaw_endQueued ((hports.trans (calm_of_same (by simp))).planLaw hs)
  have hz : bridgeBursts (endQueued (freeAllSlots (resetPorts s))) = 0 := by
    have hup : (endQueued (freeAllSlots (resetPorts s))).up = (resetPorts s).up := by simp [endQueued]
    rw [bridgeBursts_congr hup]
    rfl
  have hsingle := planLaw_endEntry (o := .single) none hqueued fun _ _ _ _ => hz
  have hdrop : Calm (resetEntries s) (dropReply (resetEntries s)) := by
    generalize resetEntries s = u
    exact calm_of_same ⟨rfl, rfl, rfl, rfl, rfl⟩
  have hreset := hdrop.planLaw ((calm_clearAccepts _).planLaw hsingle)
  rw [linkResetEvent_eq]
  generalize dropReply (resetEntries s) = u at hreset ⊢
  exact (calm_rewindRings u).planLaw hreset

theorem planLaw_reset : PlanLaw State.reset := by
  have hent : ∀ c, entriesNaming State.reset c = 0 := fun c => by
    rw [entriesNaming_eq, List.countP_eq_zero]
    intro o _
    simp [entryOf_reset]
  have hreg : ∀ e, regionOf State.reset e = none := fun e => by simp [regionOf, State.reset, Vector.get_eq_getElem]
  have hring : ∀ c, ringOf State.reset c = none := fun c => by simp [ringOf, State.reset, Vector.get_eq_getElem]
  refine ⟨fun o e he => ?_, ⟨fun e r hr => ?_, fun e f r q _ hr => ?_, fun e r hr => ?_, fun c g hg => ?_⟩,
    ⟨by decide, fun h => ?_, fun e he => ?_, nofun, nofun⟩, fun o e he => ?_, fun c => ?_⟩
  · simp [entryOf_reset] at he
  · simp [hreg] at hr
  · simp [hreg] at hr
  · simp [hreg] at hr
  · simp [hring] at hg
  · exact absurd h (by decide)
  · cases he
  · simp [entryOf_reset] at he
  · rw [hent]
    exact ⟨by simp [ctxOf, State.reset, Vector.get_eq_getElem, Context.blank], fun _ => rfl⟩

theorem planLaw_step {s t : State} (h : step s = .next t) (hs : PlanLaw s) : PlanLaw t := by
  obtain ⟨l, he⟩ := event_of_step h
  have hs' : PlanLaw { s with pending := l } := Calm.planLaw (s := s) (calm_of_same ⟨rfl, rfl, rfl, rfl, rfl⟩) hs
  generalize ({ s with pending := l } : State) = u at he hs'
  cases he with
  | powerOn =>
    refine Calm.planLaw (s := State.reset) ⟨shifts_of_trk rfl, tables_of_same ⟨rfl, rfl, rfl⟩, ?_⟩ planLaw_reset
    exact up_of_relayed (List.Sublist.refl _) id fun _ h _ => h
  | upstreamUp =>
    refine Calm.planLaw (s := u) ⟨shifts_of_trk rfl, tables_of_same ⟨rfl, rfl, rfl⟩, ?_⟩ hs'
    exact up_of_relayed (List.Sublist.refl _) id fun _ h _ => h
  | linkReset => exact planLaw_linkReset hs'
  | driveUp => exact planLaw_ports.run ((calm_of_same (by simp)).planLaw hs')
  | driveLost => exact planLaw_ports.run (planLaw_lossEvent hs')
  | tick => exact (calm_tickEvent u).planLaw hs'
  | period =>
    unfold referencePeriod
    split
    · exact Calm.planLaw (s := u) (calm_of_same ⟨rfl, rfl, rfl, rfl, rfl⟩) hs'
    · exact (calm_tickEvent u).planLaw hs'
  | up f => exact planLaw_ports.arriveUp f hs'
  | drive f => exact planLaw_ports.arriveDrive f hs'
  | send =>
    rcases transmit_cases u with h | ⟨k, i, hi, hm, h⟩ <;> rw [h]
    · exact hs'
    · exact planLaw_ports.run (planLaw_sendItem hs' hi hm)
  | start => exact (calm_startJob u).planLaw hs'
  | setup => exact planLaw_setupEvent hs'
  | stream => rcases streamEvent_cases u with h | h <;> rw [h]; exacts [hs', planLaw_ports.run ((calm_streamDone u).planLaw hs')]
  | parity => rcases parityEvent_cases u with h | h <;> rw [h]; exacts [hs', planLaw_ports.run ((calm_parityDone u).planLaw hs')]
  | unwrap => exact planLaw_unwrapEvent hs'
  | receipt => exact planLaw_receiptEvent hs'
  | token => exact (calm_tokenEvent u).planLaw hs'

/-- Settles O56: the Tracker's laws by the events of a step; the in-flight counts together with the laws of binding and of the bridge,
which say when a count may fall and a bridge's entry may end. -/
theorem entryLawKept : Obligations.EntryLawKept := by
  intro s t h
  refine ⟨entryLaw_step h, fun hs => ?_, fun hentry hbind hbridge hcounts => ?_⟩
  · exact ⟨acceptLaw_step h hs, accepts_length (acceptLaw_step h hs)⟩
  · have ht := planLaw_step h ⟨hentry, hbind, hbridge, hcounts⟩
    exact ⟨ht.bridge, ht.counts⟩

end Sys2Proof.LinkPassage
end

