-- ==== Sys2Proof/Proofs/FaultsRaised.lean ====
section
namespace Sys2Proof.LinkPassage
open Sys2Proof Sys2Proof.Machine

/-! ### The rows that are frames -/

/-- A row that is a frame of the controller is that frame's arrival (log 6). -/
theorem exec_upstream {i : Instr} {f : Frame} (h : rowFrame i = some (.upstream, f)) (s : State) : exec i s = .next (arriveUp f s) := by
  cases i <;> cases h <;> rfl

/-- A row that is a frame of the drive is that frame's arrival (log 6). -/
theorem exec_drive {i : Instr} {f : Frame} (h : rowFrame i = some (.drive, f)) (s : State) : exec i s = .next (arriveDrive f s) := by
  cases i <;> cases h <;> rfl

/-- A DATA frame of the drive with no burst open is taken where no frame stands and none is still to be sent on (R10). -/
theorem arriveDrive_stray {d : DataFrame} {s : State} (ht : TakesDrive s) (hb : s.drv.burst = none) :
    arriveDrive (.data d) s = takeDrive (.data d) s := by
  obtain ⟨hl, -, hp, h1, h2⟩ := ht
  have hh : driveHead { s with drv := { s.drv with held := [.data d] } } = none := by simp [driveHead, hb]
  have hu : upstreamHead { s with drv := { s.drv with held := [.data d] } } = none := by simp [upstreamHead, h1]
  have hp' : relayPending { s with drv := { s.drv with held := [.data d] } } = false := hp
  exact arriveDrive_quiet hl ⟨h1, h2⟩ (by simp only [settleHeads, hh, hu]) (by simp [driveTakeable, hp', hh])

/-- A DATA frame of the controller with no burst open is taken where no frame stands (R10). -/
theorem arriveUp_stray {d : DataFrame} {s : State} (hl : s.up.link = .up) (hq : Quiet s) (hb : s.up.inBurst = none) :
    arriveUp (.data d) s = takeUp (.data d) s := by
  have hh : upstreamHead { s with up := { s.up with held := [.data d] } } = none := by simp [upstreamHead, hb]
  have hd : driveHead { s with up := { s.up with held := [.data d] } } = none := by simp [driveHead, hq.2]
  exact arriveUp_quiet hl hq (by simp only [settleHeads, hh, hd]) (by simp [upTakeable, hh])

/-- A frame that the drive does not send raises PROTOCOL outside a reset (R2). -/
theorem takeDrive_refused {f : Frame} {s : State} (hr : s.drv.resetState = .none) (ha : acceptable .drive f = false) :
    takeDrive f s = raiseFault .protocol s := by
  unfold takeDrive
  rw [if_neg (by simp [hr]), if_neg (by simp [ha])]

theorem takeUp_refused {f : Frame} {s : State} (ha : acceptable .upstream f = false) : takeUp f s = raiseFault .protocol s := by
  unfold takeUp
  rw [if_neg (by simp [ha])]

theorem takeDrive_ready {r : ReadyFrame} {s : State} (hr : s.drv.resetState = .none) (ha : acceptable .drive (.ready r) = true) :
    takeDrive (.ready r) s = takeReady r s := by
  simp [takeDrive, hr, ha]

theorem takeDrive_data {d : DataFrame} {s : State} (hr : s.drv.resetState = .none) (ha : acceptable .drive (.data d) = true) :
    takeDrive (.data d) s = takeDataDrive d s := by
  simp [takeDrive, hr, ha]

theorem takeDrive_status {t : StatusFrame} {s : State} (hr : s.drv.resetState = .none) (ha : acceptable .drive (.status t) = true) :
    takeDrive (.status t) s = takeStatus t s := by
  simp [takeDrive, hr, ha]

theorem takeDrive_done {d : DoneFrame} {s : State} (hr : s.drv.resetState = .none) (ha : acceptable .drive (.done d) = true) :
    takeDrive (.done d) s = takeDone d s := by
  simp [takeDrive, hr, ha]

theorem takeUp_data {d : DataFrame} {s : State} (ha : acceptable .upstream (.data d) = true) :
    takeUp (.data d) s = takeDataUp d s := by
  simp [takeUp, ha]

/-! ### Raising a fault (R190, R192) -/

/-- A fault recorded and noticed (R190). -/
def noted (k : FaultKind) (s : State) : State :=
  queueNotice .fault none none (some (faultCode k)) 0 { s with faults := recordFault k s.faults }

/-- Whether the raising of a fault enters lockdown (R190). -/
def Severe (k : FaultKind) (s : State) : Prop :=
  severityOf k s.req.severities = .lockdown ∧ s.faults.lockdown = false

theorem raiseFault_severe {k : FaultKind} {s : State} (h : Severe k s) : raiseFault k s = enterLockdown (noted k s) := if_pos h

theorem raiseFault_mild {k : FaultKind} {s : State} (h : ¬Severe k s) : raiseFault k s = noted k s := if_neg h

/-- The pool slots that queued STREAM jobs serve. -/
def jobPools (s : State) : List PoolNo :=
  s.eng.streams.map (·.pool)

theorem jobPools_allocateSlot (k : KeyNo) (c : CtxSlot) (s : State) : jobPools (allocateSlot k c s) = jobPools s := by
  unfold jobPools allocateSlot
  rw [List.map_map]
  refine List.map_congr_left fun j _ => ?_
  dsimp only [Function.comp]
  split <;> rfl

theorem jobPools_dropUserOf (k : Option KeyNo) (s : State) : jobPools (dropUserOf k s) = jobPools s := by
  unfold dropUserOf dropUser serveSlot
  dsimp only
  repeat' split
  · rfl
  · rfl
  · exact jobPools_allocateSlot _ _ _
  · rfl

/-- A withdrawal takes the job of its pool slot and no other (R135). -/
theorem jobPools_withdrawStream (p : PoolNo) (s : State) : jobPools (withdrawStream p s) = (jobPools s).filter (· ≠ p) := by
  unfold withdrawStream
  split
  next h =>
    have hne : ∀ q ∈ jobPools s, q ≠ p := by
      simpa [jobPools] using h
    exact (List.filter_eq_self.2 fun q hq => by simpa using hne q hq).symm
  next j _ =>
    rw [jobPools_dropUserOf]
    simp only [jobPools, List.filter_map]
    rfl

theorem jobPools_foldl_withdraw (l : List PoolNo) (s : State) :
    jobPools (l.foldl (fun s p => withdrawStream p s) s) = (jobPools s).filter fun q => q ∉ l := by
  induction l generalizing s with
  | nil => simp
  | cons p l ih =>
    rw [List.foldl_cons, ih, jobPools_withdrawStream, List.filter_filter]
    refine List.filter_congr fun q _ => ?_
    simp [Bool.and_comm]

/-- Lockdown withdraws every queued STREAM job (R139). -/
theorem enterLockdown_streams (s : State) : (enterLockdown s).eng.streams = [] := by
  have h := jobPools_foldl_withdraw (jobPools s) (judgeAttention { s with faults := { s.faults with lockdown := true } })
  have hnone : jobPools (enterLockdown s) = [] :=
    h.trans (List.filter_eq_nil_iff.2 fun q (hq : q ∈ jobPools s) => by simpa using hq)
  exact List.map_eq_nil_iff.1 hnone

/-- Lockdown faults every pool slot and marks the unserved sectors (R155). -/
theorem enterLockdown_pool (s : State) :
    (enterLockdown s).pool.unserved = [] ∧ (enterLockdown s).pool.marked = s.pool.marked ++ s.pool.unserved ∧
      ∀ p, (enterLockdown s).pool.slots.get p = (s.pool.slots.get p).map fun y => { y with phase := .faulted } := by
  refine ⟨rfl, ?_, fun p => ?_⟩
  · simp [enterLockdown]
  · simp [enterLockdown, faultSlot, Vector.get_eq_getElem]

/-- Lockdown sets the flag and asserts the attention line (R192). -/
theorem enterLockdown_flags (s : State) :
    (enterLockdown s).faults = { s.faults with lockdown := true } ∧ (enterLockdown s).nq = { s.nq with attention := true } := by
  constructor <;> simp [enterLockdown, judgeAttention, attentionDue]

theorem raiseFault_set (k : FaultKind) (s : State) : (raiseFault k s).faults.set = addFault k s.faults.set := by
  by_cases h : Severe k s
  · rw [raiseFault_severe h, (enterLockdown_flags _).1]; rfl
  · rw [raiseFault_mild h]; rfl

theorem raiseFault_first (k : FaultKind) (s : State) : (raiseFault k s).faults.first = s.faults.first.or (some k) := by
  by_cases h : Severe k s
  · rw [raiseFault_severe h, (enterLockdown_flags _).1]; rfl
  · rw [raiseFault_mild h]; rfl

theorem noted_notices (k : FaultKind) (s : State) :
    (s.nq.notices.length < 32 → (noted k s).nq.notices = s.nq.notices ++
      [{ kind := .fault, ctx := none, tag := none, detail := some (faultCode k), value := 0, stamp := s.time.mono }]) ∧
    (s.nq.notices.length = 32 → (noted k s).nq.notices = s.nq.notices ∧ (noted k s).nq.overflow = true) := by
  constructor <;> intro h <;> simp [noted, queueNotice, joinQueue, h]

/-- A frame that its port does not take is discarded, and PROTOCOL raised (R2). -/
theorem exec_unexpected {port : Port} {f : Frame} {s : State} (hw : acceptable port f = false) (hq : Quiet s)
    (hu : port = .upstream → s.up.link = .up) (hd : port = .drive → TakesDrive s) :
    exec (.unexpectedFrame port f) s = .next (raiseFault .protocol s) := by
  cases port with
  | upstream =>
    have hh : upstreamHead { s with up := { s.up with held := [f] } } = none := by
      cases f <;> cases hb : s.up.inBurst <;> simp_all [upstreamHead]
    have hdh : driveHead { s with up := { s.up with held := [f] } } = none := by simp [driveHead, hq.2]
    have htake : upTakeable { s with up := { s.up with held := [f] } } f = true := by
      cases f <;> simp_all [upTakeable, acceptable]
    rw [exec_upstream rfl, arriveUp_quiet (hu rfl) hq (by simp only [settleHeads, hh, hdh]) htake, takeUp_refused hw]
  | drive =>
    obtain ⟨hl, hr, hp, h1, h2⟩ := hd rfl
    have hh : driveHead { s with drv := { s.drv with held := [f] } } = none := by
      cases f <;> cases hb : s.drv.burst <;> simp_all [driveHead]
    have huh : upstreamHead { s with drv := { s.drv with held := [f] } } = none := by simp [upstreamHead, h1]
    have hp' : relayPending { s with drv := { s.drv with held := [f] } } = false := hp
    rw [exec_drive rfl, arriveDrive_quiet hl ⟨h1, h2⟩ (by simp only [settleHeads, hh, huh]) (by simp [driveTakeable, hp', hh]),
      takeDrive_refused hr hw]

/-- Settles O20: raising a fault by whether it enters lockdown. -/
theorem faultsRaised : Obligations.FaultsRaised := by
  refine ⟨fun port f s hw hq hu hd => exec_unexpected (by simpa [WellFormed] using hw) hq hu hd, fun k s => ?_⟩
  obtain ⟨hroom, hfull⟩ := noted_notices k s
  have hsev : (severityOf k s.req.severities = .lockdown ∧ s.faults.lockdown = false) = Severe k s := rfl
  dsimp only
  rw [hsev]
  obtain ⟨hup, hdrv, htrk, hctx, hreg, hring, htime, hreq, -, -⟩ := raiseFault_keeps k s
  by_cases h : Severe k s
  · obtain ⟨hf, hn⟩ := enterLockdown_flags (noted k s)
    obtain ⟨hu, hm, hs⟩ := enterLockdown_pool (noted k s)
    rw [raiseFault_severe h] at hup hdrv htrk hctx hreg hring htime hreq ⊢
    rw [hf, hn]
    exact ⟨rfl, rfl, rfl, by simp [h], hroom, hfull, fun hn => absurd h hn,
      fun _ => ⟨rfl, enterLockdown_streams _, hu, hm, hs⟩, hup, hdrv, htrk, hctx, hreg, hring, htime, hreq⟩
  · rw [raiseFault_mild h]
    exact ⟨rfl, rfl, rfl, by simp [h, noted, recordFault], hroom, hfull, fun _ => ⟨rfl, rfl, rfl⟩, fun hs => absurd hs h,
      rfl, rfl, rfl, rfl, rfl, rfl, rfl, rfl⟩

end Sys2Proof.LinkPassage
end

