-- ==== Sys2Proof/Proofs/ReadyFrames.lean ====
section
namespace Sys2Proof.LinkPassage
open Sys2Proof Sys2Proof.Machine

/-! ### Frames that match nothing (R10, R12) -/

theorem exec_strayUp {bytes23 : BitVec 16} {sectors : List Sector} {s : State} (h1 : 1 ≤ sectors.length) (h16 : sectors.length ≤ 16)
    (hl : s.up.link = .up) (hq : Quiet s) (hb : s.up.inBurst = none) :
    exec (.dataFromController bytes23 sectors) s = .next (strayDataUp sectors.length s) := by
  rw [exec_upstream rfl, arriveUp_stray hl hq hb, takeUp_data (by simp [acceptable, h1, h16])]
  simp [takeDataUp, hb]

theorem exec_strayDrive {bytes23 : BitVec 16} {sectors : List Sector} {s : State} (h1 : 1 ≤ sectors.length) (h16 : sectors.length ≤ 16)
    (ht : TakesDrive s) (hb : s.drv.burst = none) :
    exec (.dataFromDrive bytes23 sectors) s = .next (strayDataDrive sectors.length s) := by
  rw [exec_drive rfl, arriveDrive_stray ht hb, takeDrive_data ht.2.1 (by simp [acceptable, h1, h16])]
  simp [takeDataDrive, hb]

/-- A READY of the drive reaches its port (R4, R12). -/
theorem exec_ready {r : ReadyFrame} {s : State} (hw : WellFormed (.readyFromDrive r) = true) (ht : TakesDrive s) :
    exec (.readyFromDrive r) s = .next (takeReady r s) := by
  obtain ⟨hl, hr, hp, hq⟩ := ht
  rw [exec_drive rfl, arriveDrive_frame (f := .ready r) hl hp hq nofun, takeDrive_ready hr hw]

/-- No entry matches a READY while a burst is open. -/
theorem readyMatch_open {r : ReadyFrame} {s : State} (hb : s.drv.burst ≠ none) : readyMatch r s = none := by
  rw [readyMatch, if_pos (Option.isSome_iff_ne_none.2 hb)]

/-- An entry that is not FORWARDED, a bridge's, or one of the other direction is matched by no READY (R4). -/
theorem readyMatch_unfit {r : ReadyFrame} {s : State}
    (h : ∀ e, entryOf s (readyOwner r) = some e → e.state ≠ .forwarded ∨ e.kind = .bridge ∨
      (readyDir r = .toUpstream ∧ (e.kind = .write ∨ e.kind = .qwrite)) ∨
      (readyDir r = .toDrive ∧ (e.kind = .read ∨ e.kind = .qread))) : readyMatch r s = none := by
  unfold readyMatch
  split
  next => rfl
  next =>
    refine Option.filter_eq_none_iff.2 fun e he => ?_
    rcases h e he with h | h | ⟨hd, h⟩ | ⟨hd, h⟩
    · simp [h]
    · simp [h, kindAllows]
    · rcases h with h | h <;> simp [h, hd, kindAllows]
    · rcases h with h | h <;> simp [h, hd, kindAllows]

/-- Settles O22: DATA by the discard count of its port, READY by whether an entry matches it. -/
theorem strayFramesDiscarded : Obligations.StrayFramesDiscarded := by
  refine ⟨fun bytes23 sectors s h1 h16 => ⟨fun hl hq hb => ?_, fun ht hb => ?_⟩, fun r s hw ht => ?_⟩
  · rw [exec_strayUp h1 h16 hl hq hb, strayDataUp]
    exact ⟨fun h => by rw [if_pos h], fun h => by rw [if_neg (by omega)]⟩
  · rw [exec_strayDrive h1 h16 ht hb, strayDataDrive]
    refine ⟨fun h => by rw [h], fun m hm => ?_⟩
    rw [hm]
    refine ⟨fun h => ?_, fun h => ?_, fun h => ?_⟩
    · simp only [if_pos h]
    · simp only [if_neg (show ¬sectors.length < m by omega), if_pos h]
    · simp only [if_neg (show ¬sectors.length < m by omega), if_neg (show ¬sectors.length = m by omega)]
  · rw [exec_ready hw ht]
    refine ⟨fun hb => ?_, fun hb hn => ?_⟩
    · simp [takeReady, readyMatch_open hb, strayReady, hb]
    · constructor <;> intro hd <;> simp [takeReady, readyMatch_unfit hn, strayReady, hb, hd]

/-! ### A READY that an entry matches (R4, R13) -/

/-- The entry that a READY matches (R4). -/
theorem readyMatch_fit {r : ReadyFrame} {e : Entry} {s : State} (hb : s.drv.burst = none) (he : entryOf s (readyOwner r) = some e)
    (hst : e.state = .forwarded) (hk : kindAllows e.kind (readyDir r) = true) : readyMatch r s = some e := by
  simp [readyMatch, hb, he, hst, hk]

theorem entryOf_openBurst (r : ReadyFrame) (e : Entry) (p : Owner) (s : State) :
    entryOf (openBurst r e s) p = if p = readyOwner r then some (burstEntry r e) else entryOf s p := by
  have h : (openBurst r e s).trk = (setEntry (readyOwner r) (some (burstEntry r e)) s).trk := by simp [openBurst]; rfl
  rw [entryOf_congr h, entryOf_setEntry]

theorem readyPastEnd_iff (r : ReadyFrame) (e : Entry) :
    readyPastEnd r e = true ↔ e.kind ≠ .other ∧ cmdCount e.cmd < r.offset.toNat + readyCount r := by
  simp [readyPastEnd]

/-- Settles O23: the burst opens, and past the end of its command the entry is marked and PROTOCOL raised. -/
theorem readyOpensBurst : Obligations.ReadyOpensBurst := by
  intro r e s hw ht hb
  dsimp only
  intro he hst hk
  have hdir : (if r.flags.getLsbD 0 = true then Dir.toUpstream else Dir.toDrive) = readyDir r := rfl
  rw [hdir] at hk ⊢
  have hallow : kindAllows e.kind (readyDir r) = true := by
    rcases hk with h | ⟨hd, h | h⟩ | ⟨hd, h | h⟩ <;> simp [kindAllows, *]
  have hmatch := readyMatch_fit hb he hst hallow
  refine ⟨_, exec_ready hw ht, ?_⟩
  rw [takeReady, hmatch]
  dsimp only
  by_cases hp : readyPastEnd r e = true
  · have hpast := (readyPastEnd_iff r e).1 hp
    rw [if_pos hp]
    simp only [if_pos hpast]
    have hent : ∀ p, entryOf (slipPastEnd r (openBurst r e s)) p =
        if p = readyOwner r then some (markFailed .protocol (burstEntry r e)) else entryOf s p := fun p => by
      have htrk : (slipPastEnd r (openBurst r e s)).trk = (updateEntry (readyOwner r) (markFailed .protocol) (openBurst r e s)).trk := by
        simp [slipPastEnd]
      have hopen : entryOf (openBurst r e s) (readyOwner r) = some (burstEntry r e) := by rw [entryOf_openBurst, if_pos rfl]
      rw [entryOf_congr htrk, updateEntry_used _ hopen, entryOf_setEntry, entryOf_openBurst]
      split <;> rfl
    refine ⟨by simp [slipPastEnd, openBurst], by simp [slipPastEnd, openBurst], ?_, fun p hpo => ?_, ?_, ?_, ?_, ?_, ?_⟩
    · rw [hent, if_pos rfl]; rfl
    · rw [hent, if_neg hpo]
    · simp [slipPastEnd, openBurst, placeItem]
    · simp [slipPastEnd, openBurst]
    · simp [slipPastEnd, openBurst]
    · simp [slipPastEnd, openBurst, raiseFault_set]
    · simp [slipPastEnd, openBurst]
  · have hpast := (readyPastEnd_iff r e).not.1 hp
    rw [if_neg hp]
    simp only [if_neg hpast]
    refine ⟨by simp [openBurst], by simp [openBurst], ?_, fun p hpo => ?_, ?_⟩
    · rw [entryOf_openBurst, if_pos rfl]; rfl
    · rw [entryOf_openBurst, if_neg hpo]
    · simp [openBurst, placeItem]

end Sys2Proof.LinkPassage
end

