-- ==== Sys2Proof/Proofs/StandingFrames.lean ====
section
namespace Sys2Proof.LinkPassage
open Sys2Proof Sys2Proof.Machine

/-! ### Frames that stand (R9, R16) -/

theorem takeOne_none {s : State} (hu : nextUp s = none) (hd : nextDrive s = none) : takeOne s = s := by
  rw [takeOne, hu, hd]

theorem takeOne_drive {f : Frame} {s : State} (hu : nextUp s = none) (hd : nextDrive s = some f) : takeOne s = stepDrive f s := by
  rw [takeOne, hu, hd]

theorem nextUp_none {s : State} (h : s.up.held = []) : nextUp s = none := by simp [nextUp, h]

theorem nextDrive_none {s : State} (h : s.drv.held = []) : nextDrive s = none := by simp [nextDrive, h]

/-- The Pool settles nothing where no DATA frame stands at the head of a link (R149). -/
theorem settleHeads_none {s : State} (hu : upstreamHead s = none) (hd : driveHead s = none) : settleHeads s = s := by
  simp only [settleHeads, hu, hd]

/-- Where the Pool has nothing to settle and neither port can take its frame, all frames stand. -/
theorem run_stands {s : State} (hs : settleHeads s = s) (ht : takeOne s = s) : run s = s := by
  have h : ∀ n, pump n s = s := by
    intro n
    induction n with
    | zero => exact hs
    | succ n ih => rw [pump, hs, ht, ih]
  exact h _

theorem upstreamHead_command {c : CommandFrame} {l : List Frame} {s : State} (h : s.up.held = .command c :: l) : upstreamHead s = none := by
  simp [upstreamHead, h]

theorem driveHead_of_held {f : Frame} {l : List Frame} {s : State} (h : s.drv.held = f :: l) (hf : ∀ d, f ≠ .data d) :
    driveHead s = none := by
  cases f <;> simp_all [driveHead]

/-- A COMMAND other than a BRIDGE stands while the drive's reset lasts (R16). -/
theorem nextUp_inReset {c : CommandFrame} {l : List Frame} {s : State} (h : s.up.held = .command c :: l) (hk : cmdKind c ≠ .bridge)
    (hr : s.drv.resetState ≠ .none) : nextUp s = none := by
  simp [nextUp, h, upTakeable, hk, hr]

/-- A frame of the drive stands while one is still to be sent on (R9). -/
theorem nextDrive_pending {s : State} (h : relayPending s = true) : nextDrive s = none := by
  simp [nextDrive, driveTakeable, h]

/-- A COMMAND that stands for the reset stays with every frame behind it (R9, R16). -/
theorem run_inReset {c : CommandFrame} {l : List Frame} {s : State} (h : s.up.held = .command c :: l) (hk : cmdKind c ≠ .bridge)
    (hr : s.drv.resetState ≠ .none) (hd : s.drv.held = []) : run s = s :=
  run_stands (settleHeads_none (upstreamHead_command h) (by simp [driveHead, hd]))
    (takeOne_none (nextUp_inReset h hk hr) (nextDrive_none hd))

/-- The first STATUS of the drive ends its reset (R16). -/
theorem takeDrive_resetStatus {t : StatusFrame} {s : State} (hr : s.drv.resetState ≠ .none) :
    takeDrive (.status t) s = listed (if s.drv.resetState = .awaitRelay then [fromDrive (.status t)] else [])
      { s with drv := { s.drv with resetState := .none } } := by
  rw [takeDrive, if_pos hr, takeInReset]
  dsimp only
  split
  · rfl
  · simp [listed]

/-- Any other frame of the drive is discarded until then (R16). -/
theorem takeDrive_discarded {f : Frame} {s : State} (hr : s.drv.resetState ≠ .none) (hf : ∀ t, f ≠ .status t) : takeDrive f s = s := by
  unfold takeDrive
  rw [if_pos hr]
  cases f with
  | status t => exact absurd rfl (hf t)
  | _ => rfl

/-- A STATUS that ends the reset lets the COMMAND that stood for it be taken in the same event (R16; log 4). -/
theorem arriveDrive_endsReset {c : CommandFrame} {t : StatusFrame} {s : State} (hk : cmdKind c ≠ .bridge) (hul : s.up.link = .up)
    (hr : s.drv.resetState ≠ .none) (hu : s.up.held = [.command c]) (hd : s.drv.held = []) (hl : s.drv.link = .up)
    (hp : relayPending s = false) :
    arriveDrive (.status t) s = arriveUp (.command c)
      { s with
        up :=
          { s.up with
            held := []
            sendList := s.up.sendList ++ if s.drv.resetState = .awaitRelay then [fromDrive (.status t)] else [] }
        drv := { s.drv with resetState := .none } } := by
  have hstand : run { s with drv := { s.drv with held := [.status t] } } =
      pump 1 (takeDrive (.status t) { s with drv := { s.drv with held := [] } }) := by
    have hhead : settleHeads { s with drv := { s.drv with held := [.status t] } } = { s with drv := { s.drv with held := [.status t] } } :=
      settleHeads_none (upstreamHead_command hu) (driveHead_of_held rfl nofun)
    have hnext : nextDrive { s with drv := { s.drv with held := [.status t] } } = some (.status t) := by
      have hp' : relayPending { s with drv := { s.drv with held := [.status t] } } = false := hp
      have hh : driveHead { s with drv := { s.drv with held := [.status t] } } = none := driveHead_of_held rfl nofun
      simp [nextDrive, driveTakeable, hp', hh]
    have hlen : s.up.held.length + [Frame.status t].length = 2 := by simp [hu]
    have hstuck : nextUp { s with drv := { s.drv with held := [.status t] } } = none := nextUp_inReset hu hk hr
    rw [run, hlen, pump, hhead, takeOne_drive hstuck hnext]
    rfl
  have hheld : ({ s with drv := { s.drv with held := [] } } : State) = s := by rw [← hd]
  rw [arriveDrive, if_pos hl, hd, List.nil_append, hstand, hheld, takeDrive_resetStatus hr, arriveUp, if_pos hul]
  have hlen : ([Frame.command c].length + s.drv.held.length) = 1 := by simp [hd]
  rw [run]
  dsimp only
  rw [List.nil_append, hlen, listed, ← hu]

/-- The arbiter's turn with a lone completion of the drive on the list, and a frame of the drive that stands for it (R8, R9). -/
theorem transmit_frees {f : Frame} {t : StatusFrame} {s : State} (hl : s.drv.link = .up) (hq : Quiet s) (hul : s.up.link = .up)
    (ho : s.up.outBurst = none) (hs : s.up.sendList = []) :
    transmit { s with
      up := { s.up with sendList := [fromDrive (.status t)] }
      drv := { s.drv with held := [f] } } = arriveDrive f { s with up := { s.up with sent := s.up.sent ++ [.status t] } } := by
  have hsend := transmit_chosen (l := []) (m := []) (i := fromDrive (.status t))
    (s := { s with up := { s.up with sendList := [fromDrive (.status t)] }, drv := { s.drv with held := [f] } })
    hul nofun (by simp [mayChoose, ho, sendEligible, fromDrive]) rfl
  rw [hsend, arriveDrive, if_pos hl]
  simp only [hq.2, List.nil_append, fromDrive, sentItem, hs]

/-- Settles O5: the links by their events, the frames of a reset by what the ports can take. -/
theorem linksComeUpAndResetEnds : Obligations.LinksComeUpAndResetEnds := by
  refine ⟨fun s => ⟨rfl, fun hq => ?_⟩, fun i f s hi hl hq => ⟨fun hp => ⟨?_, fun hr hf => ?_⟩, fun hf => ⟨fun hp => ?_, ?_⟩⟩,
    fun i c s hi hk hul hr => ⟨fun hq => ?_, fun hu hd => ⟨fun j f hj => ?_, fun outcome detail hl hp => ?_⟩⟩⟩
  · exact congrArg Host.Outcome.next (run_quiet (s := { s with drv := { s.drv with link := .up, resetState := .awaitLocal } }) hq)
  · rintro t rfl
    refine ⟨fun hr => ?_, fun hr => ?_⟩
    · rw [exec_drive hi, arriveDrive_inReset hl hp hq (by simp [hr]), takeDrive_resetStatus (by simp [hr]), if_pos hr]
    · rw [exec_drive hi, arriveDrive_inReset hl hp hq (by simp [hr]), takeDrive_resetStatus (by simp [hr]), if_neg (by simp [hr])]
      simp [listed]
  · rw [exec_drive hi, arriveDrive_inReset hl hp hq hr, takeDrive_discarded hr hf]
  · rw [exec_drive hi, arriveDrive, if_pos hl, hq.2, List.nil_append]
    have hstands := run_stands (s := { s with drv := { s.drv with held := [f] } })
      (settleHeads_none (by simp [upstreamHead, hq.1]) (driveHead_of_held rfl hf))
      (takeOne_none (nextUp_none hq.1) (nextDrive_pending hp))
    rw [hstands]
  · intro outcome detail hul ho hs
    rw [exec_drive hi]
    exact congrArg Host.Outcome.next (transmit_frees hl hq hul ho hs)
  · rw [exec_upstream hi, arriveUp, if_pos hul, hq.1, List.nil_append,
      run_inReset (s := { s with up := { s.up with held := [.command c] } }) rfl hk hr hq.2]
  · rw [exec_upstream hj, arriveUp, if_pos hul, hu,
      run_inReset (s := { s with up := { s.up with held := [.command c] ++ [f] } }) rfl hk hr hd]
    rfl
  · dsimp only
    rw [exec_drive rfl, exec_upstream hi]
    exact congrArg Host.Outcome.next (arriveDrive_endsReset hk hul hr hu hd hl hp)

end Sys2Proof.LinkPassage
end

