-- ==== Sys2Proof/Proofs/LinkReset.lean ====
section
namespace Sys2Proof.LinkPassage
open Sys2Proof Sys2Proof.Machine

/-! ### Rings rewound (R115) -/

/-- The ring of a context holds no span. -/
def NoSpans (c : CtxSlot) (s : State) : Prop := ∀ r, ringOf s c = some r → r.spans = []

theorem rewindRing_other {c d : CtxSlot} {s : State} (h : d ≠ c) : ringOf (rewindRing s c) d = ringOf s d := by
  unfold rewindRing
  split
  next => rfl
  next =>
    split
    next => rfl
    next => exact (ringOf_setRing c d _ s).trans (if_neg h)

theorem rewindRing_noSpans (c : CtxSlot) (s : State) : NoSpans c (rewindRing s c) := by
  intro r hr
  unfold rewindRing at hr
  split at hr
  next h => rw [h] at hr; contradiction
  next g hg =>
    split at hr
    next hempty =>
      obtain rfl := Option.some.inj (hr.symm.trans hg)
      simpa using hempty
    next =>
      have : ringOf (setRing c (some (rewound g)) s) c = some r := hr
      rw [ringOf_setRing, if_pos rfl] at this
      cases this
      rfl

theorem foldl_rewindRing_noSpans {c : CtxSlot} (l : List CtxSlot) {s : State} (h : c ∈ l ∨ NoSpans c s) :
    NoSpans c (l.foldl rewindRing s) := by
  induction l generalizing s with
  | nil => simpa using h
  | cons a l ih =>
    refine ih ?_
    by_cases hca : c = a
    · exact .inr (hca ▸ rewindRing_noSpans a s)
    · rcases h with h | h
      · exact .inl (by simpa [hca] using h)
      · exact .inr fun r hr => h r (by rwa [rewindRing_other hca] at hr)

theorem rewindRings_noSpans (c : CtxSlot) (s : State) : NoSpans c (rewindRings s) :=
  foldl_rewindRing_noSpans _ (.inl (List.mem_finRange c))

/-! ### An empty pool stays empty while entries end (R156, R157) -/

/-- No pool slot is in use and no sector waits for one. -/
def PoolEmpty (s : State) : Prop := (∀ p, s.pool.slots.get p = none) ∧ s.pool.unserved = []

theorem PoolEmpty.congr {s t : State} (h : t.pool = s.pool) (hs : PoolEmpty s) : PoolEmpty t := by rwa [PoolEmpty, h]

theorem refill_served {s : State} (h : s.pool.unserved = []) : refill s = s := by
  unfold refill
  split
  next => rfl
  next =>
    split
    next => rfl
    next => rw [h]; rfl

theorem freeSlotsOf_none {o : Owner} {s : State} (h : ∀ p, s.pool.slots.get p = none) : freeSlotsOf o s = s := by
  have : poolSlotsOf s o = [] := by simp [poolSlotsOf, h]
  rw [freeSlotsOf, this]
  rfl

theorem poolEmpty_releaseEntrySlots (o : Owner) (e : Entry) {s : State} (hs : PoolEmpty s) : PoolEmpty (releaseEntrySlots o e s) := by
  have hdrop : PoolEmpty (if e.openBurst.isSome then dropPoolBurst s else s) := by
    split
    · exact ⟨hs.1, rfl⟩
    · exact hs
  unfold releaseEntrySlots
  dsimp only
  rwa [freeSlotsOf_none hdrop.1, refill_served hdrop.2]

/-- The pool at an entry's end: its slots are freed, and nothing more happens to it (R156). -/
theorem endEntry_pool {o : Owner} {e : Entry} {s : State} (r : Option Bool) (he : entryOf s o = some e) :
    (endEntry o r s).pool = (releaseEntrySlots o e s).pool := by
  unfold endEntry
  rw [he]
  dsimp only
  split <;> simp

theorem poolEmpty_endEntry (o : Owner) (r : Option Bool) {s : State} (hs : PoolEmpty s) : PoolEmpty (endEntry o r s) := by
  cases he : entryOf s o with
  | none => rw [endEntry, he]; exact hs
  | some e => exact (poolEmpty_releaseEntrySlots o e hs).congr (endEntry_pool r he)

theorem freePoolSlot_pool (p : PoolNo) (s : State) :
    (freePoolSlot p s).pool = { s.pool with slots := s.pool.slots.set p none } := by
  simp [freePoolSlot]

theorem poolEmpty_freeAllSlots (s : State) : PoolEmpty (freeAllSlots s) := by
  have h : ∀ (l : List PoolNo) (s : State) (p : PoolNo), p ∈ l ∨ s.pool.slots.get p = none →
      (l.foldl (fun s p => freePoolSlot p s) s).pool.slots.get p = none := by
    intro l
    induction l with
    | nil => intro s p hp; simpa using hp
    | cons a l ih =>
      intro s p hp
      refine ih _ _ ?_
      rw [freePoolSlot_pool]
      dsimp only
      rw [get_set]
      by_cases hpa : a = p
      · exact .inr (if_pos hpa)
      · rw [if_neg hpa]
        exact hp.imp_left fun h => by simpa [Ne.symm hpa] using h
  have hun : ∀ (l : List PoolNo) (s : State), (l.foldl (fun s p => freePoolSlot p s) s).pool.unserved = s.pool.unserved := by
    intro l
    induction l with
    | nil => exact fun _ => rfl
    | cons a l ih => exact fun s => (ih _).trans (by rw [freePoolSlot_pool])
  exact ⟨fun p => h _ _ p (.inl (List.mem_finRange p)), hun _ _⟩

/-! ### Link reset (R15) -/

theorem poolEmpty_endQueued {s : State} (hs : PoolEmpty s) : PoolEmpty (endQueued s) := by
  have h : ∀ (l : List Owner) {s : State}, PoolEmpty s → PoolEmpty (l.foldl (fun s o => endEntry o none s) s) := by
    intro l
    induction l with
    | nil => exact fun h => h
    | cons o l ih => exact fun h => ih (poolEmpty_endEntry o none h)
  exact h _ hs

theorem entryOf_clearAccepts (o : Owner) (s : State) : entryOf (clearAccepts s) o = entryOf s o := by cases o <;> rfl

theorem clearAccepts_pool (s : State) : (clearAccepts s).pool = s.pool := rfl

theorem speaks_clearAccepts (s : State) : Speaks s (clearAccepts s) := speaks_of_same rfl rfl rfl

theorem speaks_dropReply (s : State) : Speaks s (dropReply s) := speaks_of_same rfl rfl rfl

/-- Every entry has ended (R39). -/
theorem resetEntries_free (s : State) (o : Owner) : entryOf (resetEntries s) o = none := by
  rw [resetEntries, entryOf_clearAccepts]
  cases o with
  | single => exact entryOf_endEntry _ _ _
  | tag k => exact frees_endEntry _ _ _ _ (entryOf_foldl_endEntry _ _ _ (List.mem_map_of_mem (List.mem_finRange k)))

theorem speaks_resetEntries (s : State) : Speaks (resetPorts s) (resetEntries s) := by
  have h1 : Speaks (resetPorts s) (freeAllSlots (resetPorts s)) := speaks_of_same (by simp) (by simp) (by simp)
  have h2 := h1.trans (speaks_foldl _ (fun s o => speaks_endEntry o none s) ((List.finRange 32).map Owner.tag) _)
  exact (h2.trans (speaks_endEntry .single none _)).trans (speaks_clearAccepts _)

/-- What the end of every entry at a link reset leaves of the ports, the records and the settings (R15, R39). -/
theorem resetEntries_keeps (s : State) :
    (resetEntries s).up = resetUpstream s.up ∧ (resetEntries s).drv = resetDrive s.drv ∧ (resetEntries s).time = s.time ∧
      (resetEntries s).faults = { s.faults with cause := .linkReset } ∧ (resetEntries s).pending = s.pending ∧
      (resetEntries s).trk.accepts = [] ∧ (resetEntries s).trk.history = s.trk.history ∧
      (resetEntries s).req.locked = s.req.locked ∧ (resetEntries s).req.lookahead = s.req.lookahead ∧
      (resetEntries s).req.divider = s.req.divider ∧ (resetEntries s).req.severities = s.req.severities ∧
      (resetEntries s).req.attentionSet = s.req.attentionSet := by
  simp [resetEntries, clearAccepts, endQueued, resetPorts]

theorem resetEntries_pool (s : State) : PoolEmpty (resetEntries s) :=
  PoolEmpty.congr (clearAccepts_pool _) (poolEmpty_endEntry .single none (poolEmpty_endQueued (poolEmpty_freeAllSlots _)))

/-- The notice LINK_RESET is the first of the event (R194). -/
theorem resetPorts_notices {s : State} (h : s.nq.notices.length < 32) :
    (resetPorts s).nq.notices = s.nq.notices ++
      [{ kind := .linkReset, ctx := none, tag := none, detail := none, value := entriesInUse s, stamp := s.time.mono }] := by
  simp [resetPorts, queueNotice, joinQueue, h]

/-- Settles O6: the ports and the pool empty first, then every entry ends, and the rings rewind. -/
theorem linkResetEndsEntries : Obligations.LinkResetEndsEntries := by
  intro s
  refine ⟨linkResetEvent s, rfl, ?_⟩
  obtain ⟨hup, hdrv, htime, hfaults, hpending, haccepts, hhistory, hlocked, hlook, hdiv, hsev, hatt⟩ := resetEntries_keeps s
  have hfree := resetEntries_free s
  have hpool := resetEntries_pool s
  have hspeaks := speaks_resetEntries s
  have hnotices : s.nq.notices.length < 32 → (rewindRings (dropReply (resetEntries s))).nq.notices[s.nq.notices.length]? =
      some { kind := .linkReset, ctx := none, tag := none, detail := none, value := entriesInUse s, stamp := s.time.mono } := by
    intro hroom
    obtain ⟨⟨l, hl⟩, -, -⟩ := (hspeaks.trans (speaks_dropReply _)).trans (speaks_rewindRings _)
    obtain ⟨m, hm⟩ := joinAll_grows (resetPorts s).req.attentionSet (resetPorts s).faults.lockdown l (resetPorts s).nq
    rw [hl, hm, resetPorts_notices hroom]
    simp
  rw [linkResetEvent_eq]
  generalize resetEntries s = u at *
  obtain ⟨kup, kdrv, ktrk, -, -, -, -, kpool, ktime, kreq, kfaults, -, kpending⟩ := rewindRings_keeps (dropReply u)
  rw [kup, kdrv, ktrk, kpool, ktime, kreq, kfaults, kpending]
  refine ⟨fun o => ?_, haccepts, hhistory, hup.trans rfl, fun hl => ?_, fun hl => ?_, hpool.1, hpool.2,
    fun c r hr => rewindRings_noSpans c _ r hr, hfaults, htime, rfl, hlocked, hlook, hdiv, hsev, hatt, hpending, hnotices⟩
  · rw [entryOf_congr ktrk]
    exact hfree o
  · exact hdrv.trans (by simp [resetDrive, hl])
  · exact hdrv.trans (by simp [resetDrive, hl])

end Sys2Proof.LinkPassage
end

