-- ==== Sys2Proof/Proofs/DriveLoss.lean ====
section
namespace Sys2Proof.LinkPassage
open Sys2Proof Sys2Proof.Machine

/-! ### What the end of one entry leaves in use (R33) -/

/-- The end of an entry ends no other. -/
theorem endEntry_stays {o p : Owner} (h : p ≠ o) (r : Option Bool) {s : State} (hs : (entryOf s p).isSome = true) :
    (entryOf (endEntry o r s) p).isSome = true := by
  unfold endEntry
  split
  next => exact hs
  next e he =>
    have hreport : Shifts s (reportEnd o e r (releaseEntrySlots o e s)) :=
      Shifts.trans (shifts_of_trk (by simp)) (shifts_reportEnd o e r _)
    have hlower : Shifts s (leaveSnapshot o (e.touched.foldl lowerInFlight (noticeWithheld o e
        (reportEnd o e r (releaseEntrySlots o e s))))) := hreport.trans (shifts_of_trk (by simp))
    have hend : (entryOf (setEntry o none (leaveSnapshot o (e.touched.foldl lowerInFlight (noticeWithheld o e
        (reportEnd o e r (releaseEntrySlots o e s)))))) p).isSome = true := by
      rw [entryOf_setEntry, if_neg h]
      exact hlower.stays p hs
    split
    next => exact hend
    next => exact (shifts_clearQueueWait _).stays p hend

theorem endEntry_isSome {o p : Owner} (h : p ≠ o) (r : Option Bool) (s : State) :
    (entryOf (endEntry o r s) p).isSome = (entryOf s p).isSome := by
  cases hs : entryOf s p with
  | none => rw [frees_endEntry o r s p hs]
  | some e => exact endEntry_stays h r (by rw [hs]; rfl)

/-! ### Drive link lost (R17) -/

theorem endQueued_single (s : State) : (entryOf (endQueued s) .single).isSome = (entryOf s .single).isSome := by
  have h : ∀ (l : List Tag) (s : State),
      (entryOf ((l.map Owner.tag).foldl (fun s o => endEntry o none s) s) .single).isSome = (entryOf s .single).isSome := by
    intro l
    induction l with
    | nil => exact fun _ => rfl
    | cons k l ih => exact fun s => (ih _).trans (endEntry_isSome (by simp) none s)
  exact h _ s

/-- The ports at drive link lost where no burst was open (R17). -/
theorem lostPorts_closed {s : State} (h : s.drv.burst = none) : lostPorts s = { s with drv := lostDrive s.drv } := by
  have : loseBurst s = s := by rw [loseBurst, h]
  rw [lostPorts, this]

theorem endLost_keeps (s : State) :
    (endLost s).up = s.up ∧ (endLost s).drv = s.drv ∧ (endLost s).time = s.time ∧ (endLost s).faults = s.faults ∧
      (endLost s).pending = s.pending ∧ (endLost s).trk.history = s.trk.history := by
  unfold endLost
  split <;> simp [endQueued]

/-- Every queued entry ends, and what is no bridge in the single slot (R40). -/
theorem endLost_free (s : State) :
    (∀ k : Tag, entryOf (endLost s) (.tag k) = none) ∧ (singleTransfer s = true → entryOf (endLost s) .single = none) ∧
      (singleTransfer s = false → (entryOf (endLost s) .single).isSome = (entryOf s .single).isSome) := by
  have hq : ∀ k : Tag, entryOf (endQueued s) (.tag k) = none := fun k =>
    entryOf_foldl_endEntry _ _ _ (List.mem_map_of_mem (List.mem_finRange k))
  unfold endLost
  refine ⟨fun k => ?_, fun h => ?_, fun h => ?_⟩
  · split
    · exact frees_endEntry _ _ _ _ (hq k)
    · exact hq k
  · rw [if_pos h]
    exact entryOf_endEntry _ _ _
  · rw [if_neg (by simp [h])]
    exact endQueued_single s

/-- The answers to the lost commands join the send list (R40). -/
theorem answerLoss_eq (s u : State) : answerLoss s u = listed ((lossAnswers s).map fromPart) u := placeParts_eq _ _

/-- Everything at drive link lost but the fault and the rewinding of the rings (R17, R40). -/
def lossAnswered (s : State) : State :=
  queueNotice .driveLost none none none (lossCount s)
    (listed ((lossAnswers s).map fromPart) (clearAccepts (endLost { s with drv := lostDrive s.drv })))

theorem lossEvent_closed {s : State} (h : s.drv.burst = none) : lossEvent s = rewindRings (raiseFault .driveLost (lossAnswered s)) := by
  rw [lossEvent, lostPorts_closed h, answerLoss_eq]
  rfl

/-- Settles O7: the entries end and are answered, then the fault is raised and the rings rewind. -/
theorem driveLossEndsEntries : Obligations.DriveLossEndsEntries := by
  intro s hheld hburst
  obtain ⟨hup, hdrv, htime, hfaults, hpending, hhistory⟩ := endLost_keeps { s with drv := lostDrive s.drv }
  obtain ⟨htags, hsingle, hstays⟩ := endLost_free { s with drv := lostDrive s.drv }
  obtain ⟨kup, kdrv, ktrk, -, -, -, -, -, ktime, -, kfaults, -, kpending⟩ := rewindRings_keeps (raiseFault .driveLost (lossAnswered s))
  obtain ⟨rup, rdrv, rtrk, -, -, -, rtime, -, -, rpending⟩ := raiseFault_keeps .driveLost (lossAnswered s)
  have hquiet : Quiet (lossEvent s) := by
    rw [lossEvent_closed hburst]
    exact ⟨by rw [kup, rup]; exact (congrArg Upstream.held hup).trans hheld, by rw [kdrv, rdrv]; exact congrArg DrivePort.held hdrv⟩
  have hent : ∀ o, entryOf (lossEvent s) o = entryOf (endLost { s with drv := lostDrive s.drv }) o := fun o => by
    rw [lossEvent_closed hburst, entryOf_congr (ktrk.trans rtrk)]
    exact entryOf_clearAccepts o _
  refine ⟨driveLostEvent s, rfl, ?_⟩
  rw [driveLostEvent_eq, run_quiet hquiet]
  refine ⟨fun k => (hent _).trans (htags k), fun h => (hent _).trans (hsingle h), fun e he hk => ?_, ?_⟩
  · have hb : singleTransfer s = false := by
      have : s.trk.single = some e := he
      simp [singleTransfer, this, hk]
    rw [hent, hstays hb]
    exact congrArg Option.isSome he
  · rw [lossEvent_closed hburst, kup, kdrv, ktrk, ktime, kfaults, kpending, rup, rdrv, rtrk, rtime, rpending, raiseFault_set, raiseFault_first]
    refine ⟨rfl, hhistory, hdrv.trans (by simp [lostDrive, hburst]), ?_, ?_, ?_, fun c r hr => rewindRings_noSpans c _ r hr, htime, hpending⟩
    · exact congrArg (fun u : Upstream => u.sendList ++ (lossAnswers s).map fromPart) hup
    · exact congrArg (fun f : FaultRecord => { f.set with driveLost := true }) hfaults
    · exact congrArg (fun f : FaultRecord => f.first.or (some .driveLost)) hfaults

end Sys2Proof.LinkPassage
end

