-- ==== Sys2Proof/Proofs/Acceptances.lean ====
section
namespace Sys2Proof.LinkPassage
open Sys2Proof Sys2Proof.Machine

/-! ### STATUS matched to the acceptance list (R30) -/

/-- A STATUS of the drive reaches its port. -/
theorem exec_status {outcome detail : Byte} {s : State} (hw : WellFormed (.statusFromDrive outcome detail) = true) (ht : TakesDrive s) :
    exec (.statusFromDrive outcome detail) s = .next (takeStatus { outcome := outcome, detail := detail } s) := by
  obtain ⟨hl, hr, hp, hq⟩ := ht
  rw [exec_drive rfl, arriveDrive_frame (f := .status _) hl hp hq nofun, takeDrive_status hr hw]

/-- QUEUE_WAIT concerns the single slot alone (R28). -/
theorem clearQueueWait_tag (k : Tag) (s : State) : entryOf (clearQueueWait s) (.tag k) = entryOf s (.tag k) := by
  unfold clearQueueWait
  split
  next => rfl
  next =>
    split
    next => rfl
    next =>
      split
      next =>
        rw [forwardEntry_setEntry]
        split
        · rw [entryOf_toSend, entryOf_setEntry, if_neg (by simp)]
        · rw [entryOf_setEntry, if_neg (by simp)]
      next => rfl

/-- Commands released by an event join the acceptance list behind its records (R28). -/
theorem flushReleased_accepts (s : State) : ∃ m, (flushReleased s).trk.accepts = s.trk.accepts ++ m :=
  ⟨_, by rw [flushReleased_eq]⟩

/-- An OK while acceptances are awaited is a slip (R14). -/
theorem takeStatus_slip {f : StatusFrame} {r : AcceptRecord} {rest : List AcceptRecord} {s : State} (h : s.trk.accepts = r :: rest)
    (ho : f.outcome = 1#8) : takeStatus f s = raiseFault .protocol s := by
  rw [takeStatus, h]
  dsimp only
  rw [if_pos ho]

/-- Any other STATUS is matched to the record at the head (R30). -/
theorem takeStatus_matched {f : StatusFrame} {r : AcceptRecord} {rest : List AcceptRecord} {s : State} (h : s.trk.accepts = r :: rest)
    (ho : f.outcome ≠ 1#8) : takeStatus f s = takeAcceptance r rest f s := by
  rw [takeStatus, h]
  dsimp only
  rw [if_neg ho]

theorem entryOf_listed (l : List SendItem) (s : State) (o : Owner) : entryOf (listed l s) o = entryOf s o := entryOf_congr rfl o

theorem entryOf_placeRelayed (f : Frame) (s : State) (o : Owner) : entryOf (placeRelayed f s) o = entryOf s o := entryOf_congr rfl o

/-- The first record leaves the acceptance list (R30). -/
def dropRecord (rest : List AcceptRecord) (s : State) : State :=
  { s with trk := { s.trk with accepts := rest } }

theorem entryOf_dropRecord (rest : List AcceptRecord) (s : State) (o : Owner) : entryOf (dropRecord rest s) o = entryOf s o := by
  cases o <;> rfl

/-- A STATUS whose record's entry has ended is discarded (R30). -/
theorem takeAcceptance_ended {r : AcceptRecord} {rest : List AcceptRecord} {f : StatusFrame} {s : State}
    (he : entryOf s (.tag r.tag) = none) : takeAcceptance r rest f s = flushReleased (clearQueueWait (dropRecord rest s)) := by
  have he' : entryOf (dropRecord rest s) (.tag r.tag) = none := (entryOf_dropRecord rest s _).trans he
  change flushReleased (if (entryOf (dropRecord rest s) (.tag r.tag)).isNone then _ else _) = _
  rw [he']
  rfl

/-- STATUS ACCEPTED for an entry in use (R30). -/
theorem takeAcceptance_accepted {r : AcceptRecord} {rest : List AcceptRecord} {f : StatusFrame} {e : Entry} {s : State}
    (he : entryOf s (.tag r.tag) = some e) (hf : f.outcome = 0#8) :
    takeAcceptance r rest f s = flushReleased (clearQueueWait (acceptedBy r f (dropRecord rest s))) := by
  have he' : entryOf (dropRecord rest s) (.tag r.tag) = some e := (entryOf_dropRecord rest s _).trans he
  change flushReleased (if (entryOf (dropRecord rest s) (.tag r.tag)).isNone then _ else _) = _
  rw [he', if_neg (by simp), if_pos hf]
  rfl

/-- STATUS ERROR for an entry in use (R30). -/
theorem takeAcceptance_rejected {r : AcceptRecord} {rest : List AcceptRecord} {f : StatusFrame} {e : Entry} {s : State}
    (he : entryOf s (.tag r.tag) = some e) (hf : f.outcome = 2#8) :
    takeAcceptance r rest f s = flushReleased (rejectedBy r f (dropRecord rest s)) := by
  have he' : entryOf (dropRecord rest s) (.tag r.tag) = some e := (entryOf_dropRecord rest s _).trans he
  change flushReleased (if (entryOf (dropRecord rest s) (.tag r.tag)).isNone then _ else _) = _
  rw [he', if_neg (by simp), if_neg (by simp [hf])]
  rfl

theorem acceptedBy_relay {r : AcceptRecord} {f : StatusFrame} {e : Entry} {s : State} (hr : r.action = .relay)
    (he : entryOf s (.tag r.tag) = some e) :
    acceptedBy r f s = placeRelayed (.status f) (setEntry (.tag r.tag) (some { e with answered := true }) s) := by
  rw [acceptedBy, hr]
  dsimp only
  rw [updateEntry_used _ he]

theorem acceptedBy_swallow {r : AcceptRecord} {f : StatusFrame} {s : State} (hr : r.action = .swallow) : acceptedBy r f s = s := by
  rw [acceptedBy, hr]

theorem rejectedBy_eq (r : AcceptRecord) (f : StatusFrame) (s : State) :
    rejectedBy r f s = listed [match r.action with
      | .relay => fromDrive (.status f)
      | .swallow => fromPart (.done { flags := 0#8, byte3 := 0#8, doneSet := 0#32, failed := [(BitVec.ofNat 8 r.tag, f.detail)] })]
      (endEntry (.tag r.tag) (some false) s) := by
  unfold rejectedBy
  cases r.action <;> rfl

/-- What the flushing of released commands leaves of the send list, an entry, and the records (R28). -/
theorem flushed_status {u : State} {rest : List AcceptRecord} (h : u.trk.accepts = rest) :
    (∃ m, (flushReleased u).trk.accepts = rest ++ m) ∧ (flushReleased u).up.sendList = u.up.sendList := by
  subst h
  exact ⟨flushReleased_accepts u, by simp⟩

/-- Settles O25: by whether the record's entry is still in use, and by the outcome. -/
theorem acceptancesMatched : Obligations.AcceptancesMatched := by
  intro outcome detail r rest s hw ht hacc
  have hrange : outcome.toNat ≤ 2 := by simpa [WellFormed, acceptable] using hw
  have hcases : outcome = 0#8 ∨ outcome = 1#8 ∨ outcome = 2#8 := by
    rcases (show outcome.toNat = 0 ∨ outcome.toNat = 1 ∨ outcome.toNat = 2 by omega) with h | h | h
    exacts [.inl (BitVec.eq_of_toNat_eq h), .inr (.inl (BitVec.eq_of_toNat_eq h)), .inr (.inr (BitVec.eq_of_toNat_eq h))]
  rw [exec_status hw ht]
  refine ⟨fun h => ?_, fun h1 => ?_⟩
  · rw [takeStatus_slip hacc h]
  rw [takeStatus_matched hacc h1]
  refine ⟨_, rfl, ?_⟩
  have hdrop : (dropRecord rest s).trk.accepts = rest := rfl
  cases he : entryOf s (.tag r.tag) with
  | none =>
    rw [takeAcceptance_ended he]
    obtain ⟨hm, hl⟩ := flushed_status (u := clearQueueWait (dropRecord rest s)) (rest := rest) (by simp [dropRecord])
    refine ⟨hm, fun _ => ⟨by rw [hl]; simp [dropRecord], ?_⟩, fun e h => by cases h⟩
    rw [entryOf_flushReleased, clearQueueWait_tag, entryOf_dropRecord, he]
  | some e =>
    have he' : entryOf (dropRecord rest s) (.tag r.tag) = some e := (entryOf_dropRecord rest s _).trans he
    have hmore : ∀ {u : State} {l : List SendItem}, u.trk.accepts = rest → u.up.sendList = s.up.sendList ++ l →
        (∃ m, (flushReleased u).trk.accepts = rest ++ m) ∧ (flushReleased u).up.sendList = s.up.sendList ++ l := fun ha hl => by
      obtain ⟨hm, hs⟩ := flushed_status ha
      exact ⟨hm, hs.trans hl⟩
    have hother : ∀ {P : Prop}, (some e = none → P) := fun h => by cases h
    rcases hcases with h0 | h0 | h0
    · rw [takeAcceptance_accepted he h0]
      cases hr : r.action with
      | relay =>
        rw [acceptedBy_relay hr he']
        obtain ⟨hm, hl⟩ := hmore (u := clearQueueWait (placeRelayed (.status { outcome := outcome, detail := detail })
          (setEntry (.tag r.tag) (some { e with answered := true }) (dropRecord rest s)))) (l := [fromDrive (statusOf outcome detail)])
          (by simp [placeRelayed, placeItem, dropRecord]) (by simp [placeRelayed, placeItem, dropRecord, fromDrive, statusOf])
        refine ⟨hm, hother, fun e' hee => ?_⟩
        cases hee
        refine ⟨fun _ _ => ⟨?_, hl⟩, fun _ h => (by cases h), fun h => by simp [h0] at h⟩
        rw [entryOf_flushReleased, clearQueueWait_tag, entryOf_placeRelayed, entryOf_setEntry, if_pos rfl]
      | swallow =>
        rw [acceptedBy_swallow hr]
        obtain ⟨hm, hl⟩ := hmore (u := clearQueueWait (dropRecord rest s)) (l := []) (by simp [dropRecord]) (by simp [dropRecord])
        refine ⟨hm, hother, fun e' hee => ?_⟩
        cases hee
        refine ⟨fun _ h => (by cases h), fun _ _ => ⟨?_, by simpa using hl⟩, fun h => by simp [h0] at h⟩
        rw [entryOf_flushReleased, clearQueueWait_tag, he']
    · exact absurd h0 h1
    · rw [takeAcceptance_rejected he h0, rejectedBy_eq]
      obtain ⟨hm, hl⟩ := hmore (u := listed [match r.action with
          | .relay => fromDrive (statusOf outcome detail)
          | .swallow => fromPart (.done { flags := 0#8, byte3 := 0#8, doneSet := 0#32, failed := [(BitVec.ofNat 8 r.tag, detail)] })]
          (endEntry (.tag r.tag) (some false) (dropRecord rest s))) (by simp [listed, dropRecord]) (by simp [listed, dropRecord]; rfl)
      refine ⟨hm, hother, fun e' hee => ?_⟩
      cases hee
      refine ⟨fun h => by simp [h0] at h, fun h => by simp [h0] at h, fun _ => ⟨?_, hl⟩⟩
      rw [entryOf_flushReleased, entryOf_listed, entryOf_endEntry]

end Sys2Proof.LinkPassage
end

