-- ==== Sys2Proof/Proofs/ReadBack.lean ====
section
namespace Sys2Proof.LinkPassage
open Sys2Proof Sys2Proof.Machine

/-! ### Words and their bytes -/

@[simp] theorem length_bytesLE (n : Nat) {w : Nat} (v : BitVec w) : (bytesLE n v).length = n := by simp [bytesLE]

theorem drop_bytesLE {n k w : Nat} (v : BitVec w) (h : n ≤ k) : (bytesLE n v).drop k = [] :=
  List.drop_of_length_le (by simpa using h)

/-- Bit i of a word is bit i mod 8 of its byte i div 8. -/
theorem getLsbD_ofBytesLE (w : Nat) (l : List Byte) (i : Nat) :
    (ofBytesLE w l).getLsbD i = (decide (i < w) && (l.getD (i / 8) 0).getLsbD (i % 8)) := by
  induction l generalizing i with
  | nil => simp [ofBytesLE]
  | cons b l ih =>
    by_cases hi : i < 8
    · have hdiv : i / 8 = 0 := by omega
      have hmod : i % 8 = i := by omega
      simp [ofBytesLE, hi, hdiv, hmod]
    · obtain ⟨k, rfl⟩ : ∃ k, i = k + 8 := ⟨i - 8, by omega⟩
      have hdiv : (k + 8) / 8 = k / 8 + 1 := by omega
      have hmod : (k + 8) % 8 = k % 8 := by omega
      have hb : b.getLsbD (k + 8) = false := BitVec.getLsbD_of_ge _ _ (by omega)
      have hle : k + 8 < w → k < w := by omega
      simp only [ofBytesLE, BitVec.getLsbD_or, BitVec.getLsbD_setWidth, BitVec.getLsbD_shiftLeft, hb, hdiv, hmod, ih,
        List.getD_cons_succ, Nat.add_sub_cancel]
      by_cases hw : k + 8 < w <;> simp [hw, hle]

/-- A word reads back from its bytes. -/
theorem ofBytesLE_bytesLE {n w : Nat} (v : BitVec w) (h : w ≤ 8 * n) : ofBytesLE w (bytesLE n v) = v := by
  refine BitVec.eq_of_getLsbD_eq fun i hi => ?_
  have hbyte : i / 8 < n := by omega
  have hbit : i % 8 < 8 := by omega
  have hpos : 8 * (i / 8) + i % 8 = i := by omega
  rw [getLsbD_ofBytesLE, bytesLE, List.getD_eq_getElem _ _ (by simpa using hbyte)]
  simp [hi, hbit, hpos]

/-! ### Frames and their bytes (12.1) -/

theorem sectorsOfBytes_flatMap (l : List Sector) : sectorsOfBytes l.length (l.flatMap (bytesLE 512)) = l := by
  induction l with
  | nil => rfl
  | cons w l ih =>
    rw [List.length_cons, List.flatMap_cons, sectorsOfBytes, List.take_left' (length_bytesLE 512 w),
      List.drop_left' (length_bytesLE 512 w), ih, ofBytesLE_bytesLE w (by omega)]

theorem pairsOfBytes_flatMap (l : List (Byte × Byte)) : pairsOfBytes (l.flatMap fun p => [p.1, p.2]) = l := by
  induction l with
  | nil => rfl
  | cons p l ih => simp [pairsOfBytes, ih]

/-- What the count byte of a frame can hold, and the class bytes that name no layout (12.1). -/
structure Spelt (f : Frame) : Prop where
  sectors : ∀ d, f = .data d → d.sectors.length ≤ 255
  failed : ∀ d, f = .done d → d.failed.length ≤ 255
  cls : ∀ c l, f = .unknown c l → c.toNat = 0 ∨ 5 < c.toNat

theorem frameOfBytes_command (c : CommandFrame) : frameOfBytes (frameBytes (.command c)) = some (.command c) := by
  have hl := ofBytesLE_bytesLE (n := 6) c.lba (by omega)
  have hc := ofBytesLE_bytesLE (n := 2) c.count (by omega)
  have hr := ofBytesLE_bytesLE (n := 9) c.rest (by omega)
  simp [frameBytes, frameOfBytes, List.drop_append, drop_bytesLE, hl, hc, hr]

theorem frameOfBytes_ready (r : ReadyFrame) : frameOfBytes (frameBytes (.ready r)) = some (.ready r) := by
  have ho := ofBytesLE_bytesLE (n := 2) r.offset (by omega)
  have hc := ofBytesLE_bytesLE (n := 2) r.count (by omega)
  simp [frameBytes, frameOfBytes, ho, hc]

theorem frameOfBytes_status (t : StatusFrame) : frameOfBytes (frameBytes (.status t)) = some (.status t) := by
  simp [frameBytes, frameOfBytes]

theorem frameOfBytes_data {d : DataFrame} (h : d.sectors.length ≤ 255) : frameOfBytes (frameBytes (.data d)) = some (.data d) := by
  have hb := ofBytesLE_bytesLE (n := 2) d.bytes23 (by omega)
  have hn : (BitVec.ofNat 8 d.sectors.length).toNat = d.sectors.length := by
    rw [BitVec.toNat_ofNat]
    exact Nat.mod_eq_of_lt (by omega)
  simp [frameBytes, frameOfBytes, hb, hn, sectorsOfBytes_flatMap]
  omega

theorem frameOfBytes_done {d : DoneFrame} (h : d.failed.length ≤ 255) : frameOfBytes (frameBytes (.done d)) = some (.done d) := by
  have hs := ofBytesLE_bytesLE (n := 4) d.doneSet (by omega)
  have hn : (BitVec.ofNat 8 d.failed.length).toNat = d.failed.length := by
    rw [BitVec.toNat_ofNat]
    exact Nat.mod_eq_of_lt (by omega)
  simp [frameBytes, frameOfBytes, hs, hn, pairsOfBytes_flatMap]
  omega

theorem frameOfBytes_unknown {c : Byte} {l : List Byte} (h : c.toNat = 0 ∨ 5 < c.toNat) :
    frameOfBytes (frameBytes (.unknown c l)) = some (.unknown c l) := by
  have hne : ∀ k : Byte, 1 ≤ k.toNat → k.toNat ≤ 5 → c ≠ k := by
    rintro k h1 h5 rfl
    omega
  rw [frameBytes, frameOfBytes, if_neg (hne 1#8 (by decide) (by decide)), if_neg (hne 2#8 (by decide) (by decide)),
    if_neg (hne 5#8 (by decide) (by decide)), if_neg (hne 3#8 (by decide) (by decide)), if_neg (hne 4#8 (by decide) (by decide))]

/-- A frame reads back from its bytes (12.1). -/
theorem frameOfBytes_frameBytes {f : Frame} (h : Spelt f) : frameOfBytes (frameBytes f) = some f := by
  cases f with
  | command c => exact frameOfBytes_command c
  | ready r => exact frameOfBytes_ready r
  | data d => exact frameOfBytes_data (h.sectors d rfl)
  | status t => exact frameOfBytes_status t
  | done d => exact frameOfBytes_done (h.failed d rfl)
  | unknown c l => exact frameOfBytes_unknown (h.cls c l rfl)

/-- The frame of a well-formed row is that row at its port (R2). -/
theorem frameRow_rowFrame {i : Instr} {port : Port} {f : Frame} (hw : WellFormed i = true) (hf : rowFrame i = some (port, f)) :
    frameRow port f = i := by
  cases i with
  | read lba count byte10 rest => exact (Laws.ReadBack.read lba count byte10 rest).1 port f hf hw
  | write lba count byte10 rest => exact (Laws.ReadBack.write lba count byte10 rest).1 port f hf hw
  | qread lba count byte10 rest => exact (Laws.ReadBack.qread lba count byte10 rest).1 port f hf hw
  | qwrite lba count byte10 rest => exact (Laws.ReadBack.qwrite lba count byte10 rest).1 port f hf hw
  | other op lba count byte10 rest => exact (Laws.ReadBack.other op lba count byte10 rest).1 port f hf hw
  | bridge lba count byte10 rest => exact (Laws.ReadBack.bridge lba count byte10 rest).1 port f hf hw
  | unexpectedFrame p g => exact (Laws.ReadBack.unexpectedFrame p g).1 port f hf hw
  | dataFromController b l => exact (Laws.ReadBack.dataFromController b l).1 port f hf hw
  | readyFromDrive r => exact (Laws.ReadBack.readyFromDrive r).1 port f hf hw
  | dataFromDrive b l => exact (Laws.ReadBack.dataFromDrive b l).1 port f hf hw
  | statusFromDrive o d => exact (Laws.ReadBack.statusFromDrive o d).1 port f hf hw
  | doneFromDrive d => exact (Laws.ReadBack.doneFromDrive d).1 port f hf hw
  | _ => cases hf

/-- Settles O51: a frame reads back from its bytes and is its row's, and a request block names its request. -/
theorem commandsReadBack : Obligations.CommandsReadBack := by
  intro i hw
  refine ⟨fun port f hf hs hd hc => ?_, fun r hr => Laws.ReadBack.block_part i r hr⟩
  rw [decodeFrame, frameOfBytes_frameBytes ⟨hs, hd, hc⟩, Option.map_some, frameRow_rowFrame hw hf]

end Sys2Proof.LinkPassage
end

