-- ==== Sys2Proof/Proofs/SingleStatus.lean ====
section
namespace Sys2Proof.LinkPassage
open Sys2Proof Sys2Proof.Machine

/-! ### Bursts closed short and ends that fall short (R7, R32) -/

theorem entryOf_updateEntry (o p : Owner) (f : Entry → Entry) (s : State) :
    entryOf (updateEntry o f s) p = if p = o then (entryOf s o).map f else entryOf s p := entryOf_setEntry o p _ s

/-- An entry whose open burst has been closed (R6, R7). -/
def closedEntry (e : Entry) : Entry :=
  if e.openBurst.isSome then { e with state := .forwarded, openBurst := none } else e

/-- The drive port's burst is gone, with what the Pool held for it (R7). -/
def shortened (b : DriveBurst) (s : State) : State :=
  freeSlotsOf b.owner (dropPoolBurst { s with drv := { s.drv with burst := none } })

theorem closeShort_eq (b : DriveBurst) (s : State) :
    closeShort b s = closeUpstreamSide b (updateEntry b.owner closedEntry (shortened b s)) := rfl

theorem shortened_trk (b : DriveBurst) (s : State) : (shortened b s).trk = s.trk := by simp [shortened]

theorem entryOf_closeShort (b : DriveBurst) (s : State) (o : Owner) :
    entryOf (closeShort b s) o = if o = b.owner then (entryOf s o).map closedEntry else entryOf s o := by
  have h : (closeShort b s).trk = (updateEntry b.owner closedEntry (shortened b s)).trk := by
    rw [closeShort_eq]
    simp
  rw [entryOf_congr h, entryOf_updateEntry, entryOf_congr (shortened_trk b s), entryOf_congr (shortened_trk b s)]
  split
  next ho => rw [ho]
  next => rfl

/-- Two entries that differ in state and open burst alone. -/
structure SameTransfer (e e' : Entry) : Prop where
  kind : e'.kind = e.kind
  cmd : e'.cmd = e.cmd
  touched : e'.touched = e.touched
  ringWrite : e'.ringWrite = e.ringWrite
  passed : e'.passed = e.passed
  partFailed : e'.partFailed = e.partFailed
  withheld : e'.withheld = e.withheld
  firstReason : e'.firstReason = e.firstReason
  firstCtx : e'.firstCtx = e.firstCtx

theorem sameTransfer_closed (e : Entry) : SameTransfer e (closedEntry e) := by
  unfold closedEntry
  split <;> exact ⟨rfl, rfl, rfl, rfl, rfl, rfl, rfl, rfl, rfl⟩

/-- The entry of a burst closed short, as its completion finds it (R7). -/
theorem entryOf_closeOwned {o : Owner} {e : Entry} {s : State} (p : Owner → Bool) (he : entryOf s o = some e) :
    ∃ e', entryOf (closeOwned p s) o = some e' ∧ SameTransfer e e' := by
  have hsame : SameTransfer e e := ⟨rfl, rfl, rfl, rfl, rfl, rfl, rfl, rfl, rfl⟩
  cases hb : s.drv.burst with
  | none => exact ⟨e, by rw [closeOwned_closed p hb, he], hsame⟩
  | some b =>
    rw [closeOwned_open p hb]
    split
    next =>
      rw [entryOf_closeShort, he]
      split
      next => exact ⟨closedEntry e, rfl, sameTransfer_closed e⟩
      next => exact ⟨e, rfl, hsame⟩
    next => exact ⟨e, he, hsame⟩

/-- Whether a success reported for an entry falls short of its command (R32). -/
def FallsShort (e : Entry) : Prop := e.kind ≠ .other ∧ e.passed < cmdCount e.cmd

theorem checkShort_full {o : Owner} {e : Entry} {s : State} (he : entryOf s o = some e) (h : ¬FallsShort e) : checkShort o s = s := by
  rw [checkShort, he]
  exact if_neg h

theorem checkShort_short {o : Owner} {e : Entry} {s : State} (he : entryOf s o = some e) (h : FallsShort e) :
    checkShort o s = raiseFault .protocol (setEntry o (some (markFailed .protocol e)) s) := by
  rw [checkShort, he]
  refine (if_pos h).trans ?_
  rw [updateEntry_used _ he]

theorem entryOf_checkShort {o : Owner} {e : Entry} {s : State} (he : entryOf s o = some e) (h : FallsShort e) :
    entryOf (checkShort o s) o = some (markFailed .protocol e) := by
  rw [checkShort_short he h, entryOf_congr (raiseFault_keeps _ _).2.2.1, entryOf_setEntry, if_pos rfl]

/-! ### STATUS that completes the single slot (R34) -/

theorem takeStatus_single {f : StatusFrame} {s : State} (ha : s.trk.accepts = []) (ho : f.outcome ≠ 0#8) (hw : singleWithDrive s = true) :
    takeStatus f s = completeSingle f s := by
  rw [takeStatus, ha]
  exact if_pos ⟨ho, hw⟩

theorem takeStatus_unmatched {f : StatusFrame} {s : State} (ha : s.trk.accepts = [])
    (h : f.outcome = 0#8 ∨ singleWithDrive s = false) : takeStatus f s = raiseFault .protocol s := by
  rw [takeStatus, ha]
  refine if_neg fun hn => ?_
  rcases h with h | h
  · exact hn.1 h
  · simp [h] at hn

/-- The STATUS that the controller gets for the completed single slot, and whether its entry ends OK (R34). -/
def singleReport (f : StatusFrame) (part : Option PartFail) : Frame × Bool :=
  if f.outcome = 1#8 then
    match part with
    | none => (.status f, true)
    | some p => (errorFrame (partFailCode p), false)
  else (.status f, false)

/-- What an OK checks before its entry ends (R32). -/
def judged (f : StatusFrame) (s : State) : State :=
  if f.outcome = 1#8 then checkShort .single (closeOwned (· = .single) s) else closeOwned (· = .single) s

theorem completeSingle_eq (f : StatusFrame) (s : State) :
    completeSingle f s =
      let r := singleReport f (partFailedOf .single (judged f s))
      flushReleased (placeRelayed r.1 (endEntry .single (some r.2) (judged f s))) := by
  unfold completeSingle singleReport judged
  by_cases h : f.outcome = 1#8
  · simp only [if_pos h]
    cases partFailedOf .single (checkShort .single (closeOwned (· = .single) s)) <;> rfl
  · simp only [if_neg h]

theorem completeSingle_leaves (f : StatusFrame) (s : State) :
    (completeSingle f s).trk.single = none ∧ (completeSingle f s).up.sendList = (judged f s).up.sendList ++
        [fromDrive (singleReport f (partFailedOf .single (judged f s))).1] ∧
      (completeSingle f s).faults = (judged f s).faults ∧ (completeSingle f s).trk.history = (judged f s).trk.history := by
  rw [completeSingle_eq]
  dsimp only
  refine ⟨?_, ?_, ?_, ?_⟩
  · exact (entryOf_flushReleased _ .single).trans ((entryOf_placeRelayed _ _ _).trans (entryOf_endEntry _ _ _))
  · simp [placeRelayed, placeItem, fromDrive]
  · simp [placeRelayed, placeItem]
  · simp [placeRelayed, placeItem]

theorem judged_keeps (f : StatusFrame) (s : State) :
    (judged f s).up.sendList = s.up.sendList ∧ (judged f s).trk.history = s.trk.history := by
  unfold judged
  split <;> simp

/-- What the drive's success is worth for an entry: an earlier part-failure, or one for falling short (R32, R34). -/
def partOf (e : Entry) : Option PartFail :=
  e.partFailed.or (if e.kind ≠ .other ∧ e.passed < cmdCount e.cmd then some .protocol else none)

/-- The part-failure that an OK is judged by, and the fault of one that falls short (R32, R34). -/
theorem judged_single {f : StatusFrame} {e : Entry} {s : State} (he : s.trk.single = some e) (hf : f.outcome = 1#8) :
    partFailedOf .single (judged f s) = partOf e ∧ (FallsShort e → (judged f s).faults.set.protocol = true) ∧
      (¬FallsShort e → judged f s = closeOwned (· = .single) s) := by
  obtain ⟨e', he', hsame⟩ := entryOf_closeOwned (o := .single) (e := e) (s := s) (· = .single) he
  have hj : judged f s = checkShort .single (closeOwned (· = .single) s) := if_pos hf
  have hfs : FallsShort e ↔ FallsShort e' := by simp only [FallsShort, hsame.kind, hsame.cmd, hsame.passed]
  have hp : e'.partFailed = e.partFailed := hsame.partFailed
  by_cases h : FallsShort e
  · have hpart : partOf e = e.partFailed.or (some .protocol) := congrArg _ (if_pos h)
    refine ⟨?_, fun _ => ?_, fun hn => absurd h hn⟩
    · rw [hj, partFailedOf, entryOf_checkShort he' (hfs.1 h), hpart, ← hp]
      rfl
    · rw [hj, checkShort_short he' (hfs.1 h), raiseFault_set]
      rfl
  · have hpart : partOf e = e.partFailed := (congrArg _ (if_neg h)).trans (Option.or_none ..)
    rw [hj, checkShort_full he' fun h' => h (hfs.2 h')]
    refine ⟨?_, fun hs => absurd hs h, fun _ => rfl⟩
    rw [partFailedOf, he', hpart, ← hp]
    rfl

end Sys2Proof.LinkPassage
end

