-- ==== Sys2Proof/Proofs/QuietRelease.lean ====
section
namespace Sys2Proof.LinkPassage
open Sys2Proof Sys2Proof.Machine

/-! ### Freed pool slots start no job while nobody waits for a key (R130, R135) -/

/-- The jobs that a close waits for are as they were, and still nobody waits for a key (R94). -/
structure SameJobs (s t : State) : Prop where
  setups : t.eng.setups = s.eng.setups
  others : t.eng.others = s.eng.others
  running : ∀ c, t.eng.running.any (runningOwnJob c) = s.eng.running.any (runningOwnJob c)
  waiting : t.keys.waiting = s.keys.waiting

theorem SameJobs.of_same {s t : State} (he : t.eng = s.eng) (hk : t.keys = s.keys) : SameJobs s t :=
  ⟨by rw [he], by rw [he], fun c => by rw [he], by rw [hk]⟩

theorem SameJobs.refl (s : State) : SameJobs s s := .of_same rfl rfl

theorem SameJobs.trans {s t u : State} (h : SameJobs s t) (k : SameJobs t u) : SameJobs s u :=
  ⟨k.setups.trans h.setups, k.others.trans h.others, fun c => (k.running c).trans (h.running c), k.waiting.trans h.waiting⟩

theorem SameJobs.hasJob {s t : State} (h : SameJobs s t) (c : CtxSlot) : hasJob t c = hasJob s c := by
  rw [Machine.hasJob, Machine.hasJob, h.setups, h.others, h.running]

theorem sameJobs_dropUserOf (k : Option KeyNo) {s : State} (h : s.keys.waiting = []) : SameJobs s (dropUserOf k s) := by
  cases k with
  | none => exact .refl s
  | some k =>
    rw [dropUserOf, dropUser_nobody k s h]
    exact ⟨rfl, rfl, fun _ => rfl, rfl⟩

theorem sameJobs_withdrawStream (p : PoolNo) {s : State} (h : s.keys.waiting = []) : SameJobs s (withdrawStream p s) := by
  unfold withdrawStream
  split
  next => exact .refl s
  next j _ =>
    have hfilter : SameJobs s { s with eng := { s.eng with streams := s.eng.streams.filter fun j => j.pool ≠ p } } :=
      ⟨rfl, rfl, fun _ => rfl, rfl⟩
    exact hfilter.trans (sameJobs_dropUserOf j.keySlot h)

theorem sameJobs_discardStream (p : PoolNo) (s : State) : SameJobs s (discardStream p s) := by
  refine ⟨rfl, rfl, fun c => ?_, rfl⟩
  have hjob : ∀ r : RunningJob, runningOwnJob c (if runsFor p r then discardJob r else r) = runningOwnJob c r := fun r => by
    split
    · cases r <;> rfl
    · rfl
  cases hr : s.eng.running <;> simp [discardStream, hr, hjob]

theorem sameJobs_freePoolSlot (p : PoolNo) {s : State} (h : s.keys.waiting = []) : SameJobs s (freePoolSlot p s) := by
  have hset : SameJobs s { s with pool := { s.pool with slots := s.pool.slots.set p none } } := .of_same rfl rfl
  exact (hset.trans (sameJobs_withdrawStream p h)).trans (sameJobs_discardStream p _)

theorem sameJobs_freeSlotsOf (o : Owner) {s : State} (h : s.keys.waiting = []) : SameJobs s (freeSlotsOf o s) := by
  have hfold : ∀ (l : List PoolNo) {s : State}, s.keys.waiting = [] → SameJobs s (l.foldl (fun s p => freePoolSlot p s) s) := by
    intro l
    induction l with
    | nil => exact fun _ => .refl _
    | cons p l ih =>
      intro s h
      have h1 := sameJobs_freePoolSlot p h
      exact h1.trans (ih (h1.waiting.trans h))
  exact hfold _ h

theorem freeSlotsOf_unserved (o : Owner) (s : State) : (freeSlotsOf o s).pool.unserved = s.pool.unserved := by
  have hfold : ∀ (l : List PoolNo) (s : State), (l.foldl (fun s p => freePoolSlot p s) s).pool.unserved = s.pool.unserved := by
    intro l
    induction l with
    | nil => exact fun _ => rfl
    | cons p l ih => exact fun s => (ih _).trans (by rw [freePoolSlot_pool])
  exact hfold _ s

theorem freeSlotsOf_drv (o : Owner) (s : State) : (freeSlotsOf o s).drv = s.drv := by simp

/-- No burst is open whose unserved sectors a freed slot would serve (R146). -/
def NothingWaits (s : State) : Prop := s.drv.burst = none ∨ s.pool.unserved = []

theorem refill_nothing {s : State} (h : NothingWaits s) : refill s = s := by
  rcases h with h | h
  · rw [refill, h]
  · exact refill_served h

theorem sameJobs_releaseEntrySlots (o : Owner) (e : Entry) {s : State} (hw : s.keys.waiting = []) (hn : NothingWaits s) :
    SameJobs s (releaseEntrySlots o e s) := by
  have hdrop : SameJobs s (if e.openBurst.isSome then dropPoolBurst s else s) := by
    split
    · exact .of_same rfl rfl
    · exact .refl s
  have hdropn : NothingWaits (if e.openBurst.isSome then dropPoolBurst s else s) := by
    split
    · exact .inr rfl
    · exact hn
  have hfree := sameJobs_freeSlotsOf o (hdrop.waiting.trans hw)
  unfold releaseEntrySlots
  dsimp only
  rw [refill_nothing (hdropn.imp (fun h => by rwa [freeSlotsOf_drv]) fun h => by rwa [freeSlotsOf_unserved])]
  exact hdrop.trans hfree

/-- A burst of the single slot that its completion closes short (R7). -/
theorem sameJobs_closeSingle {s : State} (hw : s.keys.waiting = [])
    (hb : ∀ b, s.drv.burst = some b → b.owner ≠ .single → s.pool.unserved = []) :
    SameJobs s (closeOwned (· = .single) s) ∧ NothingWaits (closeOwned (· = .single) s) := by
  cases hd : s.drv.burst with
  | none =>
    rw [closeOwned_closed _ hd]
    exact ⟨.refl s, .inl hd⟩
  | some b =>
    rw [closeOwned_open _ hd]
    by_cases ho : b.owner = .single
    · rw [if_pos (by simpa using ho), closeShort_eq]
      have hdrop : SameJobs s (dropPoolBurst { s with drv := { s.drv with burst := none } }) := .of_same rfl rfl
      have hshort := hdrop.trans (sameJobs_freeSlotsOf b.owner hw)
      have hclose : SameJobs s (closeUpstreamSide b (updateEntry b.owner closedEntry (shortened b s))) :=
        hshort.trans (.of_same (by simp; rfl) (by simp; rfl))
      exact ⟨hclose, .inl (by simp [shortened, dropPoolBurst])⟩
    · rw [if_neg (by simpa using ho)]
      exact ⟨.refl s, .inr (hb b hd ho)⟩

/-! ### Notices joined while there is room (R185) -/

/-- The notice of one block, stamped with monotonic time as it stands. -/
def noticeOf (s : State) (k : NoticeKind) (c : Option CtxSlot) (t : Option Tag) (d : Option Code) (v : Nat) : Notice :=
  { kind := k, ctx := c, tag := t, detail := d, value := v, stamp := s.time.mono }

theorem queueNotice_notices {s : State} (k : NoticeKind) (c : Option CtxSlot) (t : Option Tag) (d : Option Code) (v : Nat)
    (h : s.nq.notices.length < 32) : (queueNotice k c t d v s).nq.notices = s.nq.notices ++ [noticeOf s k c t d v] := by
  simp [queueNotice, joinQueue, h, noticeOf]

end Sys2Proof.LinkPassage
end

