-- ==== Sys2Proof/Proofs/LastCommand.lean ====
section
namespace Sys2Proof.LinkPassage
open Sys2Proof Sys2Proof.Machine

/-! ### The last command of a context (R80, R94) -/

/-- The end of a command is the last of a context that is to be sealed (R80). -/
abbrev Seals (c : CtxSlot) (s : State) : Prop := (ctxOf s c).inFlight = 1 ∧ (ctxOf s c).state = .sealing

/-- The end of a command is the last of a context that closes and has no job left (R94). -/
abbrev Closes (c : CtxSlot) (s : State) : Prop :=
  (ctxOf s c).inFlight = 1 ∧ (ctxOf s c).state = .closing ∧ hasJob s c = false

theorem not_closes_of_seals {c : CtxSlot} {s : State} (h : Seals c s) : ¬Closes c s := fun hc => by
  have := h.2.symm.trans hc.2.1
  contradiction

/-- The in-flight count of a context is one lower (R33). -/
def counted (c : CtxSlot) (s : State) : State :=
  updateCtx c (fun x => { x with inFlight := x.inFlight - 1 }) s

theorem ctxOf_counted (c d : CtxSlot) (s : State) :
    ctxOf (counted c s) d = if d = c then { ctxOf s c with inFlight := (ctxOf s c).inFlight - 1 } else ctxOf s d :=
  ctxOf_setCtx c d _ s

theorem inFlightZero_other {c : CtxSlot} {s : State} (hs : (ctxOf s c).state ≠ .sealing) (hc : (ctxOf s c).state ≠ .closing) :
    inFlightZero c s = s := by
  unfold inFlightZero
  split
  next h => exact absurd h hs
  next h => exact absurd h hc
  next => rfl

theorem lowerInFlight_seals {c : CtxSlot} {s : State} (h : Seals c s) : lowerInFlight s c = completeSeal c (counted c s) := by
  obtain ⟨hone, hstate⟩ := h
  have hst : (ctxOf (counted c s) c).state = .sealing := by rw [ctxOf_counted, if_pos rfl, hstate]
  refine (if_pos hone).trans ?_
  change inFlightZero c (counted c s) = _
  rw [inFlightZero, hst]

theorem lowerInFlight_closes {c : CtxSlot} {s : State} (h : Closes c s) : lowerInFlight s c = completeClose c (counted c s) := by
  obtain ⟨hone, hstate, hjob⟩ := h
  have hst : (ctxOf (counted c s) c).state = .closing := by rw [ctxOf_counted, if_pos rfl, hstate]
  have hz : (ctxOf (counted c s) c).inFlight = 0 := by rw [ctxOf_counted, if_pos rfl, hone]
  refine (if_pos hone).trans ?_
  change inFlightZero c (counted c s) = _
  rw [inFlightZero, hst]
  exact if_pos ⟨hst, hz, hjob⟩

theorem lowerInFlight_counts {c : CtxSlot} {s : State} (hs : ¬Seals c s) (hc : ¬Closes c s) : lowerInFlight s c = counted c s := by
  by_cases hone : (ctxOf s c).inFlight = 1
  · refine (if_pos hone).trans ?_
    change inFlightZero c (counted c s) = _
    have hst : (ctxOf (counted c s) c).state = (ctxOf s c).state := by rw [ctxOf_counted, if_pos rfl]
    have hseal : (ctxOf s c).state ≠ .sealing := fun h => hs ⟨hone, h⟩
    by_cases hclose : (ctxOf s c).state = .closing
    · rw [inFlightZero, hst, hclose]
      exact if_neg fun h => hc ⟨hone, hclose, h.2.2⟩
    · exact inFlightZero_other (hst ▸ hseal) (hst ▸ hclose)
  · exact if_neg hone

/-- The notice of a seal or a close that the end of a command completes (R80, R94). -/
def lastNotices (c : CtxSlot) (sealing closing : Prop) [Decidable sealing] [Decidable closing] (s : State) : List Notice :=
  if sealing then
    [noticeOf s .sealed (some c) none none (if (ctxOf s c).cls = .shift then ((ringOf s c).map (·.commit)).getD 0
      else (ctxOf s c).frontier % 4294967296)]
  else if closing then [noticeOf s .closed (some c) none none (ctxOf s c).withheld]
  else []

theorem sealedValue_eq (c : CtxSlot) (s : State) :
    sealedValue s c = if (ctxOf s c).cls = .shift then ((ringOf s c).map (·.commit)).getD 0 else (ctxOf s c).frontier % 4294967296 := by
  unfold sealedValue
  split
  · cases ringOf s c <;> rfl
  · rfl

theorem sealedValue_counted (c : CtxSlot) (s : State) : sealedValue (counted c s) c = sealedValue s c := by
  have hr : ringOf (counted c s) c = ringOf s c := rfl
  rw [sealedValue_eq, sealedValue_eq, ctxOf_counted, if_pos rfl, hr]

theorem completeClose_nq (c : CtxSlot) (s : State) :
    (completeClose c s).nq = (queueNotice .closed (some c) none none (ctxOf s c).withheld s).nq := by
  unfold completeClose
  dsimp only
  split <;> simp [queueNotice, ctxOf]

/-- The end of a command of one context, with room for a notice: what becomes of the tables and the queue (R33, R80, R94). -/
structure Counted (c : CtxSlot) (s t : State) : Prop where
  ctx : ctxOf t c = if Closes c s then Context.blank
    else { ctxOf s c with inFlight := (ctxOf s c).inFlight - 1, state := if Seals c s then .sealed else (ctxOf s c).state }
  other : ∀ d, d ≠ c → ctxOf t d = ctxOf s d
  closed : Closes c s → (∀ f r, regionOf t f = some r ↔ regionOf s f = some r ∧ r.ctx ≠ c) ∧ ringOf t c = none
  kept : ¬Closes c s → t.regions = s.regions ∧ t.rings = s.rings
  notices : t.nq.notices = s.nq.notices ++ lastNotices c (Seals c s) (Closes c s) s

theorem counted_lowerInFlight {c : CtxSlot} {s : State} (hroom : s.nq.notices.length < 32) : Counted c s (lowerInFlight s c) := by
  have hother : ∀ d, d ≠ c → ctxOf (counted c s) d = ctxOf s d := fun d hd => by rw [ctxOf_counted, if_neg hd]
  by_cases hs : Seals c s
  · have hc := not_closes_of_seals hs
    have hctx : ∀ d, ctxOf (completeSeal c (counted c s)) d =
        if d = c then { ctxOf (counted c s) c with state := .sealed } else ctxOf (counted c s) d :=
      fun d => ctxOf_setCtx c d _ (counted c s)
    rw [lowerInFlight_seals hs]
    refine ⟨?_, fun d hd => by rw [hctx, if_neg hd, hother d hd], fun h => absurd h hc, fun _ => ⟨by simp; rfl, by simp; rfl⟩, ?_⟩
    · rw [hctx, if_pos rfl, ctxOf_counted, if_pos rfl, if_neg hc, if_pos hs]
    · rw [lastNotices, if_pos hs, ← sealedValue_eq, ← sealedValue_counted]
      exact queueNotice_notices (s := updateCtx c (fun x => { x with state := .sealed }) (counted c s)) _ _ _ _ _ hroom
  · by_cases hc : Closes c s
    · rw [lowerInFlight_closes hc]
      refine ⟨?_, fun d hd => ?_, fun _ => ⟨fun f r => ?_, ?_⟩, fun h => absurd hc h, ?_⟩
      · rw [ctxOf_completeClose, if_pos rfl, if_pos hc]
      · rw [ctxOf_completeClose, if_neg hd, hother d hd]
      · have : regionOf (counted c s) f = regionOf s f := rfl
        simp [regionOf_completeClose, this, Option.filter_eq_some_iff]
      · rw [ringOf_completeClose, if_pos rfl]
      · rw [completeClose_nq, lastNotices, if_neg hs, if_pos hc]
        have hw : (ctxOf (counted c s) c).withheld = (ctxOf s c).withheld := by rw [ctxOf_counted, if_pos rfl]
        rw [hw]
        exact queueNotice_notices (s := counted c s) _ _ _ _ _ hroom
    · rw [lowerInFlight_counts hs hc]
      refine ⟨?_, hother, fun h => absurd h hc, fun _ => ⟨rfl, rfl⟩, ?_⟩
      · rw [ctxOf_counted, if_pos rfl, if_neg hc, if_neg hs]
      · rw [lastNotices, if_neg hs, if_neg hc]
        exact (List.append_nil _).symm

/-! ### The drain snapshot (R182) -/

/-- An owner is the last of the drain snapshot. -/
abbrev Drained (o : Owner) (s : State) : Prop := o ∈ s.req.snapshot ∧ ∀ p ∈ s.req.snapshot, p = o

theorem leaveSnapshot_drained {o : Owner} {s : State} (h : Drained o s) :
    leaveSnapshot o s = queueNotice .drained none none none s.req.snapshotSize
      { s with req := { s.req with snapshot := s.req.snapshot.filter (· ≠ o), drainPending := false } } := by
  have hempty : (s.req.snapshot.filter (· ≠ o)).isEmpty = true := by
    rw [List.isEmpty_iff, List.filter_eq_nil_iff]
    exact fun p hp => by simpa using h.2 p hp
  unfold leaveSnapshot
  rw [if_pos (by simpa using h.1)]
  exact if_pos hempty

theorem leaveSnapshot_others {o : Owner} {s : State} (h : ¬Drained o s) :
    leaveSnapshot o s = { s with req := { s.req with snapshot := s.req.snapshot.filter (· ≠ o) } } := by
  unfold leaveSnapshot
  by_cases hm : s.req.snapshot.contains o = true
  · rw [if_pos hm]
    have hne : ¬(s.req.snapshot.filter (· ≠ o)).isEmpty = true := fun he => by
      rw [List.isEmpty_iff, List.filter_eq_nil_iff] at he
      exact h ⟨by simpa using hm, fun p hp => by simpa using he p hp⟩
    exact if_neg hne
  · have hall : s.req.snapshot.filter (· ≠ o) = s.req.snapshot :=
      List.filter_eq_self.2 fun p hp => by
        simp only [decide_not, Bool.not_eq_eq_eq_not, Bool.not_true, decide_eq_false_iff_not]
        rintro rfl
        exact hm (by simpa using hp)
    rw [if_neg hm, hall]

end Sys2Proof.LinkPassage
end

