-- ==== Sys2Proof/Proofs/StatusCompletes.lean ====
section
namespace Sys2Proof.LinkPassage
open Sys2Proof Sys2Proof.Machine

/-! ### The end of the single slot's entry (R33) -/

/-- The notice WITHHELD of an entry, if it has one (R154). -/
def withheldNotices (e : Entry) (s : State) : List Notice :=
  if 0 < e.withheld then [noticeOf s .withheld e.firstCtx none (e.firstReason.map reasonCode) e.withheld] else []

theorem noticeWithheld_notices {e : Entry} {s : State} (h : s.nq.notices.length < 32) :
    (noticeWithheld .single e s).nq.notices = s.nq.notices ++ withheldNotices e s := by
  unfold noticeWithheld withheldNotices
  split
  · exact queueNotice_notices _ _ _ _ _ h
  · exact (List.append_nil _).symm

/-- The end of the entry of one context that was no ring write, before its place is freed (R33). -/
def endedSingle (c : CtxSlot) (e : Entry) (s : State) : State :=
  leaveSnapshot .single (lowerInFlight (noticeWithheld .single e (releaseEntrySlots .single e s)) c)

theorem endEntry_single {c : CtxSlot} {e : Entry} {s : State} (r : Option Bool) (he : s.trk.single = some e) (ht : e.touched = [c])
    (hr : e.ringWrite = none) : endEntry .single r s = setEntry .single none (endedSingle c e s) := by
  have he' : entryOf s .single = some e := he
  have hrep : ∀ u, reportEnd .single e r u = u := fun u => by simp [reportEnd, hr]
  rw [endEntry, he']
  dsimp only
  rw [hrep, ht]
  rfl

/-- What the end of the single slot's entry, with one context and no ring write, leaves of the tables, the drain snapshot and the notice
queue (R33, R80, R94, R154, R182). -/
structure EndedSingle (c : CtxSlot) (e : Entry) (s t : State) : Prop where
  ctx : ctxOf t c = if Closes c s then Context.blank
    else { ctxOf s c with inFlight := (ctxOf s c).inFlight - 1, state := if Seals c s then .sealed else (ctxOf s c).state }
  other : ∀ d, d ≠ c → ctxOf t d = ctxOf s d
  closed : Closes c s → (∀ f r, regionOf t f = some r ↔ regionOf s f = some r ∧ r.ctx ≠ c) ∧ ringOf t c = none
  kept : ¬Closes c s → t.regions = s.regions ∧ t.rings = s.rings
  snapshot : t.req.snapshot = s.req.snapshot.filter (· ≠ .single)
  pending : (Drained .single s → t.req.drainPending = false) ∧ (¬Drained .single s → t.req.drainPending = s.req.drainPending)
  notices : t.nq.notices = s.nq.notices ++ withheldNotices e s ++ lastNotices c (Seals c s) (Closes c s) s ++
    if Drained .single s then [noticeOf s .drained none none none s.req.snapshotSize] else []

theorem hasJob_congr {s t : State} (h : t.eng = s.eng) (c : CtxSlot) : hasJob t c = hasJob s c := by simp [hasJob, h]

/-- Notices are the same for states that agree on the contexts, the rings and the time. -/
theorem lastNotices_congr {c : CtxSlot} {s t : State} (p q : Prop) [Decidable p] [Decidable q] (hc : ctxOf t c = ctxOf s c)
    (hr : ringOf t c = ringOf s c) (ht : t.time = s.time) : lastNotices c p q t = lastNotices c p q s := by
  simp only [lastNotices, noticeOf, hc, hr, ht]

/-- The lowering of the count, after the entry's slots are freed and its notice is queued. -/
theorem counted_endedSingle {c : CtxSlot} {e : Entry} {s : State} (hroom : s.nq.notices.length + 2 ≤ 32)
    (hjob : hasJob (releaseEntrySlots .single e s) c = hasJob s c) :
    let w := lowerInFlight (noticeWithheld .single e (releaseEntrySlots .single e s)) c
    ctxOf w c = (if Closes c s then Context.blank
      else { ctxOf s c with inFlight := (ctxOf s c).inFlight - 1, state := if Seals c s then .sealed else (ctxOf s c).state }) ∧
    (∀ d, d ≠ c → ctxOf w d = ctxOf s d) ∧
    (Closes c s → (∀ f r, regionOf w f = some r ↔ regionOf s f = some r ∧ r.ctx ≠ c) ∧ ringOf w c = none) ∧
    (¬Closes c s → w.regions = s.regions ∧ w.rings = s.rings) ∧
    w.nq.notices = s.nq.notices ++ withheldNotices e s ++ lastNotices c (Seals c s) (Closes c s) s := by
  have hnotices := noticeWithheld_notices (e := e) (s := releaseEntrySlots .single e s) (by simp; omega)
  have hctx : ∀ d, ctxOf (noticeWithheld .single e (releaseEntrySlots .single e s)) d = ctxOf s d := fun d => ctxOf_congr (by simp) d
  have hreg : (noticeWithheld .single e (releaseEntrySlots .single e s)).regions = s.regions := by simp
  have hring : (noticeWithheld .single e (releaseEntrySlots .single e s)).rings = s.rings := by simp
  have htime : (noticeWithheld .single e (releaseEntrySlots .single e s)).time = s.time := by simp
  have hjob' : hasJob (noticeWithheld .single e (releaseEntrySlots .single e s)) c = hasJob s c :=
    (hasJob_congr (by simp) c).trans hjob
  have hwith : withheldNotices e (releaseEntrySlots .single e s) = withheldNotices e s := by simp [withheldNotices, noticeOf]
  rw [hwith, (releaseEntrySlots_keeps .single e s).2.2.2.2.2.2.2.2.1] at hnotices
  have hlen : (withheldNotices e s).length ≤ 1 := by
    unfold withheldNotices
    split <;> simp
  generalize noticeWithheld .single e (releaseEntrySlots .single e s) = v at *
  obtain ⟨kctx, kother, kclosed, kkept, knotices⟩ := counted_lowerInFlight (c := c) (s := v) (by
    rw [hnotices, List.length_append]
    omega)
  have hseals : Seals c v = Seals c s := by simp only [Seals, hctx]
  have hcloses : Closes c v = Closes c s := by simp only [Closes, hctx, hjob']
  have hlast := lastNotices_congr (c := c) (Seals c v) (Closes c v) (hctx c) (ringOf_congr hring c) htime
  rw [hlast, hnotices] at knotices
  simp only [hseals, hcloses, hctx] at kctx kother kclosed kkept knotices
  refine ⟨kctx, kother, fun h => ?_, fun h => ?_, knotices⟩
  · obtain ⟨h1, h2⟩ := kclosed h
    exact ⟨fun f r => by rw [h1, regionOf_congr hreg], h2⟩
  · obtain ⟨h1, h2⟩ := kkept h
    exact ⟨h1.trans hreg, h2.trans hring⟩

theorem lastNotices_length (c : CtxSlot) (p q : Prop) [Decidable p] [Decidable q] (s : State) : (lastNotices c p q s).length ≤ 1 := by
  unfold lastNotices
  repeat' split
  all_goals simp

theorem endedSingle_leaves {c : CtxSlot} {e : Entry} {s : State} (hroom : s.nq.notices.length + 3 ≤ 32)
    (hjob : hasJob (releaseEntrySlots .single e s) c = hasJob s c) : EndedSingle c e s (endedSingle c e s) := by
  obtain ⟨hctx, hother, hclosed, hkept, hnotices⟩ := counted_endedSingle (c := c) (e := e) (by omega) hjob
  have hreq : (lowerInFlight (noticeWithheld .single e (releaseEntrySlots .single e s)) c).req = s.req := by simp
  have htime : (lowerInFlight (noticeWithheld .single e (releaseEntrySlots .single e s)) c).time = s.time := by simp
  have hlen1 : (withheldNotices e s).length ≤ 1 := by
    unfold withheldNotices
    split <;> simp
  have hlen2 := lastNotices_length c (Seals c s) (Closes c s) s
  unfold endedSingle
  generalize lowerInFlight (noticeWithheld .single e (releaseEntrySlots .single e s)) c = w at *
  have hdrained : Drained .single w = Drained .single s := by simp only [Drained, hreq]
  by_cases hd : Drained .single s
  · rw [leaveSnapshot_drained (hdrained ▸ hd)]
    refine ⟨hctx, hother, hclosed, hkept, by rw [← hreq]; rfl, ⟨fun _ => rfl, fun h => absurd hd h⟩, ?_⟩
    have hjoin := queueNotice_notices
      (s := { w with req := { w.req with snapshot := w.req.snapshot.filter (· ≠ .single), drainPending := false } })
      .drained none none none w.req.snapshotSize (by
        have : w.nq.notices.length < 32 := by
          rw [hnotices, List.length_append, List.length_append]
          omega
        exact this)
    rw [hjoin, if_pos hd]
    have hn : ∀ k c t d v, noticeOf { w with req := { w.req with snapshot := w.req.snapshot.filter (· ≠ .single), drainPending := false } }
        k c t d v = noticeOf s k c t d v := fun k c t d v => by simp only [noticeOf, htime]
    rw [hn, hreq]
    exact congrArg (· ++ _) hnotices
  · rw [leaveSnapshot_others (hdrained ▸ hd)]
    refine ⟨hctx, hother, hclosed, hkept, by rw [← hreq], ⟨fun h => absurd h hd, fun _ => by rw [← hreq]⟩, ?_⟩
    rw [if_neg hd, List.append_nil]
    exact hnotices

/-! ### Settling the statement -/

theorem outcome_cases {outcome detail : Byte} (hw : WellFormed (.statusFromDrive outcome detail) = true) :
    outcome = 0#8 ∨ outcome = 1#8 ∨ outcome = 2#8 := by
  have hrange : outcome.toNat ≤ 2 := by simpa [WellFormed, acceptable] using hw
  rcases (show outcome.toNat = 0 ∨ outcome.toNat = 1 ∨ outcome.toNat = 2 by omega) with h | h | h
  exacts [.inl (BitVec.eq_of_toNat_eq h), .inr (.inl (BitVec.eq_of_toNat_eq h)), .inr (.inr (BitVec.eq_of_toNat_eq h))]

/-- The single slot is with the drive while FORWARDED or BURST (R34). -/
theorem singleWithDrive_iff {e : Entry} {s : State} (he : s.trk.single = some e) :
    singleWithDrive s = true ↔ e.state = .forwarded ∨ e.state = .burst := by
  simp [singleWithDrive, he]

/-- An OK is relayed as it came, or as the ERROR of what kept its entry from success (R32, R34). -/
theorem singleReport_ok {outcome detail : Byte} {e : Entry} (h : outcome = 1#8) :
    (singleReport { outcome := outcome, detail := detail } (partOf e)).1 =
      match e.partFailed with
      | some p => statusOf 2#8 (codeByte (partFailCode p))
      | none => if e.kind ≠ .other ∧ e.passed < cmdCount e.cmd then statusOf 2#8 0x9B#8 else statusOf outcome detail := by
  unfold singleReport
  refine (congrArg Prod.fst (if_pos h)).trans ?_
  cases hp : e.partFailed with
  | some p => simp [partOf, hp, errorFrame, statusOf]
  | none =>
    simp only [partOf, hp, Option.none_or]
    by_cases hs : e.kind ≠ .other ∧ e.passed < cmdCount e.cmd
    · rw [if_pos hs, if_pos hs]
      rfl
    · rw [if_neg hs, if_neg hs]
      rfl

theorem singleReport_error {outcome detail : Byte} {part : Option PartFail} (h : outcome = 2#8) :
    (singleReport { outcome := outcome, detail := detail } part).1 = statusOf outcome detail := by
  unfold singleReport
  exact congrArg Prod.fst (if_neg (by simp [h]))

/-- A STATUS that reports no shortfall leaves what an end of the entry, its burst closed, leaves. -/
theorem endedSingle_completes {f : StatusFrame} {c : CtxSlot} {e : Entry} {s : State} (he : s.trk.single = some e) (ht : e.touched = [c])
    (hr : e.ringWrite = none) (hj : judged f s = closeOwned (· = .single) s) (hw : s.keys.waiting = [])
    (hroom : s.nq.notices.length + 3 ≤ 32) (hb : ∀ b, s.drv.burst = some b → b.owner ≠ .single → s.pool.unserved = []) :
    EndedSingle c e s (completeSingle f s) := by
  obtain ⟨e', he', hsame⟩ := entryOf_closeOwned (o := .single) (e := e) (s := s) (· = .single) he
  obtain ⟨hjobs, hidle⟩ := sameJobs_closeSingle hw hb
  have hwait : (closeOwned (· = .single) s).keys.waiting = [] := hjobs.waiting.trans hw
  have hfreed := sameJobs_releaseEntrySlots .single e' hwait hidle
  obtain ⟨hctx, hregions, hrings, htime, hreq, hnq, -⟩ := closeOwned_keeps (· = .single) s
  have hended := endedSingle_leaves (c := c) (e := e') (by rwa [hnq]) (hfreed.hasJob c)
  rw [completeSingle_eq, hj]
  dsimp only
  rw [endEntry_single _ he' (hsame.touched.trans ht) (hsame.ringWrite.trans hr)]
  generalize closeOwned (· = .single) s = u at *
  obtain ⟨kctx, kother, kclosed, kkept, ksnap, kpend, knote⟩ := hended
  generalize endedSingle c e' u = v at *
  have hc : ∀ d, ctxOf u d = ctxOf s d := ctxOf_congr hctx
  have hseals : Seals c u = Seals c s := by simp only [Seals, hc]
  have hcloses : Closes c u = Closes c s := by simp only [Closes, hc, hjobs.hasJob]
  have hdrained : Drained .single u = Drained .single s := by simp only [Drained, hreq]
  have hlast := lastNotices_congr (c := c) (Seals c u) (Closes c u) (hc c) (ringOf_congr hrings c) htime
  have hwith : withheldNotices e' u = withheldNotices e s := by
    simp only [withheldNotices, noticeOf, htime, hsame.withheld, hsame.firstReason, hsame.firstCtx]
  rw [hlast, hwith] at knote
  simp only [hseals, hcloses, hdrained, hc, hreq, hnq, noticeOf, htime] at kctx kother kclosed kkept ksnap kpend knote
  have ktables : ∀ r : Frame, (flushReleased (placeRelayed r (setEntry .single none v))).contexts = v.contexts ∧
      (flushReleased (placeRelayed r (setEntry .single none v))).regions = v.regions ∧
      (flushReleased (placeRelayed r (setEntry .single none v))).rings = v.rings ∧
      (flushReleased (placeRelayed r (setEntry .single none v))).req = v.req ∧
      (flushReleased (placeRelayed r (setEntry .single none v))).nq = v.nq := fun r => by simp [placeRelayed, placeItem]
  obtain ⟨tctx, tregions, trings, treq, tnq⟩ := ktables (singleReport f (partFailedOf .single u)).1
  refine ⟨(ctxOf_congr tctx c).trans kctx, fun d hd => (ctxOf_congr tctx d).trans (kother d hd), fun h => ?_, fun h => ?_, ?_, ?_, ?_⟩
  · obtain ⟨h1, h2⟩ := kclosed h
    exact ⟨fun f r => by rw [regionOf_congr tregions, h1, regionOf_congr hregions], (ringOf_congr trings c).trans h2⟩
  · obtain ⟨h1, h2⟩ := kkept h
    exact ⟨tregions.trans (h1.trans hregions), trings.trans (h2.trans hrings)⟩
  · rw [treq]
    exact ksnap
  · rw [treq]
    exact kpend
  · rw [tnq]
    exact knote

/-- Settles O24, by what a completion of the single slot leaves and by its unmatched STATUS. -/
theorem statusCompletesSingle : Obligations.StatusCompletesSingle := by
  intro outcome detail s hw ht ha
  rw [exec_status hw ht]
  refine ⟨fun e he hst ho => ?_, fun e c he hst htouch hring hout hwait hroom hb => ?_, fun h => ?_⟩
  · have hwith := (singleWithDrive_iff he).2 hst
    refine ⟨_, congrArg _ (takeStatus_single ha ho hwith), ?_⟩
    obtain ⟨hsingle, hlist, hfaults, hhist⟩ :=
      completeSingle_leaves { outcome := outcome, detail := detail } s
    obtain ⟨jlist, jhist⟩ := judged_keeps { outcome := outcome, detail := detail } s
    refine ⟨hsingle, ?_, fun hok hk hp => ?_, hhist.trans jhist⟩
    · rw [hlist, jlist]
      refine congrArg (fun i => s.up.sendList ++ [i]) ?_
      by_cases h2 : outcome = 2#8
      · rw [if_pos h2, singleReport_error h2]
      · have h1 : outcome = 1#8 := ((outcome_cases hw).resolve_left ho).resolve_right h2
        rw [if_neg h2, (judged_single he h1).1, singleReport_ok h1]
        cases e.partFailed with
        | some p => rfl
        | none => exact apply_ite fromDrive _ _ _
    · rw [hfaults]
      exact (judged_single he hok).2.1 ⟨hk, hp⟩
  · have hwith := (singleWithDrive_iff he).2 hst
    have ho : outcome ≠ 0#8 := by
      rcases hout with h | h
      · rw [h]
        decide
      · rw [h.1]
        decide
    have hj : judged { outcome := outcome, detail := detail } s = closeOwned (· = .single) s := by
      rcases hout with h | ⟨h, -, hfull⟩
      · exact if_neg (by simp [h])
      · exact (judged_single he h).2.2 fun hs => hfull.elim hs.1 (Nat.not_le.2 hs.2)
    obtain ⟨kctx, kother, kclosed, kkept, ksnap, kpend, knote⟩ := endedSingle_completes he htouch hring hj hwait hroom hb
    exact ⟨_, congrArg _ (takeStatus_single ha ho hwith), kctx, kother, kclosed, kkept, ksnap, kpend.1, kpend.2, knote⟩
  · refine congrArg _ (takeStatus_unmatched ha (h.imp_right fun h => ?_))
    rw [Bool.eq_false_iff]
    intro hwith
    unfold singleWithDrive at hwith
    cases he : s.trk.single with
    | none => simp [he] at hwith
    | some e =>
      have := (singleWithDrive_iff he).1 (by rw [singleWithDrive]; exact hwith)
      exact this.elim (h e he).1 (h e he).2

end Sys2Proof.LinkPassage
end

