-- ==== Sys2Proof/Proofs/DataFrames.lean ====
section
namespace Sys2Proof.LinkPassage
open Sys2Proof Sys2Proof.Machine

/-! ### The sectors of a frame pass the transform step (R150) -/

theorem satAdd_eq_min (m a b : Nat) : satAdd m a b = min (a + b) m := by
  unfold satAdd
  split <;> omega

/-- What a sector's passage leaves of the settled sectors. -/
def unsettle (off : Nat) (s : State) : State :=
  { s with pool := { s.pool with settled := s.pool.settled.filter fun x => x.offset ≠ off } }

theorem settledWith_unsettle {a off : Nat} (h : a ≠ off) (s : State) : settledWith (unsettle off s) a = settledWith s a := by
  unfold settledWith unsettle
  dsimp only
  rw [List.find?_filter]
  congr 2
  funext x
  by_cases hx : x.offset = a <;> simp [hx, h]

theorem passSector_eq {o : Owner} {e : Entry} {b : OpenBurst} {s : State} (w : Sector) (he : entryOf s o = some e)
    (hb : e.openBurst = some b) :
    passSector o w s = ((treatSector s e (nextOffset b) w).out, unsettle (nextOffset b)
      (countCtxWithheld (treatSector s e (nextOffset b) w).withheld
        (setEntry o (some (passedEntry (nextOffset b) (treatSector s e (nextOffset b) w) e)) s))) := by
  rw [passSector, he]
  dsimp only
  rw [hb]
  rfl

/-- Two entries of the same command under the same plan. -/
structure SameOrder (e e' : Entry) : Prop where
  kind : e'.kind = e.kind
  cmd : e'.cmd = e.cmd
  plan : e'.plan = e.plan

theorem sameOrder_passed (off : Nat) (t : Treated) (e : Entry) : SameOrder e (passedEntry off t e) := by
  unfold passedEntry countWithheld countPassed Machine.markFailed
  refine ⟨?_, ?_, ?_⟩ <;> (dsimp only; repeat' split) <;> rfl

theorem passedEntry_openBurst (off : Nat) (t : Treated) (e : Entry) :
    (passedEntry off t e).openBurst = e.openBurst.map fun b => { b with left := b.left - 1 } := by
  unfold passedEntry countWithheld countPassed Machine.markFailed
  dsimp only
  repeat' split
  all_goals rfl

/-- A sector's treatment rests on its command, its plan and the keystream it is settled with (R150). -/
theorem treatSector_congr {s t : State} {e e' : Entry} {a : Nat} (w : Sector) (h : SameOrder e e') (hs : settledWith t a = settledWith s a) :
    treatSector t e' a w = treatSector s e a w := by
  obtain ⟨hk, hc, hp⟩ := h
  unfold treatSector
  rw [hk, hc, hp, hs]

theorem countCtxWithheld_trk (x : Option (WithheldReason × CtxSlot)) (s : State) : (countCtxWithheld x s).trk = s.trk := by
  unfold countCtxWithheld
  split <;> rfl

theorem countCtxWithheld_pool (x : Option (WithheldReason × CtxSlot)) (s : State) : (countCtxWithheld x s).pool = s.pool := by
  unfold countCtxWithheld
  split <;> rfl

/-- The state after a sector: its entry, and the keystream that the sectors after it are settled with. -/
theorem passSector_leaves {o : Owner} {e : Entry} {b : OpenBurst} {s : State} (w : Sector) (he : entryOf s o = some e)
    (hb : e.openBurst = some b) :
    entryOf (passSector o w s).2 o = some (passedEntry (nextOffset b) (treatSector s e (nextOffset b) w) e) ∧
      ∀ a, a ≠ nextOffset b → settledWith (passSector o w s).2 a = settledWith s a := by
  rw [passSector_eq w he hb]
  generalize treatSector s e (nextOffset b) w = x
  refine ⟨?_, fun a ha => ?_⟩
  · have h : entryOf (unsettle (nextOffset b) (countCtxWithheld x.withheld (setEntry o (some (passedEntry (nextOffset b) x e)) s))) o =
        entryOf (setEntry o (some (passedEntry (nextOffset b) x e)) s) o := entryOf_congr (countCtxWithheld_trk _ _) o
    rw [h, entryOf_setEntry, if_pos rfl]
  · rw [settledWith_unsettle ha]
    unfold settledWith
    rw [countCtxWithheld_pool]
    rfl

theorem nextOffset_counted {b : OpenBurst} (h1 : 1 ≤ b.left) (h2 : b.left ≤ b.count) :
    nextOffset { b with left := b.left - 1 } = nextOffset b + 1 := by
  unfold nextOffset
  dsimp only
  omega

/-- Each sector of a frame that fits its burst becomes what the transform step makes of it at its offset (R150). -/
theorem passSectors_out {o : Owner} {l : List Sector} {e : Entry} {b : OpenBurst} {s : State} (he : entryOf s o = some e)
    (hb : e.openBurst = some b) (hl : l.length ≤ b.left) (hc : b.left ≤ b.count) (i : Nat) :
    (passSectors o l s).1[i]? = l[i]?.map fun w => (treatSector s e (nextOffset b + i) w).out := by
  induction l generalizing e b s i with
  | nil => rfl
  | cons w l ih =>
    rw [List.length_cons] at hl
    obtain ⟨hentry, hsettled⟩ := passSector_leaves w he hb
    cases i with
    | zero =>
      change some (passSector o w s).1 = some _
      rw [passSector_eq w he hb]
      rfl
    | succ i =>
      have hburst : (passedEntry (nextOffset b) (treatSector s e (nextOffset b) w) e).openBurst = some { b with left := b.left - 1 } := by
        rw [passedEntry_openBurst, hb]
        rfl
      have hrest := ih hentry hburst (by dsimp only; omega) (by dsimp only; omega) i
      rw [nextOffset_counted (by omega) hc] at hrest
      refine hrest.trans (congrArg (fun f => Option.map f l[i]?) (funext fun v => ?_))
      rw [treatSector_congr v (sameOrder_passed _ _ _) (hsettled _ (by omega)), Nat.add_assoc, Nat.add_comm 1 i]

theorem passSectors_length (o : Owner) (l : List Sector) (s : State) : (passSectors o l s).1.length = l.length := by
  induction l generalizing s with
  | nil => rfl
  | cons w l ih => exact congrArg (· + 1) (ih _)

/-! ### Sectors that pass unchanged (R3, R150) -/

/-- A command whose sectors the part does not touch: an OTHER, or one whose plan is CLEAR (R3, R47). -/
def Untouched (e : Entry) : Prop := e.kind = .other ∧ e.plan = [] ∨ e.plan = onePlan e.cmd .clear

theorem verdictAt_onePlan {c : CommandFrame} {v : Verdict} {off : Nat} (h : off < cmdCount c) :
    verdictAt (onePlan c v) off = some (verdictFrom v off) := by
  simp [verdictAt, onePlan, h]

theorem untouched_treat {e : Entry} {off : Nat} (h : Untouched e) (ho : off < cmdCount e.cmd) (s : State) (w : Sector) :
    treatSector s e off w = passes w := by
  unfold treatSector
  rcases h with ⟨hk, -⟩ | hp
  · exact if_pos hk
  · split
    next => rfl
    next => rw [if_neg (by omega), hp, verdictAt_onePlan ho]; rfl

theorem untouched_unprotected {e : Entry} (h : Untouched e) (off : Nat) : protectedAt e off = none := by
  unfold protectedAt
  split
  next ho =>
    rcases h with ⟨-, hp⟩ | hp
    · rw [hp]
      rfl
    · rw [hp, verdictAt_onePlan ho]
      rfl
  next => rfl

/-- An entry with k sectors of its burst passed, each inside the command (R31). -/
def countedEntry (k : Nat) (b : OpenBurst) (e : Entry) : Entry :=
  { e with openBurst := some { b with left := b.left - k }, passed := min (e.passed + k) (cmdCount e.cmd) }

theorem passedEntry_passes {off : Nat} {w : Sector} {b : OpenBurst} {e : Entry} (hb : e.openBurst = some b) (ho : off < cmdCount e.cmd) :
    passedEntry off (passes w) e = countedEntry 1 b e := by
  simp [passedEntry, passes, countWithheld, countPassed, hb, ho, satAdd_eq_min, countedEntry]

theorem countedEntry_one_add {k : Nat} (b : OpenBurst) (e : Entry) :
    countedEntry k { b with left := b.left - 1 } (countedEntry 1 b e) = countedEntry (1 + k) b e := by
  have hp : min (min (e.passed + 1) (cmdCount e.cmd) + k) (cmdCount e.cmd) = min (e.passed + (1 + k)) (cmdCount e.cmd) := by omega
  simp only [countedEntry, hp, Nat.sub_sub]

theorem passSectors_untouched {o : Owner} {l : List Sector} {e : Entry} {b : OpenBurst} {s : State} (he : entryOf s o = some e)
    (hb : e.openBurst = some b) (hu : Untouched e) (hl : l.length ≤ b.left) (hc : b.left ≤ b.count)
    (hend : b.first + b.count ≤ cmdCount e.cmd) (hp : e.passed ≤ cmdCount e.cmd) :
    (passSectors o l s).1 = l ∧ entryOf (passSectors o l s).2 o = some (countedEntry l.length b e) ∧
      (passSectors o l s).2.contexts = s.contexts := by
  induction l generalizing e b s with
  | nil =>
    refine ⟨rfl, he.trans (congrArg some ?_), rfl⟩
    obtain ⟨⟩ := e
    simp_all [countedEntry]
  | cons w l ih =>
    rw [List.length_cons] at hl
    have hoff : nextOffset b < cmdCount e.cmd := by
      unfold nextOffset
      omega
    have hentry := (passSector_leaves w he hb).1
    rw [untouched_treat hu hoff, passedEntry_passes hb hoff] at hentry
    have hfirst := passSector_eq w he hb
    rw [untouched_treat hu hoff] at hfirst
    obtain ⟨hout, hlast, hctx⟩ := ih (b := { b with left := b.left - 1 }) hentry rfl hu (by dsimp only; omega) (by dsimp only; omega) hend
      (by dsimp only [countedEntry]; omega)
    refine ⟨?_, ?_, hctx.trans ?_⟩
    · change (passSector o w s).1 :: (passSectors o l (passSector o w s).2).1 = _
      rw [hout, hfirst]
      rfl
    · rw [List.length_cons, Nat.add_comm]
      exact hlast.trans (congrArg some (countedEntry_one_add b e))
    · rw [hfirst]
      rfl

/-! ### Frames that fit their burst (R6) -/

theorem cutExcess_fits {n left : Nat} (h : n ≤ left) (s : State) : cutExcess n left s = s := if_neg (Nat.not_lt.2 h)

theorem countDriveBurst_burst {n : Nat} {b : DriveBurst} {s : State} (hb : s.drv.burst = some b) :
    (countDriveBurst n s).drv.burst = if n < b.left then some { b with left := b.left - n } else none := by
  unfold countDriveBurst
  rw [hb]
  dsimp only
  by_cases h : b.left ≤ n
  · rw [if_pos h, if_neg (Nat.not_lt.2 h)]
    rfl
  · rw [if_neg h, if_pos (Nat.not_le.1 h)]

theorem entryOf_countDriveBurst {n : Nat} {b : DriveBurst} {e : Entry} {s : State} (hb : s.drv.burst = some b)
    (he : entryOf s b.owner = some e) :
    entryOf (countDriveBurst n s) b.owner = some (if n < b.left then e else closedEntry e) := by
  unfold countDriveBurst
  rw [hb]
  dsimp only
  by_cases h : b.left ≤ n
  · rw [if_pos h, if_neg (Nat.not_lt.2 h)]
    have h1 : entryOf (dropPoolBurst { s with drv := { s.drv with burst := none } }) b.owner = some e := he
    exact (entryOf_updateEntry b.owner b.owner closedEntry _).trans ((if_pos rfl).trans (by rw [h1]; rfl))
  · rw [if_neg h, if_pos (Nat.not_le.1 h)]
    exact he

theorem acceptable_data {p : Port} {d : DataFrame} (h1 : 1 ≤ d.sectors.length) (h2 : d.sectors.length ≤ 16) :
    acceptable p (.data d) = true := by
  cases p <;> simp [acceptable, h1, h2]

/-- The frame of a write burst goes down whole, its sectors as the transform step leaves them (R6, R150). -/
theorem passDown_fits {b : UpBurst} {d : DataFrame} (s : State) (h : d.sectors.length ≤ b.left) :
    passDown b d s = countDriveBurst d.sectors.length
      { sendDown (.data { d with sectors := (passSectors b.owner d.sectors s).1 }) (passSectors b.owner d.sectors s).2 with
        up := { (passSectors b.owner d.sectors s).2.up with inBurst := countUpBurst d.sectors.length b } } := by
  unfold passDown
  dsimp only
  rw [Nat.min_eq_left h, List.take_length]
  exact cutExcess_fits h _

theorem passUp_fits {b : DriveBurst} {d : DataFrame} (s : State) (h : d.sectors.length ≤ b.left) :
    passUp b d s = countDriveBurst d.sectors.length
      (placeItem { frame := .data { d with sectors := (passSectors b.owner d.sectors s).1 }, owner := some b.owner, relayed := true }
        (passSectors b.owner d.sectors s).2) := by
  unfold passUp
  dsimp only
  rw [Nat.min_eq_left h, List.take_length]
  exact cutExcess_fits h _

/-! ### Frames with nothing to settle (R149) -/

theorem settleFrame_untouched {o : Owner} {n : Nat} {e : Entry} {s : State} (he : entryOf s o = some e) (hu : Untouched e) :
    settleFrame o n s = s := by
  rw [settleFrame, he]
  dsimp only
  induction frameOffsets e n with
  | nil => rfl
  | cons a l ih =>
    rw [List.foldl_cons, settleSector, untouched_unprotected hu]
    exact ih

theorem frameSettled_untouched {o : Owner} {n : Nat} {e : Entry} {s : State} (he : entryOf s o = some e) (hu : Untouched e) :
    frameSettled o n s = true := by
  simp [frameSettled, he, untouched_unprotected hu]

theorem upstreamHead_data {b : UpBurst} {d : DataFrame} {l : List Frame} {s : State} (h : s.up.held = .data d :: l)
    (hb : s.up.inBurst = some b) (hbr : b.bridge = false) (ha : acceptable .upstream (.data d) = true) :
    upstreamHead s = some (b.owner, d.sectors.length) := by
  simp [upstreamHead, h, hb, hbr, ha]

theorem driveHead_data {b : DriveBurst} {d : DataFrame} {l : List Frame} {s : State} (h : s.drv.held = .data d :: l)
    (hb : s.drv.burst = some b) (hd : b.dir = .toUpstream) (hr : s.drv.resetState = .none) (ha : acceptable .drive (.data d) = true) :
    driveHead s = some (b.owner, d.sectors.length) := by
  simp [driveHead, h, hb, hd, hr, ha]

theorem arriveUp_untouched {o : Owner} {n : Nat} {d : DataFrame} {e : Entry} {s : State} (he : entryOf s o = some e) (hu : Untouched e)
    (hl : s.up.link = .up) (hq : Quiet s) (hb : s.up.inBurst = some { owner := o, left := n, bridge := false })
    (ha : acceptable .upstream (.data d) = true) :
    arriveUp (.data d) s = passDown { owner := o, left := n, bridge := false } d s := by
  have hh : upstreamHead { s with up := { s.up with held := [.data d] } } = some (o, d.sectors.length) :=
    upstreamHead_data (s := { s with up := { s.up with held := [.data d] } }) rfl hb rfl ha
  have hd : driveHead { s with up := { s.up with held := [.data d] } } = none := by simp [driveHead, hq.2]
  have he' : entryOf { s with up := { s.up with held := [.data d] } } o = some e := he
  rw [arriveUp_quiet hl hq (by simp only [settleHeads, hh, settleFrame_untouched he' hu, hd])
    (by simp only [upTakeable, hh, frameSettled_untouched he' hu]), takeUp_data ha, takeDataUp, hb]
  rfl

theorem arriveDrive_untouched {o : Owner} {n : Nat} {d : DataFrame} {e : Entry} {s : State} (he : entryOf s o = some e) (hu : Untouched e)
    (ht : TakesDrive s) (hb : s.drv.burst = some { owner := o, dir := .toUpstream, left := n })
    (ha : acceptable .drive (.data d) = true) :
    arriveDrive (.data d) s = passUp { owner := o, dir := .toUpstream, left := n } d s := by
  obtain ⟨hl, hr, hp, hq⟩ := ht
  have hh : driveHead { s with drv := { s.drv with held := [.data d] } } = some (o, d.sectors.length) :=
    driveHead_data (s := { s with drv := { s.drv with held := [.data d] } }) rfl hb rfl hr ha
  have hd : upstreamHead { s with drv := { s.drv with held := [.data d] } } = none := by simp [upstreamHead, hq.1]
  have he' : entryOf { s with drv := { s.drv with held := [.data d] } } o = some e := he
  have hp' : relayPending { s with drv := { s.drv with held := [.data d] } } = false := hp
  rw [arriveDrive_quiet hl hq (by simp only [settleHeads, hd, hh, settleFrame_untouched he' hu])
    (by simp only [driveTakeable, hp', hh, frameSettled_untouched he' hu]; rfl), takeDrive_data hr ha, takeDataDrive, hb]
  rfl

/-! ### Settling the statement -/

/-- What a frame of k sectors leaves of the entry that its burst belongs to, n being left (R6, R31). -/
theorem counted_closed {k n : Nat} {b : OpenBurst} {e : Entry} (hn : b.left = n) :
    ∃ e', (if k < n then countedEntry k b e else closedEntry (countedEntry k b e)) = e' ∧ e'.cmd = e.cmd ∧ e'.plan = e.plan ∧
      e'.openBurst = (if k < n then some { b with left := n - k } else none) ∧
      e'.state = (if k < n then e.state else .forwarded) ∧
      e'.passed = min (e.passed + k) (cmdCount e.cmd) ∧ e'.partFailed = e.partFailed ∧ e'.withheld = e.withheld := by
  subst hn
  by_cases h : k < b.left
  · simp only [if_pos h]
    exact ⟨_, rfl, rfl, rfl, rfl, rfl, rfl, rfl, rfl⟩
  · simp only [if_neg h]
    exact ⟨_, rfl, rfl, rfl, rfl, rfl, rfl, rfl, rfl⟩

/-- Settles O21, by the passage of untouched sectors and the counting off of both bursts. -/
theorem dataFramesPass : Obligations.DataFramesPass := by
  intro bytes23 sectors o n e b s d k counted h1 h16 hn he hb hleft hcount hend hpassed hclear hq
  have hu : Untouched e := hclear
  have hfit : d.sectors.length ≤ n := hn
  obtain ⟨hout, hentry, hctx⟩ := passSectors_untouched (l := d.sectors) he hb hu (hleft ▸ hn) (hleft ▸ hcount) hend hpassed
  obtain ⟨e', he', hkeeps⟩ := counted_closed (k := k) (e := e) hleft
  refine ⟨fun hl hin hdrv => ?_, fun ht hdrv => ?_⟩
  · rw [exec_upstream rfl, arriveUp_untouched he hu hl hq hin (acceptable_data h1 h16), passDown_fits s hfit, hout]
    refine ⟨_, rfl, ?_⟩
    obtain ⟨kup, kdrv, -, -, -, -, -, -, -, kfaults, -⟩ := passSectors_keeps o d.sectors s
    generalize (passSectors o d.sectors s).2 = u at *
    have hburst : ({ sendDown (.data d) u with
        up := { u.up with inBurst := countUpBurst d.sectors.length { owner := o, left := n, bridge := false } } } : State).drv.burst =
        some { owner := o, dir := .toDrive, left := n } := by
      rw [← hdrv, ← kdrv]
      rfl
    refine ⟨?_, ?_, countDriveBurst_burst hburst, ⟨e', ?_, hkeeps⟩, ?_, ?_, ?_⟩
    · simp [sendDown, kdrv, d]
    · simp only [countDriveBurst_keeps, countUpBurst]
      by_cases h : k < n
      · rw [if_pos h, if_neg (Nat.not_le.2 h)]
      · rw [if_neg h, if_pos (Nat.not_lt.1 h)]
    · rw [← he']
      exact entryOf_countDriveBurst hburst hentry
    · simp [kup]
    · simpa [sendDown] using hctx
    · simpa [sendDown] using kfaults
  · rw [exec_drive rfl, arriveDrive_untouched he hu ht hdrv (acceptable_data h1 h16), passUp_fits s hfit, hout]
    refine ⟨_, rfl, ?_⟩
    obtain ⟨kup, kdrv, -, -, -, -, -, -, -, kfaults, -⟩ := passSectors_keeps o d.sectors s
    generalize (passSectors o d.sectors s).2 = u at *
    have hburst : (placeItem { frame := .data d, owner := some o, relayed := true } u).drv.burst =
        some { owner := o, dir := .toUpstream, left := n } := by
      rw [← hdrv, ← kdrv]
      rfl
    refine ⟨?_, countDriveBurst_burst hburst, ⟨e', ?_, hkeeps⟩, ?_, ?_, ?_, ?_⟩
    · simp [placeItem, kup]; rfl
    · rw [← he']
      exact entryOf_countDriveBurst hburst hentry
    · simp [placeItem, kup]
    · simp [placeItem, kdrv]
    · simpa [placeItem] using hctx
    · simpa [placeItem] using kfaults

end Sys2Proof.LinkPassage
end

