-- ==== Sys2Proof/Proofs/DoneTags.lean ====
section
namespace Sys2Proof.LinkPassage
open Sys2Proof Sys2Proof.Machine

/-! ### The tags a DONE names (R14, R35) -/

theorem Shifts.isSome {s t : State} (h : Shifts s t) (o : Owner) : (entryOf t o).isSome = (entryOf s o).isSome := by
  rw [Bool.eq_iff_iff]
  refine ⟨fun ht => ?_, h.stays o⟩
  obtain ⟨e', he'⟩ := Option.isSome_iff_exists.1 ht
  obtain ⟨e, he, -⟩ := h.fades o e' he'
  rw [he]
  rfl

theorem isSome_none {s t : State} {o : Owner} (h : (entryOf t o).isSome = (entryOf s o).isSome) (hs : entryOf s o = none) :
    entryOf t o = none := by
  rw [hs] at h
  simpa using h

/-- The end of a tag's entry leaves that entry FREE, and an entry that is FREE stays FREE. -/
theorem endTag_uses (k q : Tag) (r : Option Bool) (s : State) :
    (k = q → entryOf (endEntry (.tag k) r s) (.tag q) = none) ∧
      (k ≠ q → (entryOf (endEntry (.tag k) r s) (.tag q)).isSome = (entryOf s (.tag q)).isSome) := by
  refine ⟨fun h => h ▸ entryOf_endEntry _ _ _, fun h => endEntry_isSome (fun hq => h ?_) r s⟩
  cases hq
  rfl

/-- The done set's tags end their entries, and no other tag's (R35). -/
theorem endDone_uses (l : List Tag) (q : Tag) (s : State) :
    (q ∈ l → entryOf (endDone l s).2 (.tag q) = none) ∧
      (q ∉ l → (entryOf (endDone l s).2 (.tag q)).isSome = (entryOf s (.tag q)).isSome) := by
  induction l generalizing s with
  | nil => exact ⟨fun h => absurd h List.not_mem_nil, fun _ => rfl⟩
  | cons k l ih =>
    have hstep : ∃ r, (endDone (k :: l) s).2 = (endDone l (endEntry (.tag k) r (answerAhead k (checkShort (.tag k) s)))).2 := by
      cases hp : partFailedOf (.tag k) (answerAhead k (checkShort (.tag k) s)) with
      | none => exact ⟨some true, by simp only [endDone, hp]⟩
      | some p => exact ⟨some false, by simp only [endDone, hp]⟩
    obtain ⟨r, hstep⟩ := hstep
    rw [hstep]
    have hchecked := ((shifts_checkShort (.tag k) s).trans (shifts_answerAhead k _)).isSome (.tag q)
    generalize answerAhead k (checkShort (.tag k) s) = u at *
    obtain ⟨hend, hother⟩ := endTag_uses k q r u
    obtain ⟨hin, hout⟩ := ih (endEntry (.tag k) r u)
    refine ⟨fun hq => ?_, fun hq => ?_⟩
    · by_cases hl : q ∈ l
      · exact hin hl
      · have hk : k = q := ((List.mem_cons.1 hq).resolve_right hl).symm
        exact isSome_none (hout hl) (hend hk)
    · obtain ⟨hk, hl⟩ := not_or.1 (List.mem_cons.not.1 hq)
      exact (hout hl).trans ((hother (Ne.symm hk)).trans hchecked)

/-- The failed pairs end their entries, and no other tag's (R35). -/
theorem endFailed_uses (l : List (Byte × Byte)) (q : Tag) (s : State) :
    ((∃ p ∈ l, pairTag p = q) → entryOf (l.foldl endFailed s) (.tag q) = none) ∧
      ((∀ p ∈ l, pairTag p ≠ q) → (entryOf (l.foldl endFailed s) (.tag q)).isSome = (entryOf s (.tag q)).isSome) := by
  induction l generalizing s with
  | nil => exact ⟨fun h => absurd h (by simp), fun _ => rfl⟩
  | cons p l ih =>
    have hanswered := (shifts_answerAhead (pairTag p) s).isSome (.tag q)
    obtain ⟨hend, hother⟩ := endTag_uses (pairTag p) q (some false) (answerAhead (pairTag p) s)
    obtain ⟨hin, hout⟩ := ih (endFailed s p)
    rw [List.foldl_cons]
    refine ⟨fun hq => ?_, fun hq => ?_⟩
    · by_cases hl : ∃ p' ∈ l, pairTag p' = q
      · exact hin hl
      · have hp : pairTag p = q := by
          obtain ⟨p', hp', htag⟩ := hq
          rcases List.mem_cons.1 hp' with rfl | h
          · exact htag
          · exact absurd ⟨p', h, htag⟩ hl
        exact isSome_none (hout fun p' h htag => hl ⟨p', h, htag⟩) (hend hp)
    · exact (hout fun p' h => hq p' (List.mem_cons_of_mem p h)).trans ((hother (hq p List.mem_cons_self)).trans hanswered)

/-- A live tag that a failed pair names, and that has not been mentioned, is mentioned first by some pair (R14). -/
theorem firstMentions_names {live : Tag → Bool} {seen : List Tag} {l : List (Byte × Byte)} {k : Tag} (hl : live k = true)
    (hs : k ∉ seen) (hp : ∃ p ∈ l, pairTag p = k) : ∃ p ∈ firstMentions live seen l, pairTag p = k := by
  induction l generalizing seen with
  | nil => exact absurd hp (by simp)
  | cons p l ih =>
    unfold firstMentions
    by_cases hk : pairTag p = k
    · rw [if_pos (by simpa [hk, hl] using hs)]
      exact ⟨p, List.mem_cons_self, hk⟩
    · have hrest : ∃ p ∈ l, pairTag p = k := by
        obtain ⟨p', hp', htag⟩ := hp
        rcases List.mem_cons.1 hp' with rfl | h
        · exact absurd htag hk
        · exact ⟨p', h, htag⟩
      split
      next =>
        obtain ⟨p', hp', htag⟩ := ih (seen := pairTag p :: seen) (by simp [hs, Ne.symm hk]) hrest
        exact ⟨p', List.mem_cons_of_mem p hp', htag⟩
      next => exact ih hs hrest

theorem firstMentions_subset (live : Tag → Bool) (seen : List Tag) (l : List (Byte × Byte)) : firstMentions live seen l ⊆ l := by
  induction l generalizing seen with
  | nil => exact List.Subset.refl _
  | cons p l ih =>
    unfold firstMentions
    split
    next => exact List.cons_subset_cons p (ih _)
    next => exact List.Subset.trans (ih seen) (List.subset_cons_self p l)

theorem mem_doneTags {d : DoneFrame} {k : Tag} : k ∈ doneTags d ↔ d.doneSet.getLsbD k = true := by
  simp [doneTags]

theorem mem_checkedTags {d : DoneFrame} {s : State} {k : Tag} :
    k ∈ (checkDone d s).tags ↔ d.doneSet.getLsbD k = true ∧ tagLive s k = true := by
  simp [checkDone, mem_doneTags]

/-! ### Bursts that a DONE closes short (R7) -/

/-- An entry with the drive stays with the drive when its burst is closed. -/
theorem closedEntry_live {e : Entry} (h : e.state = .forwarded ∨ e.state = .burst) :
    (closedEntry e).state = .forwarded ∨ (closedEntry e).state = .burst := by
  unfold closedEntry
  split
  · exact .inl rfl
  · exact h

/-- The entry of a burst closed short, or as it was. -/
theorem entryOf_closeOwned_cases (p : Owner → Bool) (o : Owner) (s : State) :
    entryOf (closeOwned p s) o = entryOf s o ∨ entryOf (closeOwned p s) o = (entryOf s o).map closedEntry := by
  cases hb : s.drv.burst with
  | none => exact .inl (by rw [closeOwned_closed p hb])
  | some b =>
    rw [closeOwned_open p hb]
    split
    next =>
      rw [entryOf_closeShort]
      split
      · exact .inr rfl
      · exact .inl rfl
    next => exact .inl rfl

/-- A burst of an owner that is not named stays open. -/
theorem entryOf_closeOwned_other {p : Owner → Bool} {o : Owner} (h : p o = false) (s : State) :
    entryOf (closeOwned p s) o = entryOf s o := by
  cases hb : s.drv.burst with
  | none => rw [closeOwned_closed p hb]
  | some b =>
    rw [closeOwned_open p hb]
    split
    next hp =>
      rw [entryOf_closeShort, if_neg]
      rintro rfl
      rw [h] at hp
      cases hp
    next => rfl

theorem tagLive_closeOwned {p : Owner → Bool} {k : Tag} {e : Entry} {s : State} (he : entryOf s (.tag k) = some e)
    (h : e.state = .forwarded ∨ e.state = .burst) : tagLive (closeOwned p s) k = true := by
  have hlive : ∀ {e'}, entryOf (closeOwned p s) (.tag k) = some e' → e'.state = .forwarded ∨ e'.state = .burst →
      tagLive (closeOwned p s) k = true := fun {e'} he' hs => by
    have he'' : (closeOwned p s).trk.queued.get k = some e' := he'
    simp [tagLive, he'', hs]
  rcases entryOf_closeOwned_cases p (.tag k) s with hc | hc
  · exact hlive (hc.trans he) h
  · rw [he] at hc
    exact hlive hc (closedEntry_live h)

/-! ### A DONE without the abort flag (R35) -/

/-- The entries that a DONE ends, before it is relayed (R14, R35). -/
def doneEnded (d : DoneFrame) (s : State) : State :=
  let u := closeOwned (doneNames d) s
  (checkDone d u).pairs.foldl endFailed (endDone (checkDone d u).tags (slipDone (doneRemoves d (checkDone d u)) u)).2

theorem takeDone_ends {d : DoneFrame} (hd : doneAborts d = false) (s : State) (o : Owner) :
    entryOf (takeDone d s) o = entryOf (doneEnded d s) o := by
  have ha : ¬doneAborts d = true := by simp [hd]
  unfold takeDone
  dsimp only
  rw [if_neg ha, entryOf_flushReleased]
  exact entryOf_congr (relayDone_trk _ _ _ _) o

/-- What a DONE ends of a tag: named and with the drive or FREE, its entry; not named, nothing (R14, R35). -/
theorem doneEnded_uses (d : DoneFrame) (k : Tag) (s : State) :
    ((d.doneSet.getLsbD k = true ∨ ∃ p ∈ d.failed, pairTag p = k) →
      (∀ e, entryOf s (.tag k) = some e → e.state = .forwarded ∨ e.state = .burst) → entryOf (doneEnded d s) (.tag k) = none) ∧
    (d.doneSet.getLsbD k = false → (∀ p ∈ d.failed, pairTag p ≠ k) →
      (entryOf (doneEnded d s) (.tag k)).isSome = (entryOf s (.tag k)).isSome) := by
  have hclosed := (shifts_closeOwned (doneNames d) s).isSome (.tag k)
  have hlive : ∀ e, entryOf s (.tag k) = some e → e.state = .forwarded ∨ e.state = .burst → tagLive (closeOwned (doneNames d) s) k = true :=
    fun e he h => tagLive_closeOwned he h
  unfold doneEnded
  dsimp only
  generalize closeOwned (doneNames d) s = u at *
  have hslip : entryOf (slipDone (doneRemoves d (checkDone d u)) u) (.tag k) = entryOf u (.tag k) := entryOf_congr (slipDone_trk _ _) _
  generalize slipDone (doneRemoves d (checkDone d u)) u = w at *
  obtain ⟨hdone, hnotDone⟩ := endDone_uses (checkDone d u).tags k w
  obtain ⟨hfailed, hnotFailed⟩ := endFailed_uses (checkDone d u).pairs k (endDone (checkDone d u).tags w).2
  refine ⟨fun hnamed hwith => ?_, fun hset hpairs => ?_⟩
  · by_cases hp : ∃ p ∈ (checkDone d u).pairs, pairTag p = k
    · exact hfailed hp
    · refine isSome_none (hnotFailed fun p hm ht => hp ⟨p, hm, ht⟩) ?_
      cases he : entryOf s (.tag k) with
      | none =>
        have hu : entryOf w (.tag k) = none := hslip.trans (isSome_none hclosed he)
        by_cases hm : k ∈ (checkDone d u).tags
        · exact hdone hm
        · exact isSome_none (hnotDone hm) hu
      | some e =>
        have hl := hlive e he (hwith e he)
        have hset : d.doneSet.getLsbD k = true := by
          by_contra hn
          exact hp (firstMentions_names hl (by rwa [mem_doneTags]) (hnamed.resolve_left hn))
        exact hdone (mem_checkedTags.2 ⟨hset, hl⟩)
  · have hm : k ∉ (checkDone d u).tags := fun h => by
      rw [(mem_checkedTags.1 h).1] at hset
      cases hset
    refine (hnotFailed fun p hp => hpairs p (firstMentions_subset _ _ _ hp)).trans ((hnotDone hm).trans ?_)
    rw [hslip]
    exact hclosed

theorem exec_done {d : DoneFrame} {s : State} (hw : WellFormed (.doneFromDrive d) = true) (ht : TakesDrive s) :
    exec (.doneFromDrive d) s = .next (takeDone d s) := by
  obtain ⟨hl, hr, hp, hq⟩ := ht
  rw [exec_drive rfl, arriveDrive_frame (f := .done d) hl hp hq nofun, takeDrive_done hr hw]

/-! ### A DONE that names one tag -/

/-- A DONE names one tag whose entry ends with an outcome: in its done set, short of nothing, or as its one failed pair (R35). -/
def NamesOne (d : DoneFrame) (k : Tag) (e : Entry) (ok : Bool) : Prop :=
  if ok then d.doneSet = BitVec.twoPow 32 k ∧ d.failed = [] ∧ e.passed = cmdCount e.cmd ∧ e.partFailed = none
  else d.doneSet = 0#32 ∧ ∃ detail, d.failed = [(BitVec.ofNat 8 k, detail)]

theorem twoPow_getLsbD (k q : Tag) : (BitVec.twoPow 32 k).getLsbD q = decide (q = k) := by
  have := q.isLt
  simp [this, ← Fin.val_inj, eq_comm]

theorem doneTags_twoPow {d : DoneFrame} {k : Tag} (h : d.doneSet = BitVec.twoPow 32 k) : doneTags d = [k] := by
  unfold doneTags
  simp only [h, twoPow_getLsbD]
  have hsort : ((List.finRange 32).filter fun q => decide (q = k)) = List.replicate 1 k := by
    have := List.filter_eq (l := List.finRange 32) (a := k)
    simpa [List.count_eq_one_of_mem (List.nodup_finRange 32) (List.mem_finRange k), eq_comm] using this
  exact hsort

theorem doneTags_zero {d : DoneFrame} (h : d.doneSet = 0#32) : doneTags d = [] := by
  simp [doneTags, h]

theorem pairTag_ofNat (k : Tag) (detail : Byte) : pairTag (BitVec.ofNat 8 k, detail) = k := by
  apply Fin.ext
  have := k.isLt
  simp only [pairTag, BitVec.toNat_ofNat]
  omega

theorem tagBits_singleton (k : Tag) : tagBits [k] = BitVec.twoPow 32 k := by
  simp [tagBits]

/-- A DONE that names one tag leaves every other tag's burst open. -/
theorem namesOne_other {d : DoneFrame} {k q : Tag} {e : Entry} {ok : Bool} (h : NamesOne d k e ok) (hd : doneAborts d = false)
    (hq : q ≠ k) : doneNames d (.tag q) = false := by
  unfold NamesOne at h
  cases ok with
  | true =>
    obtain ⟨hset, hfailed, -⟩ := h
    simp only [doneNames, hd, hset, hfailed, twoPow_getLsbD, hq]; rfl
  | false =>
    obtain ⟨hset, detail, hfailed⟩ := h
    simp [doneNames, hd, hset, hfailed, pairTag_ofNat, Ne.symm hq]

/-- The state in which the one tag's entry ends (R7, R32). -/
def readied (d : DoneFrame) (k : Tag) (s : State) : State := answerAhead k (closeOwned (doneNames d) s)

theorem endDone_one {k : Tag} {e : Entry} {s : State} (he : entryOf s (.tag k) = some e) (hfull : ¬FallsShort e) (hp : e.partFailed = none) :
    endDone [k] s = (([k], []), endEntry (.tag k) (some true) (answerAhead k s)) := by
  have hpart : partFailedOf (.tag k) (answerAhead k s) = none := by
    have hq : (answerAhead k s).trk.queued = s.trk.queued := by simp
    have : entryOf (answerAhead k s) (.tag k) = some e := by
      rw [← he]
      exact congrArg (fun v : Vector (Option Entry) 32 => v.get k) hq
    simp [partFailedOf, this, hp]
  unfold endDone
  dsimp only
  rw [checkShort_full he hfull]
  simp only [hpart]
  rfl

/-- A DONE that names one tag ends its entry, and is relayed as it came (R35). -/
theorem takeDone_one {d : DoneFrame} {k : Tag} {e : Entry} {ok : Bool} {s : State} (hn : NamesOne d k e ok)
    (hd : doneAborts d = false) (he : entryOf s (.tag k) = some e) (hf : e.state = .forwarded) :
    takeDone d s = flushReleased (placeRelayed (.done d) (endEntry (.tag k) (some ok) (readied d k s))) := by
  have ha : ¬doneAborts d = true := by simp [hd]
  obtain ⟨e', he', hsame⟩ := entryOf_closeOwned (doneNames d) he
  have hlive := tagLive_closeOwned (p := doneNames d) he (.inl hf)
  unfold takeDone readied
  dsimp only
  rw [if_neg ha]
  generalize closeOwned (doneNames d) s = u at *
  unfold NamesOne at hn
  cases ok with
  | true =>
    obtain ⟨hset, hfailed, hpassed, hpart⟩ := hn
    have hcheck : checkDone d u = { tags := [k], pairs := [] } := by
      simp [checkDone, doneTags_twoPow hset, hlive, hfailed, firstMentions]
    have hslip : doneRemoves d { tags := [k], pairs := [] } = false := by
      simp [doneRemoves, doneTags_twoPow hset, hfailed]
    have hfull : ¬FallsShort e' := fun h => by
      have := h.2
      rw [hsame.passed, hsame.cmd, hpassed] at this
      omega
    rw [hcheck, hslip]
    dsimp only [slipDone]
    rw [if_neg (by simp), endDone_one he' hfull (hsame.partFailed.trans hpart)]
    have hframe : ({ d with doneSet := tagBits [k], failed := [] } : DoneFrame) = d := by
      rw [tagBits_singleton, ← hset, ← hfailed]
    simp [relayDone, hframe]
  | false =>
    obtain ⟨hset, detail, hfailed⟩ := hn
    have hcheck : checkDone d u = { tags := [], pairs := d.failed } := by
      simp [checkDone, doneTags_zero hset, hfailed, firstMentions, pairTag_ofNat, hlive]
    have hslip : doneRemoves d { tags := [], pairs := d.failed } = false := by
      simp [doneRemoves, doneTags_zero hset]
    rw [hcheck, hslip]
    dsimp only [slipDone]
    rw [if_neg (by simp)]
    have hframe : ({ d with doneSet := tagBits [], failed := d.failed } : DoneFrame) = d := by
      change ({ d with doneSet := 0#32, failed := d.failed } : DoneFrame) = d
      rw [← hset]
    have hends : d.failed.foldl endFailed u = endEntry (.tag k) (some false) (answerAhead k u) := by
      rw [hfailed, List.foldl_cons, List.foldl_nil, endFailed, pairTag_ofNat]
    have hne : d.failed.isEmpty = false := by rw [hfailed]; rfl
    simp only [endDone, List.append_nil, hends, relayDone, hne, Bool.and_false, Bool.false_and, Bool.false_eq_true, if_false, hframe]

end Sys2Proof.LinkPassage
end

