-- ==== Sys2Proof/Proofs/SpanReports.lean ====
section
namespace Sys2Proof.LinkPassage
open Sys2Proof Sys2Proof.Machine

/-! ### Spans marked, committed and released (R109, R111, R112, R113) -/

theorem markSpan_first {o : Owner} {ok : Bool} {l m : List Span} {x : Span} (hx : x.owner = o) (hf : x.status = .forwarded)
    (hl : ∀ y ∈ l, y.owner = o → y.status ≠ .forwarded) :
    markSpan o ok (l ++ x :: m) = some (l ++ { x with status := if ok then .done else .failed } :: m) := by
  induction l with
  | nil => exact if_pos ⟨hx, hf⟩
  | cons y l ih =>
    have hy : ¬(y.owner = o ∧ y.status = .forwarded) := fun h => hl y List.mem_cons_self h.1 h.2
    rw [List.cons_append, markSpan, if_neg hy, ih fun z hz => hl z (List.mem_cons_of_mem y hz)]
    rfl

/-- A span that has its outcome (R111). -/
abbrev SpanEnded (x : Span) : Prop := x.status = .done ∨ x.status = .failed

/-- The commit point and lap after spans have gone from the front (R112). -/
def committedPoint (n : Nat) (gone : List Span) (p : Nat × Nat) : Nat × Nat :=
  gone.foldl (fun p x => advancePoint n p.1 p.2 x.count) p

/-- The commit takes the spans at the front that have their outcome (R112, R113). -/
theorem commitFront_eq (n : Nat) (l : List Span) (c p : Nat) :
    commitFront n l c p =
      { spans := l.dropWhile (SpanEnded ·)
        commit := (committedPoint n (l.takeWhile (SpanEnded ·)) (c, p)).1
        commitLap := (committedPoint n (l.takeWhile (SpanEnded ·)) (c, p)).2
        voids := (l.takeWhile (SpanEnded ·)).filter fun x => x.status = .failed } := by
  induction l generalizing c p with
  | nil => rfl
  | cons x l ih =>
    by_cases h : SpanEnded x
    · have htake : (x :: l).takeWhile (SpanEnded ·) = x :: l.takeWhile (SpanEnded ·) := List.takeWhile_cons_of_pos (decide_eq_true h)
      have hdrop : (x :: l).dropWhile (SpanEnded ·) = l.dropWhile (SpanEnded ·) := List.dropWhile_cons_of_pos (decide_eq_true h)
      rw [htake, hdrop, commitFront, if_pos h]
      dsimp only
      rw [ih]
      dsimp only
      by_cases hf : x.status = .failed
      · rw [if_pos hf, List.filter_cons_of_pos (by simpa using hf)]
        rfl
      · rw [if_neg hf, List.filter_cons_of_neg (by simpa using hf)]
        rfl
    · have htake : (x :: l).takeWhile (SpanEnded ·) = [] := List.takeWhile_cons_of_neg (by simpa using h)
      have hdrop : (x :: l).dropWhile (SpanEnded ·) = x :: l := List.dropWhile_cons_of_neg (by simpa using h)
      rw [htake, hdrop, commitFront, if_neg h]
      rfl

/-- The number of HELD spans among the first j. -/
def heldBefore (l : List Span) (j : Nat) : Nat := ((l.take j).filter fun x => x.status = .held).length

/-- Whether the release step frees the span at a place, of a queue with a number of spans FORWARDED (R109). -/
def Freed (n : Nat) (l : List Span) (j : Nat) (x : Span) : Prop := x.status = .held ∧ n + heldBefore l j < 4

theorem heldBefore_cons (x : Span) (l : List Span) (j : Nat) :
    heldBefore (x :: l) (j + 1) = (if x.status = .held then 1 else 0) + heldBefore l j := by
  unfold heldBefore
  rw [List.take_succ_cons]
  by_cases h : x.status = .held
  · rw [List.filter_cons_of_pos (by simpa using h), if_pos h, List.length_cons, Nat.add_comm]
  · rw [List.filter_cons_of_neg (by simpa using h), if_neg h, Nat.zero_add]

theorem releaseSpans_length (n : Nat) (l : List Span) : (releaseSpans n l).1.length = l.length := by
  induction l generalizing n with
  | nil => rfl
  | cons x l ih =>
    unfold releaseSpans
    split
    · exact congrArg (· + 1) (ih _)
    · exact congrArg (· + 1) (ih _)

/-- The release step: each span as it was, or FORWARDED where it is freed, and then its owner is told (R109). -/
theorem releaseSpans_at (n : Nat) (l : List Span) {j : Nat} {y : Span} (hy : l[j]? = some y) :
    (Freed n l j y → (releaseSpans n l).1[j]? = some { y with status := .forwarded } ∧ y.owner ∈ (releaseSpans n l).2) ∧
      (¬Freed n l j y → (releaseSpans n l).1[j]? = some y) := by
  induction l generalizing n j with
  | nil => simp at hy
  | cons x l ih =>
    have hfirst : ∀ z, Freed n (x :: l) 0 z ↔ z.status = .held ∧ n < 4 := fun z => by
      simp [Freed, heldBefore]
    unfold releaseSpans
    by_cases hx : x.status = .held ∧ n < 4
    · rw [if_pos hx]
      dsimp only
      cases j with
      | zero =>
        obtain rfl : x = y := by simpa using hy
        rw [hfirst]
        exact ⟨fun _ => ⟨rfl, List.mem_cons_self⟩, fun h => absurd hx h⟩
      | succ j =>
        obtain ⟨hin, hout⟩ := ih (n + 1) (j := j) (by simpa using hy)
        have hfreed : Freed n (x :: l) (j + 1) y ↔ Freed (n + 1) l j y := by
          rw [Freed, Freed, heldBefore_cons, if_pos hx.1, Nat.add_assoc]
        rw [hfreed]
        exact ⟨fun h => ⟨(hin h).1, List.mem_cons_of_mem _ (hin h).2⟩, hout⟩
    · rw [if_neg hx]
      dsimp only
      cases j with
      | zero =>
        obtain rfl : x = y := by simpa using hy
        rw [hfirst]
        exact ⟨fun h => absurd h hx, fun _ => rfl⟩
      | succ j =>
        have hfreed : Freed n (x :: l) (j + 1) y ↔ Freed n l j y := by
          rw [Freed, Freed, heldBefore_cons]
          by_cases hh : x.status = .held
          · have : 4 ≤ n := Nat.not_lt.1 fun h => hx ⟨hh, h⟩
            rw [if_pos hh]
            omega
          · rw [if_neg hh, Nat.zero_add]
        rw [hfreed]
        exact ih n (j := j) (by simpa using hy)

/-! ### The entries of released spans (R28, R109) -/

/-- A queued entry that waits for its span alone. -/
def AwaitsSpan (q : Tag) (a : Entry) (s : State) : Prop :=
  entryOf s (.tag q) = some a ∧ a.state = .held ∧ a.queueWait = false

/-- A queued entry that its span's release has forwarded, its COMMAND to be sent (R28). -/
def Forwarded (q : Tag) (a : Entry) (s : State) : Prop :=
  entryOf s (.tag q) = some { a with state := .forwarded, ringWindow := false } ∧ .tag q ∈ s.trk.released

theorem releaseEntry_other {o p : Owner} (h : p ≠ o) (s : State) :
    entryOf (releaseEntry o s) p = entryOf s p ∧ ∀ q, q ∈ s.trk.released → q ∈ (releaseEntry o s).trk.released := by
  rw [releaseEntry_eq]
  cases he : entryOf s o with
  | none => exact ⟨rfl, fun q h => h⟩
  | some e =>
    dsimp only
    rw [forwardEntry_setEntry]
    split
    · refine ⟨by rw [entryOf_toSend, entryOf_setEntry, if_neg h], fun q hq => ?_⟩
      cases o <;> exact List.mem_append_left _ hq
    · refine ⟨by rw [entryOf_setEntry, if_neg h], fun q hq => ?_⟩
      cases o <;> exact hq

theorem releaseEntry_awaits {q : Tag} {a : Entry} {s : State} (h : AwaitsSpan q a s) : Forwarded q a (releaseEntry (.tag q) s) := by
  obtain ⟨he, hs, hw⟩ := h
  rw [releaseEntry_eq, he]
  dsimp only
  rw [forwardEntry_setEntry, if_pos ⟨hs, hw, rfl⟩]
  refine ⟨by rw [entryOf_toSend, entryOf_setEntry, if_pos rfl], ?_⟩
  simp [toSend]

theorem releaseEntry_forwarded {q : Tag} {a : Entry} {s : State} (h : Forwarded q a s) (o : Owner) : Forwarded q a (releaseEntry o s) := by
  obtain ⟨he, hr⟩ := h
  by_cases ho : o = .tag q
  · subst ho
    rw [releaseEntry_eq, he]
    dsimp only
    rw [forwardEntry_setEntry, if_neg (by simp)]
    exact ⟨by rw [entryOf_setEntry, if_pos rfl], hr⟩
  · obtain ⟨hsame, hmem⟩ := releaseEntry_other (Ne.symm ho) s
    exact ⟨hsame.trans he, hmem _ hr⟩

/-- The release of a list of spans forwards every entry of theirs that waits for its span alone. -/
theorem releaseEntries_forwards {q : Tag} {a : Entry} {l : List Owner} {s : State} (h : AwaitsSpan q a s) (hl : .tag q ∈ l) :
    Forwarded q a (l.foldl (fun s o => releaseEntry o s) s) := by
  have hkeep : ∀ (l : List Owner) {s : State}, Forwarded q a s → Forwarded q a (l.foldl (fun s o => releaseEntry o s) s) := by
    intro l
    induction l with
    | nil => exact fun h => h
    | cons o l ih => exact fun h => ih (releaseEntry_forwarded h o)
  induction l generalizing s with
  | nil => exact absurd hl List.not_mem_nil
  | cons o l ih =>
    rw [List.foldl_cons]
    by_cases ho : o = .tag q
    · subst ho
      exact hkeep l (releaseEntry_awaits h)
    · have hsame := (releaseEntry_other (Ne.symm ho) s).1
      exact ih ⟨hsame.trans h.1, h.2⟩ ((List.mem_cons.1 hl).resolve_left (Ne.symm ho))

/-! ### Notices that join the queue (R185) -/

/-- Notices join a queue at its end alone. -/
def Appends (s t : State) : Prop := s.nq.notices <+: t.nq.notices

theorem appends_of_same {s t : State} (h : t.nq = s.nq) : Appends s t := by rw [Appends, h]

theorem Appends.trans {s t u : State} (h : Appends s t) (k : Appends t u) : Appends s u := List.IsPrefix.trans h k

theorem appends_queueNotice (k : NoticeKind) (c : Option CtxSlot) (t : Option Tag) (d : Option Code) (v : Nat) (s : State) :
    Appends s (queueNotice k c t d v s) := by
  unfold Appends queueNotice joinQueue
  dsimp only
  split
  · exact List.prefix_append _ _
  · exact List.prefix_refl _

/-- The notices of spans committed void join the queue while there is room (R113). -/
theorem noticeVoids {c : CtxSlot} {l : List Span} {s : State} (h : s.nq.notices.length + l.length ≤ 32) :
    (l.foldl (noticeVoid c) s).nq.notices =
      s.nq.notices ++ l.map fun x => noticeOf s .ringVoid (some c) (ownerTag x.owner) none x.count := by
  induction l generalizing s with
  | nil => exact (List.append_nil _).symm
  | cons x l ih =>
    rw [List.length_cons] at h
    have hjoin : (noticeVoid c s x).nq.notices = s.nq.notices ++ [noticeOf s .ringVoid (some c) (ownerTag x.owner) none x.count] :=
      queueNotice_notices _ _ _ _ _ (by omega)
    rw [List.foldl_cons, ih (by rw [hjoin, List.length_append, List.length_singleton]; omega), hjoin, List.append_assoc]
    rfl

/-! ### The end of a ring write reports its outcome (R111) -/

/-- The spans of a ring after an outcome is marked. -/
def markedSpans (l m : List Span) (x : Span) (ok : Bool) : List Span :=
  l ++ { x with status := if ok then .done else .failed } :: m

/-- A ring after the commit and the release step on marked spans (R109, R112). -/
def reportedRing (g : Machine.Ring) (spans : List Span) : Machine.Ring :=
  let rest := spans.dropWhile (SpanEnded ·)
  let p := committedPoint g.length (spans.takeWhile (SpanEnded ·)) (g.commit, g.commitLap)
  { g with spans := (releaseSpans (forwardedCount rest) rest).1, commit := p.1, commitLap := p.2 }

/-- What a report of an outcome leaves: the ring, the notices and the released entries (R109, R111, R112, R113). -/
structure Reported (c : CtxSlot) (g : Machine.Ring) (spans : List Span) (s t : State) : Prop where
  ring : ringOf t c = some (reportedRing g spans)
  contexts : t.contexts = s.contexts
  voids : s.nq.notices.length + (spans.takeWhile (SpanEnded ·)).length ≤ 32 →
    t.nq.notices = s.nq.notices ++ ((spans.takeWhile (SpanEnded ·)).filter fun y => y.status = .failed).map fun y =>
      noticeOf s .ringVoid (some c) (ownerTag y.owner) none y.count
  forwards : ∀ (q : Tag) (a : Entry), AwaitsSpan q a s →
    .tag q ∈ (releaseSpans (forwardedCount (spans.dropWhile (SpanEnded ·))) (spans.dropWhile (SpanEnded ·))).2 → Forwarded q a t

theorem reported_reportOutcome {c : CtxSlot} {g : Machine.Ring} {l m : List Span} {x : Span} {o : Owner} {s : State} (ok : Bool)
    (hg : ringOf s c = some g) (hspans : g.spans = l ++ x :: m) (hx : x.owner = o) (hf : x.status = .forwarded)
    (hl : ∀ y ∈ l, y.owner = o → y.status ≠ .forwarded) : Reported c g (markedSpans l m x ok) s (reportOutcome c o ok s) := by
  have hreport : reportOutcome c o ok s =
      (releaseSpans (forwardedCount ((markedSpans l m x ok).dropWhile (SpanEnded ·))) ((markedSpans l m x ok).dropWhile (SpanEnded ·))).2.foldl
        (fun s o => releaseEntry o s)
        ((((markedSpans l m x ok).takeWhile (SpanEnded ·)).filter fun y => y.status = .failed).foldl (noticeVoid c)
          (setRing c (some (reportedRing g (markedSpans l m x ok))) s)) := by
    rw [reportOutcome, hg]
    dsimp only
    rw [hspans, markSpan_first hx hf hl]
    dsimp only
    rw [commitFront_eq]
    rfl
  rw [hreport]
  generalize markedSpans l m x ok = spans
  refine ⟨?_, by simp [setRing], fun hroom => ?_, fun q a ha hq => releaseEntries_forwards ?_ hq⟩
  · refine (ringOf_congr (s := setRing c (some (reportedRing g spans)) s) (by simp) c).trans ?_
    rw [ringOf_setRing, if_pos rfl]
  · have hnq := foldl_keeps_nq (fun s o => releaseEntry o s) (fun s o => (releaseEntry_keeps o s).2.2.2.2.2.2.2.2.2.2.1)
    rw [hnq]
    refine noticeVoids (s := setRing c (some (reportedRing g spans)) s) (Nat.le_trans ?_ hroom)
    exact Nat.add_le_add_left (List.length_filter_le _ _) _
  · obtain ⟨he, hrest⟩ := ha
    exact ⟨(entryOf_congr (by simp [setRing]) _).trans he, hrest⟩

end Sys2Proof.LinkPassage
end

