-- ==== Sys2Proof/Proofs/DoneEnds.lean ====
section
namespace Sys2Proof.LinkPassage
open Sys2Proof Sys2Proof.Machine

/-! ### What follows the report at the end of an entry (R33) -/

/-- The steps at the end of an entry that follow its report: its notice, the counts of its contexts, and the drain snapshot (R33). -/
def afterReport (o : Owner) (e : Entry) (s : State) : State :=
  leaveSnapshot o (e.touched.foldl lowerInFlight (noticeWithheld o e s))

theorem endTag_eq {k : Tag} {e : Entry} {s : State} (r : Option Bool) (he : entryOf s (.tag k) = some e) :
    endEntry (.tag k) r s =
      clearQueueWait (setEntry (.tag k) none (afterReport (.tag k) e (reportEnd (.tag k) e r (releaseEntrySlots (.tag k) e s)))) := by
  rw [endEntry, he]
  rfl

/-- A ring of a context that does not close is kept, and the context does not start to close. -/
def RingKept (c : CtxSlot) (s t : State) : Prop :=
  (ctxOf s c).state ≠ .closing → (ctxOf t c).state ≠ .closing ∧ ringOf t c = ringOf s c

theorem ringKept_of_same {c : CtxSlot} {s t : State} (hc : t.contexts = s.contexts) (hr : t.rings = s.rings) : RingKept c s t :=
  fun h => ⟨by rwa [ctxOf_congr hc], ringOf_congr hr c⟩

theorem RingKept.trans {c : CtxSlot} {s t u : State} (h : RingKept c s t) (k : RingKept c t u) : RingKept c s u := fun hs => by
  obtain ⟨ht, hr⟩ := h hs
  obtain ⟨hu, hr'⟩ := k ht
  exact ⟨hu, hr'.trans hr⟩

theorem counted_state (c d : CtxSlot) (s : State) : (ctxOf (counted d s) c).state = (ctxOf s c).state := by
  rw [ctxOf_counted]
  split
  next h => rw [h]
  next => rfl

theorem ringKept_counted (c d : CtxSlot) (s : State) : RingKept c s (counted d s) :=
  fun h => ⟨by rwa [counted_state], rfl⟩

theorem ringKept_completeSeal (c d : CtxSlot) (s : State) : RingKept c s (completeSeal d s) := by
  intro h
  have hctx : ctxOf (completeSeal d s) c = if c = d then { ctxOf s d with state := .sealed } else ctxOf s c := ctxOf_setCtx d c _ s
  refine ⟨?_, ringOf_congr (by simp) c⟩
  rw [hctx]
  split
  · simp
  · exact h

theorem ringKept_completeClose {c d : CtxSlot} (h : c ≠ d) (s : State) : RingKept c s (completeClose d s) :=
  fun hs => ⟨by rwa [ctxOf_completeClose, if_neg h], by rw [ringOf_completeClose, if_neg h]⟩

theorem ringKept_lowerInFlight (c d : CtxSlot) (s : State) : RingKept c s (lowerInFlight s d) := by
  by_cases hs : Seals d s
  · rw [lowerInFlight_seals hs]
    exact (ringKept_counted c d s).trans (ringKept_completeSeal c d _)
  · by_cases hc : Closes d s
    · rw [lowerInFlight_closes hc]
      intro h
      have hne : c ≠ d := by
        rintro rfl
        exact h hc.2.1
      exact ((ringKept_counted c d s).trans (ringKept_completeClose hne _)) h
    · rw [lowerInFlight_counts hs hc]
      exact ringKept_counted c d s

theorem appends_completeClose (d : CtxSlot) (s : State) : Appends s (completeClose d s) := by
  have h := appends_queueNotice .closed (some d) none none (ctxOf s d).withheld s
  unfold Appends at h ⊢
  rwa [completeClose_nq]

theorem appends_lowerInFlight (d : CtxSlot) (s : State) : Appends s (lowerInFlight s d) := by
  have hcount : Appends s (counted d s) := appends_of_same rfl
  by_cases hs : Seals d s
  · rw [lowerInFlight_seals hs]
    have hstate : Appends (counted d s) (updateCtx d (fun x => { x with state := .sealed }) (counted d s)) := appends_of_same rfl
    exact (hcount.trans hstate).trans (appends_queueNotice _ _ _ _ _ _)
  · by_cases hc : Closes d s
    · rw [lowerInFlight_closes hc]
      exact hcount.trans (appends_completeClose d _)
    · rw [lowerInFlight_counts hs hc]
      exact hcount

theorem appends_leaveSnapshot (o : Owner) (s : State) : Appends s (leaveSnapshot o s) := by
  by_cases hd : Drained o s
  · rw [leaveSnapshot_drained hd]
    have h : Appends s { s with req := { s.req with snapshot := s.req.snapshot.filter (· ≠ o), drainPending := false } } :=
      appends_of_same rfl
    exact h.trans (appends_queueNotice _ _ _ _ _ _)
  · rw [leaveSnapshot_others hd]
    exact appends_of_same rfl

/-- The steps after the report write no entry, keep every ring but of a context that closes, and add notices alone (R33). -/
theorem afterReport_keeps (o : Owner) (e : Entry) (s : State) :
    (afterReport o e s).trk = s.trk ∧ Appends s (afterReport o e s) ∧ ∀ c, RingKept c s (afterReport o e s) := by
  have hfold : ∀ (l : List CtxSlot) (u : State), Appends u (l.foldl lowerInFlight u) ∧ ∀ c, RingKept c u (l.foldl lowerInFlight u) := by
    intro l
    induction l with
    | nil => exact fun u => ⟨appends_of_same rfl, fun c => ringKept_of_same rfl rfl⟩
    | cons d l ih =>
      intro u
      obtain ⟨happ, hring⟩ := ih (lowerInFlight u d)
      exact ⟨(appends_lowerInFlight d u).trans happ, fun c => (ringKept_lowerInFlight c d u).trans (hring c)⟩
  obtain ⟨happ, hring⟩ := hfold e.touched (noticeWithheld o e s)
  have hnotice : Appends s (noticeWithheld o e s) := by
    unfold noticeWithheld
    split
    · exact appends_queueNotice _ _ _ _ _ _
    · exact appends_of_same rfl
  refine ⟨by simp [afterReport], (hnotice.trans happ).trans (appends_leaveSnapshot o _), fun c => ?_⟩
  have hfirst : RingKept c s (noticeWithheld o e s) := ringKept_of_same (by simp) (by simp)
  have hlast : ∀ u, RingKept c u (leaveSnapshot o u) := fun u => ringKept_of_same (by simp) (by simp)
  exact (hfirst.trans (hring c)).trans (hlast _)

/-! ### What is left when a tag's entry has ended -/

theorem clearQueueWait_released {p : Owner} {s : State} (h : p ∈ s.trk.released) : p ∈ (clearQueueWait s).trk.released := by
  unfold clearQueueWait
  split
  next => exact h
  next =>
    split
    next => exact h
    next e he =>
      split
      next =>
        rw [forwardEntry_setEntry]
        split
        next => exact List.mem_append_left _ h
        next => exact h
      next => exact h

theorem forwarded_ended {q k : Tag} {a : Entry} {s : State} (h : Forwarded q a s) (hq : q ≠ k) :
    Forwarded q a (clearQueueWait (setEntry (.tag k) none s)) := by
  obtain ⟨he, hr⟩ := h
  refine ⟨?_, clearQueueWait_released hr⟩
  rw [clearQueueWait_tag, entryOf_setEntry, if_neg (by simpa using hq)]
  exact he

/-- The COMMAND of an entry that has been forwarded is sent when the event ends (R28). -/
theorem forwarded_sent {q : Tag} {a : Entry} {s : State} (h : Forwarded q a s) (f : Frame) :
    entryOf (flushReleased (placeRelayed f s)) (.tag q) = some { a with state := .forwarded, ringWindow := false } ∧
      .command a.cmd ∈ (flushReleased (placeRelayed f s)).drv.sent := by
  obtain ⟨he, hr⟩ := h
  refine ⟨(entryOf_flushReleased _ _).trans he, ?_⟩
  rw [flushReleased_eq]
  refine List.mem_append_right _ (List.mem_filterMap.2 ⟨.tag q, hr, ?_⟩)
  have he' : entryOf (placeRelayed f s) (.tag q) = some { a with state := .forwarded, ringWindow := false } := he
  rw [commandOf, he']
  rfl

/-- The state in which a DONE ends its one tag's entry: the tables as they were, and no other tag's entry changed. -/
theorem readied_keeps {d : DoneFrame} {k : Tag} {e : Entry} {ok : Bool} {s : State} (hn : NamesOne d k e ok)
    (hd : doneAborts d = false) (he : entryOf s (.tag k) = some e) :
    (∃ e', entryOf (readied d k s) (.tag k) = some e' ∧ SameTransfer e e') ∧
      (∀ q, q ≠ k → entryOf (readied d k s) (.tag q) = entryOf s (.tag q)) ∧
      (readied d k s).contexts = s.contexts ∧ (readied d k s).rings = s.rings ∧ (readied d k s).nq = s.nq ∧
      (readied d k s).time = s.time ∧ (readied d k s).faults = s.faults := by
  have hq : ∀ q : Tag, entryOf (readied d k s) (.tag q) = entryOf (closeOwned (doneNames d) s) (.tag q) := fun q => by
    have h : (readied d k s).trk.queued = (closeOwned (doneNames d) s).trk.queued := by simp [readied]
    exact congrArg (fun v : Vector (Option Entry) 32 => v.get q) h
  obtain ⟨e', he', hsame⟩ := entryOf_closeOwned (doneNames d) he
  refine ⟨⟨e', (hq k).trans he', hsame⟩, fun q h => ?_, ?_, ?_, ?_, ?_, ?_⟩
  · rw [hq, entryOf_closeOwned_other (namesOne_other hn hd h)]
  all_goals simp [readied]

/-- A DONE whose one tag has no record on the acceptance list and is closed by it: nothing is sent ahead of it. -/
theorem readied_sendList {d : DoneFrame} {k : Tag} {s : State} (ha : ∀ r ∈ s.trk.accepts, r.tag ≠ k) :
    (readied d k s).up.sendList = s.up.sendList := by
  have hnone : ((closeOwned (doneNames d) s).trk.accepts.any fun r => r.tag = k && r.action = .relay) = false := by
    simp only [closeOwned_keeps, List.any_eq_false]
    intro r hr
    simp [ha r hr]
  rw [readied, answerAhead, if_neg (by rw [hnone]; simp)]
  simp

/-- What the end of a ring write by a DONE leaves (R109, R111, R112, R113). -/
theorem ringWrite_ends {d : DoneFrame} {k : Tag} {e : Entry} {c : CtxSlot} {g : Machine.Ring} {l m : List Span} {x : Span} {ok : Bool}
    {s : State} (hn : NamesOne d k e ok) (hd : doneAborts d = false) (he : entryOf s (.tag k) = some e) (hf : e.state = .forwarded)
    (hw : e.ringWrite = some c) (hopen : (ctxOf s c).state ≠ .closing) (hg : ringOf s c = some g) (hspans : g.spans = l ++ x :: m)
    (hx : x.owner = .tag k) (hxf : x.status = .forwarded) (hl : ∀ y ∈ l, y.owner = .tag k → y.status ≠ .forwarded) :
    ringOf (takeDone d s) c = some (reportedRing g (markedSpans l m x ok)) ∧
    (s.nq.notices.length + ((markedSpans l m x ok).takeWhile (SpanEnded ·)).length ≤ 32 →
      s.nq.notices ++ (((markedSpans l m x ok).takeWhile (SpanEnded ·)).filter fun y => y.status = .failed).map (fun y =>
        noticeOf s .ringVoid (some c) (ownerTag y.owner) none y.count) <+: (takeDone d s).nq.notices) ∧
    ∀ (q : Tag) (a : Entry), q ≠ k → AwaitsSpan q a s →
      .tag q ∈ (releaseSpans (forwardedCount ((markedSpans l m x ok).dropWhile (SpanEnded ·)))
        ((markedSpans l m x ok).dropWhile (SpanEnded ·))).2 →
      entryOf (takeDone d s) (.tag q) = some { a with state := .forwarded, ringWindow := false } ∧
        .command a.cmd ∈ (takeDone d s).drv.sent := by
  obtain ⟨⟨e', he', hsame⟩, hother, hctx, hrings, hnq, htime, -⟩ := readied_keeps hn hd he
  rw [takeDone_one hn hd he hf, endTag_eq _ he']
  have hreport : ∀ u, reportEnd (.tag k) e' (some ok) u = reportOutcome c (.tag k) ok u := fun u => by
    simp [reportEnd, hsame.ringWrite, hw]
  rw [hreport]
  obtain ⟨-, -, ktrk, kctx, -, kring, ktime, -, knq, -⟩ := releaseEntrySlots_keeps (.tag k) e' (readied d k s)
  generalize releaseEntrySlots (.tag k) e' (readied d k s) = v at *
  have hgv : ringOf v c = some g := (ringOf_congr (kring.trans hrings) c).trans hg
  obtain ⟨hring, hcontexts, hvoids, hforwards⟩ := reported_reportOutcome ok hgv hspans hx hxf hl
  generalize reportOutcome c (.tag k) ok v = w at *
  obtain ⟨htrk, happ, hkept⟩ := afterReport_keeps (.tag k) e' w
  generalize afterReport (.tag k) e' w = y at *
  have hopen' : (ctxOf w c).state ≠ .closing := by rwa [ctxOf_congr (hcontexts.trans (kctx.trans hctx))]
  have hnotices : v.nq.notices = s.nq.notices := by rw [knq, hnq]
  refine ⟨?_, fun hroom => ?_, fun q a hq ha hfree => ?_⟩
  · refine (ringOf_congr ?_ c).trans ((hkept c hopen').2.trans hring)
    simp [placeRelayed, placeItem]
  · have hlast : (flushReleased (placeRelayed (.done d) (clearQueueWait (setEntry (.tag k) none y)))).nq = y.nq := by
      simp [placeRelayed, placeItem]
    have hv := hvoids (by rwa [hnotices])
    unfold Appends at happ
    rw [hv, hnotices] at happ
    rw [hlast]
    simpa only [noticeOf, ktime, htime] using happ
  · have hav : AwaitsSpan q a v := ⟨by rw [entryOf_congr ktrk, hother q hq, ha.1], ha.2⟩
    have hw : Forwarded q a w := hforwards q a hav hfree
    have hy : Forwarded q a y := ⟨(entryOf_congr htrk _).trans hw.1, by rw [htrk]; exact hw.2⟩
    exact forwarded_sent (forwarded_ended hy hq) (.done d)

/-- Settles O26, by what a DONE ends of each tag, and by the report of a ring write's end. -/
theorem doneEndsEntries : Obligations.DoneEndsEntries := by
  intro d s hw ht hd
  rw [exec_done hw ht]
  refine ⟨⟨_, rfl, fun k hnamed hwith => ?_, fun k hset hpairs => ?_⟩, fun k e hset hfailed he hf hpassed hpart haccepts => ?_, ?_⟩
  · rw [takeDone_ends hd]
    exact (doneEnded_uses d k s).1 hnamed hwith
  · rw [takeDone_ends hd]
    exact (doneEnded_uses d k s).2 hset hpairs
  · have hn : NamesOne d k e true := ⟨hset, hfailed, hpassed, hpart⟩
    refine ⟨_, rfl, ?_⟩
    rw [takeDone_one hn hd he hf]
    obtain ⟨-, -, -, -, -, -, hfaults⟩ := readied_keeps hn hd he
    refine ⟨?_, ?_, ?_⟩
    · exact (entryOf_flushReleased _ _).trans ((entryOf_placeRelayed _ _ _).trans (entryOf_endEntry _ _ _))
    · rw [← readied_sendList (d := d) haccepts]
      simp [placeRelayed, placeItem, fromDrive]
    · rw [← hfaults]
      simp [placeRelayed, placeItem]
  · intro k e c g l m x ok hn he hf hrw hopen hg hspans hx hxf hl
    obtain ⟨hring, hvoids, hforwards⟩ := ringWrite_ends hn hd he hf hrw hopen hg hspans hx hxf hl
    refine ⟨_, rfl, ⟨_, hring, rfl, releaseSpans_length _ _, fun j y hy => ?_⟩, fun hroom => ?_, ?_⟩
    · obtain ⟨hin, hout⟩ := releaseSpans_at (forwardedCount ((markedSpans l m x ok).dropWhile (SpanEnded ·))) _ hy
      exact ⟨fun h => (hin h).1, hout⟩
    · obtain ⟨tail, htail⟩ := hvoids hroom
      exact ⟨tail, htail.symm⟩
    · intro j y q a hy hfreed hyq hq ha hstate hwait
      obtain ⟨hin, -⟩ := releaseSpans_at (forwardedCount ((markedSpans l m x ok).dropWhile (SpanEnded ·))) _ hy
      exact hforwards q a hq ⟨ha, hstate, hwait⟩ (hyq ▸ (hin hfreed).2)

end Sys2Proof.LinkPassage
end

