-- ==== Sys2Proof/Proofs/PoolAllocation.lean ====
section
namespace Sys2Proof.LinkPassage
open Sys2Proof Sys2Proof.Machine

/-! ### STREAM jobs that stay queued (R133, R135) -/

/-- Two STREAM jobs for the same sector, whatever key slot counts them. -/
def SameStream (j k : StreamJob) : Prop :=
  k.pool = j.pool ∧ k.ctx = j.ctx ∧ k.lap = j.lap ∧ k.logical = j.logical ∧ k.retried = j.retried

/-- Every STREAM job queued in s is queued in t. -/
def StreamsStay (s t : State) : Prop := ∀ j ∈ s.eng.streams, ∃ k ∈ t.eng.streams, SameStream j k

theorem streamsStay_of_subset {s t : State} (h : s.eng.streams ⊆ t.eng.streams) : StreamsStay s t :=
  fun j hj => ⟨j, h hj, rfl, rfl, rfl, rfl, rfl⟩

theorem StreamsStay.trans {s t u : State} (h : StreamsStay s t) (k : StreamsStay t u) : StreamsStay s u := fun j hj => by
  obtain ⟨a, ha, h1, h2, h3, h4, h5⟩ := h j hj
  obtain ⟨b, hb, k1, k2, k3, k4, k5⟩ := k a ha
  exact ⟨b, hb, k1.trans h1, k2.trans h2, k3.trans h3, k4.trans h4, k5.trans h5⟩

theorem streamsStay_allocateSlot (k : KeyNo) (c : CtxSlot) (s : State) : StreamsStay s (allocateSlot k c s) := fun j hj => by
  refine ⟨_, List.mem_map_of_mem hj, ?_⟩
  split <;> exact ⟨rfl, rfl, rfl, rfl, rfl⟩

theorem streamsStay_obtainSlot (c : CtxSlot) (s : State) : StreamsStay s (obtainSlot c s) := by
  unfold obtainSlot
  split
  next => exact streamsStay_of_subset (List.Subset.refl _)
  next =>
    split
    next => exact streamsStay_allocateSlot _ _ _
    next =>
      split
      next => exact streamsStay_allocateSlot _ _ _
      next => exact streamsStay_of_subset (List.Subset.refl _)

/-- A STREAM job joins the queue, and those that are queued stay (R135). -/
theorem queueStream_streams (j : StreamJob) (s : State) :
    StreamsStay s (queueStream j s) ∧ ∃ k ∈ (queueStream j s).eng.streams, SameStream j k := by
  unfold queueStream
  split
  next k _ =>
    exact ⟨streamsStay_of_subset (List.subset_append_left _ _),
      { j with keySlot := some k }, List.mem_append_right _ List.mem_cons_self, rfl, rfl, rfl, rfl, rfl⟩
  next =>
    have hjoin : StreamsStay s { s with eng := { s.eng with streams := s.eng.streams ++ [{ j with keySlot := none }] } } :=
      streamsStay_of_subset (List.subset_append_left _ _)
    have hslot := streamsStay_obtainSlot j.ctx { s with eng := { s.eng with streams := s.eng.streams ++ [{ j with keySlot := none }] } }
    refine ⟨hjoin.trans hslot, ?_⟩
    exact hslot { j with keySlot := none } (List.mem_append_right _ List.mem_cons_self)

/-! ### Allocation (R145) -/

/-- The FREE pool slots, in slot order. -/
def freeList (s : State) : List PoolNo :=
  (List.finRange 64).filter fun p => (s.pool.slots.get p).isNone

theorem freePool_eq (s : State) : freePool s = (freeList s).head? := (List.head?_filter ..).symm

/-- A pool slot taken from the FREE ones. -/
theorem freeList_take {p : PoolNo} {x : PoolSlot} {l : List PoolNo} {s t : State} (h : freeList s = p :: l)
    (ht : t.pool.slots = s.pool.slots.set p (some x)) : freeList t = l := by
  have hfree : freeList t = (freeList s).filter fun q => q ≠ p := by
    unfold freeList
    rw [List.filter_filter, ht]
    refine List.filter_congr fun q _ => ?_
    rw [get_set]
    by_cases hq : p = q
    · rw [if_pos hq]
      simp [hq]
    · rw [if_neg hq]
      simp [Ne.symm hq]
  have hnodup : (freeList s).Nodup := (List.nodup_finRange 64).filter _
  rw [h, List.nodup_cons] at hnodup
  rw [hfree, h, List.filter_cons_of_neg (by simp), List.filter_eq_self]
  rintro q hq
  have : q ≠ p := fun hp => hnodup.1 (hp ▸ hq)
  simpa using this

/-- One more member of a list satisfies a predicate. -/
theorem length_filter_succ {α : Type} {l : List α} {a : α} {p q : α → Bool} (hn : l.Nodup) (ha : a ∈ l) (hp : p a = false)
    (hq : q a = true) (h : ∀ b, b ≠ a → q b = p b) : (l.filter q).length = (l.filter p).length + 1 := by
  induction l with
  | nil => exact absurd ha List.not_mem_nil
  | cons b l ih =>
    obtain ⟨hb, hl⟩ := List.nodup_cons.1 hn
    by_cases hab : b = a
    · subst hab
      have hsame : l.filter q = l.filter p := List.filter_congr fun c hc => h c fun hcb => hb (hcb ▸ hc)
      rw [List.filter_cons_of_pos hq, List.filter_cons_of_neg (by simp [hp]), hsame, List.length_cons]
    · have hrest := ih hl ((List.mem_cons.1 ha).resolve_left (Ne.symm hab))
      cases hpb : p b with
      | true =>
        rw [List.filter_cons_of_pos (by rw [h b hab, hpb]), List.filter_cons_of_pos hpb, List.length_cons, hrest, List.length_cons]
      | false =>
        rw [List.filter_cons_of_neg (by rw [h b hab, hpb]; simp), List.filter_cons_of_neg (by simp [hpb]), hrest]

theorem slotsHeld_take {p : PoolNo} {x : PoolSlot} {o : Owner} {s t : State} (hp : s.pool.slots.get p = none) (hx : x.owner = o)
    (ht : t.pool.slots = s.pool.slots.set p (some x)) : slotsHeld t o = slotsHeld s o + 1 := by
  unfold slotsHeld
  refine length_filter_succ (List.nodup_finRange 64) (List.mem_finRange p) (by simp [hp]) ?_ fun q hq => ?_
  · rw [ht, get_set, if_pos rfl]
    simp [hx]
  · rw [ht, get_set, if_neg (Ne.symm hq)]

theorem freeList_mem {p : PoolNo} {s : State} (h : p ∈ freeList s) : s.pool.slots.get p = none := by
  simpa [freeList] using h

/-- A state that differs in neither slots nor order has the same allocation. -/
theorem allocated_congr {o : Owner} {e : Entry} {l : List Nat} {n : Nat} {s s' t t' : State} (hs : s'.pool.slots = s.pool.slots)
    (hn : s'.pool.nextOrder = s.pool.nextOrder) (hu : t'.pool.unserved = t.pool.unserved) (ho : t'.pool.nextOrder = t.pool.nextOrder)
    (ht : t'.pool.slots = t.pool.slots) (he : t'.eng = t.eng) (h : Allocated o e l n s t) : Allocated o e l n s' t' := by
  unfold Allocated slotsHeld at *
  rw [hs, hn, hu, ho, ht, he]
  exact h

/-- The state with a sector's pool slot assigned and its STREAM job queued (R145). -/
theorem assigned_leaves (o : Owner) (off : Nat) (c : CtxSlot) (lap logical : Nat) (p : PoolNo) (s : State) :
    (assignSlot o off c lap logical p s).pool.slots = s.pool.slots.set p (some
        { owner := o, offset := off, ctx := c, lap := lap, logical := logical, order := s.pool.nextOrder, phase := .assigned }) ∧
      (assignSlot o off c lap logical p s).pool.nextOrder = s.pool.nextOrder + 1 ∧
      (assignSlot o off c lap logical p s).pool.unserved = s.pool.unserved ∧
      StreamsStay s (assignSlot o off c lap logical p s) ∧
      ∃ q ∈ (assignSlot o off c lap logical p s).eng.streams, q.pool = p ∧ q.ctx = c ∧ q.lap = lap ∧ q.logical = logical ∧
        q.retried = false := by
  unfold assignSlot
  refine ⟨by simp, by simp, by simp, ?_, ?_⟩
  · exact fun j hj => (queueStream_streams _ _).1 j hj
  · exact (queueStream_streams _ _).2

theorem streamsStay_allocateFrom (o : Owner) (e : Entry) (l : List Nat) (s : State) : StreamsStay s (allocateFrom o e l s) := by
  induction l generalizing s with
  | nil => exact streamsStay_of_subset (List.Subset.refl _)
  | cons off l ih =>
    unfold allocateFrom
    split
    next p c lap logical _ _ =>
      split
      next =>
        have h : StreamsStay s (assignSlot o off c lap logical p { s with pool := { s.pool with unserved := l } }) :=
          (assigned_leaves o off c lap logical p { s with pool := { s.pool with unserved := l } }).2.2.2.1
        exact h.trans (ih _)
      next => exact streamsStay_of_subset (List.Subset.refl _)
    next => exact streamsStay_of_subset (List.Subset.refl _)

/-- The first k of the sectors that wait have the first k of the slots given (R145). -/
def Serves (o : Owner) (e : Entry) (waiting : List Nat) (free : List PoolNo) (k : Nat) (s t : State) : Prop :=
  t.pool.unserved = waiting.drop k ∧ t.pool.nextOrder = s.pool.nextOrder + k ∧
    (∀ p, p ∉ free.take k → t.pool.slots.get p = s.pool.slots.get p) ∧
    ∀ j p off a lap l, j < k → free[j]? = some p → waiting[j]? = some off → protectedAt e off = some (a, lap, l) →
      t.pool.slots.get p = some
        { owner := o, offset := off, ctx := a, lap := lap, logical := l, order := s.pool.nextOrder + j, phase := .assigned } ∧
      ∃ q ∈ t.eng.streams, q.pool = p ∧ q.ctx = a ∧ q.lap = lap ∧ q.logical = l ∧ q.retried = false

/-- The number of sectors that an allocation serves (R145). -/
def serveCount (o : Owner) (waiting : List Nat) (limit : Nat) (s : State) : Nat :=
  min waiting.length (min (limit - slotsHeld s o) (freeList s).length)

theorem allocated_iff {o : Owner} {e : Entry} {l : List Nat} {n : Nat} {s t : State} :
    Allocated o e l n s t ↔ Serves o e l (freeList s) (serveCount o l n s) s t := Iff.rfl

/-- Nothing is allocated where no slot is FREE or the command holds its limit. -/
theorem allocated_none {o : Owner} {e : Entry} {l : List Nat} {n : Nat} {s : State} (hu : s.pool.unserved = l)
    (h : l = [] ∨ n ≤ slotsHeld s o ∨ freeList s = []) : Allocated o e l n s s := by
  have hk : serveCount o l n s = 0 := by
    unfold serveCount
    rcases h with h | h | h
    · simp [h]
    · omega
    · simp [h]
  rw [allocated_iff, hk]
  exact ⟨hu, rfl, fun _ _ => rfl, fun j p off a lap i hj => absurd hj (Nat.not_lt_zero j)⟩

/-- A first sector is served with a slot of its own, then the others with the slots that follow. -/
theorem serves_cons {o : Owner} {e : Entry} {off : Nat} {l : List Nat} {p : PoolNo} {free : List PoolNo} {k : Nat} {c : CtxSlot}
    {lap logical : Nat} {s u t : State} (hp : p ∉ free) (hpro : protectedAt e off = some (c, lap, logical))
    (hslots : u.pool.slots = s.pool.slots.set p (some
        { owner := o, offset := off, ctx := c, lap := lap, logical := logical, order := s.pool.nextOrder, phase := .assigned }))
    (horder : u.pool.nextOrder = s.pool.nextOrder + 1)
    (hjob : ∃ q ∈ t.eng.streams, q.pool = p ∧ q.ctx = c ∧ q.lap = lap ∧ q.logical = logical ∧ q.retried = false)
    (h : Serves o e l free k u t) : Serves o e (off :: l) (p :: free) (k + 1) s t := by
  obtain ⟨hun, hord, hkept, hall⟩ := h
  refine ⟨hun, by rw [hord, horder]; omega, fun q hq => ?_, fun j p' off' a lap' l' hj hp' hoff hpro' => ?_⟩
  · rw [List.take_succ_cons, List.mem_cons, not_or] at hq
    rw [hkept q hq.2, hslots, get_set, if_neg (Ne.symm hq.1)]
  · cases j with
    | zero =>
      cases hp'
      cases hoff
      rw [hpro] at hpro'
      cases hpro'
      refine ⟨?_, hjob⟩
      rw [hkept p fun hm => hp (List.mem_of_mem_take hm), hslots, get_set, if_pos rfl]
      rfl
    | succ j =>
      obtain ⟨hslot, hjobs⟩ := hall j p' off' a lap' l' (Nat.lt_of_succ_lt_succ hj) hp' hoff hpro'
      refine ⟨hslot.trans ?_, hjobs⟩
      rw [horder, Nat.add_assoc, Nat.add_comm 1 j]

/-- A first sector is allocated the lowest FREE slot, and then the others as many as may be. -/
theorem allocated_cons {o : Owner} {e : Entry} {off : Nat} {l : List Nat} {n : Nat} {p : PoolNo} {free : List PoolNo} {c : CtxSlot}
    {lap logical : Nat} {s t : State} (hfree : freeList s = p :: free) (hn : slotsHeld s o < n)
    (hpro : protectedAt e off = some (c, lap, logical))
    (ht : StreamsStay (assignSlot o off c lap logical p { s with pool := { s.pool with unserved := l } }) t)
    (h : Allocated o e l n (assignSlot o off c lap logical p { s with pool := { s.pool with unserved := l } }) t) :
    Allocated o e (off :: l) n s t := by
  obtain ⟨aslots, aorder, -, -, q, hq, hjob⟩ := assigned_leaves o off c lap logical p { s with pool := { s.pool with unserved := l } }
  generalize assignSlot o off c lap logical p { s with pool := { s.pool with unserved := l } } = u at *
  have hfreeU : freeList u = free := freeList_take hfree aslots
  have hheld : slotsHeld u o = slotsHeld s o + 1 := slotsHeld_take (freeList_mem (by rw [hfree]; exact List.mem_cons_self)) rfl aslots
  have hnodup : p ∉ free := by
    have hnd : (freeList s).Nodup := (List.nodup_finRange 64).filter _
    rw [hfree, List.nodup_cons] at hnd
    exact hnd.1
  have hk : serveCount o (off :: l) n s = serveCount o l n u + 1 := by
    simp only [serveCount, hfree, hfreeU, hheld, List.length_cons]
    omega
  rw [allocated_iff, hfreeU] at h
  rw [allocated_iff, hk, hfree]
  obtain ⟨q', hq', k1, k2, k3, k4, k5⟩ := ht q hq
  obtain ⟨h1, h2, h3, h4, h5⟩ := hjob
  exact serves_cons hnodup hpro aslots aorder
    ⟨q', hq', k1.trans h1, k2.trans h2, k3.trans h3, k4.trans h4, k5.trans h5⟩ h

theorem allocated_allocateFrom {o : Owner} {e : Entry} {l : List Nat} {s : State} (hp : ∀ u ∈ l, (protectedAt e u).isSome = true)
    (hu : s.pool.unserved = l) : Allocated o e l s.req.lookahead s (allocateFrom o e l s) := by
  induction l generalizing s with
  | nil => exact allocated_none hu (.inl rfl)
  | cons off l ih =>
    obtain ⟨⟨c, lap, logical⟩, hpro⟩ := Option.isSome_iff_exists.1 (hp off List.mem_cons_self)
    cases hfree : freeList s with
    | nil =>
      have hnone : allocateFrom o e (off :: l) s = s := by
        rw [allocateFrom, freePool_eq, hfree]
        rfl
      rw [hnone]
      exact allocated_none hu (.inr (.inr hfree))
    | cons p free =>
      have hstep : allocateFrom o e (off :: l) s =
          if slotsHeld s o < s.req.lookahead then
            allocateFrom o e l (assignSlot o off c lap logical p { s with pool := { s.pool with unserved := l } })
          else s := by
        rw [allocateFrom, freePool_eq, hfree, hpro]
        rfl
      rw [hstep]
      by_cases hn : slotsHeld s o < s.req.lookahead
      · rw [if_pos hn]
        obtain ⟨-, -, aun, -⟩ := assigned_leaves o off c lap logical p { s with pool := { s.pool with unserved := l } }
        have hrest := ih (s := assignSlot o off c lap logical p { s with pool := { s.pool with unserved := l } })
          (fun u hm => hp u (List.mem_cons_of_mem off hm)) aun
        have hreq : (assignSlot o off c lap logical p { s with pool := { s.pool with unserved := l } }).req.lookahead = s.req.lookahead := by
          simp
        rw [hreq] at hrest
        exact allocated_cons hfree hn hpro (streamsStay_allocateFrom o e l _) hrest
      · rw [if_neg hn]
        exact allocated_none hu (.inr (.inl (Nat.not_lt.1 hn)))

/-- A refill serves the open burst's unserved sectors (R146). -/
theorem allocated_refill {b : DriveBurst} {e : Entry} {s : State} (hb : s.drv.burst = some b) (he : entryOf s b.owner = some e)
    (hp : ∀ u ∈ s.pool.unserved, (protectedAt e u).isSome = true) :
    Allocated b.owner e s.pool.unserved s.req.lookahead s (refill s) := by
  rw [refill, hb]
  dsimp only
  rw [he]
  exact allocated_allocateFrom hp rfl

end Sys2Proof.LinkPassage
end

