-- ==== Sys2Proof/Proofs/SettledSectors.lean ====
section
namespace Sys2Proof.LinkPassage
open Sys2Proof Sys2Proof.Machine

/-! ### What a sector can be settled with (R149) -/

/-- The phase of the pool slot that serves a sector. -/
def slotPhase (s : State) (o : Owner) (off : Nat) : Option PoolPhase :=
  ((slotFor s o off).bind fun p => s.pool.slots.get p).map (·.phase)

/-- What an unsettled protected sector can be settled with: zeros where it is marked or its slot is FAULTED, the keystream of a READY slot, or
nothing yet (R149). -/
def settling (s : State) (o : Owner) (off : Nat) : Option (Option Sector) :=
  if off ∈ s.pool.marked then some none
  else
    match slotPhase s o off with
    | some (.ready k) => some (some k)
    | some .faulted => some none
    | _ => none

theorem settling_congr {s t : State} {o : Owner} {a : Nat} (hm : a ∈ t.pool.marked ↔ a ∈ s.pool.marked)
    (hp : slotPhase t o a = slotPhase s o a) : settling t o a = settling s o a := by
  unfold settling
  rw [hp]
  by_cases h : a ∈ s.pool.marked
  · rw [if_pos h, if_pos (hm.2 h)]
  · rw [if_neg h, if_neg fun ht => h (hm.1 ht)]

theorem slotFor_some {s : State} {o : Owner} {a : Nat} {p : PoolNo} (h : slotFor s o a = some p) :
    ∃ y, s.pool.slots.get p = some y ∧ y.owner = o ∧ y.offset = a := by
  have hp := List.find?_some h
  simpa using hp

/-- A freed slot served no other sector of its owner. -/
theorem slot_freed {s t : State} {o : Owner} {a off : Nat} {p : PoolNo} (hp : slotFor s o off = some p) (ha : a ≠ off)
    (ht : t.pool.slots = s.pool.slots.set p none) : slotFor t o a = slotFor s o a ∧ slotPhase t o a = slotPhase s o a := by
  obtain ⟨y, hy, -, hoff⟩ := slotFor_some hp
  have hfor : slotFor t o a = slotFor s o a := by
    unfold slotFor
    congr 1
    funext q
    rw [ht, get_set]
    by_cases hq : p = q
    · subst hq
      rw [if_pos rfl, hy]
      have : ¬y.offset = a := by
        rw [hoff]
        exact Ne.symm ha
      simp [this]
    · rw [if_neg hq]
  refine ⟨hfor, ?_⟩
  unfold slotPhase
  rw [hfor]
  cases hq : slotFor s o a with
  | none => rfl
  | some q =>
    obtain ⟨z, hz, -, hza⟩ := slotFor_some hq
    have hne : p ≠ q := by
      rintro rfl
      rw [hy] at hz
      cases hz
      exact ha (hza.symm.trans hoff)
    rw [Option.bind_some, Option.bind_some, ht, get_set, if_neg hne]

/-- Sectors that are settled stay settled as they are while others join them. -/
theorem settledWith_prefix {s t : State} {a : Nat} (h : s.pool.settled <+: t.pool.settled)
    (ha : isSettled t a = isSettled s a ∨ isSettled s a = true) :
    settledWith t a = settledWith s a := by
  obtain ⟨m, hm⟩ := h
  unfold settledWith
  rw [← hm, List.find?_append]
  cases hf : s.pool.settled.find? fun x => x.offset = a with
  | some x => rfl
  | none =>
    have hs : isSettled s a = false := by
      simpa [isSettled] using hf
    have ht : isSettled t a = false := by
      rcases ha with h | h
      · rw [h, hs]
      · rw [hs] at h
        cases h
    have hnone : m.find? (fun x => x.offset = a) = none := by
      rw [List.find?_eq_none]
      intro x hx
      have hall : ∀ x ∈ t.pool.settled, ¬x.offset = a := by simpa [isSettled] using ht
      simpa using hall x (hm ▸ List.mem_append_right _ hx)
    rw [hnone]
    rfl

/-- What the settling of the sectors of a frame leaves of the Pool (R149). -/
structure Settles (o : Owner) (e : Entry) (l : List Nat) (s t : State) : Prop where
  unserved : t.pool.unserved = []
  freed : ∀ p, s.pool.slots.get p = none → t.pool.slots.get p = none
  grown : s.pool.settled <+: t.pool.settled
  inside : ∀ a ∈ l, (protectedAt e a).isSome = true → isSettled s a = false →
    (∀ r, settling s o a = some r → { offset := a, keystream := r } ∈ t.pool.settled ∧ settledWith t a = r ∧
      (a ∉ s.pool.marked → ∀ p, slotFor s o a = some p → t.pool.slots.get p = none)) ∧
    (settling s o a = none → isSettled t a = false)
  outside : ∀ a, a ∉ l → slotFor t o a = slotFor s o a ∧ settling t o a = settling s o a ∧
    (a ∈ t.pool.marked ↔ a ∈ s.pool.marked) ∧ isSettled t a = isSettled s a

theorem settles_nothing {o : Owner} {e : Entry} {l : List Nat} {s : State} (hu : s.pool.unserved = [])
    (h : ∀ a ∈ l, (protectedAt e a).isSome = true → isSettled s a = false → settling s o a = none) : Settles o e l s s :=
  ⟨hu, fun _ h => h, List.prefix_refl _,
    fun a ha hp hs => ⟨fun r hr => absurd (hr.symm.trans (h a ha hp hs)) (by simp), fun _ => hs⟩, fun _ _ => ⟨rfl, rfl, Iff.rfl, rfl⟩⟩

/-- A sector that joins the settled ones, as the pool then stands. -/
theorem settles_one {o : Owner} {e : Entry} {off : Nat} {r : Option Sector} {s t : State} (hu : t.pool.unserved = [])
    (hfreed : ∀ p, s.pool.slots.get p = none → t.pool.slots.get p = none)
    (hsettled : t.pool.settled = s.pool.settled ++ [{ offset := off, keystream := r }]) (hr : settling s o off = some r)
    (hslot : off ∉ s.pool.marked → ∀ p, slotFor s o off = some p → t.pool.slots.get p = none)
    (hfor : ∀ a, a ≠ off → slotFor t o a = slotFor s o a ∧ slotPhase t o a = slotPhase s o a)
    (hmarked : ∀ a, a ≠ off → (a ∈ t.pool.marked ↔ a ∈ s.pool.marked)) : Settles o e [off] s t := by
  refine ⟨hu, hfreed, ⟨_, hsettled.symm⟩, fun a ha _ hs => ?_, fun a ha => ?_⟩
  · obtain rfl : a = off := by simpa using ha
    refine ⟨fun r' hr' => ?_, fun h => by rw [hr] at h; cases h⟩
    rw [hr] at hr'
    cases hr'
    refine ⟨by rw [hsettled]; exact List.mem_append_right _ List.mem_cons_self, ?_, hslot⟩
    have hnone : s.pool.settled.find? (fun x => x.offset = a) = none := by simpa [isSettled] using hs
    rw [settledWith, hsettled, List.find?_append, hnone]
    simp
  · have hne : a ≠ off := by simpa using ha
    obtain ⟨h1, h2⟩ := hfor a hne
    refine ⟨h1, settling_congr (hmarked a hne) h2, hmarked a hne, ?_⟩
    simp [isSettled, hsettled, Ne.symm hne]

/-- A freed slot with no sector to serve again (R149). -/
theorem freedSlot_pool {p : PoolNo} {s : State} (hu : s.pool.unserved = []) :
    (refill (freePoolSlot p s)).pool = { s.pool with slots := s.pool.slots.set p none } := by
  have h : (freePoolSlot p s).pool.unserved = [] := by rw [freePoolSlot_pool]; exact hu
  rw [refill_served h, freePoolSlot_pool]

theorem settles_slot {o : Owner} {e : Entry} {off : Nat} {r : Option Sector} {p : PoolNo} {s t : State} (hu : s.pool.unserved = [])
    (hr : settling s o off = some r) (hp : slotFor s o off = some p)
    (ht : t.pool = { s.pool with slots := s.pool.slots.set p none, settled := s.pool.settled ++ [{ offset := off, keystream := r }] }) :
    Settles o e [off] s t := by
  have hslots : t.pool.slots = s.pool.slots.set p none := by rw [ht]
  refine settles_one (by rw [ht]; exact hu) (fun q hq => ?_) (by rw [ht]) hr (fun _ q hq => ?_) (fun a ha => slot_freed hp ha hslots)
    (fun a _ => by rw [ht])
  · rw [hslots, get_set]
    split
    · rfl
    · exact hq
  · rw [hp] at hq
    cases hq
    rw [hslots, get_set, if_pos rfl]

theorem settles_marked {o : Owner} {e : Entry} {off : Nat} {s t : State} (hu : s.pool.unserved = []) (hm : off ∈ s.pool.marked)
    (ht : t.pool = { s.pool with marked := s.pool.marked.filter (· ≠ off), settled := s.pool.settled ++ [{ offset := off, keystream := none }] }) :
    Settles o e [off] s t := by
  have hslots : t.pool.slots = s.pool.slots := by rw [ht]
  refine settles_one (by rw [ht]; exact hu) (fun q hq => by rw [hslots]; exact hq) (by rw [ht]) (if_pos hm) (fun h => absurd hm h)
    (fun a _ => ?_) (fun a ha => ?_)
  · unfold slotPhase slotFor
    rw [hslots]
    exact ⟨rfl, rfl⟩
  · rw [ht]
    simp [ha]

theorem settles_settleSector (o : Owner) (e : Entry) (off : Nat) {s : State} (hu : s.pool.unserved = []) :
    Settles o e [off] s (settleSector o e off s) := by
  have hone : ((protectedAt e off).isSome = true → isSettled s off = false → settling s o off = none) →
      ∀ a ∈ [off], (protectedAt e a).isSome = true → isSettled s a = false → settling s o a = none := fun h a ha => by
    obtain rfl : a = off := by simpa using ha
    exact h
  unfold settleSector
  split
  next h =>
    refine settles_nothing hu (hone fun hp hs => ?_)
    rw [hs, Bool.or_false, Option.isNone_iff_eq_none] at h
    rw [h] at hp
    cases hp
  next =>
    split
    next hm => exact settles_marked hu (by simpa using hm) rfl
    next hm =>
      have hm' : off ∉ s.pool.marked := by simpa using hm
      have hset : settling s o off = match slotPhase s o off with
          | some (.ready k) => some (some k)
          | some .faulted => some none
          | _ => none := if_neg hm'
      cases hp : slotFor s o off with
      | none =>
        refine settles_nothing hu (hone fun _ _ => ?_)
        rw [hset, slotPhase, hp]
        rfl
      | some p =>
        dsimp only
        have hphase : slotPhase s o off = (s.pool.slots.get p).map (·.phase) := by rw [slotPhase, hp]; rfl
        rw [hphase] at hset
        cases hget : s.pool.slots.get p with
        | none =>
          rw [hget] at hset
          exact settles_nothing hu (hone fun _ _ => hset)
        | some y =>
          obtain ⟨owner, offset, ctx, lap, logical, order, phase⟩ := y
          rw [hget] at hset
          cases phase with
          | assigned => exact settles_nothing hu (hone fun _ _ => hset)
          | ready k => exact settles_slot hu hset hp (freedSlot_pool (s := addSettled off (some k) s) hu)
          | faulted => exact settles_slot hu hset hp (freedSlot_pool (s := addSettled off none s) hu)

theorem settles_cons {o : Owner} {e : Entry} {off : Nat} {l : List Nat} {s t u : State} (hl : off ∉ l) (h : Settles o e [off] s t)
    (k : Settles o e l t u) : Settles o e (off :: l) s u := by
  refine ⟨k.unserved, fun p hp => k.freed p (h.freed p hp), h.grown.trans k.grown, fun a ha hp hs => ?_, fun a ha => ?_⟩
  · by_cases hoff : a = off
    · subst hoff
      obtain ⟨hsome, hnone⟩ := h.inside a List.mem_cons_self hp hs
      obtain ⟨-, -, -, kset⟩ := k.outside a hl
      refine ⟨fun r hr => ?_, fun hr => kset.trans (hnone hr)⟩
      obtain ⟨hmem, hwith, hslot⟩ := hsome r hr
      exact ⟨k.grown.subset hmem, (settledWith_prefix k.grown (.inl kset)).trans hwith, fun hm p hp => k.freed p (hslot hm p hp)⟩
    · obtain ⟨hfor, hset, hmarked, hsettled⟩ := h.outside a (by simpa using hoff)
      have hin := k.inside a ((List.mem_cons.1 ha).resolve_left hoff) hp (hsettled.trans hs)
      rw [hset, hmarked, hfor] at hin
      exact hin
  · obtain ⟨hoff, hrest⟩ := not_or.1 (List.mem_cons.not.1 ha)
    obtain ⟨hfor, hset, hmarked, hsettled⟩ := h.outside a (by simpa using hoff)
    obtain ⟨kfor, kset, kmarked, ksettled⟩ := k.outside a hrest
    exact ⟨kfor.trans hfor, kset.trans hset, kmarked.trans hmarked, ksettled.trans hsettled⟩

theorem settles_foldl (o : Owner) (e : Entry) {l : List Nat} {s : State} (hl : l.Nodup) (hu : s.pool.unserved = []) :
    Settles o e l s (l.foldl (fun s off => settleSector o e off s) s) := by
  induction l generalizing s with
  | nil => exact settles_nothing hu fun a ha => absurd ha List.not_mem_nil
  | cons off l ih =>
    obtain ⟨hoff, hl⟩ := List.nodup_cons.1 hl
    have h := settles_settleSector o e off hu
    exact settles_cons hoff h (ih hl h.unserved)

/-! ### The offsets of a frame -/

/-- The offsets of the next n sectors of a burst (R31). -/
def nextOffsets (b : OpenBurst) (n : Nat) : List Nat := (List.range n).map (nextOffset b + ·)

theorem nextOffsets_nodup (b : OpenBurst) (n : Nat) : (nextOffsets b n).Nodup :=
  List.Nodup.map (fun x y h => by simpa using h) List.nodup_range

theorem mem_nextOffsets {b : OpenBurst} {n a : Nat} : a ∈ nextOffsets b n ↔ ∃ i, i < n ∧ a = nextOffset b + i := by
  simp [nextOffsets, eq_comm]

theorem frameOffsets_fits {e : Entry} {b : OpenBurst} {n : Nat} (hb : e.openBurst = some b) (hn : n ≤ b.left) :
    frameOffsets e n = nextOffsets b n := by
  rw [frameOffsets, hb]
  dsimp only
  rw [Nat.min_eq_left hn]
  rfl

theorem settleFrame_eq {o : Owner} {e : Entry} {b : OpenBurst} {n : Nat} {s : State} (he : entryOf s o = some e)
    (hb : e.openBurst = some b) (hn : n ≤ b.left) :
    settleFrame o n s = (nextOffsets b n).foldl (fun s off => settleSector o e off s) s := by
  rw [settleFrame, he]
  dsimp only
  rw [frameOffsets_fits hb hn]

theorem settles_settleFrame {o : Owner} {e : Entry} {b : OpenBurst} {n : Nat} {s : State} (he : entryOf s o = some e)
    (hb : e.openBurst = some b) (hn : n ≤ b.left) (hu : s.pool.unserved = []) :
    Settles o e (nextOffsets b n) s (settleFrame o n s) := by
  rw [settleFrame_eq he hb hn]
  exact settles_foldl o e (nextOffsets_nodup b n) hu

theorem frameSettled_iff {o : Owner} {e : Entry} {b : OpenBurst} {n : Nat} {s : State} (he : entryOf s o = some e)
    (hb : e.openBurst = some b) (hn : n ≤ b.left) :
    frameSettled o n s = true ↔ ∀ a ∈ nextOffsets b n, (protectedAt e a).isSome = true → isSettled s a = true := by
  rw [frameSettled, he]
  dsimp only
  rw [frameOffsets_fits hb hn, List.all_eq_true]
  refine forall_congr' fun a => imp_congr_right fun _ => ?_
  cases protectedAt e a <;> simp

end Sys2Proof.LinkPassage
end

