-- ==== Sys2Proof/Proofs/StandingData.lean ====
section
namespace Sys2Proof.LinkPassage
open Sys2Proof Sys2Proof.Machine

/-! ### A DATA frame that stands for its sectors (R9, R149) -/

/-- One DATA frame of an owner's open burst stands on the link of its direction, and nothing else stands (R9). -/
structure FrameStands (dir : Dir) (d : DataFrame) (o : Owner) (e : Entry) (b : OpenBurst) (s : State) : Prop where
  held : standing dir s = [.data d]
  alone : ∀ dir', dir' ≠ dir → standing dir' s = []
  burst : BurstStands dir o b s
  entry : entryOf s o = some e
  opened : e.openBurst = some b
  some_ : 1 ≤ d.sectors.length
  most : d.sectors.length ≤ 16
  fits : d.sectors.length ≤ b.left

/-- The port of a direction with no frame standing there. -/
def cleared (dir : Dir) (s : State) : State :=
  match dir with
  | .toUpstream => { s with drv := { s.drv with held := [] } }
  | .toDrive => { s with up := { s.up with held := [] } }

/-- The passage of a frame of a direction's burst (R6, R150). -/
def passOn (dir : Dir) (o : Owner) (left : Nat) (d : DataFrame) (s : State) : State :=
  match dir with
  | .toUpstream => passUp { owner := o, dir := .toUpstream, left := left } d s
  | .toDrive => passDown { owner := o, left := left, bridge := false } d s

section
variable {dir : Dir} {d : DataFrame} {o : Owner} {e : Entry} {b : OpenBurst} {s t : State}

/-- A frame stands as it did in a state with the same ports and entries. -/
theorem frameStands_congr (h : FrameStands dir d o e b s) (hu : t.up = s.up) (hd : t.drv = s.drv) (ht : t.trk = s.trk) :
    FrameStands dir d o e b t := by
  obtain ⟨hheld, halone, hburst, hentry, hopened, h1, h16, hfits⟩ := h
  have hst : ∀ dir, standing dir t = standing dir s := fun dir => by cases dir <;> simp [standing, hu, hd]
  refine ⟨(hst dir).trans hheld, fun dir' h => (hst dir').trans (halone dir' h), ?_, (entryOf_congr ht o).trans hentry, hopened, h1, h16, hfits⟩
  unfold BurstStands relayPending at *
  rw [hu, hd]
  exact hburst

theorem frameStands_settleHeads (h : FrameStands dir d o e b s) : settleHeads s = settleFrame o d.sectors.length s := by
  obtain ⟨hheld, halone, ⟨hdrv, hport⟩, -, -, h1, h16, -⟩ := h
  cases dir with
  | toUpstream =>
    have hup : s.up.held = [] := halone .toDrive nofun
    have hh : driveHead s = some (o, d.sectors.length) := driveHead_data (l := []) hheld hdrv rfl hport.2.1 (acceptable_data h1 h16)
    have hu : upstreamHead s = none := by simp [upstreamHead, hup]
    simp only [settleHeads, hu, hh]
  | toDrive =>
    have hdheld : s.drv.held = [] := halone .toUpstream nofun
    have hh : upstreamHead s = some (o, d.sectors.length) := upstreamHead_data (l := []) hheld hport.2 rfl (acceptable_data h1 h16)
    have hd : driveHead (settleFrame o d.sectors.length s) = none := by simp [driveHead, hdheld]
    simp only [settleHeads, hh, hd]

/-- A frame with a sector that is not settled stands (R9, R149). -/
theorem frameStands_waits (h : FrameStands dir d o e b s) (hs : frameSettled o d.sectors.length s = false) : takeOne s = s := by
  obtain ⟨hheld, halone, ⟨hdrv, hport⟩, -, -, h1, h16, -⟩ := h
  cases dir with
  | toUpstream =>
    have hh : driveHead s = some (o, d.sectors.length) := driveHead_data (l := []) hheld hdrv rfl hport.2.1 (acceptable_data h1 h16)
    have hnext : nextDrive s = none := by simp [nextDrive, driveTakeable, hh, hs]
    exact takeOne_none (nextUp_none (halone .toDrive nofun)) hnext
  | toDrive =>
    have hh : upstreamHead s = some (o, d.sectors.length) := upstreamHead_data (l := []) hheld hport.2 rfl (acceptable_data h1 h16)
    have hheld' : s.up.held = [.data d] := hheld
    have hnext : nextUp s = none := by simp [nextUp, hheld', upTakeable, hh, hs]
    exact takeOne_none hnext (nextDrive_none (halone .toUpstream nofun))

/-- A frame with every sector settled passes on (R149, R150). -/
theorem frameStands_taken (h : FrameStands dir d o e b s) (hs : frameSettled o d.sectors.length s = true) :
    takeOne s = passOn dir o b.left d (cleared dir s) := by
  obtain ⟨hheld, halone, ⟨hdrv, hport⟩, -, -, h1, h16, -⟩ := h
  cases dir with
  | toUpstream =>
    obtain ⟨-, hreset, hp⟩ := hport
    have hheld' : s.drv.held = [.data d] := hheld
    have hh : driveHead s = some (o, d.sectors.length) := driveHead_data (l := []) hheld hdrv rfl hreset (acceptable_data h1 h16)
    have hnext : nextDrive s = some (.data d) := by simp [nextDrive, hheld', driveTakeable, hp, hh, hs]
    have hdrv' : (cleared .toUpstream s).drv.burst = some { owner := o, dir := .toUpstream, left := b.left } := hdrv
    rw [takeOne_drive (nextUp_none (halone .toDrive nofun)) hnext, stepDrive, hheld', List.tail_cons]
    refine (takeDrive_data (s := cleared .toUpstream s) hreset (acceptable_data h1 h16)).trans ?_
    rw [takeDataDrive, hdrv']
    rfl
  | toDrive =>
    have hheld' : s.up.held = [.data d] := hheld
    have hh : upstreamHead s = some (o, d.sectors.length) := upstreamHead_data (l := []) hheld hport.2 rfl (acceptable_data h1 h16)
    have hnext : nextUp s = some (.data d) := by simp [nextUp, hheld', upTakeable, hh, hs]
    have hnone : nextDrive s = none := nextDrive_none (halone .toUpstream nofun)
    have hup' : (cleared .toDrive s).up.inBurst = some { owner := o, left := b.left, bridge := false } := hport.2
    rw [takeOne, hnext, hnone]
    dsimp only
    rw [stepUp, hheld', List.tail_cons]
    refine (takeUp_data (s := cleared .toDrive s) (acceptable_data h1 h16)).trans ?_
    rw [takeDataUp, hup']
    rfl

theorem frameStands_run (h : FrameStands dir d o e b s) : run s = settleHeads (takeOne (settleHeads s)) := by
  have hlen : s.up.held.length + s.drv.held.length = 1 := by
    obtain ⟨hheld, halone, -⟩ := h
    cases dir with
    | toUpstream =>
      have h1 : s.drv.held = _ := hheld
      have h2 : s.up.held = [] := halone .toDrive nofun
      simp [h1, h2]
    | toDrive =>
      have h1 : s.up.held = _ := hheld
      have h2 : s.drv.held = [] := halone .toUpstream nofun
      simp [h1, h2]
  rw [run, hlen]
  rfl

/-- What the passage of a frame leaves of the Pool: its settled sectors have gone, and where it closes its burst all of the burst's (R6, R150). -/
structure Passed (dir : Dir) (d : DataFrame) (o : Owner) (b : OpenBurst) (s t : State) : Prop where
  clear : ∀ dir', standing dir' t = []
  passed : PassedOn dir o d (passSectors o d.sectors s).1 s t
  slots : t.pool.slots = s.pool.slots
  order : t.pool.nextOrder = s.pool.nextOrder
  eng : t.eng = s.eng
  unserved : d.sectors.length < b.left → t.pool.unserved = s.pool.unserved

theorem passSectors_pool (o : Owner) (l : List Sector) (s : State) :
    (passSectors o l s).2.pool.slots = s.pool.slots ∧ (passSectors o l s).2.pool.nextOrder = s.pool.nextOrder ∧
      (passSectors o l s).2.pool.unserved = s.pool.unserved := by
  induction l generalizing s with
  | nil => exact ⟨rfl, rfl, rfl⟩
  | cons w l ih =>
    have hone : (passSector o w s).2.pool.slots = s.pool.slots ∧ (passSector o w s).2.pool.nextOrder = s.pool.nextOrder ∧
        (passSector o w s).2.pool.unserved = s.pool.unserved := by
      unfold passSector
      repeat' split
      · simp [setEntry]
      · exact ⟨rfl, rfl, rfl⟩
      · exact ⟨rfl, rfl, rfl⟩
    obtain ⟨h1, h2, h3⟩ := ih (passSector o w s).2
    exact ⟨h1.trans hone.1, h2.trans hone.2.1, h3.trans hone.2.2⟩

theorem countDriveBurst_pool {n : Nat} {b : DriveBurst} {s : State} (hb : s.drv.burst = some b) :
    (countDriveBurst n s).pool.slots = s.pool.slots ∧ (countDriveBurst n s).pool.nextOrder = s.pool.nextOrder ∧
      (n < b.left → (countDriveBurst n s).pool.unserved = s.pool.unserved) := by
  unfold countDriveBurst
  rw [hb]
  dsimp only
  by_cases h : b.left ≤ n
  · rw [if_pos h]
    exact ⟨rfl, rfl, fun hn => absurd h (Nat.not_le.2 hn)⟩
  · rw [if_neg h]
    exact ⟨rfl, rfl, fun _ => rfl⟩

theorem passed_passOn (hdrv : s.drv.burst = some { owner := o, dir := dir, left := b.left }) (hclear : ∀ dir', standing dir' s = [])
    (hfits : d.sectors.length ≤ b.left) : Passed dir d o b s (passOn dir o b.left d s) := by
  obtain ⟨-, kdrv, -⟩ := passSectors_keeps o d.sectors s
  obtain ⟨kslots, korder, kunserved⟩ := passSectors_pool o d.sectors s
  have hup : s.up.held = [] := hclear .toDrive
  have hheld : s.drv.held = [] := hclear .toUpstream
  cases dir with
  | toUpstream =>
    have hpass : passOn .toUpstream o b.left d s = _ := passUp_fits (b := { owner := o, dir := .toUpstream, left := b.left }) s hfits
    rw [hpass]
    dsimp only
    have hburst : (placeItem { frame := .data { d with sectors := (passSectors o d.sectors s).1 }, owner := some o, relayed := true }
        (passSectors o d.sectors s).2).drv.burst = some { owner := o, dir := .toUpstream, left := b.left } := by
      rw [← hdrv, ← kdrv]
      rfl
    obtain ⟨hslots, horder, hunserved⟩ := countDriveBurst_pool (n := d.sectors.length) hburst
    refine ⟨fun dir' => ?_, ⟨?_, ?_⟩, hslots.trans kslots, horder.trans korder, ?_, fun hn => (hunserved hn).trans kunserved⟩
    · cases dir' <;> simp [standing, placeItem, hup, hheld]
    · simp [placeItem]
    · simp [placeItem]
    · simp [placeItem]
  | toDrive =>
    have hpass : passOn .toDrive o b.left d s = _ := passDown_fits (b := { owner := o, left := b.left, bridge := false }) s hfits
    rw [hpass]
    dsimp only
    have hburst : ({ sendDown (.data { d with sectors := (passSectors o d.sectors s).1 }) (passSectors o d.sectors s).2 with
        up := { (passSectors o d.sectors s).2.up with
          inBurst := countUpBurst d.sectors.length { owner := o, left := b.left, bridge := false } } } : State).drv.burst =
        some { owner := o, dir := .toDrive, left := b.left } := by
      rw [← hdrv, ← kdrv]
      rfl
    obtain ⟨hslots, horder, hunserved⟩ := countDriveBurst_pool (n := d.sectors.length) hburst
    refine ⟨fun dir' => ?_, ⟨?_, ?_⟩, hslots.trans kslots, horder.trans korder, ?_, fun hn => (hunserved hn).trans kunserved⟩
    · cases dir' <;> simp [standing, sendDown, hup, hheld]
    · simp [sendDown]
    · simp
    · simp [sendDown]

theorem settleHeads_clear (h : ∀ dir', standing dir' s = []) : settleHeads s = s := by
  have hup : s.up.held = [] := h .toDrive
  have hheld : s.drv.held = [] := h .toUpstream
  exact settleHeads_none (by simp [upstreamHead, hup]) (by simp [driveHead, hheld])

theorem cleared_clear (h : FrameStands dir d o e b s) : ∀ dir', standing dir' (cleared dir s) = [] := by
  intro dir'
  cases dir with
  | toUpstream =>
    cases dir' with
    | toUpstream => rfl
    | toDrive => exact h.alone .toDrive nofun
  | toDrive =>
    cases dir' with
    | toUpstream => exact h.alone .toUpstream nofun
    | toDrive => rfl

/-- A frame whose sectors are settled once the Pool has settled what it can passes on, and nothing is left to do (R149, R150). -/
theorem run_passes (h : FrameStands dir d o e b s) (hs : frameSettled o d.sectors.length (settleFrame o d.sectors.length s) = true) :
    run s = passOn dir o b.left d (cleared dir (settleFrame o d.sectors.length s)) ∧
      Passed dir d o b (cleared dir (settleFrame o d.sectors.length s)) (run s) := by
  have hu : FrameStands dir d o e b (settleFrame o d.sectors.length s) := frameStands_congr h (by simp) (by simp) (by simp)
  have hpassed : Passed dir d o b (cleared dir (settleFrame o d.sectors.length s))
      (passOn dir o b.left d (cleared dir (settleFrame o d.sectors.length s))) := by
    refine passed_passOn ?_ (cleared_clear hu) h.fits
    have hburst := hu.burst.1
    cases dir <;> exact hburst
  have hrun : run s = passOn dir o b.left d (cleared dir (settleFrame o d.sectors.length s)) := by
    rw [frameStands_run h, frameStands_settleHeads h, frameStands_taken hu hs, settleHeads_clear hpassed.clear]
  exact ⟨hrun, hrun ▸ hpassed⟩

/-- A frame with a sector that cannot be settled stands (R9, R149). -/
theorem run_waits (h : FrameStands dir d o e b s) (hs : frameSettled o d.sectors.length (settleFrame o d.sectors.length s) = false) :
    run s = settleFrame o d.sectors.length (settleFrame o d.sectors.length s) := by
  have hu : FrameStands dir d o e b (settleFrame o d.sectors.length s) := frameStands_congr h (by simp) (by simp) (by simp)
  rw [frameStands_run h, frameStands_settleHeads h, frameStands_waits hu hs, frameStands_settleHeads hu]

/-! ### What the sectors of a frame become (R150) -/

theorem treatSector_out {off : Nat} (w : Sector) (hk : e.kind ≠ .other) (ho : off < cmdCount e.cmd) :
    (treatSector s e off w).out = sectorSent e (settledWith s) off w := by
  unfold treatSector sectorSent
  rw [if_neg hk, if_neg (Nat.not_le.2 ho)]
  cases verdictAt e.plan off with
  | none => rfl
  | some v =>
    cases v with
    | clear => rfl
    | withheld r c l => rfl
    | deliver c l n => cases settledWith s off <;> rfl
    | encipher c l n => cases settledWith s off <;> rfl

/-- What a sector becomes rests on its own keystream, where it is protected. -/
theorem sectorSent_congr {off : Nat} {key key' : Nat → Option Sector} (w : Sector) (ho : off < cmdCount e.cmd)
    (h : (protectedAt e off).isSome = true → key off = key' off) : sectorSent e key off w = sectorSent e key' off w := by
  unfold sectorSent
  cases hv : verdictAt e.plan off with
  | none => rfl
  | some v =>
    cases v with
    | clear => rfl
    | withheld r c l => rfl
    | deliver c l n =>
      have hp : protectedAt e off = some (c, l, n) := by rw [protectedAt, if_pos ho, hv]
      dsimp only
      rw [h (by rw [hp]; rfl)]
    | encipher c l n =>
      have hp : protectedAt e off = some (c, l, n) := by rw [protectedAt, if_pos ho, hv]
      dsimp only
      rw [h (by rw [hp]; rfl)]

/-- The sectors of a frame that passes from a state, each combined with the keystream it is settled with or sent as zeros (R150). -/
theorem passSectors_sent {l : List Sector} {i : Nat} {w : Sector} (he : entryOf s o = some e) (hb : e.openBurst = some b)
    (hl : l.length ≤ b.left) (hc : b.left ≤ b.count) (hend : b.first + b.count ≤ cmdCount e.cmd) (hk : e.kind ≠ .other)
    (hw : l[i]? = some w) : (passSectors o l s).1[i]? = some (sectorSent e (settledWith s) (nextOffset b + i) w) := by
  have hi : i < l.length := by
    obtain ⟨hi, -⟩ := List.getElem?_eq_some_iff.1 hw
    exact hi
  have ho : nextOffset b + i < cmdCount e.cmd := by
    unfold nextOffset
    omega
  rw [passSectors_out he hb hl hc, hw, Option.map_some, treatSector_out w hk ho]

end

end Sys2Proof.LinkPassage
end

