-- ==== Sys2Proof/Proofs/BurstService.lean ====
section
namespace Sys2Proof.LinkPassage
open Sys2Proof Sys2Proof.Machine

/-! ### Slots allocated at the opening of a burst and by new settings (R144 to R147) -/

theorem allocateFrom_lists (o : Owner) (e : Entry) (l : List Nat) (s : State) :
    (allocateFrom o e l s).pool.marked = s.pool.marked ∧ (allocateFrom o e l s).pool.settled = s.pool.settled := by
  induction l generalizing s with
  | nil => exact ⟨rfl, rfl⟩
  | cons off l ih =>
    unfold allocateFrom
    split
    next p c lap logical _ _ =>
      split
      next =>
        obtain ⟨hm, hs⟩ := ih (assignSlot o off c lap logical p { s with pool := { s.pool with unserved := l } })
        exact ⟨hm.trans (by simp [assignSlot]), hs.trans (by simp [assignSlot])⟩
      next => exact ⟨rfl, rfl⟩
    next => exact ⟨rfl, rfl⟩

/-- A refill marks no sector and settles none. -/
theorem refill_lists (s : State) : (refill s).pool.marked = s.pool.marked ∧ (refill s).pool.settled = s.pool.settled := by
  unfold refill
  split
  next => exact ⟨rfl, rfl⟩
  next =>
    split
    next => exact ⟨rfl, rfl⟩
    next => exact allocateFrom_lists _ _ _ _

/-- Two entries of the same command under the same plan have the same protected sectors. -/
theorem protectedAt_congr {e e' : Entry} (h : SameOrder e e') (a : Nat) : protectedAt e' a = protectedAt e a := by
  unfold protectedAt
  rw [h.cmd, h.plan]

theorem allocated_sameOrder {o : Owner} {e e' : Entry} {l : List Nat} {n : Nat} {s t : State} (h : SameOrder e e')
    (k : Allocated o e' l n s t) : Allocated o e l n s t := by
  unfold Allocated at *
  simpa only [protectedAt_congr h] using k

/-- The state in which the Pool takes a burst that a READY opens (R4, R144). -/
def burstOpened (r : ReadyFrame) (e : Entry) (s : State) : State :=
  setEntry (readyOwner r) (some (burstEntry r e))
    { s with drv := { s.drv with burst := some { owner := readyOwner r, dir := readyDir r, left := readyCount r }, discard := none } }

theorem openBurst_eq (r : ReadyFrame) (e : Entry) (s : State) :
    openBurst r e s = placeItem { frame := .ready r, owner := some (readyOwner r), relayed := true }
      (openPoolBurst e r.offset.toNat (readyCount r) (burstOpened r e s)) := rfl

theorem openBurst_faulted {r : ReadyFrame} {e : Entry} {s : State} (h : s.faults.lockdown = true) :
    (openBurst r e s).pool =
      { s.pool with unserved := [], marked := protectedOffsets e r.offset.toNat (readyCount r), settled := [] } := by
  have h' : (burstOpened r e s).faults.lockdown = true := h
  rw [openBurst_eq, openPoolBurst, if_pos h']
  rfl

/-- A burst opened outside lockdown has its protected sectors allocated (R145). -/
theorem openBurst_allocated {r : ReadyFrame} {e : Entry} {s : State} (h : s.faults.lockdown = false) :
    (openBurst r e s).pool.marked = [] ∧
      Allocated (readyOwner r) e (protectedOffsets e r.offset.toNat (readyCount r)) s.req.lookahead s (openBurst r e s) := by
  have h' : ¬(burstOpened r e s).faults.lockdown = true := by
    change ¬s.faults.lockdown = true
    simp [h]
  have hsame : SameOrder e (burstEntry r e) := ⟨rfl, rfl, rfl⟩
  rw [openBurst_eq, openPoolBurst, if_neg h']
  have hentry : entryOf { burstOpened r e s with
      pool := { s.pool with unserved := protectedOffsets e r.offset.toNat (readyCount r), marked := [], settled := [] } } (readyOwner r) =
      some (burstEntry r e) := by
    have := entryOf_setEntry (readyOwner r) (readyOwner r) (some (burstEntry r e))
      { s with drv := { s.drv with burst := some { owner := readyOwner r, dir := readyDir r, left := readyCount r }, discard := none } }
    rw [if_pos rfl] at this
    exact this
  have halloc := allocated_refill (b := { owner := readyOwner r, dir := readyDir r, left := readyCount r })
    (s := { burstOpened r e s with
      pool := { s.pool with unserved := protectedOffsets e r.offset.toNat (readyCount r), marked := [], settled := [] } })
    rfl hentry (fun u hu => by
      rw [protectedAt_congr hsame]
      exact (List.mem_filter.1 hu).2)
  exact ⟨(refill_lists _).1,
    allocated_congr (s := { burstOpened r e s with
      pool := { s.pool with unserved := protectedOffsets e r.offset.toNat (readyCount r), marked := [], settled := [] } })
      rfl rfl rfl rfl rfl rfl (allocated_sameOrder hsame halloc)⟩

theorem severityOperand_some {v : Byte} (h : v.toNat ≤ 1) : ∃ x, severityOperand v = some x := by
  rcases (show v.toNat = 0 ∨ v.toNat = 1 by omega) with h | h
  · exact ⟨_, by rw [BitVec.eq_of_toNat_eq (y := 0#8) h]; rfl⟩
  · exact ⟨_, by rw [BitVec.eq_of_toNat_eq (y := 1#8) h]; rfl⟩

theorem severitiesOf_some {p : SettingsParams} (h : ∀ v ∈ [p.keyParity, p.transform, p.protocol, p.driveLost], v.toNat ≤ 1) :
    ∃ x, severitiesOf p = some x := by
  obtain ⟨a, ha⟩ := severityOperand_some (h p.keyParity (by simp))
  obtain ⟨b, hb⟩ := severityOperand_some (h p.transform (by simp))
  obtain ⟨c, hc⟩ := severityOperand_some (h p.protocol (by simp))
  obtain ⟨d, hd⟩ := severityOperand_some (h p.driveLost (by simp))
  exact ⟨_, by rw [severitiesOf, ha, hb, hc, hd]⟩

theorem clampLookahead_eq (n : Nat) : clampLookahead n = max 1 (min n 16) := by
  unfold clampLookahead
  repeat' split
  all_goals omega

/-- An accepted WRITE_SETTINGS answers OK with its settings applied (R173, R176). -/
theorem exec_writeSettings {p : SettingsParams} {v : Severities} {s : State} (ha : AwaitsBlock s) (hl : s.req.locked = false)
    (hv : severitiesOf p = some v) :
    exec (.writeSettings p) s = .next (answered okFrame (applySettings p v { s with up := { s.up with inBurst := none } })) := by
  have harrive : exec (.writeSettings p) s = .next (arriveRequest (.writeSettings p) s) := rfl
  have hrequest : executeRequest (.writeSettings p) { s with up := { s.up with inBurst := none } } =
      accepts (applySettings p v { s with up := { s.up with inBurst := none } }) := by
    change writeSettingsRequest p { s with up := { s.up with inBurst := none } } = _
    have hl' : ¬({ s with up := { s.up with inBurst := none } } : State).req.locked = true := by
      change ¬s.req.locked = true
      simp [hl]
    rw [writeSettingsRequest, if_neg hl', hv]
  have hup : (applySettings p v { s with up := { s.up with inBurst := none } }).up.inBurst = none := by
    unfold applySettings
    rw [(refill_keeps _).1]
    rfl
  rw [harrive, arriveRequest_awaits ha, hrequest, answerRequest_accepts _ hup]

/-- New settings serve the open burst's unserved sectors under the new L (R146). -/
theorem applySettings_allocated {p : SettingsParams} {v : Severities} {b : DriveBurst} {e : Entry} {s : State}
    (hb : s.drv.burst = some b) (he : entryOf s b.owner = some e) (hp : ∀ u ∈ s.pool.unserved, (protectedAt e u).isSome = true) :
    Allocated b.owner e s.pool.unserved (clampLookahead p.lookahead.toNat) s (applySettings p v s) := by
  have hall := allocated_refill (e := e)
    (s := judgeAttention
      { s with
        req :=
          { s.req with
            lookahead := clampLookahead p.lookahead.toNat
            attentionSet := p.attentionSet.setWidth 16
            severities := v
            divider := clampDivider p.divider.toNat }
        time := { s.time with divideCount := 0 } }) hb he hp
  exact allocated_congr (s := judgeAttention
      { s with
        req :=
          { s.req with
            lookahead := clampLookahead p.lookahead.toNat
            attentionSet := p.attentionSet.setWidth 16
            severities := v
            divider := clampDivider p.divider.toNat }
        time := { s.time with divideCount := 0 } }) rfl rfl rfl rfl rfl rfl hall

/-! ### A DATA frame that arrives on a quiet link -/

/-- The state with a DATA frame arrived on the link of its direction. -/
def arrived (dir : Dir) (d : DataFrame) (s : State) : State :=
  match dir with
  | .toUpstream => { s with drv := { s.drv with held := [.data d] } }
  | .toDrive => { s with up := { s.up with held := [.data d] } }

section
variable {dir : Dir} {d : DataFrame} {o : Owner} {e : Entry} {b : OpenBurst} {s t : State}

theorem arrived_keeps (dir : Dir) (d : DataFrame) (s : State) :
    (arrived dir d s).pool = s.pool ∧ (arrived dir d s).trk = s.trk ∧ (arrived dir d s).contexts = s.contexts ∧
      (arrived dir d s).up.sendList = s.up.sendList ∧ (arrived dir d s).drv.sent = s.drv.sent ∧ (arrived dir d s).req = s.req ∧
      (arrived dir d s).drv.burst = s.drv.burst := by
  cases dir <;> exact ⟨rfl, rfl, rfl, rfl, rfl, rfl, rfl⟩

theorem exec_dataRow (hq : Quiet s) (hb : BurstStands dir o b s) : exec (dataRow dir d) s = .next (run (arrived dir d s)) := by
  obtain ⟨-, hport⟩ := hb
  obtain ⟨hup, hdrv⟩ := hq
  cases dir with
  | toUpstream =>
    rw [dataRow, exec_drive rfl, arriveDrive, if_pos hport.1, hdrv]
    rfl
  | toDrive =>
    rw [dataRow, exec_upstream rfl, arriveUp, if_pos hport.1, hup]
    rfl

theorem frameStands_arrived (hq : Quiet s) (hb : BurstStands dir o b s) (he : entryOf s o = some e) (ho : e.openBurst = some b)
    (h1 : 1 ≤ d.sectors.length) (h16 : d.sectors.length ≤ 16) (hn : d.sectors.length ≤ b.left) :
    FrameStands dir d o e b (arrived dir d s) := by
  obtain ⟨hup, hdrv⟩ := hq
  cases dir with
  | toUpstream =>
    refine ⟨rfl, fun dir' h => ?_, hb, he, ho, h1, h16, hn⟩
    cases dir' with
    | toUpstream => exact absurd rfl h
    | toDrive => exact hup
  | toDrive =>
    refine ⟨rfl, fun dir' h => ?_, hb, he, ho, h1, h16, hn⟩
    cases dir' with
    | toUpstream => exact hdrv
    | toDrive => exact absurd rfl h

/-- The settling of a frame is that of the Pool it meets. -/
theorem settles_congr {l : List Nat} {u : State} (h : t.pool = s.pool) (k : Settles o e l t u) : Settles o e l s u := by
  obtain ⟨⟩ := s
  obtain ⟨⟩ := t
  cases h
  exact ⟨k.unserved, k.freed, k.grown, k.inside, k.outside⟩

theorem settledWith_cleared (dir : Dir) (u : State) : settledWith (cleared dir u) = settledWith u := by
  cases dir <;> rfl

theorem passedOn_congr {out : List Sector} {u : State} (hl : u.up.sendList = s.up.sendList) (hd : u.drv.sent = s.drv.sent)
    (h : PassedOn dir o d out u t) : PassedOn dir o d out s t := by
  unfold PassedOn at *
  rwa [hl, hd] at h

theorem cleared_keeps (dir : Dir) (u : State) :
    (cleared dir u).up.sendList = u.up.sendList ∧ (cleared dir u).drv.sent = u.drv.sent ∧ (cleared dir u).pool = u.pool ∧
      (cleared dir u).eng = u.eng ∧ (cleared dir u).trk = u.trk := by
  cases dir <;> exact ⟨rfl, rfl, rfl, rfl, rfl⟩

/-! ### A slot freed by settling serves a sector that waits (R146) -/

/-- The one sector of a frame is settled from its slot, which is freed and serves the sectors that wait. -/
theorem settleFrame_frees {a : Nat} {p : PoolNo} {y : PoolSlot} (he : entryOf s o = some e) (hb : e.openBurst = some b) (hleft : 1 ≤ b.left)
    (ha : a = nextOffset b) (hpro : (protectedAt e a).isSome = true) (hempty : s.pool.settled = []) (hmark : a ∉ s.pool.marked)
    (hslot : slotFor s o a = some p) (hy : s.pool.slots.get p = some y) (hphase : y.phase ≠ .assigned) :
    ∃ r, settleFrame o 1 s = refill (freePoolSlot p (addSettled a r s)) := by
  have hone : settleFrame o 1 s = settleSector o e a s := by
    rw [settleFrame_eq he hb hleft, ha]
    rfl
  have hskip : ¬((protectedAt e a).isNone || isSettled s a) = true := by
    have hs : isSettled s a = false := by simp [isSettled, hempty]
    rw [hs]
    cases hx : protectedAt e a with
    | none => simp [hx] at hpro
    | some x => simp
  obtain ⟨owner, offset, ctx, lap, logical, order, phase⟩ := y
  rw [hone, settleSector, if_neg hskip, if_neg (by simpa using hmark), hslot]
  dsimp only
  rw [hy]
  cases phase with
  | assigned => exact absurd rfl hphase
  | ready k => exact ⟨some k, rfl⟩
  | faulted => exact ⟨none, rfl⟩

/-- A frame of one sector whose slot is settled passes, and its slot serves the burst's sectors that wait (R146). -/
theorem run_frees {p : PoolNo} {y : PoolSlot} (h : FrameStands dir d o e b s) (hone : d.sectors.length = 1) (hleft : 1 < b.left)
    (hempty : s.pool.settled = []) (hpro : (protectedAt e (nextOffset b)).isSome = true) (hmark : nextOffset b ∉ s.pool.marked)
    (hslot : slotFor s o (nextOffset b) = some p) (hy : s.pool.slots.get p = some y) (hphase : y.phase ≠ .assigned)
    (hun : ∀ u ∈ s.pool.unserved, (protectedAt e u).isSome = true) :
    Allocated o e s.pool.unserved s.req.lookahead { s with pool := { s.pool with slots := s.pool.slots.set p none } } (run s) := by
  obtain ⟨r, hsettle⟩ := settleFrame_frees h.entry h.opened (Nat.le_of_lt hleft) rfl hpro hempty hmark hslot hy hphase
  obtain ⟨hup, hdrv, htrk, -, -, -, -, hreq, -⟩ := freePoolSlot_keeps p (addSettled (nextOffset b) r s)
  have hpool := freePoolSlot_pool p (addSettled (nextOffset b) r s)
  generalize freePoolSlot p (addSettled (nextOffset b) r s) = v at *
  have hburst : v.drv.burst = some { owner := o, dir := dir, left := b.left } := by rw [hdrv]; exact h.burst.1
  have hentry : entryOf v o = some e := (entryOf_congr htrk o).trans h.entry
  have hvun : v.pool.unserved = s.pool.unserved := by rw [hpool]; rfl
  have hall := allocated_refill hburst hentry (by rw [hvun]; exact hun)
  have hsettled : (refill v).pool.settled = [{ offset := nextOffset b, keystream := r }] := by
    rw [(refill_lists v).2, hpool]
    change s.pool.settled ++ _ = _
    rw [hempty]
    rfl
  have hframe : settleFrame o d.sectors.length s = refill v := by rw [hone]; exact hsettle
  have hcheck : frameSettled o d.sectors.length (settleFrame o d.sectors.length s) = true := by
    have hu : entryOf (settleFrame o d.sectors.length s) o = some e := (entryOf_congr (by simp) o).trans h.entry
    refine (frameSettled_iff hu h.opened h.fits).2 fun a ha _ => ?_
    obtain ⟨i, hi, rfl⟩ := mem_nextOffsets.1 ha
    obtain rfl : i = 0 := by omega
    rw [isSettled, hframe, hsettled]
    simp
  obtain ⟨-, hpassed⟩ := run_passes h hcheck
  rw [hframe] at hpassed
  obtain ⟨-, -, kpool, keng, -⟩ := cleared_keeps dir (refill v)
  rw [hvun, hreq] at hall
  refine allocated_congr (s := v) ?_ ?_ ?_ ?_ ?_ ?_ hall
  · rw [hpool]
    rfl
  · rw [hpool]
    rfl
  · rw [hpassed.unserved (by omega), kpool]
  · rw [hpassed.order, kpool]
  · rw [hpassed.slots, kpool]
  · rw [hpassed.eng, keng]

/-! ### A frame held or passed (R149, R150) -/

theorem settling_ready {a : Nat} {k : Sector} : settling s o a = some (some k) ↔ a ∉ s.pool.marked ∧ slotPhase s o a = some (.ready k) := by
  unfold settling
  by_cases hm : a ∈ s.pool.marked
  · simp [hm]
  · rw [if_neg hm]
    cases slotPhase s o a with
    | none => simp
    | some x => cases x <;> simp [hm]

theorem settling_faulted {a : Nat} : settling s o a = some none ↔ a ∈ s.pool.marked ∨ slotPhase s o a = some .faulted := by
  unfold settling
  by_cases hm : a ∈ s.pool.marked
  · simp [hm]
  · rw [if_neg hm]
    cases slotPhase s o a with
    | none => simp [hm]
    | some x => cases x <;> simp [hm]

theorem isSettled_of_mem {a : Nat} {k : Option Sector} (h : { offset := a, keystream := k } ∈ s.pool.settled) : isSettled s a = true := by
  rw [isSettled, List.any_eq_true]
  exact ⟨_, h, by simp⟩

theorem isSettled_grown {a : Nat} (h : s.pool.settled <+: t.pool.settled) (ha : isSettled s a = true) : isSettled t a = true := by
  rw [isSettled, List.any_eq_true] at *
  obtain ⟨x, hx, hxa⟩ := ha
  exact ⟨x, h.subset hx, hxa⟩

end

end Sys2Proof.LinkPassage
end

