-- ==== Sys2Proof/Proofs/ProtectedSectors.lean ====
section
namespace Sys2Proof.LinkPassage
open Sys2Proof Sys2Proof.Machine

section
variable {dir : Dir} {d : DataFrame} {o : Owner} {e : Entry} {b : OpenBurst} {s t : State}

/-! ### A frame held, its sectors settled as far as they can be (R149) -/

/-- The run of a frame that stands either way leaves the slots that its settling frees FREE. -/
theorem run_slotsFreed (h : FrameStands dir d o e b s) (hu : s.pool.unserved = []) {p : PoolNo}
    (hp : (settleFrame o d.sectors.length s).pool.slots.get p = none) : (run s).pool.slots.get p = none := by
  cases hs : frameSettled o d.sectors.length (settleFrame o d.sectors.length s) with
  | true =>
    obtain ⟨-, hpassed⟩ := run_passes h hs
    rw [hpassed.slots, (cleared_keeps dir _).2.2.1]
    exact hp
  | false =>
    have h1 := settles_settleFrame h.entry h.opened h.fits hu
    have hentry : entryOf (settleFrame o d.sectors.length s) o = some e := (entryOf_congr (by simp) o).trans h.entry
    rw [run_waits h hs]
    exact (settles_settleFrame hentry h.opened h.fits h1.unserved).freed p hp

/-- A frame that waits stands as it did, with all that can be settled of it settled. -/
theorem run_held (h : FrameStands dir d o e b s) (hu : s.pool.unserved = [])
    (hs : frameSettled o d.sectors.length (settleFrame o d.sectors.length s) = false) :
    FrameStands dir d o e b (run s) ∧ (run s).up.sendList = s.up.sendList ∧ (run s).drv.sent = s.drv.sent ∧
      (run s).contexts = s.contexts ∧ (settleFrame o d.sectors.length s).pool.settled <+: (run s).pool.settled := by
  have h1 := settles_settleFrame h.entry h.opened h.fits hu
  have hentry : entryOf (settleFrame o d.sectors.length s) o = some e := (entryOf_congr (by simp) o).trans h.entry
  have h2 := settles_settleFrame hentry h.opened h.fits h1.unserved
  rw [run_waits h hs]
  refine ⟨frameStands_congr h (by simp) (by simp) (by simp), by simp, by simp, by simp, h2.grown⟩

/-- A sector of the frame with nothing to settle it with keeps the frame standing. -/
theorem not_frameSettled {a : Nat} (h : FrameStands dir d o e b s) (hu : s.pool.unserved = []) (ha : a ∈ nextOffsets b d.sectors.length)
    (hp : (protectedAt e a).isSome = true) (hs : isSettled s a = false) (hn : settling s o a = none) :
    frameSettled o d.sectors.length (settleFrame o d.sectors.length s) = false := by
  have h1 := settles_settleFrame h.entry h.opened h.fits hu
  have hentry : entryOf (settleFrame o d.sectors.length s) o = some e := (entryOf_congr (by simp) o).trans h.entry
  rw [Bool.eq_false_iff]
  intro hc
  have hset := (frameSettled_iff hentry h.opened h.fits).1 hc a ha hp
  rw [(h1.inside a ha hp hs).2 hn] at hset
  cases hset

/-- A frame all of whose sectors can be settled or are settled passes on. -/
theorem frameSettled_all (h : FrameStands dir d o e b s) (hu : s.pool.unserved = [])
    (hall : ∀ a ∈ nextOffsets b d.sectors.length, (protectedAt e a).isSome = true → isSettled s a = false → settling s o a ≠ none) :
    frameSettled o d.sectors.length (settleFrame o d.sectors.length s) = true := by
  have h1 := settles_settleFrame h.entry h.opened h.fits hu
  have hentry : entryOf (settleFrame o d.sectors.length s) o = some e := (entryOf_congr (by simp) o).trans h.entry
  refine (frameSettled_iff hentry h.opened h.fits).2 fun a ha hp => ?_
  cases hs : isSettled s a with
  | true => exact isSettled_grown h1.grown hs
  | false =>
    obtain ⟨r, hr⟩ := Option.ne_none_iff_exists'.1 (hall a ha hp hs)
    exact isSettled_of_mem ((h1.inside a ha hp hs).1 r hr).1

/-- A frame whose sectors are all settled passes on with each combined with its keystream or sent as zeros (R150). -/
theorem run_sent (h : FrameStands dir d o e b s) (hc : b.left ≤ b.count) (hend : b.first + b.count ≤ cmdCount e.cmd)
    (hk : e.kind ≠ .other) (hs : frameSettled o d.sectors.length (settleFrame o d.sectors.length s) = true) :
    (∀ dir', standing dir' (run s) = []) ∧ ∃ out, PassedOn dir o d out s (run s) ∧ out.length = d.sectors.length ∧
      ∀ i w, d.sectors[i]? = some w →
        out[i]? = some (sectorSent e (settledWith (settleFrame o d.sectors.length s)) (nextOffset b + i) w) := by
  obtain ⟨-, hpassed⟩ := run_passes h hs
  obtain ⟨clist, csent, -, -, ctrk⟩ := cleared_keeps dir (settleFrame o d.sectors.length s)
  have hentry : entryOf (cleared dir (settleFrame o d.sectors.length s)) o = some e :=
    (entryOf_congr ctrk o).trans ((entryOf_congr (by simp) o).trans h.entry)
  refine ⟨hpassed.clear, _, passedOn_congr (clist.trans (by simp)) (csent.trans (by simp)) hpassed.passed, passSectors_length _ _ _,
    fun i w hw => ?_⟩
  rw [passSectors_sent hentry h.opened h.fits hc hend hk hw, settledWith_cleared]

/-! ### The STREAM job that a held frame waits for (R148) -/

/-- The state in which a completed STREAM job's keystream is in its pool slot (R148). -/
def streamed (j : StreamJob) (ks : Sector) (s : State) : State := putPhase j.pool (.ready ks) (endRunning s)

theorem streamed_pool {j : StreamJob} {ks : Sector} {y : PoolSlot} (hy : s.pool.slots.get j.pool = some y) (hp : y.phase = .assigned) :
    (streamed j ks s).pool = { s.pool with slots := s.pool.slots.set j.pool (some { y with phase := .ready ks }) } := by
  have hy' : (endRunning s).pool.slots.get j.pool = some y := hy
  rw [streamed, putPhase, hy']
  dsimp only
  rw [if_pos hp]
  rfl

/-- A pool slot that changes phase serves the sector it served. -/
theorem slotFor_phase {p : PoolNo} {y : PoolSlot} {x : PoolPhase} (hy : s.pool.slots.get p = some y)
    (ht : t.pool.slots = s.pool.slots.set p (some { y with phase := x })) (a : Nat) : slotFor t o a = slotFor s o a := by
  unfold slotFor
  congr 1
  funext q
  rw [ht, get_set]
  by_cases hq : p = q
  · subst hq
    rw [if_pos rfl, hy]
    rfl
  · rw [if_neg hq]

/-- A STREAM job completes with its keystream, and the frame that waits is looked at again (R135, R148, R149). -/
theorem exec_stream {j : StreamJob} {k : KeyNo} {key : KeySlot} {w : Block} (hr : s.eng.running = some (.stream j false))
    (hj : j.keySlot = some k) (hk : s.keys.slots.get k = some key) (hw : key.phase = .ready w) :
    exec .streamComplete s = .next (run (dropUserOf j.keySlot
      (settleHeads (streamed j (keystream w (ctxOf s j.ctx).serial j.lap j.logical) s)))) := by
  have hexec : exec .streamComplete s = .next (streamEvent s) := rfl
  have hkey : jobKeystream (endRunning s) j = some (keystream w (ctxOf s j.ctx).serial j.lap j.logical) := by
    have hk' : (endRunning s).keys.slots.get k = some key := hk
    have hctx : ctxOf (endRunning s) j.ctx = ctxOf s j.ctx := rfl
    have hkey : workingKeyOf (endRunning s) j = some w := by
      obtain ⟨ctx, phase, pinned, users⟩ := key
      cases hw
      rw [workingKeyOf, hj, Option.bind_some, hk']
    rw [jobKeystream, hkey, hctx]
    rfl
  rw [hexec, streamEvent, hr]
  dsimp only
  rw [if_neg (by simp), finishStream, hkey]
  rfl

theorem settles_congr_after {l : List Nat} {u : State} (h : u.pool = t.pool) (k : Settles o e l s t) : Settles o e l s u := by
  obtain ⟨⟩ := u
  obtain ⟨⟩ := t
  cases h
  exact ⟨k.unserved, k.freed, k.grown, k.inside, k.outside⟩

/-- A standing frame with every sector settled: what has been settled it passes on with (R150). -/
theorem run_ready (h : FrameStands dir d o e b s) (hu : s.pool.unserved = []) (hc : b.left ≤ b.count)
    (hend : b.first + b.count ≤ cmdCount e.cmd) (hk : e.kind ≠ .other) (key : Nat → Option Sector)
    (hall : ∀ a ∈ nextOffsets b d.sectors.length, (protectedAt e a).isSome = true → isSettled s a = true ∧ settledWith s a = key a) :
    standing dir (run s) = [] ∧ ∃ out, PassedOn dir o d out s (run s) ∧ out.length = d.sectors.length ∧
      ∀ i w, d.sectors[i]? = some w → out[i]? = some (sectorSent e key (nextOffset b + i) w) := by
  have hs := frameSettled_all h hu fun a ha hp hn => by
    rw [(hall a ha hp).1] at hn
    cases hn
  obtain ⟨hclear, out, hpassed, hlen, hout⟩ := run_sent h hc hend hk hs
  have hgrown := (settles_settleFrame h.entry h.opened h.fits hu).grown
  refine ⟨hclear dir, out, hpassed, hlen, fun i w hw => (hout i w hw).trans (congrArg some ?_)⟩
  obtain ⟨hi, -⟩ := List.getElem?_eq_some_iff.1 hw
  have hfits := h.fits
  refine sectorSent_congr w (by unfold nextOffset; omega) fun hp => ?_
  obtain ⟨hset, hwith⟩ := hall _ (mem_nextOffsets.2 ⟨i, hi, rfl⟩) hp
  exact (settledWith_prefix hgrown (.inr hset)).trans hwith

/-- The state after the job's keystream has settled the sector that waits for it, and its key slot has one user fewer. -/
def streamEnded (j : StreamJob) (ks : Sector) (s : State) : State := dropUserOf j.keySlot (settleHeads (streamed j ks s))

/-- A job for the last sector that is not settled settles it, and frees its pool slot (R148, R149). -/
theorem streamEnded_settles {j : StreamJob} {ks : Sector} {y : PoolSlot} {a : Nat} (h : FrameStands dir d o e b s)
    (hu : s.pool.unserved = []) (hy : s.pool.slots.get j.pool = some y) (hphase : y.phase = .assigned)
    (hslot : slotFor s o a = some j.pool) (hmark : a ∉ s.pool.marked) (hpro : (protectedAt e a).isSome = true)
    (hset : isSettled s a = false) (ha : a ∈ nextOffsets b d.sectors.length) :
    FrameStands dir d o e b (streamEnded j ks s) ∧ (streamEnded j ks s).pool.unserved = [] ∧
      (streamEnded j ks s).pool.slots.get j.pool = none ∧ s.pool.settled <+: (streamEnded j ks s).pool.settled ∧
      isSettled (streamEnded j ks s) a = true ∧ settledWith (streamEnded j ks s) a = some ks := by
  have hpool := streamed_pool (ks := ks) hy hphase
  have hstands : FrameStands dir d o e b (streamed j ks s) :=
    frameStands_congr h (by simp [streamed, endRunning]) (by simp [streamed, endRunning]) (by simp [streamed, endRunning])
  have hlist : (streamed j ks s).pool.settled = s.pool.settled := by rw [hpool]
  have hset0 : isSettled (streamed j ks s) a = false := by rw [isSettled, hlist]; exact hset
  have hfor0 : slotFor (streamed j ks s) o a = some j.pool := (slotFor_phase hy (by rw [hpool]) a).trans hslot
  have hmark0 : a ∉ (streamed j ks s).pool.marked := by rw [hpool]; exact hmark
  have hready : settling (streamed j ks s) o a = some (some ks) := by
    refine settling_ready.2 ⟨hmark0, ?_⟩
    rw [slotPhase, hfor0, Option.bind_some, hpool, get_set, if_pos rfl]
    rfl
  have hu0 : (streamed j ks s).pool.unserved = [] := by rw [hpool]; exact hu
  have hframe := settles_settleFrame hstands.entry hstands.opened hstands.fits hu0
  rw [← frameStands_settleHeads hstands] at hframe
  have hend : Settles o e (nextOffsets b d.sectors.length) (streamed j ks s) (streamEnded j ks s) :=
    settles_congr_after (by simp [streamEnded]) hframe
  obtain ⟨hmem, hwith, hfreed⟩ := (hend.inside a ha hpro hset0).1 _ hready
  refine ⟨frameStands_congr hstands (by simp [streamEnded]) (by simp [streamEnded]) (by simp [streamEnded]), hend.unserved,
    hfreed hmark0 _ hfor0, hlist ▸ hend.grown, isSettled_of_mem hmem, hwith⟩

theorem streamEnded_keeps (j : StreamJob) (ks : Sector) (s : State) :
    (streamEnded j ks s).up.sendList = s.up.sendList ∧ (streamEnded j ks s).drv.sent = s.drv.sent := by
  constructor <;> simp [streamEnded, streamed, endRunning]

/-- The completion of the job that the last sector waits for lets the frame pass (R148, R149, R150). -/
theorem stream_passes {j : StreamJob} {ks : Sector} {y : PoolSlot} {a : Nat} (h : FrameStands dir d o e b s) (hu : s.pool.unserved = [])
    (hc : b.left ≤ b.count) (hend : b.first + b.count ≤ cmdCount e.cmd) (hkind : e.kind ≠ .other)
    (hy : s.pool.slots.get j.pool = some y) (hphase : y.phase = .assigned) (hslot : slotFor s o a = some j.pool)
    (hmark : a ∉ s.pool.marked) (hpro : (protectedAt e a).isSome = true) (hset : isSettled s a = false)
    (ha : a ∈ nextOffsets b d.sectors.length)
    (hothers : ∀ x ∈ nextOffsets b d.sectors.length, x ≠ a → (protectedAt e x).isSome = true → isSettled s x = true) :
    standing dir (run (streamEnded j ks s)) = [] ∧ (run (streamEnded j ks s)).pool.slots.get j.pool = none ∧
      ∃ out, PassedOn dir o d out s (run (streamEnded j ks s)) ∧ out.length = d.sectors.length ∧
        ∀ i w, d.sectors[i]? = some w →
          out[i]? = some (sectorSent e (fun x => if x = a then some ks else settledWith s x) (nextOffset b + i) w) := by
  obtain ⟨hstands, hun, hfree, hgrown, hsettled, hwith⟩ := streamEnded_settles (ks := ks) h hu hy hphase hslot hmark hpro hset ha
  obtain ⟨klist, ksent⟩ := streamEnded_keeps j ks s
  obtain ⟨hclear, out, hpassed, hlen, hout⟩ := run_ready hstands hun hc hend hkind
    (fun x => if x = a then some ks else settledWith s x) fun x hx hp => by
      by_cases hxa : x = a
      · subst hxa
        rw [if_pos rfl]
        exact ⟨hsettled, hwith⟩
      · have hs := hothers x hx hxa hp
        rw [if_neg hxa]
        exact ⟨isSettled_grown hgrown hs, settledWith_prefix hgrown (.inr hs)⟩
  have hslots := (settles_settleFrame hstands.entry hstands.opened hstands.fits hun).freed _ hfree
  exact ⟨hclear, run_slotsFreed hstands hun hslots, out, passedOn_congr klist ksent hpassed, hlen, hout⟩

/-! ### Frames that arrive with nothing settled (R149) -/

/-- A frame that arrives on a quiet link with no sector settled and none unserved: the slots that settle it are freed; with a sector that nothing can
settle it stands; else it passes on (R149, R150). -/
theorem arrived_served (hstands : FrameStands dir d o e b (arrived dir d s)) (hu : s.pool.unserved = []) (hempty : s.pool.settled = [])
    (hc : b.left ≤ b.count) (hend : b.first + b.count ≤ cmdCount e.cmd) (hk : e.kind ≠ .other) :
    (∀ i p, i < d.sectors.length → (protectedAt e (nextOffset b + i)).isSome = true → nextOffset b + i ∉ s.pool.marked →
      settling s o (nextOffset b + i) ≠ none → slotFor s o (nextOffset b + i) = some p →
      (run (arrived dir d s)).pool.slots.get p = none) ∧
    ((∃ i, i < d.sectors.length ∧ (protectedAt e (nextOffset b + i)).isSome = true ∧ settling s o (nextOffset b + i) = none) →
      FrameStands dir d o e b (run (arrived dir d s)) ∧ (run (arrived dir d s)).up.sendList = s.up.sendList ∧
      (run (arrived dir d s)).drv.sent = s.drv.sent ∧ (run (arrived dir d s)).contexts = s.contexts ∧
      ∀ i r, i < d.sectors.length → (protectedAt e (nextOffset b + i)).isSome = true → settling s o (nextOffset b + i) = some r →
        { offset := nextOffset b + i, keystream := r } ∈ (run (arrived dir d s)).pool.settled ∧
          settledWith (run (arrived dir d s)) (nextOffset b + i) = r) ∧
    ((∀ i, i < d.sectors.length → (protectedAt e (nextOffset b + i)).isSome = true → settling s o (nextOffset b + i) ≠ none) →
      standing dir (run (arrived dir d s)) = [] ∧ ∃ out, PassedOn dir o d out s (run (arrived dir d s)) ∧
        out.length = d.sectors.length ∧ ∀ i w, d.sectors[i]? = some w →
          out[i]? = some (sectorSent e (fun x => (settling s o x).getD none) (nextOffset b + i) w)) := by
  obtain ⟨kpool, -, kctx, klist, ksent, -⟩ := arrived_keeps dir d s
  have hu' : (arrived dir d s).pool.unserved = [] := by rw [kpool]; exact hu
  have hset : ∀ x, isSettled s x = false := fun x => by simp [isSettled, hempty]
  have hset' : ∀ x, isSettled (arrived dir d s) x = false := fun x => by simp [isSettled, kpool, hempty]
  have hsettling : ∀ x, settling (arrived dir d s) o x = settling s o x := fun x => by
    unfold settling slotPhase slotFor
    rw [kpool]
  have hframe : Settles o e (nextOffsets b d.sectors.length) s (settleFrame o d.sectors.length (arrived dir d s)) :=
    settles_congr kpool (settles_settleFrame hstands.entry hstands.opened hstands.fits hu')
  have hmem : ∀ i, i < d.sectors.length → nextOffset b + i ∈ nextOffsets b d.sectors.length := fun i hi => mem_nextOffsets.2 ⟨i, hi, rfl⟩
  refine ⟨fun i p hi hp hm hn hslot => ?_, fun ⟨i, hi, hp, hn⟩ => ?_, fun hall => ?_⟩
  · obtain ⟨r, hr⟩ := Option.ne_none_iff_exists'.1 hn
    exact run_slotsFreed hstands hu' (((hframe.inside _ (hmem i hi) hp (hset _)).1 r hr).2.2 hm p hslot)
  · have hs := not_frameSettled hstands hu' (hmem i hi) hp (hset' _) ((hsettling _).trans hn)
    obtain ⟨hheld, hlist, hsent, hctx, hgrown⟩ := run_held hstands hu' hs
    refine ⟨hheld, hlist.trans klist, hsent.trans ksent, hctx.trans kctx, fun i r hi hp hr => ?_⟩
    obtain ⟨hin, hwith, -⟩ := (hframe.inside _ (hmem i hi) hp (hset _)).1 r hr
    exact ⟨hgrown.subset hin, (settledWith_prefix hgrown (.inr (isSettled_of_mem hin))).trans hwith⟩
  · have hs := frameSettled_all hstands hu' fun a ha hp _ => by
      obtain ⟨i, hi, rfl⟩ := mem_nextOffsets.1 ha
      rw [hsettling]
      exact hall i hi hp
    obtain ⟨hclear, out, hpassed, hlen, hout⟩ := run_sent hstands hc hend hk hs
    refine ⟨hclear dir, out, passedOn_congr klist ksent hpassed, hlen, fun i w hw => (hout i w hw).trans (congrArg some ?_)⟩
    obtain ⟨hi, -⟩ := List.getElem?_eq_some_iff.1 hw
    have hfits := hstands.fits
    refine sectorSent_congr w (by unfold nextOffset; omega) fun hp => ?_
    obtain ⟨r, hr⟩ := Option.ne_none_iff_exists'.1 (hall i hi hp)
    rw [hr]
    exact ((hframe.inside _ (hmem i hi) hp (hset _)).1 r hr).2.1

/-- A sector can be settled with nothing exactly where it is neither READY nor FAULTED nor marked. -/
theorem settling_none {a : Nat} : settling s o a = none ↔
    (∀ k, ¬(a ∉ s.pool.marked ∧ slotPhase s o a = some (.ready k))) ∧ ¬(a ∈ s.pool.marked ∨ slotPhase s o a = some .faulted) := by
  refine ⟨fun h => ⟨fun k hk => ?_, fun hf => ?_⟩, fun ⟨hk, hf⟩ => ?_⟩
  · rw [settling_ready.2 hk] at h
    cases h
  · rw [settling_faulted.2 hf] at h
    cases h
  · cases hr : settling s o a with
    | none => rfl
    | some r =>
      cases r with
      | none => exact absurd (settling_faulted.1 hr) hf
      | some k => exact absurd (settling_ready.1 hr) (hk k)

end

/-! ### Settling the statement -/

/-- Settles O34, by allocation and refill, by the settling of a frame that arrives, and by the settling of one that waits. -/
theorem protectedSectorsServed : Obligations.ProtectedSectorsServed := by
  refine ⟨fun r e s hw ht hb he hst hk hfit => ?_, fun p b e s ha hl _ hv hb he hun => ?_,
    fun dir d o e b s h1 h16 hn hc he hb hburst hend hk => ⟨fun p y hq hempty hone hleft hpro hmark hslot hy hphase hun => ?_,
      fun hq hempty hu => ?_, fun j k y key w m hu hheld halone hm hrun hj hk' hw hy hphase hslot hmark hpro hset hothers => ?_⟩⟩
  · have hpast : ¬readyPastEnd r e = true := fun h => Nat.not_lt.2 hfit ((readyPastEnd_iff r e).1 h).2
    have htake : takeReady r s = openBurst r e s := by
      rw [takeReady, readyMatch_fit hb he hst hk]
      exact if_neg hpast
    exact ⟨_, (exec_ready hw ht).trans (congrArg _ htake), openBurst_faulted, openBurst_allocated⟩
  · obtain ⟨v, hsev⟩ := severitiesOf_some hv
    refine ⟨_, exec_writeSettings ha hl hsev, ?_⟩
    have hall := applySettings_allocated (p := p) (v := v) (s := { s with up := { s.up with inBurst := none } }) hb he hun
    rw [clampLookahead_eq] at hall
    exact allocated_congr (s := { s with up := { s.up with inBurst := none } }) rfl rfl rfl rfl rfl rfl hall
  · have hstands := frameStands_arrived hq hburst he hb h1 h16 hn
    obtain ⟨kpool, -, -, -, -, kreq, -⟩ := arrived_keeps dir d s
    have hfor : slotFor (arrived dir d s) o (nextOffset b) = some p := by
      rw [slotFor, kpool]
      exact hslot
    have hall := run_frees hstands hone hleft (by rw [kpool]; exact hempty) hpro (by rw [kpool]; exact hmark) hfor
      (by rw [kpool]; exact hy) hphase (by rw [kpool]; exact hun)
    rw [kpool, kreq] at hall
    exact ⟨_, exec_dataRow hq hburst, allocated_congr (by rfl) (by rfl) rfl rfl rfl rfl hall⟩
  · obtain ⟨hfreed, hheld, hpassed⟩ := arrived_served (frameStands_arrived hq hburst he hb h1 h16 hn) hu hempty hc hend hk
    refine ⟨_, exec_dataRow hq hburst, fun i x p hi hx hp hm hopen hslot => ?_, fun ⟨i, hi, hopen⟩ => ?_, fun hall => ?_⟩
    · subst hx
      exact hfreed i p hi hp hm (fun hnone => hopen ⟨hp, settling_none.1 hnone⟩) hslot
    · obtain ⟨hstands, hlist, hsent, hctx, hsettled⟩ := hheld ⟨i, hi, hopen.1, settling_none.2 hopen.2⟩
      refine ⟨hstands.held, hstands.burst, hstands.entry, hlist, hsent, hctx, fun i hi hp => ⟨fun k hready => ?_, fun hfault => ?_⟩⟩
      · exact (hsettled i _ hi hp (settling_ready.2 hready)).2
      · exact (hsettled i _ hi hp (settling_faulted.2 hfault)).1
    · obtain ⟨hclear, out, hout, hlen, hsent⟩ := hpassed fun i hi hp hnone => hall i hi ⟨hp, settling_none.1 hnone⟩
      refine ⟨hclear, out, hout, hlen, fun i w hw => ⟨fun k hready => ?_, fun hnot => ?_⟩⟩
      · refine (hsent i w hw).trans (congrArg some ?_)
        obtain ⟨hi, -⟩ := List.getElem?_eq_some_iff.1 hw
        refine sectorSent_congr w (by unfold nextOffset; omega) fun _ => ?_
        rw [(settling_ready (a := nextOffset b + i)).2 hready]
        rfl
      · refine (hsent i w hw).trans (congrArg some ?_)
        obtain ⟨hi, -⟩ := List.getElem?_eq_some_iff.1 hw
        refine sectorSent_congr w (by unfold nextOffset; omega) fun _ => ?_
        cases hr : settling s o (nextOffset b + i) with
        | none => rfl
        | some r =>
          cases r with
          | none => rfl
          | some k => exact absurd (settling_ready.1 hr) (hnot k)
  · have hstands : FrameStands dir d o e b s := ⟨hheld, halone, hburst, he, hb, h1, h16, hn⟩
    have hmem : nextOffset b + m ∈ nextOffsets b d.sectors.length := mem_nextOffsets.2 ⟨m, hm, rfl⟩
    obtain ⟨hclear, hfree, out, hout, hlen, hsent⟩ := stream_passes (ks := keystream w (ctxOf s j.ctx).serial j.lap j.logical)
      (a := nextOffset b + m) hstands hu hc hend hk hy hphase hslot hmark hpro hset hmem fun x hx hxa hp => by
        obtain ⟨i, hi, rfl⟩ := mem_nextOffsets.1 hx
        exact hothers i hi (fun him => hxa (by rw [him])) hp
    refine ⟨_, exec_stream hrun hj hk' hw, hclear, hfree, out, hout, hlen, fun i w' hw' => (hsent i w' hw').trans (congrArg some ?_)⟩
    obtain ⟨hi, -⟩ := List.getElem?_eq_some_iff.1 hw'
    refine sectorSent_congr w' (by unfold nextOffset; omega) fun _ => ?_
    have hiff : nextOffset b + i = nextOffset b + m ↔ i = m := Nat.add_left_cancel_iff
    simp only [hiff]

end Sys2Proof.LinkPassage
end

