-- ==== Sys2Proof/Proofs/RecordsLaw.lean ====
section
namespace Sys2Proof.CommandTracking
open Sys2Proof Sys2Proof.Machine Sys2Proof.LinkPassage

/-! ### Events on which the records stay in their limits and the attention line as it is due (R26, R185, R188) -/

/-- From s to t the notices and the refusal history stay within their limits, and the attention line stays as it is due. -/
structure Orderly (s t : State) : Prop where
  notices : s.nq.notices.length ≤ 32 → t.nq.notices.length ≤ 32
  history : s.trk.history.length ≤ 8 → t.trk.history.length ≤ 8
  attention : AttentionLaw s → AttentionLaw t

theorem Orderly.refl (s : State) : Orderly s s := ⟨id, id, id⟩

theorem Orderly.trans {s t u : State} (h : Orderly s t) (k : Orderly t u) : Orderly s u :=
  ⟨k.notices ∘ h.notices, k.history ∘ h.history, k.attention ∘ h.attention⟩

/-- Notices that join the queue alone keep both laws (R185, R188). -/
theorem Orderly.of_speaks {s t : State} (h : Speaks s t) (hh : t.trk.history = s.trk.history) : Orderly s t := by
  obtain ⟨⟨l, hl⟩, ha, hf⟩ := h
  refine ⟨fun hn => ?_, fun hn => by rwa [hh], fun hn => ?_⟩
  · rw [hl]
    exact joinAll_length _ _ l _ hn
  · rw [AttentionLaw, hl, ha, hf]
    exact joinAll_attention _ _ l _ hn

/-- What the two laws read is as it was. -/
def SameRecords (s t : State) : Prop :=
  t.nq = s.nq ∧ t.req.attentionSet = s.req.attentionSet ∧ t.faults.lockdown = s.faults.lockdown ∧ t.trk.history = s.trk.history

theorem orderly_of_same {s t : State} (h : SameRecords s t) : Orderly s t := by
  obtain ⟨hn, ha, hf, hh⟩ := h
  exact .of_speaks (speaks_of_same hn ha hf) hh

/-- The two laws read nothing that a change before an event touched. -/
theorem Orderly.since {s t u : State} (k : Orderly t u) (h : SameRecords s t) : Orderly s u := (orderly_of_same h).trans k

theorem orderly_queueNotice (k : NoticeKind) (c : Option CtxSlot) (t : Option Tag) (d : Option Code) (v : Nat) (s : State) :
    Orderly s (queueNotice k c t d v s) := .of_speaks (speaks_queueNotice k c t d v s) rfl

/-- The line is judged under whatever settings and notices stand (R188). -/
theorem orderly_judgeAttention {s t : State} (hn : s.nq.notices.length ≤ 32 → t.nq.notices.length ≤ 32)
    (hh : t.trk.history = s.trk.history) : Orderly s (judgeAttention t) :=
  ⟨hn, fun h => by rwa [← hh] at h, fun _ => rfl⟩

/-- Entry into lockdown asserts the line, and the flag makes it due (R192). -/
theorem orderly_enterLockdown (s : State) : Orderly s (enterLockdown s) := by
  obtain ⟨hf, hn⟩ := enterLockdown_flags s
  refine ⟨fun h => by rwa [hn], fun h => by simpa using h, fun _ => ?_⟩
  rw [AttentionLaw, hf, hn]
  rfl

theorem orderly_raiseFault (k : FaultKind) (s : State) : Orderly s (raiseFault k s) := by
  have hnoted : Orderly s (noted k s) := .of_speaks (Speaks.trans (speaks_of_same rfl rfl rfl) (speaks_queueNotice _ _ _ _ _ _)) rfl
  by_cases h : Severe k s
  · rw [raiseFault_severe h]
    exact hnoted.trans (orderly_enterLockdown _)
  · rw [raiseFault_mild h]
    exact hnoted

theorem addHistory_length {r : HistoryRecord} {l : List HistoryRecord} (h : l.length ≤ 8) : (addHistory r l).length ≤ 8 := by
  unfold addHistory
  split <;> simp <;> omega

theorem orderly_recordRefusal (c : CommandFrame) (code : Code) (s : State) : Orderly s (recordRefusal c code s) :=
  ⟨id, addHistory_length, id⟩

theorem Orderly.foldl {α : Type} (f : State → α → State) (h : ∀ s a, Orderly s (f s a)) (l : List α) (s : State) :
    Orderly s (l.foldl f s) := by
  induction l generalizing s with
  | nil => exact .refl s
  | cons a l ih => exact (h s a).trans (ih _)

/-! ### Commands -/

theorem speaks_classify {o : Owner} {c : CommandFrame} {s : State} {a : Accepted} (h : classify o c s = .ok a) : Speaks s a.after := by
  unfold classify classifyRead classifyWrite classifyRing classifyFrontier plainPlan at h
  dsimp only at h
  repeat' split at h
  all_goals first
    | contradiction
    | (cases h; first | exact speaks_captureViews _ s | exact speaks_of_same rfl rfl rfl)

theorem sameRecords_enterQueued (c : CommandFrame) (a : Accepted) : SameRecords a.after (enterQueued c a) := by
  unfold enterQueued
  dsimp only
  split <;> simp [SameRecords]

theorem sameRecords_enterSingle (c : CommandFrame) (a : Accepted) : SameRecords a.after (enterSingle c a) := by
  unfold enterSingle
  dsimp only
  split <;> simp [SameRecords]

theorem orderly_takeCommand (c : CommandFrame) (s : State) : Orderly s (takeCommand c s) := by
  have hclassify : ∀ {o a}, classify o c s = .ok a → Orderly s a.after := fun h =>
    .of_speaks (speaks_classify h) (congrArg Tracker.history (classify_trk h))
  have ht := taken_takeCommand c s
  generalize takeCommand c s = t at ht ⊢
  cases ht with
  | refusedQueued code => exact (orderly_recordRefusal c code s).trans (orderly_of_same ⟨rfl, rfl, rfl, rfl⟩)
  | refusedSingle code => exact (orderly_recordRefusal c code s).trans (orderly_of_same ⟨rfl, rfl, rfl, rfl⟩)
  | refusedPlain code => exact orderly_of_same ⟨rfl, rfl, rfl, rfl⟩
  | queued a _ _ _ _ h => exact (hclassify h).trans (orderly_of_same (sameRecords_enterQueued c a))
  | single a _ _ _ h => exact (hclassify h).trans (orderly_of_same (sameRecords_enterSingle c a))
  | other => exact orderly_of_same (sameRecords_enterSingle c (plainPlan [] s))
  | bridge => exact orderly_of_same ⟨rfl, rfl, rfl, by simp⟩

/-! ### Requests -/

/-- No request writes the refusal history. -/
theorem executeRequest_history (r : Request) (s : State) : (executeRequest r s).after.trk.history = s.trk.history := by
  by_cases h : ∃ e, r = .removeRegion e
  · obtain ⟨e, rfl⟩ := h
    rcases removeRegion_after e s with h | ⟨k, q, -, h⟩
    · exact congrArg (fun u : State => u.trk.history) h
    · refine (congrArg (fun u : State => u.trk.history) h).trans ?_
      unfold freeRegion
      dsimp only
      split <;> simp
  · exact congrArg Tracker.history (executeRequest_trk r s fun e he => h ⟨e, he⟩)

theorem orderly_startClose (c : CtxSlot) (s : State) : Orderly s (startClose c s) := by
  unfold startClose
  dsimp only
  refine Orderly.of_speaks (Speaks.trans ?_ (speaks_tryClose c _)) (by simp)
  exact speaks_of_same (by simp) (by simp) (by simp)

theorem speaks_sealContext (slot : Byte) (s : State) : Speaks s (sealContextRequest slot s).after := by
  unfold sealContextRequest refuses accepts
  split
  next => exact .refl s
  next c _ =>
    split
    next => exact .refl s
    next =>
      split
      next => exact speaks_completeSeal c s
      next => exact speaks_of_same rfl rfl rfl

theorem orderly_closeContext (slot : Byte) (s : State) : Orderly s (closeContextRequest slot s).after := by
  unfold closeContextRequest refuses accepts
  split
  next => exact .refl s
  next c _ =>
    split
    next => exact .refl s
    next =>
      split
      next => exact .refl s
      next => exact orderly_startClose c s

/-- New settings judge the line under the new attention set (R178, R188). -/
theorem orderly_writeSettings (p : SettingsParams) (s : State) : Orderly s (writeSettingsRequest p s).after := by
  unfold writeSettingsRequest refuses accepts
  split
  next => exact .refl s
  next =>
    split
    next => exact .refl s
    next v _ =>
      unfold applySettings
      have hrefill : ∀ u, Orderly u (refill u) := fun u => orderly_of_same (by simp [SameRecords])
      refine Orderly.trans ?_ (hrefill _)
      exact orderly_judgeAttention (by exact id) rfl

theorem speaks_drain (s : State) : Speaks s (drainRequest s).after := by
  unfold drainRequest accepts
  dsimp only
  split
  next => exact Speaks.trans (speaks_of_same (by rfl) (by rfl) (by rfl)) (speaks_queueNotice _ _ _ _ _ _)
  next => exact speaks_of_same rfl rfl rfl

/-- No request but the five that write the queue or its settings reaches what the two laws read. -/
theorem orderly_executeRequest (r : Request) (s : State) : Orderly s (executeRequest r s).after := by
  have hh := executeRequest_history r s
  have hsame : ∀ {t : State}, t.nq = s.nq ∧ t.req.attentionSet = s.req.attentionSet ∧ t.faults.lockdown = s.faults.lockdown →
      t.trk.history = s.trk.history → Orderly s t := fun h hh => orderly_of_same ⟨h.1, h.2.1, h.2.2, hh⟩
  cases r <;> simp only [executeRequest] at hh ⊢
  case sealContext slot => exact .of_speaks (speaks_sealContext slot s) hh
  case closeContext slot => exact orderly_closeContext slot s
  case writeSettings p => exact orderly_writeSettings p s
  case drain => exact .of_speaks (speaks_drain s) hh
  case readNotices => exact orderly_judgeAttention (fun h => by simp; omega) rfl
  all_goals refine hsame ?_ hh
  case loadContext slot b => unfold loadContextRequest refuses accepts; repeat' split
                             all_goals simp
  case readContext slot => unfold readContextRequest refuses replies; split <;> simp
  case readReceipt slot => unfold readReceiptRequest refuses replies; repeat' split
                           all_goals simp
  case clearUnit => unfold clearUnitRequest clearUnit refuses accepts; split <;> simp
  case addRegion p => unfold addRegionRequest enableRegion refuses accepts; dsimp only; repeat' split
                      all_goals simp
  case removeRegion entry =>
    rcases removeRegion_after entry s with h | ⟨e, r, -, h⟩ <;> rw [h]
    · simp
    · unfold freeRegion
      dsimp only
      split <;> simp
  case readRegions start => unfold readRegionsRequest refuses replies; split <;> simp
  case setShiftDepth slot depth => unfold setShiftDepthRequest refuses accepts; dsimp only; repeat' split
                                   all_goals simp
  case pinKey slot => unfold pinKeyRequest refuses accepts; dsimp only; repeat' split
                      all_goals simp
  case unpinKey slot => unfold unpinKeyRequest refuses accepts; split <;> simp
  case setRightsTime time check => unfold setRightsTimeRequest refuses accepts; split <;> simp
  case lockSettings => exact ⟨rfl, rfl, rfl⟩
  case readStatus => exact ⟨rfl, rfl, rfl⟩
  case readHistory => exact ⟨rfl, rfl, rfl⟩
  case clearFaults set => exact ⟨rfl, rfl, rfl⟩

theorem sameRecords_answerRequest (x : Executed) : SameRecords x.after (answerRequest x) := by
  unfold answerRequest
  split <;> simp [SameRecords]

theorem orderly_takeRequest (block : Sector) (s : State) : Orderly s (takeRequest block s) := by
  unfold takeRequest
  split
  next => exact orderly_of_same (sameRecords_answerRequest (refuses .malformed s))
  next r _ => exact (orderly_executeRequest r s).trans (orderly_of_same (sameRecords_answerRequest _))

/-! ### Frames of the two links -/

theorem orderly_cutExcess (n left : Nat) (s : State) : Orderly s (cutExcess n left s) := by
  unfold cutExcess
  split
  · exact orderly_raiseFault _ s
  · exact .refl s

theorem orderly_passDown (b : UpBurst) (d : DataFrame) (s : State) : Orderly s (passDown b d s) := by
  unfold passDown
  exact Orderly.trans (orderly_of_same (by simp [SameRecords])) (orderly_cutExcess _ _ _)

theorem orderly_takeDataUp (d : DataFrame) (s : State) : Orderly s (takeDataUp d s) := by
  unfold takeDataUp
  split
  next =>
    unfold strayDataUp
    split
    · exact orderly_of_same ⟨rfl, rfl, rfl, rfl⟩
    · exact (orderly_raiseFault _ _).since ⟨rfl, rfl, rfl, rfl⟩
  next b _ =>
    split
    next =>
      unfold takeBlock
      split
      · exact .refl s
      · exact ((orderly_takeRequest _ _).trans (orderly_cutExcess _ _ _)).since ⟨rfl, rfl, rfl, rfl⟩
    next => exact orderly_passDown b d s

theorem orderly_takeReady (r : ReadyFrame) (s : State) : Orderly s (takeReady r s) := by
  unfold takeReady
  split
  next =>
    unfold strayReady
    refine Orderly.trans (orderly_of_same ?_) (orderly_raiseFault _ _)
    split <;> exact ⟨rfl, rfl, rfl, rfl⟩
  next e _ =>
    have hopen : Orderly s (openBurst r e s) := orderly_of_same (by simp [SameRecords, openBurst])
    dsimp only
    split
    · exact hopen.trans (Orderly.trans (orderly_of_same (by simp [SameRecords])) (orderly_raiseFault _ _))
    · exact hopen

theorem orderly_strayDataDrive (n : Nat) (s : State) : Orderly s (strayDataDrive n s) := by
  unfold strayDataDrive
  split
  · exact orderly_raiseFault _ s
  · split
    · exact orderly_of_same ⟨rfl, rfl, rfl, rfl⟩
    · split
      · exact orderly_of_same ⟨rfl, rfl, rfl, rfl⟩
      · exact (orderly_raiseFault _ _).since ⟨rfl, rfl, rfl, rfl⟩

theorem orderly_passUp (b : DriveBurst) (d : DataFrame) (s : State) : Orderly s (passUp b d s) := by
  unfold passUp
  exact Orderly.trans (orderly_of_same (by simp [SameRecords])) (orderly_cutExcess _ _ _)

theorem orderly_takeDataDrive (d : DataFrame) (s : State) : Orderly s (takeDataDrive d s) := by
  unfold takeDataDrive
  split
  · split
    · exact orderly_passUp _ d s
    · exact orderly_strayDataDrive _ s
  · exact orderly_strayDataDrive _ s

theorem orderly_endEntry (o : Owner) (r : Option Bool) (s : State) : Orderly s (endEntry o r s) :=
  .of_speaks (speaks_endEntry o r s) (by simp)

theorem orderly_flushReleased (s : State) : Orderly s (flushReleased s) := orderly_of_same (by simp [SameRecords])

theorem orderly_clearQueueWait (s : State) : Orderly s (clearQueueWait s) := orderly_of_same (by simp [SameRecords])

theorem orderly_checkShort (o : Owner) (s : State) : Orderly s (checkShort o s) := by
  unfold checkShort
  split
  · exact .refl s
  · split
    · exact Orderly.trans (orderly_of_same (by simp [SameRecords])) (orderly_raiseFault _ _)
    · exact .refl s

theorem orderly_closeOwned (p : Owner → Bool) (s : State) : Orderly s (closeOwned p s) := orderly_of_same (by simp [SameRecords])

theorem orderly_placeRelayed (f : Frame) (s : State) : Orderly s (placeRelayed f s) := orderly_of_same ⟨rfl, rfl, rfl, rfl⟩

theorem orderly_placePart (f : Frame) (s : State) : Orderly s (placePart f s) := orderly_of_same ⟨rfl, rfl, rfl, rfl⟩

theorem orderly_takeAcceptance (r : AcceptRecord) (rest : List AcceptRecord) (f : StatusFrame) (s : State) :
    Orderly s (takeAcceptance r rest f s) := by
  have haccepted : ∀ u, Orderly u (acceptedBy r f u) := fun u => by
    unfold acceptedBy
    split
    · exact orderly_of_same (by simp [SameRecords])
    · exact .refl u
  have hrejected : ∀ u, Orderly u (rejectedBy r f u) := fun u => by
    unfold rejectedBy
    dsimp only
    split
    · exact (orderly_endEntry _ _ u).trans (orderly_placeRelayed _ _)
    · exact (orderly_endEntry _ _ u).trans (orderly_placePart _ _)
  unfold takeAcceptance
  refine Orderly.trans (Orderly.trans (t := { s with trk := { s.trk with accepts := rest } }) (orderly_of_same ⟨rfl, rfl, rfl, rfl⟩) ?_)
    (orderly_flushReleased _)
  split
  · exact orderly_clearQueueWait _
  · split
    · exact (haccepted _).trans (orderly_clearQueueWait _)
    · exact hrejected _

theorem orderly_completeSingle (f : StatusFrame) (s : State) : Orderly s (completeSingle f s) := by
  have hjudged : Orderly s (judged f s) := by
    unfold judged
    split
    · exact (orderly_closeOwned _ s).trans (orderly_checkShort _ _)
    · exact orderly_closeOwned _ s
  rw [completeSingle_eq]
  exact (hjudged.trans (orderly_endEntry _ _ _)).trans ((orderly_placeRelayed _ _).trans (orderly_flushReleased _))

theorem orderly_takeStatus (f : StatusFrame) (s : State) : Orderly s (takeStatus f s) := by
  unfold takeStatus
  split
  · split
    · exact orderly_raiseFault _ s
    · exact orderly_takeAcceptance _ _ f s
  · split
    · exact orderly_completeSingle f s
    · exact orderly_raiseFault _ s

theorem orderly_answerAhead (k : Tag) (s : State) : Orderly s (answerAhead k s) := orderly_of_same (by simp [SameRecords])

theorem orderly_endDone (l : List Tag) (s : State) : Orderly s (endDone l s).2 := by
  induction l generalizing s with
  | nil => exact .refl s
  | cons k l ih =>
    have hready := (orderly_checkShort (.tag k) s).trans (orderly_answerAhead k _)
    unfold endDone
    dsimp only
    split
    · exact (hready.trans (orderly_endEntry _ _ _)).trans (ih _)
    · exact (hready.trans (orderly_endEntry _ _ _)).trans (ih _)

theorem orderly_endFailed (s : State) (p : Byte × Byte) : Orderly s (endFailed s p) :=
  (orderly_answerAhead _ s).trans (orderly_endEntry _ _ _)

theorem orderly_abortEntries (l : List Tag) (s : State) : Orderly s (abortEntries l s).2 := by
  induction l generalizing s with
  | nil => exact .refl s
  | cons k l ih =>
    unfold abortEntries
    split
    · exact ih s
    · refine Orderly.trans ?_ (ih _)
      unfold abortEntry
      split
      · exact orderly_endEntry _ _ s
      · split
        · exact orderly_endEntry _ _ s
        · exact (orderly_endEntry _ _ s).trans (orderly_placePart _ _)

theorem orderly_rewindRings (s : State) : Orderly s (rewindRings s) := .of_speaks (speaks_rewindRings s) (by simp)

theorem orderly_abortQueued (s : State) : Orderly s (abortQueued s).2 := by
  have hended := orderly_abortEntries (List.finRange 32) s
  unfold abortQueued
  dsimp only
  generalize (abortEntries (List.finRange 32) s).2 = u at *
  exact hended.trans ((orderly_rewindRings _).since ⟨rfl, rfl, rfl, rfl⟩)

theorem orderly_abortSingle (s : State) : Orderly s (abortSingle s) := by
  unfold abortSingle
  split
  · exact .refl s
  · split
    · exact (orderly_endEntry _ _ s).trans (orderly_placePart _ _)
    · exact orderly_clearQueueWait s

theorem orderly_relayDone (d : DoneFrame) (l : List Tag) (m : List (Byte × Byte)) (s : State) : Orderly s (relayDone d l m s) := by
  unfold relayDone
  split
  · exact .refl s
  · exact orderly_placeRelayed _ s

theorem orderly_slipDone (b : Bool) (s : State) : Orderly s (slipDone b s) := by
  unfold slipDone
  split
  · exact orderly_raiseFault _ s
  · exact .refl s

theorem orderly_doneEnded (d : DoneFrame) (s : State) : Orderly s (doneEnded d s) := by
  unfold doneEnded
  refine Orderly.trans ?_ (.foldl endFailed orderly_endFailed _ _)
  exact ((orderly_closeOwned _ s).trans (orderly_slipDone _ _)).trans (orderly_endDone _ _)

theorem orderly_takeDone (d : DoneFrame) (s : State) : Orderly s (takeDone d s) := by
  have hended := orderly_doneEnded d s
  unfold doneEnded at hended
  unfold takeDone
  dsimp only at hended ⊢
  refine hended.trans (Orderly.trans ?_ (orderly_flushReleased _))
  split
  · exact ((orderly_abortQueued _).trans (orderly_relayDone _ _ _ _)).trans (orderly_abortSingle _)
  · exact orderly_relayDone _ _ _ _

theorem orderly_takeDrive (f : Frame) (s : State) : Orderly s (takeDrive f s) := by
  unfold takeDrive
  split
  next =>
    refine orderly_of_same ?_
    unfold takeInReset
    dsimp only
    repeat' split
    all_goals exact ⟨rfl, rfl, rfl, rfl⟩
  next =>
    split
    next =>
      split
      next r _ => exact orderly_takeReady r s
      next d _ => exact orderly_takeDataDrive d s
      next t _ => exact orderly_takeStatus t s
      next d _ => exact orderly_takeDone d s
      all_goals exact .refl s
    next => exact orderly_raiseFault _ s

theorem orderly_takeUp (f : Frame) (s : State) : Orderly s (takeUp f s) := by
  unfold takeUp
  split
  next =>
    split
    next c _ => exact orderly_takeCommand c s
    next d _ => exact orderly_takeDataUp d s
    all_goals exact .refl s
  next => exact orderly_raiseFault _ s

/-- Whatever the ports take, the two laws stay. -/
theorem orderly_ports (s : State) : KeptByPorts (Orderly s) where
  links u _ _ _ h := h.trans (t := u) (orderly_of_same ⟨rfl, rfl, rfl, rfl⟩)
  settle u h := h.trans (orderly_of_same (by simp [SameRecords]))
  up f u h := h.trans (orderly_takeUp f u)
  drive f u h := h.trans (orderly_takeDrive f u)

theorem orderly_run {s t : State} (h : Orderly s t) : Orderly s (run t) := (orderly_ports s).run h

/-! ### The events that are no frames -/

theorem orderly_tickEvent (s : State) : Orderly s (tickEvent s) := by
  refine .of_speaks (Speaks.trans ?_ (speaks_expiryComparison _)) (by simp)
  exact speaks_of_same rfl rfl rfl

theorem orderly_linkReset (s : State) : Orderly s (linkResetEvent s) := by
  have hports : Orderly s (resetPorts s) :=
    .of_speaks ((speaks_queueNotice .linkReset none none none (entriesInUse s) s).trans (speaks_of_same rfl rfl rfl)) rfl
  have hentries : Orderly (resetPorts s) (resetEntries s) :=
    .of_speaks (speaks_resetEntries s) (by simp [resetEntries, clearAccepts, endQueued])
  rw [linkResetEvent_eq]
  exact (hports.trans hentries).trans (Orderly.trans (.of_speaks (speaks_dropReply _) rfl) (orderly_rewindRings _))

theorem orderly_endLost (s : State) : Orderly s (endLost s) := by
  have hqueued : Orderly s (endQueued s) := .foldl _ (fun s o => orderly_endEntry o none s) _ s
  unfold endLost
  split
  · exact hqueued.trans (orderly_endEntry _ _ _)
  · exact hqueued

theorem orderly_lossEvent (s : State) : Orderly s (lossEvent s) := by
  have hports : Orderly s (lostPorts s) := orderly_of_same (by simp [SameRecords, lostPorts])
  have hanswer : ∀ u, Orderly u (answerLoss s u) := .foldl _ (fun u f => orderly_placePart f u) _
  have hended := (hports.trans (orderly_endLost _)).trans (.of_speaks (speaks_clearAccepts _) rfl)
  exact ((hended.trans (hanswer _)).trans (orderly_queueNotice _ _ _ _ _ _)).trans
    ((orderly_raiseFault _ _).trans (orderly_rewindRings _))

theorem sameRecords_sendItem (k : Nat) (i : SendItem) (s : State) : SameRecords s (sendItem k i s) := by
  unfold sendItem sentItem sentReady sentData openUpstream placeReply
  dsimp only
  repeat' split
  all_goals simp [SameRecords]

theorem orderly_setupEvent (s : State) : Orderly s (setupEvent s) := by
  unfold setupEvent finishSetup
  dsimp only
  split
  next =>
    split
    · exact orderly_of_same ⟨rfl, rfl, rfl, rfl⟩
    · refine Orderly.trans (orderly_of_same ?_) (.of_speaks (speaks_tryClose _ _) (by simp))
      split <;> simp [SameRecords, endRunning]
  next => exact .refl s

theorem orderly_unwrapEvent (s : State) : Orderly s (unwrapEvent s) := by
  refine .of_speaks ?_ (congrArg Tracker.history (unwrapEvent_trk s))
  unfold unwrapEvent finishUnwrap acceptBlob rejectBlob
  dsimp only
  split
  next =>
    split
    · split
      · refine Speaks.trans ?_ (speaks_queueNotice _ _ _ _ _ _)
        split <;> exact speaks_of_same (by simp [endRunning]) (by simp [endRunning]) (by simp [endRunning])
      · exact Speaks.trans (speaks_of_same (by rfl) (by rfl) (by rfl)) (speaks_queueNotice _ _ _ _ _ _)
    · exact Speaks.trans (speaks_of_same (by rfl) (by rfl) (by rfl)) (speaks_tryClose _ _)
  next => exact .refl s

theorem orderly_receiptEvent (s : State) : Orderly s (receiptEvent s) := by
  refine .of_speaks ?_ (congrArg Tracker.history (receiptEvent_trk s))
  unfold receiptEvent finishReceipt
  split
  · refine Speaks.trans ?_ (speaks_tryClose _ _)
    split <;> exact speaks_of_same rfl rfl rfl
  · exact .refl s

theorem orderly_tokenEvent (s : State) : Orderly s (tokenEvent s) := by
  refine .of_speaks ?_ (congrArg Tracker.history (tokenEvent_trk s))
  unfold tokenEvent finishToken
  split
  · exact Speaks.trans (Speaks.trans (speaks_of_same (by rfl) (by rfl) (by rfl)) (speaks_judgeToken _ _ _)) (speaks_expiryComparison _)
  · exact .refl s

theorem orderly_streamDone (s : State) : Orderly s (streamDone s) := by
  refine orderly_of_same ?_
  unfold streamDone finishStream
  repeat' split
  all_goals simp [SameRecords, endRunning]

theorem orderly_parityDone (s : State) : Orderly s (parityDone s) := by
  unfold parityDone firstFailure secondFailure requeue
  dsimp only
  split
  next =>
    split
    all_goals
      refine Orderly.trans (orderly_of_same ?_) (orderly_raiseFault _ _)
      split <;> simp [SameRecords, endRunning]
  next => exact .refl s

/-- Settles O52: every event of a step keeps the two laws, each of itself. -/
theorem recordsAndAttentionKept : Obligations.RecordsAndAttentionKept := by
  intro s t h
  suffices ho : Orderly s t from ⟨fun hs => ⟨ho.notices hs.1, ho.history hs.2⟩, ho.attention⟩
  obtain ⟨l, he⟩ := event_of_step h
  refine Orderly.trans (t := { s with pending := l }) (orderly_of_same ⟨rfl, rfl, rfl, rfl⟩) ?_
  generalize ({ s with pending := l } : State) = u at he
  cases he with
  | powerOn => exact ⟨fun _ => Nat.zero_le 32, fun _ => Nat.zero_le 8, fun _ => rfl⟩
  | upstreamUp => exact orderly_of_same ⟨rfl, rfl, rfl, rfl⟩
  | linkReset => exact orderly_linkReset u
  | driveUp => exact orderly_run (orderly_of_same ⟨rfl, rfl, rfl, rfl⟩)
  | driveLost => exact orderly_run (orderly_lossEvent u)
  | tick => exact orderly_tickEvent u
  | period =>
    unfold referencePeriod
    split
    · exact orderly_of_same ⟨rfl, rfl, rfl, rfl⟩
    · exact orderly_tickEvent u
  | up f => exact (orderly_ports u).arriveUp f (.refl u)
  | drive f => exact (orderly_ports u).arriveDrive f (.refl u)
  | send =>
    rcases transmit_cases u with h | ⟨k, i, -, -, h⟩ <;> rw [h]
    · exact .refl u
    · exact orderly_run (orderly_of_same (sameRecords_sendItem k i u))
  | start =>
    refine orderly_of_same ?_
    unfold startJob startNext
    repeat' split
    all_goals exact ⟨rfl, rfl, rfl, rfl⟩
  | setup => exact orderly_setupEvent u
  | stream => rcases streamEvent_cases u with h | h <;> rw [h]; exacts [.refl u, orderly_run (orderly_streamDone u)]
  | parity => rcases parityEvent_cases u with h | h <;> rw [h]; exacts [.refl u, orderly_run (orderly_parityDone u)]
  | unwrap => exact orderly_unwrapEvent u
  | receipt => exact orderly_receiptEvent u
  | token => exact orderly_tokenEvent u

end Sys2Proof.CommandTracking
end

