-- ==== Sys2Proof/Proofs/CommandAdmission.lean ====
section
namespace Sys2Proof.CommandTracking
open Sys2Proof Sys2Proof.Machine Sys2Proof.LinkPassage

/-! ### The Classifier's answer where every sector lies in one region or in none (R46 to R54) -/

theorem cmdCount_pos (c : CommandFrame) : 0 < cmdCount c := by
  unfold cmdCount countOf
  split
  next => decide
  next h => exact Nat.pos_of_ne_zero fun hz => h (BitVec.eq_of_toNat_eq hz)

theorem verdictFrom_verdictFrom (v : Verdict) (m n : Nat) : verdictFrom (verdictFrom v m) n = verdictFrom v (m + n) := by
  cases v <;> simp [verdictFrom, Nat.add_assoc]

theorem verdictFrom_zero (v : Verdict) : verdictFrom v 0 = v := by cases v <;> rfl

/-- Sectors whose verdicts go on from one another are one run (R47). -/
theorem formRuns_range (v : Verdict) (k m n : Nat) :
    formRuns k ((List.range' m (n + 1)).map (verdictFrom v)) = [{ first := k, count := n + 1, verdict := verdictFrom v m }] := by
  induction n generalizing k m with
  | zero => rfl
  | succ n ih => simp [List.range'_succ (n := n + 1), formRuns, ih, verdictFrom_verdictFrom]

/-- A command whose sectors' verdicts go on from the first has the plan of one run (R47). -/
theorem formRuns_onePlan (c : CommandFrame) (v : Verdict) :
    formRuns 0 ((List.range (cmdCount c)).map (verdictFrom v)) = onePlan c v := by
  obtain ⟨n, hn⟩ := Nat.exists_eq_succ_of_ne_zero (cmdCount_pos c).ne'
  rw [onePlan, hn, List.range_eq_range', formRuns_range, verdictFrom_zero]

theorem passesTop_false {c : CommandFrame} (h : cmdLba c + cmdCount c ≤ lbaEnd) : passesTop c = false := by
  simpa [passesTop] using h

theorem touchedBy_clear (c : CommandFrame) : touchedBy (onePlan c .clear) = [] := by
  simp [touchedBy, onePlan, verdictCtx]

theorem touchedBy_encipher (c : CommandFrame) (x : CtxSlot) (lap logical : Nat) :
    touchedBy (onePlan c (.encipher x lap logical)) = [x] := by
  have := List.filter_eq (l := List.finRange 16) (a := x)
  simpa [touchedBy, onePlan, verdictCtx, List.count_eq_one_of_mem (List.nodup_finRange 16) (List.mem_finRange x), eq_comm] using this

/-- Where no sector lies in a region the command is CLEAR, and its acceptance has no effect (R49, R51). -/
theorem classify_clear {c : CommandFrame} {s : State} (o : Owner) (ht : cmdLba c + cmdCount c ≤ lbaEnd)
    (hl : EverySector c fun x => lookup s x = none) : classify o c s = .ok (plainPlan (onePlan c .clear) s) := by
  have hverdicts : (lbasOf c).map (readVerdict s) = (List.range (cmdCount c)).map (verdictFrom .clear) := by
    rw [lbasOf, List.map_map]
    refine List.map_congr_left fun k hk => ?_
    simp [readVerdict, hl k (List.mem_range.1 hk), verdictFrom]
  have hread : readPlan s c = onePlan c .clear := by rw [readPlan, hverdicts, formRuns_onePlan]
  have hnone : ((lbasOf c).map (lookup s)).all (·.isNone) = true := by
    simpa [lbasOf] using fun k hk => hl k hk
  unfold classify
  rw [passesTop_false ht, if_neg (by simp)]
  split
  · rw [classifyRead, hread]
    rfl
  · rw [classifyWrite, if_pos hnone]
    rfl

/-- The logical sector of a command's first sector in a region (R46). -/
def firstLogical (r : Region) (c : CommandFrame) : Nat := r.logicalStart + (cmdLba c - r.base)

theorem lookup_inWindow {s : State} {x : Nat} {r : Region} (h : lookup s x = some r) : r.base ≤ x ∧ x ≤ r.limit := by
  simpa [inWindow] using List.find?_some h

/-- The logical sectors of a write inside one region follow one another from the first (R46). -/
theorem writeLogicals_region {c : CommandFrame} {r : Region} {s : State} (hl : EverySector c fun y => lookup s y = some r) :
    writeLogicals s c = List.range' (firstLogical r c) (cmdCount c) := by
  have hbase : r.base ≤ cmdLba c := (lookup_inWindow (hl 0 (cmdCount_pos c))).1
  rw [writeLogicals, lbasOf, List.filterMap_map, List.range'_eq_map_range, ← List.filterMap_eq_map]
  refine List.filterMap_congr fun k hk => ?_
  have hlogical : r.logicalStart + (cmdLba c + k - r.base) = r.logicalStart + (cmdLba c - r.base) + k := by omega
  simp [hl k (List.mem_range.1 hk), logicalOf, firstLogical, hlogical]

theorem foldl_min_range' (a m n : Nat) (h : a ≤ m) : (List.range' m n).foldl min a = a := by
  induction n generalizing m with
  | zero => rfl
  | succ n ih => rw [List.range'_succ, List.foldl_cons, Nat.min_eq_left h, ih _ (by omega)]

theorem foldl_max_range' (a m n : Nat) (h : a ≤ m) : (List.range' m (n + 1)).foldl max a = m + n := by
  induction n generalizing a m with
  | zero => simp [h]
  | succ n ih => rw [List.range'_succ, List.foldl_cons, Nat.max_eq_right h, ih m (m + 1) (by omega)]; omega

theorem lowest_range' (m n : Nat) : lowest (List.range' m (n + 1)) = m := by
  rw [lowest, List.range'_succ, List.headD_cons, List.foldl_cons, Nat.min_self, foldl_min_range' _ _ _ (by omega)]

theorem highest_range' (m n : Nat) : highest (List.range' m (n + 1)) = m + n := foldl_max_range' 0 m n (Nat.zero_le m)

/-- A write inside one region is one ENCIPHER run (R47, R51). -/
theorem writePlan_region {c : CommandFrame} {r : Region} {s : State} (hl : EverySector c fun y => lookup s y = some r) (x : CtxSlot)
    (lap : Nat) : writePlan s c x lap = onePlan c (.encipher x lap (firstLogical r c)) := by
  rw [writePlan, writeLogicals_region hl, ← formRuns_onePlan, List.range'_eq_map_range, List.map_map]
  rfl

/-- A write inside one region of a RECORDING context outside lockdown comes to the check of its context's class (R51). -/
theorem classify_region {c : CommandFrame} {r : Region} {s : State} (o : Owner) (hk : kindReads (cmdKind c) = false)
    (hd : s.faults.lockdown = false) (ht : cmdLba c + cmdCount c ≤ lbaEnd) (hl : EverySector c fun y => lookup s y = some r)
    (hs : (ctxOf s r.ctx).state = .recording) :
    classify o c s = if (ctxOf s r.ctx).cls = .shift then classifyRing o c r.ctx s else classifyFrontier c r.ctx s := by
  obtain ⟨n, hn⟩ := Nat.exists_eq_succ_of_ne_zero (cmdCount_pos c).ne'
  have hregions : (lbasOf c).map (lookup s) = List.replicate (n + 1) (some r) := by
    rw [lbasOf, List.map_map, hn, ← List.length_range (n := n + 1), ← List.map_const]
    exact List.map_congr_left fun k hk => hl k (by rw [hn]; exact List.mem_range.1 hk)
  have hctx : writeCtx (List.replicate (n + 1) (some r)) = some r.ctx := by
    simp [List.replicate_succ, writeCtx]
  unfold classify
  rw [passesTop_false ht, hk, if_neg (by simp), if_neg (by simp), classifyWrite, hregions, if_neg (by simp), hd, if_neg (by simp), hctx]
  exact if_neg (by simp [hs])

/-! ### Admission and refusal by the Tracker (R21, R22, R25) -/

theorem takeCommand_queued {c : CommandFrame} {s : State} (hk : kindQueued (cmdKind c) = true) : takeCommand c s = takeQueued c s := by
  cases h : cmdKind c <;> simp_all [takeCommand, kindQueued]

theorem takeCommand_single {c : CommandFrame} {s : State} (hk : cmdKind c = .read ∨ cmdKind c = .write) :
    takeCommand c s = takeSingle c s := by
  rcases hk with hk | hk <;> simp [takeCommand, hk]

/-- A tag is taken where its entry is in use or its acceptance record is listed (R21). -/
def TagBusy (k : Tag) (s : State) : Prop := (entryOf s (.tag k)).isSome = true ∨ ∃ r ∈ s.trk.accepts, r.tag = k

/-- The single slot holds a command other than a bridge (R21). -/
def SlotBlocks (s : State) : Prop := ∃ e, s.trk.single = some e ∧ e.kind ≠ .bridge

theorem tagBusy_iff (k : Tag) (s : State) :
    ((entryOf s (.tag k)).isSome || s.trk.accepts.any fun r => r.tag = k) = true ↔ TagBusy k s := by
  simp [TagBusy]

theorem slotBlocks_iff (s : State) : (s.trk.single.any fun e => e.kind ≠ .bridge) = true ↔ SlotBlocks s := by
  cases h : s.trk.single <;> simp [SlotBlocks, h]

/-- The checks of R21 in their order. -/
theorem takeQueued_tagBusy {c : CommandFrame} {s : State} (h : TagBusy (cmdTag c) s) :
    takeQueued c s = refuseQueued c .tagInUse s := by
  rw [takeQueued, if_pos (by simpa using (tagBusy_iff _ s).2 h)]

theorem takeQueued_blocked {c : CommandFrame} {s : State} (ht : ¬TagBusy (cmdTag c) s) (h : SlotBlocks s) :
    takeQueued c s = refuseQueued c .queueBlocked s := by
  rw [takeQueued, if_neg (by simpa using (tagBusy_iff _ s).not.2 ht), if_pos ((slotBlocks_iff s).2 h)]

theorem takeQueued_driveLost {c : CommandFrame} {s : State} (ht : ¬TagBusy (cmdTag c) s) (hb : ¬SlotBlocks s)
    (h : s.drv.link = .down) : takeQueued c s = refuseQueued c .driveLost s := by
  rw [takeQueued, if_neg (by simpa using (tagBusy_iff _ s).not.2 ht), if_neg ((slotBlocks_iff s).not.2 hb), if_pos h]

theorem takeQueued_accepted {c : CommandFrame} {s : State} {a : Accepted} (ht : ¬TagBusy (cmdTag c) s) (hb : ¬SlotBlocks s)
    (h : s.drv.link = .up) (ha : classify (.tag (cmdTag c)) c s = .ok a) : takeQueued c s = enterQueued c a := by
  rw [takeQueued, if_neg (by simpa using (tagBusy_iff _ s).not.2 ht), if_neg ((slotBlocks_iff s).not.2 hb), if_neg (by simp [h])]
  simp only [ha]

theorem takeQueued_unclassified {c : CommandFrame} {s : State} {code : Code} (ht : ¬TagBusy (cmdTag c) s)
    (hb : ¬SlotBlocks s) (h : s.drv.link = .up) (he : classify (.tag (cmdTag c)) c s = .error code) :
    takeQueued c s = refuseQueued c code s := by
  rw [takeQueued, if_neg (by simpa using (tagBusy_iff _ s).not.2 ht), if_neg ((slotBlocks_iff s).not.2 hb), if_neg (by simp [h])]
  simp only [he]

/-- The checks of R22 in their order. -/
theorem takeSingle_busy {c : CommandFrame} {s : State} (h : s.trk.single.isSome = true) : takeSingle c s = refuseSingle c .busy s := by
  rw [takeSingle, if_pos h]

theorem takeSingle_driveLost {c : CommandFrame} {s : State} (hs : s.trk.single = none) (h : s.drv.link = .down) :
    takeSingle c s = refuseSingle c .driveLost s := by
  rw [takeSingle, if_neg (by simp [hs]), if_pos h]

theorem takeSingle_accepted {c : CommandFrame} {s : State} {a : Accepted} (hs : s.trk.single = none) (h : s.drv.link = .up)
    (ha : classify .single c s = .ok a) : takeSingle c s = enterSingle c a := by
  rw [takeSingle, if_neg (by simp [hs]), if_neg (by simp [h])]
  simp only [ha]

theorem takeSingle_unclassified {c : CommandFrame} {s : State} {code : Code} (hs : s.trk.single = none)
    (h : s.drv.link = .up) (he : classify .single c s = .error code) : takeSingle c s = refuseSingle c code s := by
  rw [takeSingle, if_neg (by simp [hs]), if_neg (by simp [h])]
  simp only [he]

/-- A full history of 8 records loses its oldest (R26). -/
theorem addHistory_eq {r : HistoryRecord} {l : List HistoryRecord} (h : l.length ≤ 8) :
    addHistory r l = (l ++ [r]).drop (l.length - 7) := by
  unfold addHistory
  split
  next hlt => simp [show l.length - 7 = 0 by omega]
  next hge =>
    have h8 : l.length = 8 := by omega
    rw [List.drop_append_of_le_length (by omega), show l.length - 7 = 1 by omega]

theorem refuseQueued_eq {c : CommandFrame} {code : Code} {s : State} (hk : kindQueued (cmdKind c) = true)
    (hh : s.trk.history.length ≤ 8) :
    refuseQueued c code s = listed (queuedRefusal (cmdTag c) code) (recorded c (some (cmdTag c)) code s) := by
  simp [refuseQueued, recordRefusal, addHistory_eq hh, hk, placePart, placeItem, listed, queuedRefusal, fromPart, recorded, recordOf,
    acceptedFrame, statusOf, failingDone, tagByte]

theorem refuseSingle_eq {c : CommandFrame} {code : Code} {s : State} (hk : kindQueued (cmdKind c) = false)
    (hh : s.trk.history.length ≤ 8) :
    refuseSingle c code s = listed [fromPart (statusOf 2#8 (codeByte code))] (recorded c none code s) := by
  simp [refuseSingle, recordRefusal, addHistory_eq hh, hk, placePart, placeItem, listed, fromPart, recorded, recordOf, errorFrame, statusOf]

theorem refusePlain_eq (code : Code) (s : State) :
    refusePlain code s = listed [fromPart (statusOf 2#8 (codeByte code))] s := rfl

/-- Settles O11: each check that refuses, under the negation of those before it. -/
theorem refusalsAnswered : Obligations.RefusalsAnswered := by
  intro i c s hrow _ hup hq hr hh
  dsimp only
  rw [exec_upstream hrow s, arriveUp_command hup hq (.inl hr)]
  refine ⟨fun hk => ?_, fun hk => ?_, fun hk hs => ?_, fun hk hs hl => ?_⟩
  · have hrefused : ∀ code, takeQueued c s = refuseQueued c code s → takeCommand c s =
        listed (queuedRefusal (cmdTag c) code) (recorded c (some (cmdTag c)) code s) := fun code h =>
      (takeCommand_queued hk).trans (h.trans (refuseQueued_eq hk hh))
    refine ⟨fun ht => ?_, fun ht hb => ?_, fun ht hb hl => ?_, fun ht hb hl code hc => ?_⟩
    · rw [hrefused _ (takeQueued_tagBusy ht)]
    · rw [hrefused _ (takeQueued_blocked ht hb)]
    · rw [hrefused _ (takeQueued_driveLost ht hb hl)]
    · rw [hrefused code (takeQueued_unclassified ht hb hl hc)]
  · have hrefused : ∀ code, takeSingle c s = refuseSingle c code s → takeCommand c s =
        listed [fromPart (statusOf 2#8 (codeByte code))] (recorded c none code s) := fun code h =>
      (takeCommand_single hk).trans (h.trans (refuseSingle_eq (by rcases hk with hk | hk <;> rw [hk] <;> rfl) hh))
    refine ⟨fun hs => ?_, fun hs hl => ?_, fun hs hl code hc => ?_⟩
    · rw [hrefused _ (takeSingle_busy hs)]
    · rw [hrefused _ (takeSingle_driveLost hs hl)]
    · rw [hrefused code (takeSingle_unclassified hs hl hc)]
  · rcases hk with hk | hk
    · simp [takeCommand, hk, takeOther, hs, refusePlain_eq]
    · simp [takeCommand, hk, takeBridge, hs, refusePlain_eq]
  · simp [takeCommand, hk, takeOther, hs, hl, refusePlain_eq]

/-! ### Commands that enter (R21, R22, R24, R37) -/

theorem enter_untouched {o : Owner} {e : Entry} {s : State} (h : e.touched = []) : enter o e s = setEntry o (some e) s := by
  rw [enter, h]
  rfl

theorem enter_touches {o : Owner} {e : Entry} {x : CtxSlot} {s : State} (h : e.touched = [x]) :
    enter o e s = raiseInFlight (setEntry o (some e) s) x := by
  rw [enter, h]
  rfl

/-- A queued command without a HELD span is forwarded at once with a RELAY record (R21). -/
theorem enterQueued_forwarded {c : CommandFrame} {a : Accepted} (h : a.heldSpan = false) :
    enterQueued c a = sentDown [.command c]
      { enter (.tag (cmdTag c)) (newEntry c a.plan a.ringWrite false false false) a.after with
        trk := { (enter (.tag (cmdTag c)) (newEntry c a.plan a.ringWrite false false false) a.after).trk with
          accepts := a.after.trk.accepts ++ [{ tag := cmdTag c, action := .relay }] } } := by
  unfold enterQueued
  simp [h, sendDown, sentDown]

/-- A queued command with a HELD span is held and answered by the part (R21). -/
theorem enterQueued_held {c : CommandFrame} {a : Accepted} (h : a.heldSpan = true) :
    enterQueued c a = listed [fromPart (statusOf 0#8 0#8)]
      (enter (.tag (cmdTag c)) (newEntry c a.plan a.ringWrite false true true) a.after) := by
  unfold enterQueued
  simp [h, placePart, placeItem, listed, fromPart, statusOf, acceptedFrame]

/-- A command that finds no queued work is forwarded from the single slot (R22). -/
theorem enterSingle_forwarded {c : CommandFrame} {a : Accepted} (h : a.heldSpan = false) (hq : queuedWork a.after = false) :
    enterSingle c a = sentDown [.command c] (enter .single (newEntry c a.plan a.ringWrite false false false) a.after) := by
  unfold enterSingle
  simp [h, hq, sendDown, sentDown]

/-- A command that finds queued work in hand is held in the single slot (R22). -/
theorem enterSingle_waits {c : CommandFrame} {a : Accepted} (h : a.heldSpan = false) (hq : queuedWork a.after = true) :
    enterSingle c a = enter .single (newEntry c a.plan a.ringWrite true false false) a.after := by
  unfold enterSingle
  simp [h, hq]

/-- Settles O9: one CLEAR run, entered as R21 or R22 says. -/
theorem clearCommandsAdmitted : Obligations.ClearCommandsAdmitted := by
  rintro lba count byte10 rest s ⟨hup, hdrv, hreset, hq⟩ frame plan t htop hregions
  have harrive : ∀ op, arriveUp (.command (frame op)) s = takeCommand (frame op) s := fun op =>
    arriveUp_command hup hq (.inl hreset)
  have hclear : ∀ o op, classify o (frame op) s = .ok (plainPlan (onePlan (frame op) .clear) s) := fun o op =>
    classify_clear o htop hregions
  have htouched : ∀ op ring wait window ans, (newEntry (frame op) (onePlan (frame op) .clear) ring wait window ans).touched = [] :=
    fun op _ _ _ _ => touchedBy_clear (frame op)
  refine ⟨fun hs hw => ?_, fun hs hw => ?_, fun hf ha hb => ?_⟩
  · have hone : ∀ op, cmdKind (frame op) = .read ∨ cmdKind (frame op) = .write → arriveUp (.command (frame op)) s =
        sentDown [.command (frame op)] { s with trk := { s.trk with
          single := some (freshEntry .forwarded (cmdKind (frame op)) (frame op) (onePlan (frame op) .clear) []) } } := fun op hk => by
      rw [harrive, takeCommand_single hk, takeSingle_accepted hs hdrv (hclear _ _), enterSingle_forwarded rfl hw]
      dsimp only [plainPlan]
      rw [enter_untouched (htouched _ _ _ _ _)]
      simp only [newEntry, touchedBy_clear]
      rfl
    exact ⟨congrArg Host.Outcome.next (hone _ (.inl rfl)), congrArg Host.Outcome.next (hone _ (.inr rfl))⟩
  · have hone : ∀ op, cmdKind (frame op) = .read ∨ cmdKind (frame op) = .write → arriveUp (.command (frame op)) s =
        { s with trk := { s.trk with
          single := some { freshEntry .held (cmdKind (frame op)) (frame op) (onePlan (frame op) .clear) [] with
            queueWait := true } } } := fun op hk => by
      rw [harrive, takeCommand_single hk, takeSingle_accepted hs hdrv (hclear _ _), enterSingle_waits rfl hw]
      dsimp only [plainPlan]
      rw [enter_untouched (htouched _ _ _ _ _)]
      simp only [newEntry, touchedBy_clear]
      rfl
    exact ⟨congrArg Host.Outcome.next (hone _ (.inl rfl)), congrArg Host.Outcome.next (hone _ (.inr rfl))⟩
  · have hbusy : ¬TagBusy t s := by simpa [TagBusy, hf] using ha
    have hblocks : ¬SlotBlocks s := fun ⟨e, he, hk⟩ => hk (hb e he)
    have hone : ∀ op, kindQueued (cmdKind (frame op)) = true → arriveUp (.command (frame op)) s =
        sentDown [.command (frame op)] { s with trk := { s.trk with
          queued := s.trk.queued.set t (some (freshEntry .forwarded (cmdKind (frame op)) (frame op) (onePlan (frame op) .clear) []))
          accepts := s.trk.accepts ++ [{ tag := t, action := .relay }] } } := fun op hk => by
      rw [harrive, takeCommand_queued hk, takeQueued_accepted (c := frame op) hbusy hblocks hdrv (hclear _ _), enterQueued_forwarded rfl]
      dsimp only [plainPlan]
      rw [enter_untouched (htouched _ _ _ _ _)]
      simp only [newEntry, touchedBy_clear]
      rfl
    exact ⟨congrArg Host.Outcome.next (hone _ rfl), congrArg Host.Outcome.next (hone _ rfl)⟩

/-! ### Writes that encipher (R51, R53, R54) -/

theorem raiseInFlight_setCtx (o : Owner) (e : Option Entry) (x : CtxSlot) (y : Context) (s : State) :
    raiseInFlight (setEntry o e (setCtx x y s)) x = setEntry o e (setCtx x { y with inFlight := y.inFlight + 1 } s) := by
  have hread : ctxOf (setEntry o e (setCtx x y s)) x = y := (ctxOf_setCtx x x y s).trans (if_pos rfl)
  unfold raiseInFlight updateCtx
  rw [hread]
  simp [setCtx, setEntry]

/-- At or above the frontier a write of one run is accepted, and moves it (R51, R53). -/
theorem classifyFrontier_accepted {c : CommandFrame} {r : Region} {s : State} (hl : EverySector c fun y => lookup s y = some r)
    (hf : (ctxOf s r.ctx).frontier ≤ firstLogical r c) :
    classifyFrontier c r.ctx s = .ok (plainPlan (onePlan c (.encipher r.ctx 0 (firstLogical r c)))
      (setCtx r.ctx { ctxOf s r.ctx with frontier := firstLogical r c + cmdCount c } s)) := by
  obtain ⟨n, hn⟩ := Nat.exists_eq_succ_of_ne_zero (cmdCount_pos c).ne'
  rw [classifyFrontier, writePlan_region hl, writeLogicals_region hl, hn, lowest_range', highest_range', if_neg (by omega),
    if_neg (by simp [onePlan])]
  rfl

/-- Settles O14: one ENCIPHER run, entered as R21 or R22 says, with the frontier and the count of its context. -/
theorem frontierWriteAdmitted : Obligations.FrontierWriteAdmitted := by
  rintro lba count byte10 rest r s ⟨hup, hdrv, hreset, hq⟩ frame n first plan t x moved hlock htop hregions hrec hcls hfront
  have harrive : ∀ op, arriveUp (.command (frame op)) s = takeCommand (frame op) s := fun op =>
    arriveUp_command hup hq (.inl hreset)
  have hclassify : ∀ o op, kindReads (cmdKind (frame op)) = false → classify o (frame op) s =
      .ok (plainPlan (onePlan (frame op) (.encipher r.ctx 0 first)) (setCtx r.ctx { x with frontier := first + n } s)) := fun o op hk =>
    (classify_region o hk hlock htop hregions hrec).trans ((if_neg hcls).trans (classifyFrontier_accepted hregions hfront))
  have htouched : ∀ op, touchedBy (onePlan (frame op) (.encipher r.ctx 0 first)) = [r.ctx] := fun op =>
    touchedBy_encipher (frame op) r.ctx 0 first
  refine ⟨fun hf ha hs => congrArg Host.Outcome.next ?_, fun hs hw => congrArg Host.Outcome.next ?_⟩
  · have hbusy : ¬TagBusy t s := by simpa [TagBusy, hf] using ha
    have hblocks : ¬SlotBlocks s := by simp [SlotBlocks, hs]
    refine (harrive 0x6B#8).trans ?_
    rw [takeCommand_queued rfl, takeQueued_accepted (c := frame 0x6B#8) hbusy hblocks hdrv (hclassify _ _ rfl), enterQueued_forwarded rfl]
    dsimp only [plainPlan]
    rw [enter_touches (htouched _), raiseInFlight_setCtx]
    simp only [newEntry, htouched]
    rfl
  · refine (harrive 0x3A#8).trans ?_
    rw [takeCommand_single (.inr rfl), takeSingle_accepted hs hdrv (hclassify _ _ rfl), enterSingle_forwarded rfl hw]
    dsimp only [plainPlan]
    rw [enter_touches (htouched _), raiseInFlight_setCtx]
    simp only [newEntry, htouched]
    rfl

theorem appendStatus_eq (g : Machine.Ring) : appendStatus g = if 4 ≤ forwardedCount g.spans then .held else .forwarded := by
  rw [appendStatus, ← ite_not]
  simp only [Nat.not_lt]

/-- The issue point and its lap after a write is accepted, with the span it appends (R106, R107). -/
theorem acceptSpan_eq (o : Owner) (n : Nat) (g : Machine.Ring) :
    acceptSpan o n g = { g with
      issue := if g.length ≤ g.issue + n then 0 else g.issue + n
      issueLap := if g.length ≤ g.issue + n then g.issueLap + 1 else g.issueLap
      spans := g.spans ++ [{ first := g.issue, count := n, lap := g.issueLap, owner := o,
                             status := if 4 ≤ forwardedCount g.spans then .held else .forwarded }] } := by
  rw [acceptSpan, appendStatus_eq, advancePoint]
  split <;> rfl

/-- Where the checks 5a to 5d pass, a write of one run takes a span of the ring under the issue lap (R54, R103 to R106). -/
theorem classifyRing_accepted {o : Owner} {c : CommandFrame} {r : Region} {g : Machine.Ring} {s : State}
    (hl : EverySector c fun y => lookup s y = some r) (hg : ringOf s r.ctx = some g) (hr : ringRefusal g (cmdLba c) (cmdCount c) = none) :
    classifyRing o c r.ctx s = .ok
      { plan := onePlan c (.encipher r.ctx g.issueLap (firstLogical r c)), ringWrite := some r.ctx,
        heldSpan := appendStatus g = .held, after := setRing r.ctx (some (acceptSpan o (cmdCount c) g)) s } := by
  rw [classifyRing, hg]
  dsimp only
  rw [hr]
  dsimp only
  rw [writePlan_region hl, if_neg (by simp [onePlan])]

theorem raiseInFlight_setRing (o : Owner) (e : Option Entry) (x : CtxSlot) (g : Option Machine.Ring) (s : State) :
    raiseInFlight (setEntry o e (setRing x g s)) x =
      setEntry o e (setRing x g (setCtx x { ctxOf s x with inFlight := (ctxOf s x).inFlight + 1 } s)) := rfl

/-- Settles O15: the span and the points are those of the Ring Unit, the entry's holding that of the span's window. -/
theorem ringWriteAdmitted : Obligations.RingWriteAdmitted := by
  rintro lba count byte10 rest r g s ⟨hup, hdrv, hreset, hq⟩ c n t x wraps full span e admitted hlock htop hregions hrec hcls hg hissue
    hlap hspans htotal hf ha hs
  have hbusy : ¬TagBusy t s := by simpa [TagBusy, hf] using ha
  have hblocks : ¬SlotBlocks s := by simp [SlotBlocks, hs]
  have hrefusal : ringRefusal g (cmdLba c) (cmdCount c) = none := by
    have hissue' : cmdLba c = g.base + g.issue := hissue
    have htotal' : spanTotal g.spans + cmdCount c ≤ g.length := htotal
    rw [ringRefusal, if_neg (by omega), if_neg hlap, if_neg (by omega), if_neg (by omega)]
  have hclassify := (classify_region (.tag t) (c := c) rfl hlock htop hregions hrec).trans
    ((if_pos hcls).trans (classifyRing_accepted (o := .tag t) hregions hg hrefusal))
  have htouched : touchedBy (onePlan c (.encipher r.ctx g.issueLap (firstLogical r c))) = [r.ctx] := touchedBy_encipher c r.ctx _ _
  have htaken : exec (.qwrite lba count byte10 rest) s = .next (enterQueued c _) := congrArg Host.Outcome.next
    ((arriveUp_command (c := c) hup hq (.inl hreset)).trans ((takeCommand_queued rfl).trans (takeQueued_accepted hbusy hblocks hdrv hclassify)))
  have hstatus : appendStatus g = if full then .held else .forwarded := appendStatus_eq g
  refine ⟨fun hfull => htaken.trans (congrArg Host.Outcome.next ?_), fun hfull => htaken.trans (congrArg Host.Outcome.next ?_)⟩
  · rw [enterQueued_forwarded (by simp [hstatus, hfull])]
    dsimp only
    rw [enter_touches htouched, raiseInFlight_setRing, acceptSpan_eq]
    simp only [newEntry, htouched]
    rfl
  · rw [enterQueued_held (by simp [hstatus, hfull])]
    dsimp only
    rw [enter_touches htouched, raiseInFlight_setRing, acceptSpan_eq]
    simp only [newEntry, htouched]
    rfl

end Sys2Proof.CommandTracking
end

