-- ==== Sys2Proof/Proofs/ResetState.lean ====
section
namespace Sys2Proof.CommandTracking
open Sys2Proof Sys2Proof.Machine Sys2Proof.LinkPassage

/-! ### The state after power-on (R38 and the reset values of every block) -/

theorem ctxOf_reset (c : CtxSlot) : ctxOf State.reset c = .blank := by
  simp [ctxOf, State.reset, Vector.get_eq_getElem]

theorem regionOf_reset (e : EntryNo) : regionOf State.reset e = none := by
  simp [regionOf, State.reset, Vector.get_eq_getElem]

theorem ringOf_reset (c : CtxSlot) : ringOf State.reset c = none := by
  simp [ringOf, State.reset, Vector.get_eq_getElem]

theorem keySlot_reset (k : KeyNo) : State.reset.keys.slots.get k = none := by
  simp [State.reset, KeyCache.reset, Vector.get_eq_getElem]

theorem poolSlot_reset (p : PoolNo) : State.reset.pool.slots.get p = none := by
  simp [State.reset, Pool.reset, Vector.get_eq_getElem]

/-- Settles O2: power-on replaces the Tracker and the contexts by those of the reset state, whatever they were. -/
theorem powerOnEmptiesTracker : Obligations.PowerOnEmptiesTracker := fun s => by
  refine ⟨powerOnEvent s, rfl, fun o => ?_, rfl, rfl, fun c => ?_⟩
  · exact (entryOf_congr rfl o).trans (entryOf_reset o)
  · have hblank : ctxOf (powerOnEvent s) c = .blank := ctxOf_reset c
    exact ⟨hblank, by rw [hblank]; rfl⟩

theorem settingsLaw_reset : SettingsLaw State.reset := ⟨by decide, by decide, by decide, by decide⟩

theorem clockLaw_reset : ClockLaw State.reset := ⟨by decide, by decide, by decide, fun _ => rfl⟩

theorem regionLaw_reset : RegionLaw State.reset :=
  ⟨fun e r hr => by simp [regionOf_reset] at hr, fun e f r q _ hr => by simp [regionOf_reset] at hr⟩

theorem keyLaw_reset : KeyLaw State.reset :=
  ⟨fun j k x y _ hj => by simp [keySlot_reset] at hj, by decide, List.nodup_nil, nofun⟩

theorem poolLaw_reset : PoolLaw State.reset :=
  ⟨by decide, fun o => by simp [slotsHeld, poolSlot_reset]⟩

theorem keyWaitLaw_reset : KeyWaitLaw State.reset := ⟨by decide, fun h => absurd rfl h⟩

theorem acceptLaw_reset : AcceptLaw State.reset :=
  ⟨List.nodup_nil, rfl, fun k e he => by simp [entryOf_reset] at he⟩

/-- Settles O4: after reset every table is blank and every list empty, so each law holds of it; the laws of the entries, the binding,
the counts and the bridge are those of `planLaw_reset`. -/
theorem resetMeetsLaws : Obligations.ResetMeetsLaws := by
  have hplan := planLaw_reset
  refine ⟨⟨by decide, by decide⟩, rfl, settingsLaw_reset, clockLaw_reset, (rfl : State.reset.time.compare = _), regionLaw_reset, fun c d _ h => ?_, hplan.entry, fun c r hr => ?_,
    fun c r hr => ?_, hplan.binding, keyLaw_reset, poolLaw_reset, ⟨rfl, rfl⟩, keyWaitLaw_reset, acceptLaw_reset, hplan.counts,
    hplan.bridge, fun c hc => ?_⟩
  · exact absurd (by rw [ctxOf_reset]; rfl) h
  · simp [ringOf_reset] at hr
  · simp [ringOf_reset] at hr
  · rw [ctxOf_reset] at hc
    exact absurd hc (by decide)

end Sys2Proof.CommandTracking
end

