-- ==== Sys2Proof/Proofs/RequestAnswers.lean ====
section
namespace Sys2Proof.CommandTracking
open Sys2Proof Sys2Proof.Machine Sys2Proof.LinkPassage

/-! ### Requests and their answers (R172, R173) -/

/-- The state that a request is executed in, its block having closed the request burst (R172). -/
def closedBurst (s : State) : State :=
  { s with up := { s.up with inBurst := none } }

section
variable {i : Instr} {r : Request} {s : State} {code : Code} {block : Sector}

theorem exec_request (hi : exec i s = .next (arriveRequest r s)) (ha : AwaitsBlock s) :
    exec i s = .next (answerRequest (executeRequest r (closedBurst s))) :=
  hi.trans (congrArg _ (arriveRequest_awaits ha))

theorem exec_accepted {t : State} (hi : exec i s = .next (arriveRequest r s)) (ha : AwaitsBlock s)
    (h : executeRequest r (closedBurst s) = accepts (closedBurst t)) : exec i s = .next (answered okFrame t) := by
  rw [exec_request hi ha, h]
  exact congrArg _ (answerRequest_accepts (closedBurst t) rfl)

theorem exec_refused (hi : exec i s = .next (arriveRequest r s)) (ha : AwaitsBlock s)
    (h : executeRequest r (closedBurst s) = refuses code (closedBurst s)) : exec i s = .next (answered (errorFrame code) s) := by
  rw [exec_request hi ha, h]
  exact congrArg _ (answerRequest_refuses code (closedBurst s) rfl)

theorem exec_replied (hi : exec i s = .next (arriveRequest r s)) (ha : AwaitsBlock s)
    (h : executeRequest r (closedBurst s) = replies block (closedBurst s)) : exec i s = .next (asked block s) := by
  rw [exec_request hi ha, h]
  exact congrArg _ (answerRequest_replies block (closedBurst s) rfl)

end

theorem slotOperand_of_ge {b : Byte} (h : 16 ≤ b.toNat) : slotOperand b = none := dif_neg (by omega)

theorem slotOperand_of_val {b : Byte} {c : CtxSlot} (h : c.val = b.toNat) : slotOperand b = some c := by
  rw [slotOperand, dif_pos (h ▸ c.isLt)]
  exact congrArg some (Fin.ext h.symm)

theorem entryOperand_of_ge {b : Byte} (h : 128 ≤ b.toNat) : entryOperand b = none := dif_neg (by omega)

theorem entryOperand_of_val {b : Byte} {e : EntryNo} (h : e.val = b.toNat) : entryOperand b = some e := by
  rw [entryOperand, dif_pos (h ▸ e.isLt)]
  exact congrArg some (Fin.ext h.symm)

section
variable {b : Byte} {c : CtxSlot} {e : EntryNo} {s : State}

theorem readContextRequest_none (hb : slotOperand b = none) : readContextRequest b s = refuses .outOfRange s := by
  simp only [readContextRequest, hb]

theorem readContextRequest_some (hb : slotOperand b = some c) : readContextRequest b s = replies (contextReply s c) s := by
  simp only [readContextRequest, hb]

theorem readRegionsRequest_none (hb : entryOperand b = none) : readRegionsRequest b s = refuses .outOfRange s := by
  simp only [readRegionsRequest, hb]

theorem readRegionsRequest_some (hb : entryOperand b = some e) : readRegionsRequest b s = replies (regionsReply s e) s := by
  simp only [readRegionsRequest, hb]

theorem readReceiptRequest_none (hb : slotOperand b = none) : readReceiptRequest b s = refuses .outOfRange s := by
  simp only [readReceiptRequest, hb]

theorem readReceiptRequest_loaded (hb : slotOperand b = some c)
    (h : (ctxOf s c).state ≠ .empty ∧ (ctxOf s c).state ≠ .loading ∧ (ctxOf s c).cls = .timed) :
    readReceiptRequest b s = replies (receiptReply s c) s := by
  obtain ⟨hempty, hloading, htimed⟩ := h
  simp [readReceiptRequest, hb, hempty, hloading, htimed]

theorem readReceiptRequest_unloaded (hb : slotOperand b = some c)
    (h : ¬((ctxOf s c).state ≠ .empty ∧ (ctxOf s c).state ≠ .loading ∧ (ctxOf s c).cls = .timed)) :
    readReceiptRequest b s = refuses .wrongState s := by
  have hrefused : (ctxOf s c).state = .empty ∨ (ctxOf s c).state = .loading ∨ (ctxOf s c).cls ≠ .timed := by tauto
  simp only [readReceiptRequest, hb, if_pos hrefused]

end

/-- The codes that name a request are 0x0001 to 0x0014 (R196). -/
theorem decodeRequest_eq_none {block : Sector} :
    decodeRequest block = none ↔ (getField 0 16 block).toNat = 0 ∨ 21 ≤ (getField 0 16 block).toNat := by
  unfold decodeRequest
  generalize (getField 0 16 block).toNat = code
  split
  case h_21 =>
    simp only [imp_false, true_iff] at *
    omega
  all_goals simp

theorem wellFormed_unknownRequestCode (block : Sector) :
    WellFormed (.unknownRequestCode block) = true ↔ block.extractLsb' 0 16 = 0#16 ∨ 21 ≤ (block.extractLsb' 0 16).toNat := by
  have hwf : WellFormed (.unknownRequestCode block) = true ↔ decodeRequest block = none := Option.isNone_iff_eq_none
  rw [hwf, decodeRequest_eq_none, ← BitVec.toNat_inj]
  rfl

theorem exec_unknownRequestCode {block : Sector} {s : State} (ha : AwaitsBlock s) (h : WellFormed (.unknownRequestCode block) = true) :
    exec (.unknownRequestCode block) s = .next (answered (errorFrame .malformed) s) := by
  have hnone : decodeRequest block = none := Option.isNone_iff_eq_none.1 h
  have harrive : exec (.unknownRequestCode block) s = .next (arriveUp (.data { bytes23 := 0, sectors := [block] }) s) := rfl
  have hanswer : answerRequest (refuses .malformed (closedBurst s)) = answered (errorFrame .malformed) s :=
    answerRequest_refuses _ _ rfl
  rw [harrive, arriveUp_block ha, takeRequest, hnone]
  exact congrArg _ hanswer

/-- Settles O39: each reader gives the reply that its block's owner computes, and a code outside 0x0001 to 0x0014 decodes to none. -/
theorem readRequestsReply : Obligations.ReadRequestsReply := by
  refine ⟨fun s ha => ⟨exec_replied rfl ha rfl, exec_replied rfl ha rfl, fun b => ⟨fun hb => ?_, fun hb => ?_, fun e he => ?_,
    fun c hc => ?_⟩⟩, fun block s ha => ⟨wellFormed_unknownRequestCode block, exec_unknownRequestCode ha⟩⟩
  · have hnone := slotOperand_of_ge hb
    exact ⟨exec_refused (r := .readContext b) rfl ha (readContextRequest_none hnone),
      exec_refused (r := .readReceipt b) rfl ha (readReceiptRequest_none hnone)⟩
  · exact exec_refused (r := .readRegions b) rfl ha (readRegionsRequest_none (entryOperand_of_ge hb))
  · exact exec_replied (r := .readRegions b) rfl ha (readRegionsRequest_some (s := closedBurst s) (entryOperand_of_val he))
  · have hsome := slotOperand_of_val hc
    exact ⟨exec_replied (r := .readContext b) rfl ha (readContextRequest_some (s := closedBurst s) hsome),
      fun h => exec_replied (r := .readReceipt b) rfl ha (readReceiptRequest_loaded (s := closedBurst s) hsome h),
      fun h => exec_refused (r := .readReceipt b) rfl ha (readReceiptRequest_unloaded (s := closedBurst s) hsome h)⟩

/-! ### The snapshot of DRAIN (R42, R181, R183) -/

theorem drains_iff (e : Entry) :
    drains e = true ↔ (e.kind = .write ∨ e.kind = .qwrite) ∧ ∃ r ∈ e.plan, ∃ c lap n, r.verdict = .encipher c lap n := by
  have hkind : kindWrites e.kind = true ↔ e.kind = .write ∨ e.kind = .qwrite := by cases e.kind <;> simp [kindWrites]
  rw [drains, Bool.and_eq_true, hkind, List.any_eq_true]
  refine and_congr_right fun _ => exists_congr fun r => and_congr_right fun _ => ?_
  cases r.verdict <;> simp

theorem mem_drainEntries {s : State} {o : Owner} : o ∈ drainEntries s ↔ ∃ e, entryOf s o = some e ∧ drains e = true := by
  have hany : (∃ e, entryOf s o = some e ∧ drains e = true) ↔ (entryOf s o).any drains = true := by
    cases entryOf s o <;> simp
  rw [hany, drainEntries, List.mem_append]
  cases o with
  | tag t => simp [entryOf]
  | single => simp [entryOf]

theorem nodup_drainEntries (s : State) : (drainEntries s).Nodup := by
  have htags : (((List.finRange 32).filter fun t => (s.trk.queued.get t).any drains).map Owner.tag).Nodup :=
    ((List.nodup_finRange 32).filter _).map fun _ _ h => Owner.tag.inj h
  refine htags.append (by split <;> simp) fun o ho hs => ?_
  obtain ⟨t, -, rfl⟩ := List.mem_map.1 ho
  split at hs <;> simp at hs

theorem drainRequest_done {s : State} (h : drainEntries s = []) :
    drainRequest s = accepts (queueNotice .drained none none none 0
      { s with req := { s.req with snapshot := [], snapshotSize := 0, drainPending := false } }) := by
  simp only [drainRequest, h, List.isEmpty_nil, if_true]
  rfl

theorem drainRequest_pending {s : State} (h : drainEntries s ≠ []) :
    drainRequest s = accepts
      { s with req := { s.req with snapshot := drainEntries s, snapshotSize := (drainEntries s).length, drainPending := true } } := by
  have hempty : (drainEntries s).isEmpty = false := by simpa using h
  simp only [drainRequest, hempty, Bool.false_eq_true, if_false, Bool.not_false]

/-- Settles O48: the snapshot is `drainEntries`, each owner once and each with an ENCIPHER run. -/
theorem timeAndDrainRequests : Obligations.TimeAndDrainRequests := by
  intro time check s ha
  refine ⟨fun h => ?_, fun h => ?_, drainEntries s, nodup_drainEntries s, fun o => ?_, fun h => ?_, fun h => ?_⟩
  · exact exec_refused (r := .setRightsTime time check) rfl ha (if_pos h)
  · exact exec_accepted (r := .setRightsTime time check) rfl ha (if_neg (by simp [closedBurst, h]))
  · simp only [mem_drainEntries, drains_iff]
  · exact exec_accepted (r := .drain) rfl ha (drainRequest_done (s := closedBurst s) h)
  · exact exec_accepted (r := .drain) rfl ha (drainRequest_pending (s := closedBurst s) h)

end Sys2Proof.CommandTracking
end

