-- ==== Sys2Proof/Proofs/HistoryReply.lean ====
section
namespace Sys2Proof.CommandTracking
open Sys2Proof Sys2Proof.Machine Sys2Proof.LinkPassage

/-! ### Records of a reply block (12.3) -/

/-- A block holds nothing from byte off on. -/
def ZeroFrom (off : Nat) (b : Sector) : Prop :=
  ∀ k, 8 * off ≤ k → b.getLsbD k = false

theorem zeroFrom_zero (off : Nat) : ZeroFrom off 0 := fun k _ => by simp

theorem ZeroFrom.mono {off off' : Nat} {b : Sector} (h : ZeroFrom off b) (hle : off ≤ off') : ZeroFrom off' b :=
  fun k hk => h k (by omega)

theorem ZeroFrom.getField {off f w : Nat} {b : Sector} (h : ZeroFrom off b) (hf : off ≤ f) : getField f w b = 0 := by
  refine BitVec.eq_of_getLsbD_eq fun i hi => ?_
  rw [getField_getLsbD _ _ _ _ hi, h _ (by omega)]
  simp

theorem ZeroFrom.putField {off f w : Nat} {b : Sector} (h : ZeroFrom off b) (v : BitVec w) (hf : 8 * f + w ≤ 8 * off) :
    ZeroFrom off (putField f v b) := fun k hk => by
  rcases Nat.lt_or_ge k 4096 with hlt | hge
  · rw [putField_getLsbD _ _ _ _ hlt, h k hk, BitVec.getLsbD_of_ge v _ (by omega)]
    simp
  · exact BitVec.getLsbD_of_ge _ _ hge

/-- A writer of records of a size: it leaves what stands before its record, and writes nothing past it. -/
structure RecordWriter {α : Type} (size : Nat) (put : Nat → α → Sector → Sector) : Prop where
  before : ∀ off a b f w, 8 * f + w ≤ 8 * off → 8 * f + w ≤ 4096 → getField f w (put off a b) = getField f w b
  past : ∀ off a b, ZeroFrom off b → ZeroFrom (off + size) (put off a b)

section
variable {α : Type} {size : Nat} {put : Nat → α → Sector → Sector}

theorem RecordWriter.putRecords_before (h : RecordWriter size put) (l : List α) {off f w : Nat} (b : Sector)
    (hf : 8 * f + w ≤ 8 * off) (hw : 8 * f + w ≤ 4096) : getField f w (putRecords size put off l b) = getField f w b := by
  induction l generalizing off b with
  | nil => rfl
  | cons a rest ih => exact (ih _ (by omega)).trans (h.before off a b f w hf hw)

theorem RecordWriter.putRecords_past (h : RecordWriter size put) (l : List α) {off : Nat} {b : Sector} (hb : ZeroFrom off b) :
    ZeroFrom (off + size * l.length) (putRecords size put off l b) := by
  induction l generalizing off b with
  | nil => exact hb
  | cons a rest ih =>
    have hnext : off + size * (a :: rest).length = off + size + size * rest.length := by
      rw [List.length_cons, Nat.mul_succ]
      omega
    exact hnext ▸ ih (h.past off a b hb)

/-- The fields of the record at a place are those that the writer puts there on a block with nothing behind. -/
theorem RecordWriter.putRecords_record (h : RecordWriter size put) {l : List α} {off k : Nat} {a : α} {b : Sector}
    (hb : ZeroFrom off b) (hk : l[k]? = some a) :
    ∃ b', ZeroFrom (off + size * k) b' ∧ ∀ f w, 8 * f + w ≤ 8 * (off + size * k + size) → 8 * f + w ≤ 4096 →
      getField f w (putRecords size put off l b) = getField f w (put (off + size * k) a b') := by
  induction l generalizing off b k with
  | nil => simp at hk
  | cons x rest ih =>
    cases k with
    | zero =>
      obtain rfl : x = a := by simpa using hk
      exact ⟨b, hb, fun f w hf hw => h.putRecords_before rest _ hf hw⟩
    | succ k =>
      have hplace : off + size * (k + 1) = off + size + size * k := by
        rw [Nat.mul_succ]
        omega
      rw [hplace]
      exact ih (h.past off x b hb) (by simpa using hk)

end

/-! ### The reply of READ_HISTORY (R27) -/

theorem recordWriter_putHistory : RecordWriter 16 putHistory where
  before off r b f w hf hw := by
    simp (disch := omega) only [putHistory, putNat_eq, getField_putField_apart]
  past off r b hb := by
    have hwide := hb.mono (Nat.le_add_right off 16)
    have hstamp := hwide.putField (f := off + 12) (BitVec.ofNat 32 r.stamp) (by omega)
    have hcount := hstamp.putField (f := off + 10) (countField r.count) (by omega)
    have hlba := hcount.putField (f := off + 4) r.lba (by omega)
    have hcode := hlba.putField (f := off + 2) (codeByte r.code) (by omega)
    have htag := hcode.putField (f := off + 1) (optByte r.tag) (by omega)
    exact htag.putField (f := off) (opByte r.kind) (by omega)

/-- The fields of a history record read back where nothing stood before (12.3). -/
theorem getField_putHistory {off : Nat} {b : Sector} (r : HistoryRecord) (hb : ZeroFrom off b) (ho : off + 16 ≤ 512) :
    getField off 8 (putHistory off r b) = opByte r.kind ∧ getField (off + 1) 8 (putHistory off r b) = optByte r.tag ∧
      getField (off + 2) 8 (putHistory off r b) = codeByte r.code ∧ getField (off + 4) 48 (putHistory off r b) = r.lba ∧
      getField (off + 10) 16 (putHistory off r b) = countField r.count ∧
      getField (off + 12) 32 (putHistory off r b) = BitVec.ofNat 32 r.stamp := by
  have hzero : ∀ f w, off ≤ f → getField f w b = 0 := fun f w hf => hb.getField hf
  simp (disch := first | omega | (simp (disch := omega) only [getField_putField_apart, hzero]; done)) only
    [putHistory, putNat_eq, getField_putField_same, getField_putField_apart, and_self]

/-- Settles O41: the records are written one after another from byte 8, each 16 bytes, on a block that holds the code and the count. -/
theorem historyReplyFields : Obligations.HistoryReplyFields := by
  intro s ha hl
  refine ⟨_, historyReply s.trk.history, exec_replied (r := .readHistory) rfl ha rfl, rfl, rfl, ?_⟩
  generalize s.trk.history = l at hl ⊢
  have hhead : ZeroFrom 8 (putNat 4 8 l.length <| putField 0 19#16 0) :=
    ((zeroFrom_zero 8).putField (f := 0) 19#16 (by omega)).putField (f := 4) (BitVec.ofNat 8 l.length) (by omega)
  refine ⟨?_, ?_, fun k r hk => ?_, fun off hoff hlt => ?_⟩
  · rw [historyReply, recordWriter_putHistory.putRecords_before l _ (by omega) (by omega), putNat_eq]
    rw [getField_putField_apart _ _ _ _ (by omega) (by omega), getField_putField_same _ _ _ (by omega) (getField_zero _ _)]
    rfl
  · rw [historyReply, recordWriter_putHistory.putRecords_before l _ (by omega) (by omega), putNat_eq]
    rw [getField_putField_same _ _ _ (by omega) (by rw [getField_putField_apart _ _ _ _ (by omega) (by omega), getField_zero])]
    rw [BitVec.toNat_ofNat]
    omega
  · obtain ⟨hlen, -⟩ := List.getElem?_eq_some_iff.1 hk
    obtain ⟨b', hb', hread⟩ := recordWriter_putHistory.putRecords_record hhead hk
    obtain ⟨hkind, htag, hcode, hlba, hcount, hstamp⟩ := getField_putHistory r hb' (by omega)
    rw [show 9 + 16 * k = 8 + 16 * k + 1 by omega, show 10 + 16 * k = 8 + 16 * k + 2 by omega,
      show 12 + 16 * k = 8 + 16 * k + 4 by omega, show 18 + 16 * k = 8 + 16 * k + 10 by omega,
      show 20 + 16 * k = 8 + 16 * k + 12 by omega]
    exact ⟨(hread _ _ (by omega) (by omega)).trans hkind, (hread _ _ (by omega) (by omega)).trans htag,
      (hread _ _ (by omega) (by omega)).trans hcode, (hread _ _ (by omega) (by omega)).trans hlba,
      (hread _ _ (by omega) (by omega)).trans hcount, (hread _ _ (by omega) (by omega)).trans hstamp⟩
  · exact (recordWriter_putHistory.putRecords_past l hhead).getField hoff

end Sys2Proof.CommandTracking
end

