-- ==== Sys2Proof/Proofs/AbortAndRewind.lean ====
section
namespace Sys2Proof.CommandTracking
open Sys2Proof Sys2Proof.Machine Sys2Proof.LinkPassage

/-! ### A notice that joins the queue is held or lost by the overflow (R185) -/

/-- A notice stands in the queue, or the overflow flag says that one was discarded. -/
def Told (n : Notice) (q : NoticeQueue) : Prop := q.overflow = true ∨ n ∈ q.notices

theorem told_joinQueue (a : BitVec 16) (d : Bool) (n : Notice) (q : NoticeQueue) : Told n (joinQueue a d n q) := by
  unfold joinQueue
  split
  · exact .inr (List.mem_append_right _ (List.mem_singleton_self n))
  · exact .inl rfl

theorem Told.joinQueue {n : Notice} {q : NoticeQueue} (h : Told n q) (a : BitVec 16) (d : Bool) (m : Notice) :
    Told n (joinQueue a d m q) := by
  unfold Machine.joinQueue
  split
  · exact h.imp_right fun hn => List.mem_append_left _ hn
  · exact .inl rfl

theorem Told.joinAll {n : Notice} {q : NoticeQueue} (h : Told n q) (a : BitVec 16) (d : Bool) (l : List Notice) :
    Told n (joinAll a d l q) := by
  induction l generalizing q with
  | nil => exact h
  | cons m l ih => exact ih (h.joinQueue a d m)

theorem Told.speaks {n : Notice} {s t : State} (hn : Told n s.nq) (h : Speaks s t) : Told n t.nq := by
  obtain ⟨⟨l, hl⟩, -, -⟩ := h
  exact hl ▸ hn.joinAll _ _ l

/-! ### The rewinding of one ring (R115) -/

/-- The notice of a ring rewound. -/
def rewindNotice (c : CtxSlot) (g : Ring) (time : Nat) : Notice :=
  { kind := .ringRewound, ctx := some c, tag := none, detail := none, value := spanTotal g.spans, stamp := time }

/-- The ring of a context becomes as a rewind leaves it, and its notice is told where it had a span (R115). -/
def Rewound (c : CtxSlot) (g : Ring) (time : Nat) (t : State) : Prop :=
  (g.spans = [] → ringOf t c = some g) ∧
    (g.spans ≠ [] → ringOf t c = some (rewound g) ∧ Told (rewindNotice c g time) t.nq)

theorem rewound_rewindRing {c : CtxSlot} {g : Ring} {s : State} (hg : ringOf s c = some g) :
    Rewound c g s.time.mono (rewindRing s c) := by
  refine ⟨fun h => ?_, fun h => ?_⟩
  · have hsame : rewindRing s c = s := by simp [rewindRing, hg, h]
    rwa [hsame]
  · have hrewind : rewindRing s c =
        queueNotice .ringRewound (some c) none none (spanTotal g.spans) (setRing c (some (rewound g)) s) := by
      simp [rewindRing, hg, h]
    rw [hrewind]
    exact ⟨(ringOf_setRing c c _ s).trans (if_pos rfl), told_joinQueue _ _ _ _⟩

theorem foldl_rewindRing_other {c : CtxSlot} {l : List CtxSlot} (h : c ∉ l) (s : State) :
    ringOf (l.foldl rewindRing s) c = ringOf s c := by
  induction l generalizing s with
  | nil => rfl
  | cons d l ih =>
    obtain ⟨hd, hl⟩ := not_or.1 (List.mem_cons.not.1 h)
    exact (ih hl _).trans (rewindRing_other hd)

theorem Rewound.later {c : CtxSlot} {g : Ring} {time : Nat} {s t : State} (h : Rewound c g time s) (hr : ringOf t c = ringOf s c)
    (hs : Speaks s t) : Rewound c g time t := by
  obtain ⟨hempty, hspans⟩ := h
  refine ⟨fun hg => hr.trans (hempty hg), fun hg => ?_⟩
  obtain ⟨hring, htold⟩ := hspans hg
  exact ⟨hr.trans hring, htold.speaks hs⟩

/-- Each ring is rewound once, in its context's turn. -/
theorem rewound_rewindRings {c : CtxSlot} {g : Ring} {s : State} (hg : ringOf s c = some g) :
    Rewound c g s.time.mono (rewindRings s) := by
  obtain ⟨before, after, hl⟩ := List.append_of_mem (List.mem_finRange c)
  have hnodup : (before ++ c :: after).Nodup := hl ▸ List.nodup_finRange 16
  obtain ⟨-, hcons, hapart⟩ := List.nodup_append.1 hnodup
  have hbefore : c ∉ before := fun h => hapart c h c List.mem_cons_self rfl
  have hafter : c ∉ after := (List.nodup_cons.1 hcons).1
  have htime : (before.foldl rewindRing s).time = s.time := foldl_keeps_time rewindRing (fun s a => by simp) before s
  have hturn := rewound_rewindRing ((foldl_rewindRing_other hbefore s).trans hg)
  rw [htime] at hturn
  rw [rewindRings, hl, List.foldl_append, List.foldl_cons]
  exact hturn.later (foldl_rewindRing_other hafter _) (speaks_foldl _ speaks_rewindRing after _)

/-! ### The end of an entry without an outcome reports to no ring (R33, R110) -/

theorem reportEnd_none (o : Owner) (e : Entry) (s : State) : reportEnd o e none s = s := by
  unfold reportEnd
  cases e.ringWrite <;> rfl

/-- The tables and the rings after the end of an entry without an outcome are those before its hold is judged. -/
theorem endEntry_tables {o : Owner} {e : Entry} {s : State} (he : entryOf s o = some e) :
    (endEntry o none s).contexts = (afterReport o e (releaseEntrySlots o e s)).contexts ∧
      (endEntry o none s).rings = (afterReport o e (releaseEntrySlots o e s)).rings := by
  cases o with
  | tag k =>
    rw [endTag_eq none he, reportEnd_none]
    simp
  | single =>
    simp only [endEntry, he, reportEnd_none]
    exact ⟨rfl, rfl⟩

theorem ringKept_endEntry (c : CtxSlot) (o : Owner) (s : State) : RingKept c s (endEntry o none s) := by
  cases he : entryOf s o with
  | none =>
    rw [endEntry, he]
    exact ringKept_of_same rfl rfl
  | some e =>
    obtain ⟨hctx, hring⟩ := endEntry_tables he
    obtain ⟨-, -, hkept⟩ := afterReport_keeps o e (releaseEntrySlots o e s)
    have hfirst : RingKept c s (releaseEntrySlots o e s) := ringKept_of_same (by simp) (by simp)
    exact (hfirst.trans (hkept c)).trans (ringKept_of_same hctx hring)

theorem RingKept.foldl {α : Type} {c : CtxSlot} (f : State → α → State) (h : ∀ s a, RingKept c s (f s a)) (l : List α) (s : State) :
    RingKept c s (l.foldl f s) := by
  induction l generalizing s with
  | nil => exact ringKept_of_same rfl rfl
  | cons a l ih => exact (h s a).trans (ih _)

theorem ringKept_endQueued (c : CtxSlot) (s : State) : RingKept c s (endQueued s) :=
  RingKept.foldl _ (fun s o => ringKept_endEntry c o s) _ s

theorem ringKept_endLost (c : CtxSlot) (s : State) : RingKept c s (endLost s) := by
  unfold endLost
  split
  · exact (ringKept_endQueued c s).trans (ringKept_endEntry c .single _)
  · exact ringKept_endQueued c s

theorem noSpans_of_rings {c : CtxSlot} {s t : State} (h : t.rings = s.rings) (hs : NoSpans c s) : NoSpans c t :=
  fun r hr => hs r (ringOf_congr h c ▸ hr)

theorem noSpans_completeClose {c : CtxSlot} (d : CtxSlot) {s : State} (hs : NoSpans c s) : NoSpans c (completeClose d s) := by
  intro r hr
  rw [ringOf_completeClose] at hr
  split at hr
  · cases hr
  · exact hs r hr

/-- A ring without spans stays so: it goes with a context that closes, and else is kept. -/
theorem noSpans_lowerInFlight {c : CtxSlot} (d : CtxSlot) {s : State} (hs : NoSpans c s) : NoSpans c (lowerInFlight s d) := by
  have hcounted : NoSpans c (counted d s) := noSpans_of_rings rfl hs
  by_cases hseals : Seals d s
  · rw [lowerInFlight_seals hseals]
    exact noSpans_of_rings (by simp) hcounted
  · by_cases hcloses : Closes d s
    · rw [lowerInFlight_closes hcloses]
      exact noSpans_completeClose d hcounted
    · rw [lowerInFlight_counts hseals hcloses]
      exact hcounted

theorem noSpans_afterReport {c : CtxSlot} (o : Owner) (e : Entry) {s : State} (hs : NoSpans c s) : NoSpans c (afterReport o e s) := by
  have hfold : ∀ (l : List CtxSlot) {u : State}, NoSpans c u → NoSpans c (l.foldl lowerInFlight u) := by
    intro l
    induction l with
    | nil => exact fun h => h
    | cons d l ih => exact fun h => ih (noSpans_lowerInFlight d h)
  have hnotice : NoSpans c (noticeWithheld o e s) := noSpans_of_rings (by simp) hs
  have hlast : (afterReport o e s).rings = (e.touched.foldl lowerInFlight (noticeWithheld o e s)).rings := by simp [afterReport]
  exact noSpans_of_rings hlast (hfold e.touched hnotice)

theorem noSpans_endEntry {c : CtxSlot} (o : Owner) {s : State} (hs : NoSpans c s) : NoSpans c (endEntry o none s) := by
  cases he : entryOf s o with
  | none => rwa [endEntry, he]
  | some e =>
    obtain ⟨-, hring⟩ := endEntry_tables he
    have hfirst : NoSpans c (releaseEntrySlots o e s) := noSpans_of_rings (by simp) hs
    exact noSpans_of_rings hring (noSpans_afterReport o e hfirst)

/-! ### The abort of the queued entries (R36) -/

/-- The abort of an entry ends it without an outcome and may place an answer. -/
theorem abortEntry_cases (k : Tag) (e : Entry) (s : State) :
    (abortEntry k e s).2 = endEntry (.tag k) none s ∨
      (abortEntry k e s).2 = placePart (errorFrame .aborted) (endEntry (.tag k) none s) := by
  unfold abortEntry
  repeat' split
  · exact .inl rfl
  · exact .inl rfl
  · exact .inr rfl

/-- What holds from each state to the next over single aborts holds over them all. -/
theorem abortEntries_induct {R : State → State → Prop} (hrefl : ∀ s, R s s) (htrans : ∀ {s t u}, R s t → R t u → R s u)
    (habort : ∀ k e s, R s (abortEntry k e s).2) (l : List Tag) (s : State) : R s (abortEntries l s).2 := by
  induction l generalizing s with
  | nil => exact hrefl s
  | cons k l ih =>
    unfold abortEntries
    split
    · exact ih s
    · exact htrans (habort _ _ s) (ih _)

theorem abortEntries_keeps (l : List Tag) (s : State) :
    (abortEntries l s).2.time = s.time ∧ (abortEntries l s).2.trk.history = s.trk.history := by
  refine abortEntries_induct (R := fun s t => t.time = s.time ∧ t.trk.history = s.trk.history) (fun s => ⟨rfl, rfl⟩)
    (fun h k => ⟨k.1.trans h.1, k.2.trans h.2⟩) (fun k e s => ?_) l s
  rcases abortEntry_cases k e s with h | h <;> rw [h] <;> simp

theorem ringKept_abortEntries (c : CtxSlot) (l : List Tag) (s : State) : RingKept c s (abortEntries l s).2 := by
  refine abortEntries_induct (fun s => ringKept_of_same rfl rfl) (fun h k => h.trans k) (fun k e s => ?_) l s
  rcases abortEntry_cases k e s with h | h <;> rw [h]
  · exact ringKept_endEntry c _ s
  · exact (ringKept_endEntry c _ s).trans (ringKept_of_same rfl rfl)

theorem frees_abortEntries (l : List Tag) (s : State) : Frees s (abortEntries l s).2 := by
  refine abortEntries_induct .refl (fun h k => h.trans k) (fun k e s => ?_) l s
  rcases abortEntry_cases k e s with h | h <;> rw [h]
  · exact frees_endEntry _ _ s
  · exact (frees_endEntry _ _ s).trans (frees_of_trk rfl)

theorem entryOf_abortEntry (k : Tag) (e : Entry) (s : State) : entryOf (abortEntry k e s).2 (.tag k) = none := by
  rcases abortEntry_cases k e s with h | h <;> rw [h]
  · exact entryOf_endEntry _ _ _
  · exact frees_of_trk rfl _ (entryOf_endEntry (.tag k) none s)

theorem entryOf_abortEntries {k : Tag} {l : List Tag} (hk : k ∈ l) (s : State) : entryOf (abortEntries l s).2 (.tag k) = none := by
  induction l generalizing s with
  | nil => cases hk
  | cons q l ih =>
    unfold abortEntries
    split
    next hq =>
      rcases List.mem_cons.1 hk with rfl | hl
      · exact frees_abortEntries l s _ hq
      · exact ih hl s
    next e _ =>
      rcases List.mem_cons.1 hk with rfl | hl
      · exact frees_abortEntries l _ _ (entryOf_abortEntry k e s)
      · exact ih hl _

/-- The acceptance list emptied once every queued entry has ended (R36). -/
def abortedEntries (s : State) : State :=
  let t := (abortEntries (List.finRange 32) s).2
  { t with trk := { t.trk with accepts := [] } }

theorem abortQueued_eq (s : State) : (abortQueued s).2 = rewindRings (abortedEntries s) := by
  simp only [abortQueued, abortedEntries]

/-- What an abort leaves of the Tracker and the clock (R36). -/
theorem abortQueued_keeps (s : State) :
    (∀ k : Tag, entryOf (abortQueued s).2 (.tag k) = none) ∧ (abortQueued s).2.trk.accepts = [] ∧
      (abortQueued s).2.trk.history = s.trk.history := by
  obtain ⟨-, hhistory⟩ := abortEntries_keeps (List.finRange 32) s
  rw [abortQueued_eq]
  refine ⟨fun k => ?_, by simp [abortedEntries], ?_⟩
  · have htrk : (rewindRings (abortedEntries s)).trk = (abortedEntries s).trk := by simp
    exact (entryOf_congr htrk _).trans (entryOf_abortEntries (List.mem_finRange k) s)
  · simpa [abortedEntries] using hhistory

/-- The abort of the single slot ends its ring write, answered, or frees its hold (R36). -/
theorem abortSingle_cases (s : State) :
    abortSingle s = s ∨ abortSingle s = placePart (errorFrame .aborted) (endEntry .single none s) ∨ abortSingle s = clearQueueWait s := by
  unfold abortSingle
  split
  · exact .inl rfl
  · split
    · exact .inr (.inl rfl)
    · exact .inr (.inr rfl)

theorem relayDone_tables (d : DoneFrame) (l : List Tag) (m : List (Byte × Byte)) (s : State) :
    (relayDone d l m s).contexts = s.contexts ∧ (relayDone d l m s).rings = s.rings ∧ Speaks s (relayDone d l m s) := by
  unfold relayDone
  split
  · exact ⟨rfl, rfl, .refl s⟩
  · exact ⟨rfl, rfl, speaks_of_same rfl rfl rfl⟩

theorem frees_abortSingle (s : State) : Frees s (abortSingle s) := by
  rcases abortSingle_cases s with h | h | h <;> rw [h]
  · exact .refl s
  · exact (frees_endEntry _ _ s).trans (frees_of_trk rfl)
  · exact frees_clearQueueWait s

theorem abortSingle_keeps (s : State) :
    (abortSingle s).trk.accepts = s.trk.accepts ∧ (abortSingle s).trk.history = s.trk.history := by
  rcases abortSingle_cases s with h | h | h <;> rw [h] <;> simp

theorem speaks_abortSingle (s : State) : Speaks s (abortSingle s) := by
  rcases abortSingle_cases s with h | h | h <;> rw [h]
  · exact .refl s
  · exact (speaks_endEntry .single none s).trans (speaks_of_same rfl rfl rfl)
  · exact speaks_of_same (by simp) (by simp) (by simp)

theorem ringKept_abortSingle (c : CtxSlot) (s : State) : RingKept c s (abortSingle s) := by
  rcases abortSingle_cases s with h | h | h <;> rw [h]
  · exact ringKept_of_same rfl rfl
  · exact (ringKept_endEntry c .single s).trans (ringKept_of_same rfl rfl)
  · exact ringKept_of_same (by simp) (by simp)

theorem noSpans_abortSingle {c : CtxSlot} {s : State} (hs : NoSpans c s) : NoSpans c (abortSingle s) := by
  rcases abortSingle_cases s with h | h | h <;> rw [h]
  · exact hs
  · exact noSpans_of_rings rfl (noSpans_endEntry .single hs)
  · exact noSpans_of_rings (by simp) hs

/-- With every queued entry FREE, no released command adds an acceptance record (R28). -/
theorem flushReleased_noAccepts {s : State} (h : ∀ k : Tag, entryOf s (.tag k) = none) :
    (flushReleased s).trk.accepts = s.trk.accepts := by
  have hnone : ∀ o, swallowOf s o = none := fun o => by cases o <;> simp [swallowOf, h]
  have hnil : s.trk.released.filterMap (swallowOf s) = [] := List.filterMap_eq_nil_iff.2 fun o _ => hnone o
  rw [flushReleased_eq, hnil]
  exact List.append_nil _

/-! ### A DONE with the abort flag (R36) -/

theorem takeDone_aborts {d : DoneFrame} (hd : doneAborts d = true) (s : State) :
    ∃ l m, takeDone d s = flushReleased (abortSingle (relayDone d l m (abortQueued (doneEnded d s)).2)) :=
  ⟨_, _, congrArg flushReleased (if_pos hd)⟩

theorem endDone_history (l : List Tag) (s : State) : (endDone l s).2.trk.history = s.trk.history := by
  induction l generalizing s with
  | nil => rfl
  | cons k l ih =>
    unfold endDone
    dsimp only
    split <;> exact (ih _).trans (by simp)

theorem doneEnded_history (d : DoneFrame) (s : State) : (doneEnded d s).trk.history = s.trk.history := by
  have hfailed : ∀ s p, (endFailed s p).trk.history = s.trk.history := fun s p => by simp [endFailed]
  unfold doneEnded
  dsimp only
  rw [foldl_keeps_trk_history endFailed hfailed, endDone_history, slipDone_trk]
  simp

/-- A DONE that names no tag ends no entry itself; it closes a queued command's open burst (R7, R36). -/
theorem doneEnded_unnamed {d : DoneFrame} (hset : d.doneSet = 0#32) (hfailed : d.failed = []) (s : State) :
    doneEnded d s = closeOwned (doneNames d) s := by
  have htags : doneTags d = [] := by simp [doneTags, hset]
  simp [doneEnded, checkDone, htags, hfailed, firstMentions, doneRemoves, slipDone, endDone]

/-- The end of an aborting DONE keeps the rings that the abort has rewound. -/
theorem rewound_takeDone {d : DoneFrame} {c : CtxSlot} {g : Ring} {s : State} (hd : doneAborts d = true) (hset : d.doneSet = 0#32)
    (hfailed : d.failed = []) (hg : ringOf s c = some g) (hc : (ctxOf s c).state ≠ .closing) :
    Rewound c g s.time.mono (takeDone d s) := by
  obtain ⟨l, m, htake⟩ := takeDone_aborts hd s
  rw [htake, doneEnded_unnamed hset hfailed, abortQueued_eq]
  have hclosed : RingKept c s (closeOwned (doneNames d) s) := ringKept_of_same (by simp) (by simp)
  have hclear : RingKept c s (abortedEntries (closeOwned (doneNames d) s)) :=
    (hclosed.trans (ringKept_abortEntries c _ _)).trans (ringKept_of_same rfl rfl)
  have htime : (abortedEntries (closeOwned (doneNames d) s)).time = s.time :=
    (abortEntries_keeps (List.finRange 32) _).1.trans (by simp)
  obtain ⟨hopen, hring⟩ := hclear hc
  have hrewound := rewound_rewindRings (hring.trans hg)
  rw [htime] at hrewound
  have hopen' : (ctxOf (rewindRings (abortedEntries (closeOwned (doneNames d) s))) c).state ≠ .closing := by
    have hctx : (rewindRings (abortedEntries (closeOwned (doneNames d) s))).contexts =
        (abortedEntries (closeOwned (doneNames d) s)).contexts := by simp
    rwa [ctxOf_congr hctx]
  generalize rewindRings (abortedEntries (closeOwned (doneNames d) s)) = u at hrewound hopen' ⊢
  obtain ⟨hctx, hrings, hspeaks⟩ := relayDone_tables d l m u
  have hkept : RingKept c u (relayDone d l m u) := ringKept_of_same hctx hrings
  have hflush : RingKept c (abortSingle (relayDone d l m u)) (flushReleased (abortSingle (relayDone d l m u))) :=
    ringKept_of_same (by simp) (by simp)
  obtain ⟨-, hsame⟩ := ((hkept.trans (ringKept_abortSingle c _)).trans hflush) hopen'
  exact hrewound.later hsame ((hspeaks.trans (speaks_abortSingle _)).trans (speaks_of_same (by simp) (by simp) (by simp)))

/-! ### Link reset and drive link lost (R115) -/

theorem rewound_linkReset {c : CtxSlot} {g : Ring} {s : State} (hg : ringOf s c = some g) (hc : (ctxOf s c).state ≠ .closing) :
    Rewound c g s.time.mono (linkResetEvent s) := by
  have hports : RingKept c s (freeAllSlots (resetPorts s)) := ringKept_of_same (by simp [resetPorts]) (by simp [resetPorts])
  have hends := (hports.trans (ringKept_endQueued c _)).trans (ringKept_endEntry c .single _)
  have hlast : ∀ u, RingKept c u (dropReply (clearAccepts u)) := fun u => ringKept_of_same rfl rfl
  have hentries : RingKept c s (dropReply (resetEntries s)) := hends.trans (hlast _)
  have htime : (dropReply (resetEntries s)).time = s.time := by
    have hdrop : ∀ u, (dropReply u).time = u.time := fun u => rfl
    obtain ⟨-, -, htime, -⟩ := resetEntries_keeps s
    exact (hdrop _).trans htime
  rw [linkResetEvent_eq, ← htime]
  exact rewound_rewindRings ((hentries hc).2.trans hg)

theorem rewound_lossEvent {c : CtxSlot} {g : Ring} {s : State} (hg : ringOf s c = some g) (hc : (ctxOf s c).state ≠ .closing) :
    Rewound c g s.time.mono (lossEvent s) := by
  have hports : RingKept c s (lostPorts s) := ringKept_of_same (by simp [lostPorts]) (by simp [lostPorts])
  have hends := hports.trans (ringKept_endLost c _)
  unfold lossEvent
  rw [answerLoss_eq]
  generalize hu : raiseFault .driveLost _ = u
  have hraised : RingKept c (endLost (lostPorts s)) u := by
    rw [← hu]
    exact ringKept_of_same (by simp [listed]) (by simp [listed])
  have htime : u.time = s.time := by
    obtain ⟨-, -, hend, -⟩ := endLost_keeps (lostPorts s)
    simpa [← hu, listed, lostPorts] using hend
  rw [← htime]
  exact rewound_rewindRings (((hends.trans hraised) hc).2.trans hg)

/-- No frame stands after a drive loss where none stood for the controller: those from the drive are gone with its link (R17). -/
theorem quiet_lossEvent {s : State} (h : Quiet s) : Quiet (lossEvent s) := by
  obtain ⟨hup, -⟩ := h
  obtain ⟨kup, kdrv, -⟩ := endLost_keeps (lostPorts s)
  have hupHeld : (lossEvent s).up.held = (endLost (lostPorts s)).up.held := by simp [lossEvent, answerLoss_eq, listed]
  have hdrvHeld : (lossEvent s).drv.held = (endLost (lostPorts s)).drv.held := by simp [lossEvent, answerLoss_eq, listed]
  refine ⟨?_, ?_⟩
  · rw [hupHeld, kup]
    simpa [lostPorts] using hup
  · rw [hdrvHeld, kdrv]
    rfl

/-- Settles O27: the abort ends each tag's entry before the rings rewind, and what follows the rewind, at each of the three events, keeps
the rings of contexts that do not close. -/
theorem abortEndsQueuedEntries : Obligations.AbortEndsQueuedEntries := by
  refine ⟨fun d s hw ht hd => ⟨takeDone d s, exec_done hw ht, ?_⟩, fun i s hq hi => ?_⟩
  · obtain ⟨l, m, htake⟩ := takeDone_aborts hd s
    obtain ⟨htags, haccepts, hhistory⟩ := abortQueued_keeps (doneEnded d s)
    rw [htake]
    have hnone : ∀ c, NoSpans c (abortQueued (doneEnded d s)).2 := fun c => abortQueued_eq _ ▸ rewindRings_noSpans c _
    generalize (abortQueued (doneEnded d s)).2 = u at htags haccepts hhistory hnone ⊢
    have htrk := relayDone_trk d l m u
    obtain ⟨-, hrings, -⟩ := relayDone_tables d l m u
    obtain ⟨hsingleAccepts, hsingleHistory⟩ := abortSingle_keeps (relayDone d l m u)
    have hfree : ∀ k : Tag, entryOf (abortSingle (relayDone d l m u)) (.tag k) = none := fun k =>
      frees_abortSingle _ _ ((entryOf_congr htrk _).trans (htags k))
    refine ⟨fun k => (entryOf_flushReleased _ _).trans (hfree k), ?_, fun c r hr => ?_, ?_⟩
    · rw [flushReleased_noAccepts hfree, hsingleAccepts, htrk, haccepts]
    · have hsingle := noSpans_abortSingle (noSpans_of_rings hrings (hnone c))
      exact noSpans_of_rings (by simp) hsingle r hr
    · exact (by simp : (flushReleased _).trk.history = _).trans
        (hsingleHistory.trans ((congrArg Tracker.history htrk).trans (hhistory.trans (doneEnded_history d s))))
  · rcases hi with rfl | rfl | ⟨ht, d, rfl, hd, hset, hfailed⟩
    · exact ⟨linkResetEvent s, rfl, fun c g hg hc => rewound_linkReset hg hc⟩
    · refine ⟨driveLostEvent s, rfl, fun c g hg hc => ?_⟩
      rw [driveLostEvent_eq, run_quiet (quiet_lossEvent hq)]
      exact rewound_lossEvent hg hc
    · have hw : WellFormed (.doneFromDrive d) = true := by simp [WellFormed, acceptable, hfailed]
      exact ⟨takeDone d s, exec_done hw ht, fun c g hg hc => rewound_takeDone hd hset hfailed hg hc⟩

end Sys2Proof.CommandTracking
end

