-- ==== Sys2Proof/Proofs/TableMoves.lean ====
section
namespace Sys2Proof.SectorClassification
open Sys2Proof Sys2Proof.Machine Sys2Proof.LinkPassage Sys2Proof.CommandTracking

/-! ### What can happen to the tables of contexts, regions and rings

Every step changes the three tables by a few kinds of change. Each law of the tables is shown once for each kind, and each operation
is shown once to make only such changes. -/

/-- A loaded context: its state is one of those in which R62 gives its E. -/
def Loaded (x : Context) : Prop :=
  x.state = .recording ∨ x.state = .sealing ∨ x.state = .sealed ∨ x.state = .expired

/-- What the law of E says of one context (R62, R83, R85). -/
def Dated (x : Context) : Prop :=
  x.cls = .timed → (x.state = .loading → x.t0 = none) ∧ (Loaded x → x.expiry = statedExpiry x)

theorem expiryLaw_iff (s : State) : ExpiryLaw s ↔ ∀ c, Dated (ctxOf s c) := Iff.rfl

/-- A context record changed in place: it neither enters nor leaves EMPTY and LOADING, and its frontier does not fall. -/
structure InPlace (x y : Context) : Prop where
  cls : y.cls = x.cls
  serial : y.serial = x.serial
  empty : y.state = .empty ↔ x.state = .empty
  loading : y.state = .loading ↔ x.state = .loading
  frontier : x.frontier ≤ y.frontier
  dated : Dated x → Dated y

/-- A record whose state and rights are as they were. -/
theorem InPlace.of_same {x y : Context} (cls : y.cls = x.cls) (serial : y.serial = x.serial) (state : y.state = x.state)
    (notAfter : y.notAfter = x.notAfter) (window : y.window = x.window) (t0 : y.t0 = x.t0) (expiry : y.expiry = x.expiry)
    (frontier : x.frontier ≤ y.frontier) : InPlace x y :=
  ⟨cls, serial, by rw [state], by rw [state], frontier, by
    simp only [Dated, Loaded, statedExpiry, cls, state, notAfter, window, t0, expiry, imp_self]⟩

/-- A loaded context passes to another loaded state (R80, R88, R90). -/
theorem InPlace.of_loaded {x : Context} {t : CtxState} (hx : Loaded x) (ht : Loaded { x with state := t }) :
    InPlace x { x with state := t } := by
  have hout : ∀ {y : Context}, Loaded y → y.state ≠ .empty ∧ y.state ≠ .loading := fun h => by
    rcases h with h | h | h | h <;> rw [h] <;> exact ⟨by decide, by decide⟩
  obtain ⟨hxe, hxl⟩ := hout hx
  obtain ⟨hte, htl⟩ := hout ht
  exact ⟨rfl, rfl, iff_of_false hte hxe, iff_of_false htl hxl, le_rfl, fun h hc => ⟨fun hl => absurd hl htl, fun _ => (h hc).2 hx⟩⟩

/-- A context's first view: T0 and the E that follows from it (R50, R62). -/
def firstViewed (t : Nat) (x : Context) : Context :=
  { x with t0 := some t, expiry := effectiveExpiry x.notAfter x.window (some t), receipt := .pending }

/-- A context that starts to close (R92). -/
def closingOf (x : Context) : Context :=
  { x with state := .closing, receipt := closingReceipt x.receipt }

/-- A change of the tables that needs no request of the bridge and no UNWRAP: one record in place, the first view of a context that a
region names, a ring on its region, or the end of a close. -/
inductive Move (s : State) : State → Prop
  | same {t : State} : SameTables s t → Move s t
  | context (c : CtxSlot) (x : Context) : InPlace (ctxOf s c) x → Move s (setCtx c x s)
  | viewed (c : CtxSlot) (t : Nat) : (∃ e r, regionOf s e = some r ∧ r.ctx = c) → Move s (setCtx c (firstViewed t (ctxOf s c)) s)
  | ring (c : CtxSlot) (g h : Machine.Ring) : ringOf s c = some g → ringShape h = ringShape g → Move s (setRing c (some h) s)
  | closed (c : CtxSlot) : (ctxOf s c).state = .closing → Move s (completeClose c s)

/-- Any change of the tables: a move, or what a request, an UNWRAP or power-on does to them. -/
inductive Change (s : State) : State → Prop
  | move {t : State} : Move s t → Change s t
  | loaded (c : CtxSlot) (b : Blob) (cls : CtxClass) (opening : Opening) : (ctxOf s c).state = .empty →
      serialTaken s c b.serial = false → Change s (setCtx c (loadingContext b cls opening) s)
  | opened (c : CtxSlot) (key : Block) : (ctxOf s c).state = .loading → Change s (setCtx c (loadedContext key (ctxOf s c)) s)
  | rejected (c : CtxSlot) : (ctxOf s c).state = .loading → Change s (setCtx c .blank s)
  | closing (c : CtxSlot) : (ctxOf s c).state ≠ .empty → Change s (setCtx c (closingOf (ctxOf s c)) s)
  | enabled (e : EntryNo) (r : Region) : regionOf s e = none → RegionInRange r →
      (∀ q ∈ enabledRegions s, windowsMeet r q = false) → regionRefusal s r = none → Change s (enableRegion e r s)
  | freed (e : EntryNo) (r : Region) : regionOf s e = some r → Change s (withoutRegion e r s)
  | cleared {t : State} : (∀ c, ctxOf t c = .blank) → (∀ e, regionOf t e = none) → (∀ c, ringOf t c = none) → Change s t

/-! ### The law of the regions (R67, R68, R70) -/

/-- Every region of t stands in s under the same entry. -/
def FewerRegions (s t : State) : Prop :=
  ∀ e r, regionOf t e = some r → regionOf s e = some r

theorem fewerRegions_of_same {s t : State} (h : t.regions = s.regions) : FewerRegions s t := fun e r hr => by
  rwa [regionOf_congr h] at hr

theorem FewerRegions.regionLaw {s t : State} (h : FewerRegions s t) (hs : RegionLaw s) : RegionLaw t :=
  ⟨fun e r hr => hs.1 e r (h e r hr), fun e f r q hef hr hq => hs.2 e f r q hef (h e r hr) (h f q hq)⟩

theorem fewerRegions_completeClose (c : CtxSlot) (s : State) : FewerRegions s (completeClose c s) := fun e r hr => by
  rw [regionOf_completeClose, Option.filter_eq_some_iff] at hr
  exact hr.1

theorem Move.fewerRegions {s t : State} (h : Move s t) : FewerRegions s t := by
  cases h with
  | same h => exact fewerRegions_of_same h.2.1
  | context | viewed | ring => exact fewerRegions_of_same rfl
  | closed c _ => exact fewerRegions_completeClose c s

theorem regionOf_withoutRegion (e f : EntryNo) (r : Region) (s : State) :
    regionOf (withoutRegion e r s) f = if f = e then none else regionOf s f := by
  rw [← regionOf_set]
  unfold withoutRegion
  dsimp only
  split <;> rfl

theorem regionOf_enableRegion (e f : EntryNo) (r : Region) (s : State) :
    regionOf (enableRegion e r s) f = if f = e then some r else regionOf s f := by
  rw [← regionOf_set]
  unfold enableRegion
  dsimp only
  split <;> rfl

/-- Windows that the check of R68 finds apart share no LBA. -/
theorem windowsMeet_false {r q : Region} (h : windowsMeet r q = false) :
    ¬∃ x, r.base ≤ x ∧ x ≤ r.limit ∧ q.base ≤ x ∧ x ≤ q.limit := by
  simp only [windowsMeet, Bool.and_eq_false_iff, decide_eq_false_iff_not] at h
  rintro ⟨x, h1, h2, h3, h4⟩
  omega

/-- Logical ranges that the check of R70 finds apart share no logical sector. -/
theorem logicalsMeet_false {r q : Region} (h : logicalsMeet r q = false) (hc : r.ctx = q.ctx) :
    ¬∃ l, r.logicalStart ≤ l ∧ l ≤ lastLogical r ∧ q.logicalStart ≤ l ∧ l ≤ lastLogical q := by
  simp only [logicalsMeet, hc, decide_true, Bool.true_and, Bool.and_eq_false_iff, decide_eq_false_iff_not] at h
  rintro ⟨l, h1, h2, h3, h4⟩
  omega

theorem regionRefusal_logicals {s : State} {r q : Region} (h : regionRefusal s r = none) (hq : q ∈ enabledRegions s) :
    logicalsMeet r q = false := by
  unfold regionRefusal at h
  dsimp only at h
  split at h
  next => contradiction
  next =>
    split at h
    next => contradiction
    next hno => simpa using fun hm => hno (List.any_eq_true.2 ⟨q, hq, hm⟩)

theorem regionLaw_enableRegion {e : EntryNo} {r : Region} {s : State} (hs : RegionLaw s) (hr : RegionInRange r)
    (hw : ∀ q ∈ enabledRegions s, windowsMeet r q = false) (hl : regionRefusal s r = none) : RegionLaw (enableRegion e r s) := by
  obtain ⟨hrange, hapart⟩ := hs
  have hnew : ∀ f q, regionOf s f = some q → (¬∃ x, r.base ≤ x ∧ x ≤ r.limit ∧ q.base ≤ x ∧ x ≤ q.limit) ∧
      (r.ctx = q.ctx → ¬∃ l, r.logicalStart ≤ l ∧ l ≤ lastLogical r ∧ q.logicalStart ≤ l ∧ l ≤ lastLogical q) := fun f q hq =>
    have hmem := mem_enabledRegions.2 ⟨f, hq⟩
    ⟨windowsMeet_false (hw q hmem), logicalsMeet_false (regionRefusal_logicals hl hmem)⟩
  refine ⟨fun f q hq => ?_, fun f g q p hfg hq hp => ?_⟩
  · rw [regionOf_enableRegion] at hq
    split at hq
    next => cases hq; exact hr
    next => exact hrange f q hq
  · rw [regionOf_enableRegion] at hq hp
    split at hq
    next hf =>
      cases hq
      rw [if_neg fun hg => hfg (hf.trans hg.symm)] at hp
      exact hnew g p hp
    next =>
      split at hp
      next =>
        cases hp
        obtain ⟨hx, hy⟩ := hnew f q hq
        exact ⟨fun ⟨x, h1, h2, h3, h4⟩ => hx ⟨x, h3, h4, h1, h2⟩, fun hc ⟨l, h1, h2, h3, h4⟩ => hy hc.symm ⟨l, h3, h4, h1, h2⟩⟩
      next => exact hapart f g q p hfg hq hp

theorem Change.regionLaw {s t : State} (h : Change s t) (hs : RegionLaw s) : RegionLaw t := by
  cases h with
  | move h => exact h.fewerRegions.regionLaw hs
  | loaded | opened | rejected | closing => exact (fewerRegions_of_same rfl).regionLaw hs
  | enabled e r _ hr hw hl => exact regionLaw_enableRegion hs hr hw hl
  | freed e r _ =>
    refine FewerRegions.regionLaw (fun f q hq => ?_) hs
    rw [regionOf_withoutRegion] at hq
    split at hq
    · contradiction
    · exact hq
  | cleared _ hr _ => exact FewerRegions.regionLaw (fun e r h => by simp [hr] at h) hs

/-! ### The law of the serials (R82) -/

/-- Every context that is not EMPTY in t was not EMPTY in s, under the same serial. -/
def FewerSerials (s t : State) : Prop :=
  ∀ c, (ctxOf t c).state ≠ .empty → (ctxOf s c).state ≠ .empty ∧ (ctxOf t c).serial = (ctxOf s c).serial

theorem FewerSerials.serialLaw {s t : State} (h : FewerSerials s t) (hs : SerialLaw s) : SerialLaw t := fun c d hcd hc hd => by
  obtain ⟨hc, hcs⟩ := h c hc
  obtain ⟨hd, hds⟩ := h d hd
  rw [hcs, hds]
  exact hs c d hcd hc hd

theorem fewerSerials_of_same {s t : State} (h : t.contexts = s.contexts) : FewerSerials s t := fun c hc => by
  rw [ctxOf_congr h] at hc ⊢
  exact ⟨hc, rfl⟩

theorem fewerSerials_setCtx {c : CtxSlot} {x : Context} {s : State}
    (h : x.state ≠ .empty → (ctxOf s c).state ≠ .empty ∧ x.serial = (ctxOf s c).serial) : FewerSerials s (setCtx c x s) := fun d hd => by
  rw [ctxOf_setCtx] at hd ⊢
  split at hd
  next hdc => subst hdc; simpa using h hd
  next hdc => rw [if_neg hdc]; exact ⟨hd, rfl⟩

theorem Move.fewerSerials {s t : State} (h : Move s t) : FewerSerials s t := by
  cases h with
  | same h => exact fewerSerials_of_same h.1
  | context c x h => exact fewerSerials_setCtx fun hx => ⟨fun he => hx (h.empty.2 he), h.serial⟩
  | viewed c t _ => exact fewerSerials_setCtx fun hx => ⟨hx, rfl⟩
  | ring => exact fewerSerials_of_same rfl
  | closed c _ =>
    intro d hd
    rw [ctxOf_completeClose] at hd ⊢
    split at hd
    next => exact absurd rfl hd
    next hdc => rw [if_neg hdc]; exact ⟨hd, rfl⟩

theorem contexts_enableRegion (e : EntryNo) (r : Region) (s : State) : (enableRegion e r s).contexts = s.contexts := by
  unfold enableRegion
  dsimp only
  split <;> rfl

theorem contexts_withoutRegion (e : EntryNo) (r : Region) (s : State) : (withoutRegion e r s).contexts = s.contexts := by
  unfold withoutRegion
  dsimp only
  split <;> rfl

theorem serialTaken_false {s : State} {c d : CtxSlot} {serial : BitVec 48} (h : serialTaken s c serial = false) (hd : d ≠ c)
    (he : (ctxOf s d).state ≠ .empty) : (ctxOf s d).serial ≠ serial := fun hs => by
  have := (List.any_eq_false.1 h) d (List.mem_finRange d)
  simp [hd, he, hs] at this

theorem serialLaw_loaded {c : CtxSlot} {b : Blob} {cls : CtxClass} {opening : Opening} {s : State} (hs : SerialLaw s)
    (hb : serialTaken s c b.serial = false) : SerialLaw (setCtx c (loadingContext b cls opening) s) := by
  intro d f hdf hd hf
  rw [ctxOf_setCtx] at hd hf ⊢
  rw [ctxOf_setCtx]
  by_cases hdc : d = c
  · have hfc : f ≠ c := fun h => hdf (hdc.trans h.symm)
    rw [if_neg hfc] at hf
    rw [if_pos hdc, if_neg hfc]
    exact (serialTaken_false hb hfc hf).symm
  · rw [if_neg hdc] at hd
    rw [if_neg hdc]
    split
    next => exact serialTaken_false hb hdc hd
    next hfc =>
      rw [if_neg hfc] at hf
      exact hs d f hdf hd hf

theorem Change.serialLaw {s t : State} (h : Change s t) (hs : SerialLaw s) : SerialLaw t := by
  cases h with
  | move h => exact h.fewerSerials.serialLaw hs
  | loaded c b cls opening _ hb => exact serialLaw_loaded hs hb
  | opened c key hl => exact (fewerSerials_setCtx (x := loadedContext key (ctxOf s c)) fun _ => ⟨by simp [hl], rfl⟩).serialLaw hs
  | rejected c _ => exact (fewerSerials_setCtx fun hx => absurd rfl hx).serialLaw hs
  | closing c hc => exact (fewerSerials_setCtx (x := closingOf (ctxOf s c)) fun _ => ⟨hc, rfl⟩).serialLaw hs
  | enabled e r => exact (fewerSerials_of_same (contexts_enableRegion e r s)).serialLaw hs
  | freed e r => exact (fewerSerials_of_same (contexts_withoutRegion e r s)).serialLaw hs
  | cleared hc => exact FewerSerials.serialLaw (fun c hx => by simp [hc, Context.blank] at hx) hs

/-! ### The law of the binding (R46, R71, R101) -/

theorem Move.binding {s t : State} (h : Move s t) (hs : BindingLaw s) : BindingLaw t := by
  cases h with
  | same h => exact (tables_of_same h).binding hs
  | context c x h =>
    refine (bind_setCtx h.cls fun hx => ?_).binding hs
    rcases hx with hx | hx
    exacts [.inl (h.empty.1 hx), .inr (h.loading.1 hx)]
  | viewed c t _ => exact (bind_setCtx (x := firstViewed t (ctxOf s c)) rfl id).binding hs
  | ring c g h hg hh => exact (tables_setRing hg hh).binding hs
  | closed c _ => exact binding_completeClose hs

/-- No region binds an idle context, and it has no ring (R46, R101). -/
theorem unbound_of_idle {s : State} (hs : BindingLaw s) {c : CtxSlot} (hc : Idle (ctxOf s c)) :
    (∀ e r, regionOf s e = some r → r.ctx ≠ c) ∧ ringOf s c = none := by
  obtain ⟨hnamed, -, -, hbound⟩ := hs
  have hfree : ∀ e r, regionOf s e = some r → r.ctx ≠ c := by
    rintro e r hr rfl
    rcases hc with h | h
    exacts [(hnamed e r hr).1 h, (hnamed e r hr).2 h]
  refine ⟨hfree, Option.eq_none_iff_forall_ne_some.2 fun g hg => ?_⟩
  obtain ⟨-, e, r, hr, hrc, -⟩ := hbound c g hg
  exact hfree e r hr hrc

/-- An idle context's slot takes any record (R83, R86). -/
theorem binding_setCtx_idle {c : CtxSlot} {s : State} (x : Context) (hs : BindingLaw s) (hc : Idle (ctxOf s c)) :
    BindingLaw (setCtx c x s) := by
  obtain ⟨hfree, hring⟩ := unbound_of_idle hs hc
  obtain ⟨hnamed, hone, hsome, hbound⟩ := hs
  have hctx : ∀ d, d ≠ c → ctxOf (setCtx c x s) d = ctxOf s d := fun d hd => by rw [ctxOf_setCtx, if_neg hd]
  refine ⟨fun e r hr => ?_, fun e f r q hef hr hq hcq => ?_, fun e r hr hcls => ?_, fun d g hg => ?_⟩
  · rw [hctx _ (hfree e r hr)]; exact hnamed e r hr
  · rw [hctx _ (hfree e r hr)]; exact hone e f r q hef hr hq hcq
  · rw [hctx _ (hfree e r hr)] at hcls; exact hsome e r hr hcls
  · have hdc : d ≠ c := by
      rintro rfl
      exact absurd (hring.symm.trans hg) (by simp)
    rw [hctx d hdc]
    exact hbound d g hg

theorem ringOf_enableRegion (e : EntryNo) (r : Region) (s : State) (c : CtxSlot) :
    ringOf (enableRegion e r s) c = if (ctxOf s r.ctx).cls = .shift ∧ c = r.ctx then some (newRing r) else ringOf s c := by
  have hc : ctxOf { s with regions := s.regions.set e (some r) } r.ctx = ctxOf s r.ctx := rfl
  unfold enableRegion
  dsimp only
  rw [hc]
  split
  next h =>
    rw [ringOf_setRing]
    simp only [h, true_and]
    rfl
  next h => simp only [h, false_and, if_false]; rfl

/-- A SHIFT context takes its first region with a ring on it; a region of another class binds no ring (R71, R73). -/
theorem binding_enableRegion {e : EntryNo} {r : Region} {s : State} (hs : BindingLaw s) (he : regionOf s e = none)
    (hr : regionRefusal s r = none) : BindingLaw (enableRegion e r s) := by
  obtain ⟨hidle, hsole⟩ := regionRefusal_none hr
  obtain ⟨hnamed, hone, hsome, hbound⟩ := hs
  have hctx : ∀ c, ctxOf (enableRegion e r s) c = ctxOf s c := ctxOf_congr (contexts_enableRegion e r s)
  refine ⟨fun f q hq => ?_, fun f g q p hfg hq hp hqp => ?_, fun f q hq hc => ?_, fun c g hg => ?_⟩
  · rw [hctx]
    rw [regionOf_enableRegion] at hq
    split at hq
    next => cases hq; exact ⟨fun h => hidle (.inl h), fun h => hidle (.inr h)⟩
    next => exact hnamed f q hq
  · rw [hctx]
    rw [regionOf_enableRegion] at hq hp
    split at hq
    next hf =>
      cases hq
      rw [if_neg fun h => hfg (hf.trans h.symm)] at hp
      exact fun hc => hsole hc g p hp hqp.symm
    next =>
      split at hp
      next => cases hp; exact fun hc => hsole (hqp ▸ hc) f q hq hqp
      next => exact hone f g q p hfg hq hp hqp
  · rw [hctx] at hc
    rw [regionOf_enableRegion] at hq
    rw [ringOf_enableRegion]
    split
    next => rfl
    next h =>
      split at hq
      next => cases hq; exact absurd ⟨hc, rfl⟩ h
      next => exact hsome f q hq hc
  · rw [hctx]
    rw [ringOf_enableRegion] at hg
    split at hg
    next h =>
      cases hg
      obtain ⟨hc, rfl⟩ := h
      exact ⟨hc, e, r, by rw [regionOf_enableRegion, if_pos rfl], rfl, rfl, rfl, rfl⟩
    next =>
      obtain ⟨hc, f, q, hq, hrest⟩ := hbound c g hg
      have hf : f ≠ e := by rintro rfl; simp [he] at hq
      exact ⟨hc, f, q, by rw [regionOf_enableRegion, if_neg hf, hq], hrest⟩

theorem Change.binding {s t : State} (h : Change s t) (hs : BindingLaw s) : BindingLaw t := by
  cases h with
  | move h => exact h.binding hs
  | loaded c b cls opening hc _ => exact binding_setCtx_idle _ hs (.inl hc)
  | opened c key hc => exact binding_setCtx_idle _ hs (.inr hc)
  | rejected c hc => exact binding_setCtx_idle _ hs (.inr hc)
  | closing c _ => exact (bind_setCtx (x := closingOf (ctxOf s c)) rfl (by simp [Idle, closingOf])).binding hs
  | enabled e r he _ _ hr => exact binding_enableRegion hs he hr
  | freed e r hr => exact binding_withoutRegion hs hr
  | cleared hc hr hg =>
    exact ⟨fun e r h => by simp [hr] at h, fun e f r q _ h => by simp [hr] at h, fun e r h => by simp [hr] at h,
      fun c g h => by simp [hg] at h⟩

/-! ### The law of E (R62) -/

/-- The effective expiry that the Time Unit computes is that of R62. -/
theorem effectiveExpiry_eq (x : Context) : effectiveExpiry x.notAfter x.window x.t0 = statedExpiry x := by
  unfold effectiveExpiry statedExpiry
  cases x.notAfter <;> cases x.t0 <;> by_cases h : 0 < x.window <;> simp [Option.filter, satAdd_eq_min, h]

theorem dated_blank : Dated .blank := fun h => by cases h

theorem dated_firstViewed {x : Context} (t : Nat) (hx : ¬Idle x) : Dated (firstViewed t x) := fun _ =>
  ⟨fun hl => absurd (.inr hl) hx, fun _ => effectiveExpiry_eq (firstViewed t x)⟩

theorem dated_loading (b : Blob) (cls : CtxClass) (opening : Opening) : Dated (loadingContext b cls opening) := fun _ =>
  ⟨fun _ => rfl, fun h => by rcases h with h | h | h | h <;> cases h⟩

/-- At the unwrap completion T0 is absent, so E is that of not_after alone (R85). -/
theorem dated_loadedContext {x : Context} (key : Block) (hx : Dated x) (hl : x.state = .loading) : Dated (loadedContext key x) := fun hc => by
  have hc : x.cls = .timed := hc
  have ht : x.t0 = none := (hx hc).1 hl
  refine ⟨fun h => ?_, fun _ => ?_⟩
  · have h : openedState x.opening = .loading := h
    cases hx : x.opening <;> simp [hx, openedState] at h
  · have he := effectiveExpiry_eq (loadedContext key x)
    rw [← he]
    simp [loadedContext, loadedExpiry, hc, ht]

theorem dated_closing (x : Context) : Dated (closingOf x) := fun _ =>
  ⟨nofun, fun h => by rcases h with h | h | h | h <;> cases h⟩

theorem expiryLaw_setCtx {c : CtxSlot} {x : Context} {s : State} (hs : ExpiryLaw s) (hx : Dated x) : ExpiryLaw (setCtx c x s) := by
  rw [expiryLaw_iff] at hs ⊢
  intro d
  rw [ctxOf_setCtx]
  split
  · exact hx
  · exact hs d

theorem expiryLaw_congr {s t : State} (h : t.contexts = s.contexts) (hs : ExpiryLaw s) : ExpiryLaw t := fun c => by
  rw [ctxOf_congr h]
  exact hs c

/-- The first view of a context that a region names finds it loaded: the law of E rests on that of the binding. -/
theorem Move.expiryLaw {s t : State} (h : Move s t) (hb : BindingLaw s) (hs : ExpiryLaw s) : ExpiryLaw t := by
  cases h with
  | same h => exact expiryLaw_congr h.1 hs
  | context c x h => exact expiryLaw_setCtx hs (h.dated (hs c))
  | viewed c t hr =>
    obtain ⟨e, r, hr, rfl⟩ := hr
    obtain ⟨hempty, hloading⟩ := hb.1 e r hr
    exact expiryLaw_setCtx hs (dated_firstViewed t fun hi => hi.elim hempty hloading)
  | ring => exact expiryLaw_congr rfl hs
  | closed c _ =>
    rw [expiryLaw_iff] at hs ⊢
    intro d
    rw [ctxOf_completeClose]
    split
    · exact dated_blank
    · exact hs d

theorem Change.expiryLaw {s t : State} (h : Change s t) (hb : BindingLaw s) (hs : ExpiryLaw s) : ExpiryLaw t := by
  cases h with
  | move h => exact h.expiryLaw hb hs
  | loaded c b cls opening _ _ => exact expiryLaw_setCtx hs (dated_loading b cls opening)
  | opened c key hc => exact expiryLaw_setCtx hs (dated_loadedContext key (hs c) hc)
  | rejected c _ => exact expiryLaw_setCtx hs dated_blank
  | closing c _ => exact expiryLaw_setCtx hs (dated_closing _)
  | enabled e r => exact expiryLaw_congr (contexts_enableRegion e r s) hs
  | freed e r => exact expiryLaw_congr (contexts_withoutRegion e r s) hs
  | cleared hc => exact (expiryLaw_iff t).2 fun c => by rw [hc]; exact dated_blank

end Sys2Proof.SectorClassification
end

