-- ==== Sys2Proof/Proofs/SteadyOperations.lean ====
section
namespace Sys2Proof.SectorClassification
open Sys2Proof Sys2Proof.Machine Sys2Proof.LinkPassage Sys2Proof.CommandTracking

/-! ### Operations that only move the tables -/

/-- Whether the request burst of the bridge is open: only its block brings a request (R171, R172). -/
def requestOpen (s : State) : Bool := s.up.inBurst.any (·.bridge)

/-- From s to t the tables have only moved, and the bridge's request burst has not opened. -/
structure Steady (s t : State) : Prop where
  moves : Relation.ReflTransGen Move s t
  request : requestOpen t = true → requestOpen s = true

theorem Steady.refl (s : State) : Steady s s := ⟨.refl, id⟩

theorem Steady.trans {s t u : State} (h : Steady s t) (k : Steady t u) : Steady s u :=
  ⟨h.moves.trans k.moves, h.request ∘ k.request⟩

theorem Steady.foldl {α : Type} (f : State → α → State) (h : ∀ s a, Steady s (f s a)) (l : List α) (s : State) :
    Steady s (l.foldl f s) := by
  induction l generalizing s with
  | nil => exact .refl s
  | cons a l ih => exact (h s a).trans (ih _)

/-- The tables and the inbound burst are as they were. -/
def SameOutside (s t : State) : Prop := SameTables s t ∧ t.up.inBurst = s.up.inBurst

theorem steady_of_same {s t : State} (h : SameOutside s t) : Steady s t :=
  ⟨.single (.same h.1), fun hr => by rwa [requestOpen, h.2] at hr⟩

/-- A change before an operation that left the tables and the inbound burst alone. -/
theorem Steady.since {s t u : State} (k : Steady t u) (h : SameOutside s t) : Steady s u := (steady_of_same h).trans k

theorem steady_of_move {s t : State} (h : Move s t) (hu : t.up = s.up) : Steady s t :=
  ⟨.single h, fun hr => by rwa [requestOpen, hu] at hr⟩

theorem steady_setCtx {c : CtxSlot} {x : Context} {s : State} (h : InPlace (ctxOf s c) x) : Steady s (setCtx c x s) :=
  steady_of_move (.context c x h) rfl

theorem steady_updateCtx {c : CtxSlot} {f : Context → Context} {s : State} (h : InPlace (ctxOf s c) (f (ctxOf s c))) :
    Steady s (updateCtx c f s) :=
  steady_setCtx h

theorem steady_setRing {c : CtxSlot} {g h : Machine.Ring} {s : State} (hg : ringOf s c = some g) (hh : ringShape h = ringShape g) :
    Steady s (setRing c (some h) s) :=
  steady_of_move (.ring c g h hg hh) rfl

/-! ### The rings and the ends of entries -/

theorem steady_queueNotice (k : NoticeKind) (c : Option CtxSlot) (t : Option Tag) (d : Option Code) (v : Nat) (s : State) :
    Steady s (queueNotice k c t d v s) := steady_of_same (by simp [SameOutside, SameTables])

theorem steady_raiseFault (k : FaultKind) (s : State) : Steady s (raiseFault k s) :=
  steady_of_same (by simp [SameOutside, SameTables])

theorem steady_placeItem (i : SendItem) (s : State) : Steady s (placeItem i s) := steady_of_same ⟨⟨rfl, rfl, rfl⟩, rfl⟩

theorem steady_placeRelayed (f : Frame) (s : State) : Steady s (placeRelayed f s) := steady_placeItem _ s

theorem steady_placePart (f : Frame) (s : State) : Steady s (placePart f s) := steady_placeItem _ s

theorem steady_releaseEntry (o : Owner) (s : State) : Steady s (releaseEntry o s) :=
  steady_of_same (by simp [SameOutside, SameTables])

theorem steady_flushReleased (s : State) : Steady s (flushReleased s) := steady_of_same (by simp [SameOutside, SameTables])

theorem steady_clearQueueWait (s : State) : Steady s (clearQueueWait s) := steady_of_same (by simp [SameOutside, SameTables])

theorem steady_reportOutcome (c : CtxSlot) (o : Owner) (ok : Bool) (s : State) : Steady s (reportOutcome c o ok s) := by
  unfold reportOutcome
  split
  next => exact .refl s
  next r hr =>
    split
    next => exact .refl s
    next =>
      refine Steady.trans (Steady.trans ?_ (.foldl (noticeVoid c) (fun s x => steady_queueNotice _ _ _ _ _ s) _ _))
        (.foldl _ (fun s o => steady_releaseEntry o s) _ _)
      exact steady_setRing hr rfl

theorem steady_rewindRings (s : State) : Steady s (rewindRings s) := by
  refine .foldl _ (fun s c => ?_) _ s
  unfold rewindRing
  split
  next => exact .refl s
  next r hr =>
    split
    next => exact .refl s
    next =>
      refine Steady.trans ?_ (steady_queueNotice _ _ _ _ _ _)
      exact steady_setRing hr rfl

theorem steady_reportEnd (o : Owner) (e : Entry) (r : Option Bool) (s : State) : Steady s (reportEnd o e r s) := by
  unfold reportEnd
  split
  next => exact steady_reportOutcome _ _ _ _
  next => exact .refl s

theorem steady_tryClose (c : CtxSlot) (s : State) : Steady s (tryClose c s) := by
  unfold tryClose
  split
  next h => exact steady_of_move (.closed c h.1) (by simp)
  next => exact .refl s

/-- A pending seal completes: a loaded context passes to SEALED (R80, R88). -/
theorem steady_completeSeal {c : CtxSlot} {s : State} (h : Loaded (ctxOf s c)) : Steady s (completeSeal c s) :=
  (steady_updateCtx (InPlace.of_loaded h (.inr (.inr (.inl rfl))))).trans (steady_queueNotice _ _ _ _ _ _)

theorem steady_inFlightZero (c : CtxSlot) (s : State) : Steady s (inFlightZero c s) := by
  unfold inFlightZero
  split
  next h => exact steady_completeSeal (.inr (.inl h))
  next => exact steady_tryClose c s
  next => exact .refl s

theorem steady_lowerInFlight (s : State) (c : CtxSlot) : Steady s (lowerInFlight s c) := by
  have hlower : Steady s (updateCtx c (fun x => { x with inFlight := (ctxOf s c).inFlight - 1 }) s) :=
    steady_updateCtx (.of_same rfl rfl rfl rfl rfl rfl rfl le_rfl)
  unfold lowerInFlight
  dsimp only
  split
  next => exact hlower.trans (steady_inFlightZero c _)
  next => exact hlower

theorem steady_endEntry (o : Owner) (r : Option Bool) (s : State) : Steady s (endEntry o r s) := by
  unfold endEntry
  split
  next => exact .refl s
  next e _ =>
    have hslots : Steady s (releaseEntrySlots o e s) := steady_of_same (by simp [SameOutside, SameTables])
    have hnotice : ∀ u, Steady u (noticeWithheld o e u) := fun u => steady_of_same (by simp [SameOutside, SameTables])
    have hleave : ∀ u, Steady u (leaveSnapshot o u) := fun u => steady_of_same (by simp [SameOutside, SameTables])
    have hfree : ∀ u, Steady u (setEntry o none u) := fun u => steady_of_same ⟨⟨rfl, rfl, rfl⟩, rfl⟩
    have hended := (((hslots.trans (steady_reportEnd o e r _)).trans (hnotice _)).trans
      (.foldl lowerInFlight steady_lowerInFlight e.touched _)).trans ((hleave _).trans (hfree _))
    dsimp only
    split
    · exact hended
    · exact hended.trans (steady_clearQueueWait _)

/-! ### Expiry and first views -/

theorem steady_recomputeCompare (s : State) : Steady s (recomputeCompare s) := steady_of_same ⟨⟨rfl, rfl, rfl⟩, rfl⟩

/-- A context with a time in the compare set is loaded (R166). -/
theorem loaded_of_compareEntry {x : Context} {e : Nat} (h : compareEntry x = some e) : Loaded x := by
  unfold compareEntry at h
  split at h
  next hx => exact hx.2.imp id (Or.imp id .inl)
  next => contradiction

theorem steady_expireContext (s : State) (c : CtxSlot) : Steady s (expireContext s c) := by
  unfold expireContext
  split
  next => exact .refl s
  next e he =>
    split
    next =>
      refine Steady.trans ?_ (steady_queueNotice _ _ _ _ _ _)
      exact steady_updateCtx (InPlace.of_loaded (loaded_of_compareEntry he) (.inr (.inr (.inr rfl))))
    next => exact .refl s

theorem steady_expiryComparison (s : State) : Steady s (expiryComparison s) := by
  unfold expiryComparison
  repeat' split
  case _ => exact .refl s
  case _ => exact (Steady.foldl expireContext steady_expireContext _ s).trans (steady_recomputeCompare _)
  all_goals exact .refl s

/-- First views are captured of contexts that regions name (R50). -/
theorem steady_captureViews {plan : List Run} {s : State}
    (h : ∀ r ∈ plan, ∀ c, deliveredCtx r = some c → ∃ e q, regionOf s e = some q ∧ q.ctx = c) : Steady s (captureViews plan s) := by
  have hmem : ∀ c ∈ plan.filterMap deliveredCtx, ∃ e q, regionOf s e = some q ∧ q.ctx = c := fun c hc => by
    obtain ⟨r, hr, hd⟩ := List.mem_filterMap.1 hc
    exact h r hr c hd
  unfold captureViews
  generalize plan.filterMap deliveredCtx = l at hmem
  clear h
  induction l generalizing s with
  | nil => exact .refl s
  | cons c l ih =>
    obtain ⟨e, q, hq, hqc⟩ := hmem c List.mem_cons_self
    rw [List.foldl_cons]
    split
    next =>
      have hview : Steady s (captureView s c) := by
        refine Steady.trans ?_ (steady_queueNotice _ _ _ _ _ _)
        exact Steady.trans (steady_of_move (.viewed c s.time.rights ⟨e, q, hq, hqc⟩) rfl) (steady_of_same ⟨⟨rfl, rfl, rfl⟩, rfl⟩)
      refine hview.trans (ih fun d hd => ?_)
      simpa [regionOf_congr (s := s) (t := captureView s c) (by simp)] using hmem d (List.mem_cons_of_mem _ hd)
    next => exact ih fun d hd => hmem d (List.mem_cons_of_mem _ hd)

/-! ### Commands -/

theorem foldl_min_le (l : List Nat) (a : Nat) : l.foldl min a ≤ a := by
  induction l generalizing a with
  | nil => exact le_rfl
  | cons x l ih => exact (ih _).trans (min_le_left a x)

theorem le_foldl_max (l : List Nat) (a : Nat) : a ≤ l.foldl max a := by
  induction l generalizing a with
  | nil => exact le_rfl
  | cons x l ih => exact (le_max_left a x).trans (ih _)

theorem lowest_le_highest (l : List Nat) : lowest l ≤ highest l := by
  cases l with
  | nil => exact le_rfl
  | cons x l => exact (foldl_min_le _ x).trans ((le_max_right 0 x).trans (le_foldl_max l _))

theorem readPlan_named {s : State} {c : CommandFrame} {r : Run} (hr : r ∈ readPlan s c) {d : CtxSlot} (hd : deliveredCtx r = some d) :
    ∃ e q, regionOf s e = some q ∧ q.ctx = d := by
  have hv : verdictCtx r.verdict = some d := by
    unfold deliveredCtx at hd
    split at hd
    next h => simpa [h, verdictCtx] using hd
    next => contradiction
  obtain ⟨x, -, hx⟩ := List.mem_map.1 (mem_formRuns hr)
  rw [← hx, readVerdict] at hv
  split at hv
  next => contradiction
  next q hq =>
    obtain ⟨e, he⟩ := lookup_region hq
    exact ⟨e, q, he, regionVerdict_ctx hv⟩

/-- The frontier moves to one past the highest sector of a write that lies at or above it (R53). -/
theorem steady_frontier {c : CommandFrame} {x : CtxSlot} {s : State} (h : ¬lowest (writeLogicals s c) < (ctxOf s x).frontier) :
    Steady s (updateCtx x (fun y => { y with frontier := highest (writeLogicals s c) + 1 }) s) :=
  steady_updateCtx (.of_same rfl rfl rfl rfl rfl rfl rfl
    ((not_lt.1 h).trans ((lowest_le_highest _).trans (Nat.le_succ _))))

theorem steady_classifyFrontier {c : CommandFrame} {x : CtxSlot} {s : State} {a : Accepted} (h : classifyFrontier c x s = .ok a) :
    Steady s a.after := by
  unfold classifyFrontier at h
  split at h
  next => contradiction
  next hlow =>
    split at h
    next => contradiction
    next => cases h; exact steady_frontier hlow

theorem steady_classifyRing {o : Owner} {c : CommandFrame} {x : CtxSlot} {s : State} {a : Accepted} (h : classifyRing o c x s = .ok a) :
    Steady s a.after := by
  unfold classifyRing at h
  split at h
  next => contradiction
  next g hg =>
    split at h
    next => contradiction
    next =>
      split at h
      next => contradiction
      next => cases h; exact steady_setRing hg rfl

theorem steady_classifyWrite {o : Owner} {c : CommandFrame} {s : State} {a : Accepted} (h : classifyWrite o c s = .ok a) :
    Steady s a.after := by
  unfold classifyWrite at h
  dsimp only at h
  split at h
  next => cases h; exact .refl s
  next =>
    split at h
    next => contradiction
    next =>
      split at h
      next => contradiction
      next =>
        split at h
        next => contradiction
        next =>
          split at h
          next => exact steady_classifyRing h
          next => exact steady_classifyFrontier h

theorem steady_classify {o : Owner} {c : CommandFrame} {s : State} {a : Accepted} (h : classify o c s = .ok a) : Steady s a.after := by
  unfold classify at h
  split at h
  next => contradiction
  next =>
    split at h
    next =>
      unfold classifyRead at h
      split at h
      next => contradiction
      next =>
        cases h
        exact steady_captureViews fun r hr d hd => readPlan_named hr hd
    next => exact steady_classifyWrite h

theorem steady_enter (o : Owner) (e : Entry) (s : State) : Steady s (enter o e s) := by
  refine Steady.trans (t := setEntry o (some e) s) (steady_of_same ⟨⟨rfl, rfl, rfl⟩, rfl⟩) (.foldl _ (fun s c => ?_) _ _)
  exact steady_updateCtx (.of_same rfl rfl rfl rfl rfl rfl rfl le_rfl)

theorem steady_enterQueued (c : CommandFrame) (a : Accepted) : Steady a.after (enterQueued c a) := by
  unfold enterQueued
  dsimp only
  split
  · exact (steady_enter _ _ _).trans (steady_placePart _ _)
  · exact (steady_enter _ _ _).trans (steady_of_same ⟨⟨rfl, rfl, rfl⟩, rfl⟩)

theorem steady_enterSingle (c : CommandFrame) (a : Accepted) : Steady a.after (enterSingle c a) := by
  unfold enterSingle
  dsimp only
  split
  · exact steady_enter _ _ _
  · exact (steady_enter _ _ _).trans (steady_of_same ⟨⟨rfl, rfl, rfl⟩, rfl⟩)

theorem steady_takeCommand (c : CommandFrame) (s : State) : Steady s (takeCommand c s) := by
  have ht := taken_takeCommand c s
  generalize takeCommand c s = t at ht ⊢
  cases ht with
  | refusedQueued code => exact steady_of_same ⟨⟨rfl, rfl, rfl⟩, rfl⟩
  | refusedSingle code => exact steady_of_same ⟨⟨rfl, rfl, rfl⟩, rfl⟩
  | refusedPlain code => exact steady_of_same ⟨⟨rfl, rfl, rfl⟩, rfl⟩
  | queued a _ _ _ _ h => exact (steady_classify h).trans (steady_enterQueued c a)
  | single a _ _ _ h => exact (steady_classify h).trans (steady_enterSingle c a)
  | other => exact steady_enterSingle c (plainPlan [] s)
  | bridge => exact steady_of_same ⟨⟨rfl, rfl, rfl⟩, rfl⟩

/-! ### Frames of the two links that carry no request -/

theorem steady_cutExcess (n left : Nat) (s : State) : Steady s (cutExcess n left s) := by
  unfold cutExcess
  split
  · exact steady_raiseFault _ s
  · exact .refl s

theorem steady_countCtxWithheld (w : Option (WithheldReason × CtxSlot)) (s : State) : Steady s (countCtxWithheld w s) := by
  unfold countCtxWithheld
  split
  · exact .refl s
  · exact steady_updateCtx (.of_same rfl rfl rfl rfl rfl rfl rfl le_rfl)

theorem steady_passSector (o : Owner) (w : Sector) (s : State) : Steady s (passSector o w s).2 := by
  unfold passSector
  split
  next e _ =>
    split
    next b _ =>
      have hpassed : Steady s (setEntry o (some (passedEntry (nextOffset b) (treatSector s e (nextOffset b) w) e)) s) :=
        steady_of_same ⟨⟨rfl, rfl, rfl⟩, rfl⟩
      exact (hpassed.trans (steady_countCtxWithheld _ _)).trans (steady_of_same ⟨⟨by rfl, by rfl, by rfl⟩, by rfl⟩)
    next => exact steady_of_same ⟨⟨rfl, rfl, rfl⟩, rfl⟩
  next => exact steady_of_same ⟨⟨rfl, rfl, rfl⟩, rfl⟩

theorem steady_passSectors (o : Owner) (l : List Sector) (s : State) : Steady s (passSectors o l s).2 := by
  induction l generalizing s with
  | nil => exact .refl s
  | cons w l ih => exact (steady_passSector o w s).trans (ih _)

theorem steady_countDriveBurst (n : Nat) (s : State) : Steady s (countDriveBurst n s) :=
  steady_of_same (by simp [SameOutside, SameTables])

/-- A relayed burst that counts off is no request burst. -/
theorem steady_passDown {b : UpBurst} (d : DataFrame) (s : State) (hb : b.bridge = false) : Steady s (passDown b d s) := by
  have hcount : ∀ n u, Steady u { u with up := { u.up with inBurst := countUpBurst n b } } := fun n u =>
    ⟨.single (.same ⟨rfl, rfl, rfl⟩), fun h => by
      unfold requestOpen countUpBurst at h
      dsimp only at h
      split at h <;> simp [hb] at h⟩
  unfold passDown
  dsimp only
  refine Steady.trans (Steady.trans (Steady.trans (steady_passSectors b.owner (d.sectors.take (min d.sectors.length b.left)) s) ?_)
    (steady_countDriveBurst _ _)) (steady_cutExcess _ _ _)
  exact (hcount _ (sendDown _ _)).since ⟨⟨rfl, rfl, rfl⟩, rfl⟩

theorem steady_strayDataUp (n : Nat) (s : State) : Steady s (strayDataUp n s) := by
  unfold strayDataUp
  split
  · exact steady_of_same ⟨⟨rfl, rfl, rfl⟩, rfl⟩
  · exact (steady_raiseFault _ _).since ⟨⟨rfl, rfl, rfl⟩, rfl⟩

theorem steady_takeReady (r : ReadyFrame) (s : State) : Steady s (takeReady r s) := by
  have hopen : ∀ e, Steady s (openBurst r e s) := fun e => steady_of_same (by simp [SameOutside, SameTables, openBurst, placeItem])
  unfold takeReady
  split
  next =>
    unfold strayReady
    split <;> exact steady_of_same (by simp [SameOutside, SameTables])
  next e _ =>
    dsimp only
    split
    · exact (hopen e).trans (steady_of_same (by simp [SameOutside, SameTables, slipPastEnd]))
    · exact hopen e

theorem steady_passUp (b : DriveBurst) (d : DataFrame) (s : State) : Steady s (passUp b d s) := by
  unfold passUp
  dsimp only
  exact Steady.trans (Steady.trans (Steady.trans (steady_passSectors b.owner (d.sectors.take (min d.sectors.length b.left)) s)
    (steady_placeItem _ _)) (steady_countDriveBurst _ _)) (steady_cutExcess _ _ _)

theorem steady_strayDataDrive (n : Nat) (s : State) : Steady s (strayDataDrive n s) := by
  unfold strayDataDrive
  repeat' split
  all_goals exact steady_of_same (by simp [SameOutside, SameTables])

theorem steady_takeDataDrive (d : DataFrame) (s : State) : Steady s (takeDataDrive d s) := by
  unfold takeDataDrive
  split
  · split
    · exact steady_passUp _ d s
    · exact steady_strayDataDrive _ s
  · exact steady_strayDataDrive _ s

/-- The upstream side of a burst closes: no burst opens there (R7, R17). -/
theorem steady_closeUpstreamSide (b : DriveBurst) (s : State) : Steady s (closeUpstreamSide b s) := by
  refine ⟨.single (.same (by simp [SameTables])), ?_⟩
  unfold closeUpstreamSide
  repeat' split
  all_goals simp [requestOpen]

theorem steady_closeOwned (p : Owner → Bool) (s : State) : Steady s (closeOwned p s) := by
  unfold closeOwned
  split
  · exact .refl s
  · exact Steady.trans (steady_of_same (by simp [SameOutside, SameTables])) (steady_closeUpstreamSide _ _)

theorem steady_checkShort (o : Owner) (s : State) : Steady s (checkShort o s) :=
  steady_of_same (by simp [SameOutside, SameTables])

theorem steady_acceptedBy (r : AcceptRecord) (f : StatusFrame) (s : State) : Steady s (acceptedBy r f s) := by
  unfold acceptedBy
  split
  · exact steady_of_same ⟨⟨rfl, rfl, rfl⟩, rfl⟩
  · exact .refl s

theorem steady_rejectedBy (r : AcceptRecord) (f : StatusFrame) (s : State) : Steady s (rejectedBy r f s) := by
  unfold rejectedBy
  dsimp only
  split
  · exact (steady_endEntry _ _ s).trans (steady_placeRelayed _ _)
  · exact (steady_endEntry _ _ s).trans (steady_placePart _ _)

theorem steady_takeAcceptance (r : AcceptRecord) (rest : List AcceptRecord) (f : StatusFrame) (s : State) :
    Steady s (takeAcceptance r rest f s) := by
  unfold takeAcceptance
  refine Steady.trans (Steady.trans (t := { s with trk := { s.trk with accepts := rest } })
    (steady_of_same ⟨⟨rfl, rfl, rfl⟩, rfl⟩) ?_) (steady_flushReleased _)
  split
  · exact steady_clearQueueWait _
  · split
    · exact (steady_acceptedBy r f _).trans (steady_clearQueueWait _)
    · exact steady_rejectedBy r f _

theorem steady_completeSingle (f : StatusFrame) (s : State) : Steady s (completeSingle f s) := by
  have hjudged : Steady s (judged f s) := by
    unfold judged
    split
    · exact (steady_closeOwned _ s).trans (steady_checkShort _ _)
    · exact steady_closeOwned _ s
  rw [completeSingle_eq]
  exact (hjudged.trans (steady_endEntry _ _ _)).trans ((steady_placeRelayed _ _).trans (steady_flushReleased _))

theorem steady_takeStatus (f : StatusFrame) (s : State) : Steady s (takeStatus f s) := by
  unfold takeStatus
  split
  · split
    · exact steady_raiseFault _ s
    · exact steady_takeAcceptance _ _ f s
  · split
    · exact steady_completeSingle f s
    · exact steady_raiseFault _ s

theorem steady_answerAhead (k : Tag) (s : State) : Steady s (answerAhead k s) := by
  unfold answerAhead
  split
  · exact steady_of_same ⟨⟨rfl, rfl, rfl⟩, rfl⟩
  · exact .refl s

theorem steady_endDone (l : List Tag) (s : State) : Steady s (endDone l s).2 := by
  induction l generalizing s with
  | nil => exact .refl s
  | cons k l ih =>
    have hready := (steady_checkShort (.tag k) s).trans (steady_answerAhead k _)
    unfold endDone
    dsimp only
    split <;> exact (hready.trans (steady_endEntry _ _ _)).trans (ih _)

theorem steady_endFailed (s : State) (p : Byte × Byte) : Steady s (endFailed s p) :=
  (steady_answerAhead _ s).trans (steady_endEntry _ _ _)

theorem steady_abortEntry (k : Tag) (e : Entry) (s : State) : Steady s (abortEntry k e s).2 := by
  unfold abortEntry
  repeat' split
  · exact steady_endEntry _ _ s
  · exact steady_endEntry _ _ s
  · exact (steady_endEntry _ _ s).trans (steady_placePart _ _)

theorem steady_abortEntries (l : List Tag) (s : State) : Steady s (abortEntries l s).2 := by
  induction l generalizing s with
  | nil => exact .refl s
  | cons k l ih =>
    unfold abortEntries
    split
    · exact ih s
    · exact (steady_abortEntry _ _ _).trans (ih _)

theorem steady_abortQueued (s : State) : Steady s (abortQueued s).2 := by
  have hended := steady_abortEntries (List.finRange 32) s
  unfold abortQueued
  dsimp only
  generalize (abortEntries (List.finRange 32) s).2 = u at *
  exact hended.trans ((steady_rewindRings _).since ⟨⟨rfl, rfl, rfl⟩, rfl⟩)

theorem steady_abortSingle (s : State) : Steady s (abortSingle s) := by
  unfold abortSingle
  split
  · exact .refl s
  · split
    · exact (steady_endEntry _ _ s).trans (steady_placePart _ _)
    · exact steady_clearQueueWait s

theorem steady_relayDone (d : DoneFrame) (l : List Tag) (m : List (Byte × Byte)) (s : State) : Steady s (relayDone d l m s) := by
  unfold relayDone
  split
  · exact .refl s
  · exact steady_placeRelayed _ s

theorem steady_slipDone (b : Bool) (s : State) : Steady s (slipDone b s) := by
  unfold slipDone
  split
  · exact steady_raiseFault _ s
  · exact .refl s

theorem steady_doneEnded (d : DoneFrame) (s : State) : Steady s (doneEnded d s) :=
  ((steady_closeOwned _ s).trans (steady_slipDone _ _)).trans
    ((steady_endDone _ _).trans (.foldl endFailed steady_endFailed _ _))

theorem steady_takeDone (d : DoneFrame) (s : State) : Steady s (takeDone d s) := by
  have hended := steady_doneEnded d s
  unfold doneEnded at hended
  unfold takeDone
  dsimp only at hended ⊢
  refine hended.trans (Steady.trans ?_ (steady_flushReleased _))
  split
  · exact ((steady_abortQueued _).trans (steady_relayDone _ _ _ _)).trans (steady_abortSingle _)
  · exact steady_relayDone _ _ _ _

theorem steady_takeDrive (f : Frame) (s : State) : Steady s (takeDrive f s) := by
  unfold takeDrive
  split
  next =>
    unfold takeInReset
    dsimp only
    repeat' split
    all_goals exact steady_of_same ⟨⟨rfl, rfl, rfl⟩, rfl⟩
  next =>
    split
    next =>
      split
      next r _ => exact steady_takeReady r s
      next d _ => exact steady_takeDataDrive d s
      next t _ => exact steady_takeStatus t s
      next d _ => exact steady_takeDone d s
      all_goals exact .refl s
    next => exact steady_raiseFault _ s

/-! ### The events that are no frames -/

theorem steady_tickEvent (s : State) : Steady s (tickEvent s) :=
  (steady_expiryComparison _).since ⟨⟨rfl, rfl, rfl⟩, rfl⟩

theorem steady_referencePeriod (s : State) : Steady s (referencePeriod s) := by
  unfold referencePeriod
  split
  · exact steady_of_same ⟨⟨rfl, rfl, rfl⟩, rfl⟩
  · exact steady_tickEvent s

theorem steady_endQueued (s : State) : Steady s (endQueued s) := .foldl _ (fun s o => steady_endEntry o none s) _ s

theorem steady_clearAccepts (s : State) : Steady s (clearAccepts s) := steady_of_same ⟨⟨rfl, rfl, rfl⟩, rfl⟩

theorem steady_linkReset (s : State) : Steady s (linkResetEvent s) := by
  have hports : Steady s (resetPorts s) :=
    ⟨.single (.same (by simp [SameTables, resetPorts])),
      fun h => by simp [requestOpen, resetPorts, resetUpstream, Upstream.reset] at h⟩
  have hpool : ∀ u, Steady u (freeAllSlots u) := fun u => steady_of_same (by simp [SameOutside, SameTables])
  have hdrop : ∀ u, Steady u (dropReply u) := fun u => steady_of_same ⟨⟨rfl, rfl, rfl⟩, rfl⟩
  have hentries : Steady (resetPorts s) (resetEntries s) :=
    ((hpool _).trans (steady_endQueued _)).trans ((steady_endEntry .single none _).trans (steady_clearAccepts _))
  rw [linkResetEvent_eq]
  exact (hports.trans hentries).trans ((hdrop _).trans (steady_rewindRings _))

theorem steady_loseBurst (s : State) : Steady s (loseBurst s) := by
  unfold loseBurst
  dsimp only
  split
  · exact .refl s
  · split
    · exact steady_of_same (by simp [SameOutside, SameTables])
    · exact Steady.trans (steady_of_same (by simp [SameOutside, SameTables])) (steady_closeUpstreamSide _ _)

theorem steady_endLost (s : State) : Steady s (endLost s) := by
  unfold endLost
  split
  · exact (steady_endQueued s).trans (steady_endEntry _ _ _)
  · exact steady_endQueued s

theorem steady_lossEvent (s : State) : Steady s (lossEvent s) := by
  have hports : Steady s (lostPorts s) := (steady_loseBurst s).trans (steady_of_same ⟨⟨rfl, rfl, rfl⟩, rfl⟩)
  have hended := (hports.trans (steady_endLost _)).trans (steady_clearAccepts _)
  have hanswer : ∀ u, Steady u (answerLoss s u) := .foldl _ (fun u f => steady_placePart f u) _
  exact ((hended.trans (hanswer _)).trans (steady_queueNotice _ _ _ _ _ _)).trans
    ((steady_raiseFault _ _).trans (steady_rewindRings _))

theorem steady_setupEvent (s : State) : Steady s (setupEvent s) := by
  have hend : Steady s (endRunning s) := steady_of_same ⟨⟨rfl, rfl, rfl⟩, rfl⟩
  unfold setupEvent finishSetup
  dsimp only
  repeat' split
  · exact hend
  · exact Steady.trans (steady_of_same (by simp [SameOutside, SameTables, endRunning])) (steady_tryClose _ _)
  · exact Steady.trans (steady_of_same (by simp [SameOutside, SameTables, endRunning])) (steady_tryClose _ _)
  · exact .refl s

theorem steady_receiptEvent (s : State) : Steady s (receiptEvent s) := by
  have hend : Steady s (endRunning s) := steady_of_same ⟨⟨rfl, rfl, rfl⟩, rfl⟩
  unfold receiptEvent finishReceipt
  split
  · refine hend.trans (Steady.trans ?_ (steady_tryClose _ _))
    split
    · exact steady_updateCtx (.of_same rfl rfl rfl rfl rfl rfl rfl le_rfl)
    · exact .refl _
  · exact .refl s

theorem steady_tokenEvent (s : State) : Steady s (tokenEvent s) := by
  unfold tokenEvent finishToken
  split
  · exact Steady.trans (steady_of_same (by simp [SameOutside, SameTables, endRunning])) (steady_expiryComparison _)
  · exact .refl s

theorem steady_streamDone (s : State) : Steady s (streamDone s) := by
  refine steady_of_same ?_
  unfold streamDone finishStream
  repeat' split
  all_goals simp [SameOutside, SameTables, endRunning]

theorem steady_parityDone (s : State) : Steady s (parityDone s) := by
  refine steady_of_same ?_
  unfold parityDone firstFailure secondFailure requeue
  repeat' split
  all_goals simp [SameOutside, SameTables, endRunning]

theorem steady_startJob (s : State) : Steady s (startJob s) := by
  refine steady_of_same ?_
  unfold startJob startNext
  repeat' split
  all_goals exact ⟨⟨rfl, rfl, rfl⟩, rfl⟩

end Sys2Proof.SectorClassification
end

