-- ==== Sys2Proof/Proofs/TableLawsKept.lean ====
section
namespace Sys2Proof.SectorClassification
open Sys2Proof Sys2Proof.Machine Sys2Proof.LinkPassage Sys2Proof.CommandTracking

/-! ### A step changes the tables once (R172) -/

/-- From s to t the tables make at most one change that is no move. -/
def Once (s t : State) : Prop :=
  ∃ u v, Relation.ReflTransGen Move s u ∧ Change u v ∧ Relation.ReflTransGen Move v t

theorem Once.of_change {s t : State} (h : Change s t) : Once s t := ⟨s, t, .refl, h, .refl⟩

theorem Once.refl (s : State) : Once s s := .of_change (.move (.same ⟨rfl, rfl, rfl⟩))

theorem Once.after {s t u : State} (h : Once s t) (k : Steady t u) : Once s u := by
  obtain ⟨v, w, hv, hc, hw⟩ := h
  exact ⟨v, w, hv, hc, hw.trans k.moves⟩

theorem Once.before {s t u : State} (k : Once t u) (h : Steady s t) : Once s u := by
  obtain ⟨v, w, hv, hc, hw⟩ := k
  exact ⟨v, w, h.moves.trans hv, hc, hw⟩

theorem Steady.once {s t : State} (h : Steady s t) : Once s t := (Once.refl s).after h

/-- What every change keeps, a step keeps. -/
theorem Once.keeps {P : State → Prop} (hP : ∀ s t, Change s t → P s → P t) {s t : State} (h : Once s t) (hs : P s) : P t := by
  have hmoves : ∀ {s t : State}, Relation.ReflTransGen Move s t → P s → P t := fun h hs => by
    induction h with
    | refl => exact hs
    | tail _ h ih => exact hP _ _ (.move h) ih
  obtain ⟨u, v, hu, hc, hv⟩ := h
  exact hmoves hv (hP u v hc (hmoves hu hs))

/-! ### Requests of the bridge -/

theorem once_loadContext (slot : Byte) (b : Blob) (s : State) : Once s (loadContextRequest slot b s).after := by
  unfold loadContextRequest refuses accepts
  split
  next => exact .refl s
  next c _ =>
    split
    next => exact .refl s
    next hst =>
      split
      next => exact .refl s
      next hser =>
        have hload : ∀ cls opening, Once s (setCtx c (loadingContext b cls opening) s) := fun cls opening =>
          .of_change (.loaded c b cls opening (by simpa using hst) (by simpa using hser))
        dsimp only
        repeat' split
        all_goals first
          | exact .refl s
          | exact (hload _ _).after (steady_of_same ⟨⟨rfl, rfl, rfl⟩, rfl⟩)

theorem steady_sealContext (slot : Byte) (s : State) : Steady s (sealContextRequest slot s).after := by
  unfold sealContextRequest refuses accepts
  split
  next => exact .refl s
  next c _ =>
    split
    next => exact .refl s
    next hrec =>
      have hloaded : Loaded (ctxOf s c) := .inl (by simpa using hrec)
      split
      next => exact steady_completeSeal hloaded
      next =>
        refine steady_updateCtx (f := fun x => { x with state := .sealing }) ?_
        exact InPlace.of_loaded hloaded (.inr (.inl rfl))

theorem steady_unpinContext (c : CtxSlot) (s : State) : Steady s (unpinContext c s) := by
  unfold unpinContext
  dsimp only
  split
  next =>
    refine Steady.trans (t := updateCtx c (fun x => { x with pin := false }) s)
      (steady_updateCtx (.of_same rfl rfl rfl rfl rfl rfl rfl le_rfl)) ?_
    repeat' split
    all_goals exact steady_of_same (by simp [SameOutside, SameTables])
  next => exact .refl s

theorem steady_pinContext (c : CtxSlot) (s : State) : Steady s (pinContext c s) := by
  unfold pinContext
  dsimp only
  refine Steady.trans (t := updateCtx c (fun x => { x with pin := true }) s)
    (steady_updateCtx (.of_same rfl rfl rfl rfl rfl rfl rfl le_rfl)) ?_
  split <;> exact steady_of_same (by simp [SameOutside, SameTables])

theorem once_startClose {c : CtxSlot} {s : State} (hc : (ctxOf s c).state ≠ .empty) : Once s (startClose c s) := by
  have hclosing : Once s (updateCtx c (fun x => { x with state := .closing, receipt := closingReceipt x.receipt }) s) :=
    .of_change (.closing c hc)
  unfold startClose
  dsimp only
  refine Once.after ?_ (steady_tryClose c _)
  refine Once.after ?_ (steady_recomputeCompare _)
  exact (hclosing.after (steady_of_same ⟨⟨by rfl, by rfl, by rfl⟩, by rfl⟩)).after (steady_unpinContext c _)

theorem once_closeContext (slot : Byte) (s : State) : Once s (closeContextRequest slot s).after := by
  unfold closeContextRequest refuses accepts
  split
  next => exact .refl s
  next c _ =>
    split
    next => exact .refl s
    next hc =>
      split
      next => exact .refl s
      next => exact once_startClose hc

/-- The region that ADD_REGION enables has passed steps 3 to 6 of R66 (R67, R68). -/
theorem once_addRegion (p : RegionParams) (s : State) : Once s (addRegionRequest p s).after := by
  unfold addRegionRequest refuses accepts
  split
  next => exact .refl s
  next e _ =>
    split
    next => exact .refl s
    next hfree =>
      split
      next => exact .refl s
      next hbase =>
        split
        next => exact .refl s
        next hlimit =>
          split
          next => exact .refl s
          next hlogical =>
            split
            next => exact .refl s
            next hmeet =>
              split
              next => exact .refl s
              next c _ =>
                split
                next => exact .refl s
                next hnone =>
                  have hrange : RegionInRange (regionOfParams p c) := ⟨not_lt.1 hbase, not_le.1 hlimit, not_lt.1 hlogical⟩
                  refine .of_change (.enabled e (regionOfParams p c) (by simpa using hfree) hrange (fun q hq => ?_) hnone)
                  exact Bool.eq_false_iff.2 fun h => hmeet (List.any_eq_true.2 ⟨q, hq, h⟩)

/-- No ring to delete: the table is as it was. -/
theorem setRing_none_of_none {c : CtxSlot} {s : State} (h : ringOf s c = none) : (setRing c none s).rings = s.rings := by
  have h : s.rings[c.val] = none := by rwa [ringOf, Vector.get_eq_getElem] at h
  unfold setRing
  dsimp only
  rw [← h]
  exact Vector.set_getElem_self c.isLt

theorem steady_deleteRing (c : CtxSlot) (s : State) : Steady (setRing c none s) (deleteRing c s) := by
  unfold deleteRing
  split
  next h => exact steady_of_same ⟨⟨rfl, rfl, (setRing_none_of_none h).symm⟩, rfl⟩
  next => exact .foldl _ (fun s o => steady_releaseEntry o s) _ _

theorem once_freeRegion {e : EntryNo} {r : Region} {s : State} (he : regionOf s e = some r) : Once s (freeRegion e r s) := by
  refine Once.after (t := withoutRegion e r s) (.of_change (.freed e r he)) ?_
  unfold freeRegion withoutRegion
  dsimp only
  split
  · exact (steady_deleteRing _ _).trans (steady_flushReleased _)
  · exact .refl _

theorem steady_setShiftDepth (slot : Byte) (depth : BitVec 32) (s : State) : Steady s (setShiftDepthRequest slot depth s).after := by
  unfold setShiftDepthRequest refuses accepts
  split
  next => exact .refl s
  next =>
    dsimp only
    split
    next => exact .refl s
    next =>
      split
      next => exact .refl s
      next r hr => exact steady_setRing hr rfl

theorem steady_pinKey (slot : Byte) (s : State) : Steady s (pinKeyRequest slot s).after := by
  unfold pinKeyRequest refuses accepts
  dsimp only
  repeat' split
  all_goals first
    | exact .refl s
    | exact steady_pinContext _ s

theorem steady_unpinKey (slot : Byte) (s : State) : Steady s (unpinKeyRequest slot s).after := by
  unfold unpinKeyRequest refuses accepts
  split
  · exact .refl s
  · exact steady_unpinContext _ s

theorem once_clearUnit (s : State) : Once s (clearUnitRequest s).after := by
  unfold clearUnitRequest refuses accepts
  split
  · refine .of_change (.cleared (fun c => ?_) (fun e => ?_) (fun c => ?_)) <;>
      simp [ctxOf, regionOf, ringOf, clearUnit, Vector.get_eq_getElem]
  · exact .refl s

/-- A request makes one change of the tables (R172). -/
theorem once_executeRequest (r : Request) (s : State) : Once s (executeRequest r s).after := by
  have hsame : ∀ {t : State}, SameOutside s t → Once s t := fun h => (steady_of_same h).once
  cases r <;> simp only [executeRequest]
  case loadContext slot b => exact once_loadContext slot b s
  case sealContext slot => exact (steady_sealContext slot s).once
  case closeContext slot => exact once_closeContext slot s
  case readContext slot => unfold readContextRequest refuses replies; split <;> exact .refl s
  case readReceipt slot => unfold readReceiptRequest refuses replies; repeat' split
                           all_goals exact .refl s
  case clearUnit => exact once_clearUnit s
  case addRegion p => exact once_addRegion p s
  case removeRegion entry =>
    rcases removeRegion_after entry s with h | ⟨e, r, hr, h⟩ <;> rw [h]
    · exact .refl s
    · exact once_freeRegion hr
  case readRegions start => unfold readRegionsRequest refuses replies; split <;> exact .refl s
  case setShiftDepth slot depth => exact (steady_setShiftDepth slot depth s).once
  case pinKey slot => exact (steady_pinKey slot s).once
  case unpinKey slot => exact (steady_unpinKey slot s).once
  case setRightsTime time check =>
    unfold setRightsTimeRequest refuses accepts
    split <;> exact hsame ⟨⟨rfl, rfl, rfl⟩, rfl⟩
  case writeSettings p =>
    unfold writeSettingsRequest applySettings refuses accepts
    repeat' split
    all_goals exact hsame (by simp [SameOutside, SameTables])
  case lockSettings => exact hsame ⟨⟨rfl, rfl, rfl⟩, rfl⟩
  case readStatus => exact .refl s
  case drain => unfold drainRequest accepts; dsimp only; split <;> exact hsame (by simp [SameOutside, SameTables])
  case readNotices => exact hsame (by simp [SameOutside, SameTables, readNoticesRequest, replies])
  case readHistory => exact .refl s
  case clearFaults set => exact hsame ⟨⟨rfl, rfl, rfl⟩, rfl⟩

theorem sameOutside_answerRequest (x : Executed) : SameOutside x.after (answerRequest x) := by
  unfold answerRequest
  split <;> exact ⟨⟨rfl, rfl, rfl⟩, rfl⟩

theorem once_takeRequest (block : Sector) (s : State) : Once s (takeRequest block s) := by
  unfold takeRequest
  split
  · exact (steady_of_same (sameOutside_answerRequest (refuses .malformed s))).once
  · exact (once_executeRequest _ s).after (steady_of_same (sameOutside_answerRequest _))

theorem takeRequest_inBurst (block : Sector) (s : State) : (takeRequest block s).up.inBurst = s.up.inBurst := by
  unfold takeRequest
  split
  · exact (sameOutside_answerRequest (refuses .malformed s)).2
  · rw [(sameOutside_answerRequest _).2, executeRequest_up]

/-! ### The ports take at most one request (R171) -/

/-- The request block closes the request burst and brings one request (R171, R172). -/
theorem takeBlock_request (block : Sector) (rest : List Sector) (s : State) :
    requestOpen (takeBlock (block :: rest) s) = false ∧ Once s (takeBlock (block :: rest) s) := by
  have hclose : Steady s { s with up := { s.up with inBurst := none } } := ⟨.single (.same ⟨rfl, rfl, rfl⟩), nofun⟩
  have hcut := steady_cutExcess (block :: rest).length 1 (takeRequest block { s with up := { s.up with inBurst := none } })
  refine ⟨Bool.eq_false_iff.2 fun h => ?_, ((once_takeRequest block _).before hclose).after hcut⟩
  have := hcut.request h
  simp [requestOpen, takeRequest_inBurst] at this

/-- A frame moves the tables, or it is the request block, which closes the request burst. -/
theorem takeUp_steady_or_request (f : Frame) (s : State) :
    Steady s (takeUp f s) ∨ requestOpen s = true ∧ requestOpen (takeUp f s) = false ∧ Once s (takeUp f s) := by
  unfold takeUp
  split
  next =>
    split
    next c _ => exact .inl (steady_takeCommand c s)
    next d _ =>
      unfold takeDataUp
      split
      next => exact .inl (steady_strayDataUp _ s)
      next b hb =>
        split
        next hbr =>
          generalize d.sectors = l
          cases l with
          | nil => exact .inl (.refl s)
          | cons block rest => exact .inr ⟨by simp [requestOpen, hb, hbr], takeBlock_request block rest s⟩
        next hbr => exact .inl (steady_passDown d s (by simpa using hbr))
    all_goals exact .inl (.refl s)
  next => exact .inl (steady_raiseFault _ s)

/-- What the ports have done since s: moves alone, or one request too, whose burst has closed. -/
def Passed (s t : State) : Prop := Steady s t ∨ requestOpen t = false ∧ Once s t

theorem Passed.once {s t : State} (h : Passed s t) : Once s t := h.elim Steady.once And.right

theorem Passed.steady {s t u : State} (h : Passed s t) (k : Steady t u) : Passed s u := by
  rcases h with h | ⟨hr, h⟩
  · exact .inl (h.trans k)
  · exact .inr ⟨Bool.eq_false_iff.2 fun hu => by simp [k.request hu] at hr, h.after k⟩

theorem passed_ports (s : State) : KeptByPorts (Passed s) where
  links _ _ _ _ h := h.steady (steady_of_same ⟨⟨rfl, rfl, rfl⟩, rfl⟩)
  settle _ h := h.steady (steady_of_same (by simp [SameOutside, SameTables]))
  up f t h := by
    rcases takeUp_steady_or_request f t with k | ⟨hopen, hclosed, k⟩
    · exact h.steady k
    · rcases h with h | ⟨hr, -⟩
      · exact .inr ⟨hclosed, k.before h⟩
      · simp [hr] at hopen
  drive f t h := h.steady (steady_takeDrive f t)

theorem once_run {s t : State} (h : Steady s t) : Once s (run t) := ((passed_ports t).run (.inl (.refl t))).once.before h

/-- The transmit arbiter leaves the tables alone; the request burst may open with the READY it sends. -/
theorem sameTables_sendItem (k : Nat) (i : SendItem) (s : State) : SameTables s (sendItem k i s) := by
  unfold sendItem sentItem sentReady sentData openUpstream placeReply
  dsimp only
  repeat' split
  all_goals simp [SameTables]

theorem once_unwrapEvent (s : State) : Once s (unwrapEvent s) := by
  have hend : Steady s (endRunning s) := steady_of_same ⟨⟨rfl, rfl, rfl⟩, rfl⟩
  unfold unwrapEvent finishUnwrap
  split
  next c b _ =>
    refine Once.before (t := endRunning s) ?_ hend
    split
    next hl =>
      split
      next =>
        unfold acceptBlob
        dsimp only
        refine Once.after (t := setCtx c (loadedContext (unwrapKey b) (ctxOf (endRunning s) c)) (endRunning s))
          (.of_change (.opened c _ hl)) (Steady.trans ?_ (steady_queueNotice _ _ _ _ _ _))
        split
        · exact steady_recomputeCompare _
        · exact .refl _
      next =>
        unfold rejectBlob
        exact Once.after (.of_change (.rejected c hl)) (steady_queueNotice _ _ _ _ _ _)
    next => exact (steady_tryClose c _).once
  next => exact .refl s

/-- Every step makes at most one change of the tables that is no move. -/
theorem once_of_step {s t : State} (h : step s = .next t) : Once s t := by
  obtain ⟨l, he⟩ := event_of_step h
  refine Once.before (t := { s with pending := l }) ?_ (steady_of_same ⟨⟨rfl, rfl, rfl⟩, rfl⟩)
  generalize ({ s with pending := l } : State) = u at he
  cases he with
  | powerOn =>
    refine .of_change (.cleared (fun c => ?_) (fun e => ?_) (fun c => ?_)) <;>
      simp [ctxOf, regionOf, ringOf, powerOnEvent, State.reset, Vector.get_eq_getElem]
  | upstreamUp => exact (steady_of_same (s := u) (t := upstreamUpEvent u) ⟨⟨rfl, rfl, rfl⟩, rfl⟩).once
  | linkReset => exact (steady_linkReset u).once
  | driveUp => exact once_run (steady_of_same ⟨⟨rfl, rfl, rfl⟩, rfl⟩)
  | driveLost => exact once_run (steady_lossEvent u)
  | tick => exact (steady_tickEvent u).once
  | period => exact (steady_referencePeriod u).once
  | up f => exact ((passed_ports u).arriveUp f (.inl (.refl u))).once
  | drive f => exact ((passed_ports u).arriveDrive f (.inl (.refl u))).once
  | send =>
    rcases transmit_cases u with h | ⟨k, i, -, -, h⟩ <;> rw [h]
    · exact .refl u
    · obtain ⟨v, w, hv, hc, hw⟩ := once_run (.refl (sendItem k i u))
      exact ⟨v, w, .head (.same (sameTables_sendItem k i u)) hv, hc, hw⟩
  | start => exact (steady_startJob u).once
  | setup => exact (steady_setupEvent u).once
  | stream =>
    rcases streamEvent_cases u with h | h <;> rw [h]
    exacts [.refl u, once_run (steady_streamDone u)]
  | parity =>
    rcases parityEvent_cases u with h | h <;> rw [h]
    exacts [.refl u, once_run (steady_parityDone u)]
  | unwrap => exact once_unwrapEvent u
  | receipt => exact (steady_receiptEvent u).once
  | token => exact (steady_tokenEvent u).once

/-- Settles O55: a step makes only changes that keep each law of the tables; the law of E rests on that of the binding. -/
theorem tableLawsKept : Obligations.TableLawsKept := fun _ _ h =>
  have ho := once_of_step h
  ⟨ho.keeps fun _ _ => Change.regionLaw, ho.keeps fun _ _ => Change.serialLaw, ho.keeps fun _ _ => Change.binding,
    fun hb he =>
      have hboth := ho.keeps (P := fun s => BindingLaw s ∧ ExpiryLaw s) fun _ _ hc ⟨hb, he⟩ => ⟨hc.binding hb, hc.expiryLaw hb he⟩
      (hboth ⟨hb, he⟩).2⟩

/-! ### The write frontier (R53) -/

/-- A record after moves: EMPTY, or with a frontier no lower; EMPTY and LOADING stay. -/
structure Rises (x y : Context) : Prop where
  frontier : y.state = .empty ∨ x.frontier ≤ y.frontier
  empty : x.state = .empty → y.state = .empty
  loading : x.state = .loading → y.state = .loading

theorem Rises.refl (x : Context) : Rises x x := ⟨.inr le_rfl, id, id⟩

theorem Rises.trans {x y z : Context} (h : Rises x y) (k : Rises y z) : Rises x z := by
  refine ⟨?_, k.empty ∘ h.empty, k.loading ∘ h.loading⟩
  rcases h.frontier with hy | hy
  · exact .inl (k.empty hy)
  · exact k.frontier.imp_right hy.trans

theorem Rises.idle {x y : Context} (h : Rises x y) (hx : Idle x) : Idle y := hx.imp h.empty h.loading

theorem rises_setCtx {c d : CtxSlot} {x : Context} {s : State} (h : Rises (ctxOf s c) x) : Rises (ctxOf s d) (ctxOf (setCtx c x s) d) := by
  rw [ctxOf_setCtx]
  split
  next hd => exact hd ▸ h
  next => exact .refl _

theorem Move.rises {s t : State} (h : Move s t) (c : CtxSlot) : Rises (ctxOf s c) (ctxOf t c) := by
  cases h with
  | same h => rw [ctxOf_congr h.1]; exact .refl _
  | context d x h => exact rises_setCtx ⟨.inr h.frontier, h.empty.2, h.loading.2⟩
  | viewed d t _ => exact rises_setCtx ⟨.inr le_rfl, id, id⟩
  | ring => exact .refl _
  | closed d hd =>
    rw [ctxOf_completeClose]
    split
    next hc => subst hc; exact ⟨.inl rfl, fun _ => rfl, fun h => by simp [hd] at h⟩
    next => exact .refl _

theorem rises_of_moves {s t : State} (h : Relation.ReflTransGen Move s t) (c : CtxSlot) : Rises (ctxOf s c) (ctxOf t c) := by
  induction h with
  | refl => exact .refl _
  | tail _ h ih => exact ih.trans (h.rises c)

/-- A record after one change: EMPTY or LOADING, or one in use whose frontier has not fallen. -/
def Lasts (x y : Context) : Prop := Idle y ∨ x.state ≠ .empty ∧ x.frontier ≤ y.frontier

theorem Lasts.refl (x : Context) : Lasts x x := by
  by_cases h : x.state = .empty
  exacts [.inl (.inl h), .inr ⟨h, le_rfl⟩]

theorem lasts_setCtx {c d : CtxSlot} {x : Context} {s : State} (h : Lasts (ctxOf s c) x) : Lasts (ctxOf s d) (ctxOf (setCtx c x s) d) := by
  rw [ctxOf_setCtx]
  split
  next hd => exact hd ▸ h
  next => exact .refl _

theorem Rises.lasts {x y : Context} (h : Rises x y) : Lasts x y := by
  by_cases hx : x.state = .empty
  · exact .inl (h.idle (.inl hx))
  · exact h.frontier.imp .inl fun hy => ⟨hx, hy⟩

theorem Change.lasts {s t : State} (h : Change s t) (c : CtxSlot) : Lasts (ctxOf s c) (ctxOf t c) := by
  cases h with
  | move h => exact (h.rises c).lasts
  | loaded d b cls opening _ _ => exact lasts_setCtx (.inl (.inr rfl))
  | opened d key hd => exact lasts_setCtx (.inr ⟨by simp [hd], le_rfl⟩)
  | rejected d _ => exact lasts_setCtx (.inl (.inl rfl))
  | closing d hd => exact lasts_setCtx (.inr ⟨hd, le_rfl⟩)
  | enabled e r => rw [ctxOf_congr (contexts_enableRegion e r s)]; exact .refl _
  | freed e r => rw [ctxOf_congr (contexts_withoutRegion e r s)]; exact .refl _
  | cleared hc => exact .inl (.inl (by rw [hc]; rfl))

/-- Settles O60: moves never lower a frontier but empty the slot, and the one other change of a step lowers none of a context in use. -/
theorem frontierNeverDecreases : Obligations.FrontierNeverDecreases := by
  intro s t c h
  obtain ⟨u, v, hu, hc, hv⟩ := once_of_step h
  have hbefore := rises_of_moves hu c
  have hafter := rises_of_moves hv c
  rcases hc.lasts c with hidle | ⟨huse, hle⟩
  · exact .inr (hafter.idle hidle)
  · have hstart := hbefore.frontier.resolve_left huse
    exact hafter.frontier.elim (fun he => .inr (.inl he)) fun hend => .inl (hstart.trans (hle.trans hend))

end Sys2Proof.SectorClassification
end

