-- ==== Sys2Proof/Proofs/ClassifierChecks.lean ====
section
namespace Sys2Proof.SectorClassification
open Sys2Proof Sys2Proof.Machine Sys2Proof.LinkPassage Sys2Proof.CommandTracking

/-! ### The range check (R45) -/

theorem ringRefusal_inRange (g : Machine.Ring) (start count : Nat) : ringRefusal g start count ≠ some .outOfRange := by
  unfold ringRefusal
  repeat' split
  all_goals simp

theorem classifyRing_inRange (o : Owner) (c : CommandFrame) (a : CtxSlot) (s : State) : classifyRing o c a s ≠ .error .outOfRange := by
  unfold classifyRing
  split
  next => simp
  next r _ =>
    split
    next code hcode => exact fun h => ringRefusal_inRange r _ _ (hcode.trans (congrArg some (Except.error.inj h)))
    next => split <;> simp

theorem classifyFrontier_inRange (c : CommandFrame) (a : CtxSlot) (s : State) : classifyFrontier c a s ≠ .error .outOfRange := by
  unfold classifyFrontier
  repeat' split
  all_goals simp

theorem classifyWrite_inRange (o : Owner) (c : CommandFrame) (s : State) : classifyWrite o c s ≠ .error .outOfRange := by
  unfold classifyWrite
  dsimp only
  repeat' split
  case h_2.isFalse.isTrue => exact classifyRing_inRange _ _ _ _
  case h_2.isFalse.isFalse => exact classifyFrontier_inRange _ _ _
  all_goals simp

/-- Of the Classifier's refusals the range check alone is OUT_OF_RANGE. -/
theorem classify_outOfRange_iff (o : Owner) (c : CommandFrame) (s : State) : classify o c s = .error .outOfRange ↔ passesTop c = true := by
  unfold classify
  split
  next h => simp [h]
  next h =>
    refine iff_of_false ?_ h
    split
    · unfold classifyRead
      split <;> simp
    · exact classifyWrite_inRange o c s

theorem passesTop_iff (c : CommandFrame) : passesTop c = true ↔ 281474976710655 < c.lba.toNat + cmdCount c - 1 := by
  have hpos := cmdCount_pos c
  rw [passesTop, decide_eq_true_eq]
  simp only [lbaEnd, cmdLba]
  omega

/-- A transfer command that the Classifier refuses is refused by the Tracker, whichever of its checks comes first (R21, R22, R25). -/
theorem takeCommand_refused {c : CommandFrame} {s : State} {code : Code} (hk : kindReads (cmdKind c) = true ∨ kindWrites (cmdKind c) = true)
    (h : ∀ o, classify o c s = .error code) :
    ∃ code', takeCommand c s = refuseQueued c code' s ∨ takeCommand c s = refuseSingle c code' s := by
  by_cases hq : kindQueued (cmdKind c) = true
  · rw [takeCommand_queued hq]
    by_cases ht : TagBusy (cmdTag c) s
    · exact ⟨_, .inl (takeQueued_tagBusy ht)⟩
    · by_cases hb : SlotBlocks s
      · exact ⟨_, .inl (takeQueued_blocked ht hb)⟩
      · cases hl : s.drv.link with
        | down => exact ⟨_, .inl (takeQueued_driveLost ht hb hl)⟩
        | up => exact ⟨_, .inl (takeQueued_unclassified ht hb hl (h _))⟩
  · have hk : cmdKind c = .read ∨ cmdKind c = .write := by
      cases hc : cmdKind c <;> simp_all [kindReads, kindWrites, kindQueued]
    rw [takeCommand_single hk]
    by_cases hs : s.trk.single.isSome = true
    · exact ⟨_, .inr (takeSingle_busy hs)⟩
    · have hs : s.trk.single = none := by simpa using hs
      cases hl : s.drv.link with
      | down => exact ⟨_, .inr (takeSingle_driveLost hs hl)⟩
      | up => exact ⟨_, .inr (takeSingle_unclassified hs hl (h _))⟩

/-- Settles O12: the check comes first, and whatever refuses the command then leaves the tables and the entries alone. -/
theorem rangePastTopRefused : Obligations.RangePastTopRefused := by
  intro i c s hrow hk
  refine ⟨fun o => (classify_outOfRange_iff o c s).trans (passesTop_iff c), fun htop hup hq hr => ?_⟩
  have hclassify : ∀ o, classify o c s = .error .outOfRange := fun o => (classify_outOfRange_iff o c s).2 ((passesTop_iff c).2 htop)
  refine ⟨takeCommand c s, by rw [exec_upstream hrow, arriveUp_command hup hq (.inl hr)], ?_⟩
  obtain ⟨code, h | h⟩ := takeCommand_refused hk hclassify <;> rw [h] <;> exact ⟨rfl, rfl, rfl, rfl, rfl⟩

/-! ### The ordered checks of a protected write (R51) -/

theorem classify_write {o : Owner} {c : CommandFrame} {s : State} (hk : kindWrites (cmdKind c) = true) (ht : cmdLba c + cmdCount c ≤ lbaEnd) :
    classify o c s = classifyWrite o c s := by
  have hreads : kindReads (cmdKind c) = false := by cases h : cmdKind c <;> simp_all [kindReads, kindWrites]
  simp [classify, passesTop_false ht, hreads]

theorem mem_lookups {c : CommandFrame} {s : State} {q : Option Region} :
    q ∈ (lbasOf c).map (lookup s) ↔ ∃ k < cmdCount c, lookup s (cmdLba c + k) = q := by
  simp [lbasOf]

/-- Check 2 passes with a context exactly where every sector lies in a region of it (R52). -/
theorem writeCtx_eq_some {c : CommandFrame} {s : State} {a : CtxSlot} :
    writeCtx ((lbasOf c).map (lookup s)) = some a ↔ EverySector c fun x => ∃ r, lookup s x = some r ∧ r.ctx = a := by
  have hall : (EverySector c fun x => ∃ r, lookup s x = some r ∧ r.ctx = a) ↔
      ∀ q ∈ (lbasOf c).map (lookup s), q.map (·.ctx) = some a := by
    simp [EverySector, lbasOf]
  have hpos : (lbasOf c).map (lookup s) ≠ [] := by simpa [lbasOf] using (cmdCount_pos c).ne'
  rw [hall]
  generalize (lbasOf c).map (lookup s) = l at hpos
  cases l with
  | nil => contradiction
  | cons q l =>
    cases q with
    | none => simp [writeCtx]
    | some r =>
      simp only [writeCtx, List.all_eq_true, decide_eq_true_eq, List.forall_mem_cons, Option.map_some, Option.some.injEq]
      constructor
      · intro h
        split at h
        next hrest => cases h; exact ⟨rfl, hrest⟩
        next => contradiction
      · rintro ⟨rfl, hrest⟩
        exact if_pos hrest

/-- A write with a sector in a region is not all CLEAR. -/
theorem lookups_some {c : CommandFrame} {s : State} (hp : ¬EverySector c fun x => lookup s x = none) :
    ¬((lbasOf c).map (lookup s)).all (·.isNone) = true := fun h => hp fun k hk =>
  Option.isNone_iff_eq_none.1 (List.all_eq_true.1 h _ (mem_lookups.2 ⟨k, hk, rfl⟩))

theorem classifyWrite_lockdown {o : Owner} {c : CommandFrame} {s : State} (hp : ¬EverySector c fun x => lookup s x = none)
    (hd : s.faults.lockdown = true) : classifyWrite o c s = .error .lockdown :=
  (if_neg (lookups_some hp)).trans (if_pos hd)

theorem classifyWrite_mixed {o : Owner} {c : CommandFrame} {s : State} (hp : ¬EverySector c fun x => lookup s x = none)
    (hd : s.faults.lockdown = false) (hm : writeCtx ((lbasOf c).map (lookup s)) = none) : classifyWrite o c s = .error .mixedSpan := by
  refine (if_neg (lookups_some hp)).trans ((if_neg (by simp [hd])).trans ?_)
  simp only [hm]

/-- The checks that follow MIXED_SPAN, for a write within the regions of one context. -/
theorem classifyWrite_within {o : Owner} {c : CommandFrame} {s : State} {a : CtxSlot} (hd : s.faults.lockdown = false)
    (hw : EverySector c fun x => ∃ r, lookup s x = some r ∧ r.ctx = a) :
    classifyWrite o c s =
      if (ctxOf s a).state ≠ .recording then .error .writeProtected
      else if (ctxOf s a).cls = .shift then classifyRing o c a s
      else classifyFrontier c a s := by
  have hp : ¬EverySector c fun x => lookup s x = none := fun h => by
    obtain ⟨r, hr, -⟩ := hw 0 (cmdCount_pos c)
    exact Option.some_ne_none r (hr.symm.trans (h 0 (cmdCount_pos c)))
  have hctx := writeCtx_eq_some.2 hw
  refine (if_neg (lookups_some hp)).trans ((if_neg (by simp [hd])).trans ?_)
  simp only [hctx]

theorem foldl_min_le_mem {l : List Nat} {x a : Nat} (hx : x ∈ l) : l.foldl min a ≤ x := by
  induction l generalizing a with
  | nil => contradiction
  | cons y l ih =>
    rcases List.mem_cons.1 hx with rfl | hx
    · exact (foldl_min_le l _).trans (min_le_right a x)
    · exact ih hx

theorem mem_writeLogicals {s : State} {c : CommandFrame} {k : Nat} {r : Region} (hk : k < cmdCount c)
    (hr : lookup s (cmdLba c + k) = some r) : r.logicalStart + (cmdLba c + k - r.base) ∈ writeLogicals s c :=
  List.mem_filterMap.2 ⟨cmdLba c + k, List.mem_map.2 ⟨k, List.mem_range.2 hk, rfl⟩, by simp [hr, logicalOf]⟩

/-- One sector below the frontier refuses the write (R53). -/
theorem classifyFrontier_rewrite {c : CommandFrame} {a : CtxSlot} {s : State} {l : Nat} (hl : l ∈ writeLogicals s c)
    (h : l < (ctxOf s a).frontier) : classifyFrontier c a s = .error .rewrite :=
  if_pos ((foldl_min_le_mem hl).trans_lt h)

theorem classifyRing_refused {o : Owner} {c : CommandFrame} {a : CtxSlot} {s : State} {g : Machine.Ring} {code : Code}
    (hg : ringOf s a = some g) (h : ringRefusal g (cmdLba c) (cmdCount c) = some code) : classifyRing o c a s = .error code := by
  simp [classifyRing, hg, h]

/-- Settles O13: each check of R51 that refuses, under the negation of those before it. -/
theorem writeChecksInOrder : Obligations.WriteChecksInOrder := by
  intro o c s hk ht hp within
  rw [classify_write hk ht]
  refine ⟨fun hd => classifyWrite_lockdown hp hd, fun hd hmixed => classifyWrite_mixed hp hd ?_, fun a hd hw => ?_⟩
  · exact Option.eq_none_iff_forall_ne_some.2 fun a ha => hmixed a (writeCtx_eq_some.1 ha)
  · rw [classifyWrite_within hd hw]
    refine ⟨fun hs => if_pos hs, fun hs hc ⟨k, r, hkn, hr, hlow⟩ => ?_, fun g hs hc hg => ?_⟩
    · rw [if_neg (not_not.2 hs), if_neg hc]
      exact classifyFrontier_rewrite (mem_writeLogicals hkn hr) hlow
    · rw [if_neg (not_not.2 hs), if_pos hc]
      have hrefused : ∀ code, ringRefusal g (cmdLba c) (cmdCount c) = some code → classifyRing o c a s = .error code :=
        fun _ => classifyRing_refused hg
      refine ⟨fun h => hrefused _ ?_, fun h hlap => hrefused _ ?_, fun h hlap hbusy => hrefused _ ?_, fun h hlap hbusy hover => hrefused _ ?_⟩
      · exact if_pos h
      · rw [ringRefusal, if_neg (not_not.2 h), if_pos hlap]
      · rw [ringRefusal, if_neg (not_not.2 h), if_neg hlap, if_pos hbusy]
      · rw [ringRefusal, if_neg (not_not.2 h), if_neg hlap, if_neg hbusy.not_ge]
        exact if_pos hover

end Sys2Proof.SectorClassification
end

