-- ==== Sys2Proof/Proofs/KeystreamBytes.lean ====
section
namespace Sys2Proof.SectorClassification
open Sys2Proof Sys2Proof.Machine Sys2Proof.LinkPassage Sys2Proof.CommandTracking

/-! ### The counter block (R56, R198) -/

/-- A byte of a word is the byte that stands at its place in the word's list. -/
theorem extractLsb'_ofBytesLE {w k : Nat} (l : List Byte) (h : 8 * k + 8 ≤ w) : (ofBytesLE w l).extractLsb' (8 * k) 8 = l.getD k 0 := by
  apply BitVec.eq_of_getLsbD_eq
  intro i hi
  have hbyte : (8 * k + i) / 8 = k := by omega
  have hbit : (8 * k + i) % 8 = i := by omega
  rw [BitVec.getLsbD_extractLsb', getLsbD_ofBytesLE, hbyte, hbit]
  simp [hi, show 8 * k + i < w by omega]

theorem length_bytesBE (n : Nat) {w : Nat} (v : BitVec w) : (bytesBE n v).length = n := by simp [bytesBE, bytesLE]

/-- The bytes of a word stand most significant first. -/
theorem getD_bytesBE {n k w : Nat} (v : BitVec w) (h : k < n) : (bytesBE n v).getD k 0 = v.extractLsb' (8 * (n - 1 - k)) 8 := by
  rw [List.getD_eq_getElem _ _ (by rwa [length_bytesBE])]
  simp [bytesBE, bytesLE]

theorem getD_append_bytesBE {n k w : Nat} (v : BitVec w) (l : List Byte) (h : n ≤ k) :
    (bytesBE n v ++ l).getD k 0 = l.getD (k - n) 0 := by
  rw [List.getD_append_right _ _ _ _ (by rwa [length_bytesBE]), length_bytesBE]

theorem getD_bytesBE_append {n k w : Nat} (v : BitVec w) (l : List Byte) (h : k < n) :
    (bytesBE n v ++ l).getD k 0 = v.extractLsb' (8 * (n - 1 - k)) 8 := by
  rw [List.getD_append _ _ _ _ (by rwa [length_bytesBE]), getD_bytesBE v h]

theorem counterBlock_byte (serial : BitVec 48) (lap logical j : Nat) {k : Nat} (hk : k < 16) :
    (counterBlock serial lap logical j).extractLsb' (8 * k) 8 =
      if k < 6 then serial.extractLsb' (8 * (5 - k)) 8
      else if k < 8 then (BitVec.ofNat 16 lap).extractLsb' (8 * (7 - k)) 8
      else if k < 13 then (BitVec.ofNat 40 logical).extractLsb' (8 * (12 - k)) 8
      else (BitVec.ofNat 24 j).extractLsb' (8 * (15 - k)) 8 := by
  rw [counterBlock, extractLsb'_ofBytesLE _ (by omega)]
  simp only [List.append_assoc]
  split
  next h => exact getD_bytesBE_append _ _ h
  next h6 =>
    rw [getD_append_bytesBE _ _ (by omega)]
    split
    next h => rw [getD_bytesBE_append _ _ (by omega), show 2 - 1 - (k - 6) = 7 - k by omega]
    next h8 =>
      rw [getD_append_bytesBE _ _ (by omega)]
      split
      next h => rw [getD_bytesBE_append _ _ (by omega), show 5 - 1 - (k - 6 - 2) = 12 - k by omega]
      next h13 =>
        rw [getD_append_bytesBE _ _ (by omega), getD_bytesBE _ (by omega), show 3 - 1 - (k - 6 - 2 - 5) = 15 - k by omega]

/-! ### The keystream (R57) -/

/-- A byte of a field reads as that byte of what was written, on a block that is 0 there. -/
theorem getField_putField_byte {off k w : Nat} (v : BitVec w) (b : Sector) (hk : 8 * (off + k) + 8 ≤ 4096)
    (h0 : getField (off + k) 8 b = 0) : getField (off + k) 8 (putField off v b) = v.extractLsb' (8 * k) 8 := by
  apply BitVec.eq_of_getLsbD_eq
  intro i hi
  have hbit := congrArg (·.getLsbD i) h0
  simp only [getField_getLsbD _ _ _ _ hi] at hbit
  rw [getField_getLsbD _ _ _ _ hi, putField_getLsbD _ _ _ _ (by omega), hbit, show 8 * (off + k) + i - 8 * off = 8 * k + i by omega]
  simp [hi, show 8 * off ≤ 8 * (off + k) + i by omega]

/-- Blocks of 16 bytes written one after another. -/
theorem getField_blocks (f : Nat → Block) {n b : Nat} (hn : n ≤ 32) (hb : b < 512) :
    getField b 8 ((List.range n).foldl (fun acc j => putField (16 * j) (f j) acc) 0) =
      if b / 16 < n then (f (b / 16)).extractLsb' (8 * (b % 16)) 8 else 0 := by
  induction n with
  | zero => exact getField_zero b 8
  | succ n ih =>
    have ih := ih (by omega)
    rw [List.range_succ, List.foldl_append, List.foldl_cons, List.foldl_nil]
    by_cases hbn : b / 16 = n
    · rw [if_neg (by omega)] at ih
      rw [if_pos (by omega)]
      subst hbn
      have hplace : 16 * (b / 16) + b % 16 = b := by omega
      have hbyte := getField_putField_byte (off := 16 * (b / 16)) (k := b % 16) (f (b / 16)) _ (by omega) (by rwa [hplace])
      rwa [hplace] at hbyte
    · rw [getField_putField_apart _ _ _ _ (by omega) (by omega), ih]
      exact if_congr (by omega) rfl rfl

/-- Settles O18: the lists of R198 byte for byte, and the blocks of R57 one after another. -/
theorem keystreamBytes : Obligations.KeystreamBytes := by
  refine ⟨fun serial lap logical j k hk => counterBlock_byte serial lap logical j hk, fun key serial lap logical b hb => ?_⟩
  have h := getField_blocks (fun j => Config.blockTransform key (counterBlock serial lap logical j)) (le_refl 32) hb
  rwa [if_pos (by omega)] at h

end Sys2Proof.SectorClassification
end

