-- ==== Sys2Proof/Proofs/TreatedSectors.lean ====
section
namespace Sys2Proof.SectorClassification
open Sys2Proof Sys2Proof.Machine Sys2Proof.LinkPassage Sys2Proof.CommandTracking

/-! ### What the passage of a sector counts (R31, R152, R153) -/

/-- The entry once a sector of its open burst is counted as passed (R31). -/
theorem countPassed_eq {e : Entry} {b : OpenBurst} (hb : e.openBurst = some b) (off : Nat) :
    countPassed off e = { e with
      openBurst := some { b with left := b.left - 1 }
      passed := if off < cmdCount e.cmd then min (e.passed + 1) (cmdCount e.cmd) else e.passed } := by
  simp [countPassed, hb, satAdd_eq_min]

section
variable {o : Owner} {e : Entry} {b : OpenBurst} {s : State} {w : Sector}

/-- A sector that is only passed on or cleared counts nothing but its passage. -/
theorem passSector_passes (he : entryOf s o = some e) (hb : e.openBurst = some b) {x : Sector}
    (ht : treatSector s e (nextOffset b) w = passes x) :
    (passSector o w s).1 = x ∧ entryOf (passSector o w s).2 o = some (countPassed (nextOffset b) e) ∧
      (passSector o w s).2.contexts = s.contexts := by
  have hentry := (passSector_leaves w he hb).1
  rw [ht] at hentry
  rw [passSector_eq w he hb, ht] at hentry ⊢
  exact ⟨rfl, hentry, rfl⟩

/-- A withheld sector is sent as zeros and counts at its entry and its context (R153). -/
theorem passSector_withholds (he : entryOf s o = some e) (hb : e.openBurst = some b) {reason : WithheldReason} {a : CtxSlot}
    (ht : treatSector s e (nextOffset b) w = { out := 0, withheld := some (reason, a), zeroedWrite := false }) :
    (passSector o w s).1 = 0 ∧
      entryOf (passSector o w s).2 o = some { countPassed (nextOffset b) e with
        withheld := min (e.withheld + 1) 65536
        firstReason := e.firstReason.or (some reason)
        firstCtx := if e.firstReason = none then some a else e.firstCtx } ∧
      ctxOf (passSector o w s).2 a = { ctxOf s a with withheld := min ((ctxOf s a).withheld + 1) maxSeconds } := by
  have hentry := (passSector_leaves w he hb).1
  rw [ht] at hentry
  rw [passSector_eq w he hb, ht] at hentry ⊢
  refine ⟨rfl, hentry.trans ?_, ?_⟩
  · simp [passedEntry, countWithheld, countPassed, satAdd_eq_min]
  · refine (ctxOf_setCtx a a _ (setEntry o _ s)).trans ((if_pos rfl).trans ?_)
    simp only [satAdd_eq_min]
    rfl

/-- A write sector zeroed for want of keystream marks its entry part-failed (R152). -/
theorem passSector_zeroes (he : entryOf s o = some e) (hb : e.openBurst = some b)
    (ht : treatSector s e (nextOffset b) w = { out := 0, withheld := none, zeroedWrite := true }) :
    (passSector o w s).1 = 0 ∧
      entryOf (passSector o w s).2 o = some { countPassed (nextOffset b) e with
        partFailed := e.partFailed.or (some .transformFault) } ∧
      (passSector o w s).2.contexts = s.contexts := by
  have hentry := (passSector_leaves w he hb).1
  rw [ht] at hentry
  rw [passSector_eq w he hb, ht] at hentry ⊢
  exact ⟨rfl, hentry, rfl⟩

end

/-! ### The treatment by verdict (R150) -/

section
variable {s : State} {e : Entry} {off : Nat}

theorem treatSector_other (hk : e.kind = .other) (w : Sector) : treatSector s e off w = passes w := if_pos hk

theorem treatSector_pastEnd (hk : e.kind ≠ .other) (h : cmdCount e.cmd ≤ off) (w : Sector) : treatSector s e off w = passes 0 :=
  (if_neg hk).trans (if_pos h)

theorem treatSector_clear (hk : e.kind ≠ .other) (h : off < cmdCount e.cmd) (hv : verdictAt e.plan off = some .clear) (w : Sector) :
    treatSector s e off w = passes w := by
  rw [treatSector, if_neg hk, if_neg h.not_ge, hv]

theorem treatSector_withheld {reason : WithheldReason} {a : CtxSlot} {l : Nat} (hk : e.kind ≠ .other) (h : off < cmdCount e.cmd)
    (hv : verdictAt e.plan off = some (.withheld reason a l)) (w : Sector) :
    treatSector s e off w = { out := 0, withheld := some (reason, a), zeroedWrite := false } := by
  rw [treatSector, if_neg hk, if_neg h.not_ge, hv]

theorem treatSector_settled {k : Sector} {a : CtxSlot} {lap l : Nat} (hk : e.kind ≠ .other) (h : off < cmdCount e.cmd)
    (hv : verdictAt e.plan off = some (.deliver a lap l) ∨ verdictAt e.plan off = some (.encipher a lap l))
    (hs : settledWith s off = some k) (w : Sector) : treatSector s e off w = passes (w ^^^ k) := by
  rw [treatSector, if_neg hk, if_neg h.not_ge]
  rcases hv with hv | hv <;> simp only [hv, hs]

theorem treatSector_deliver_unsettled {a : CtxSlot} {lap l : Nat} (hk : e.kind ≠ .other) (h : off < cmdCount e.cmd)
    (hv : verdictAt e.plan off = some (.deliver a lap l)) (hs : settledWith s off = none) (w : Sector) :
    treatSector s e off w = { out := 0, withheld := some (.transformFault, a), zeroedWrite := false } := by
  rw [treatSector, if_neg hk, if_neg h.not_ge]
  simp only [hv, hs]

theorem treatSector_encipher_unsettled {a : CtxSlot} {lap l : Nat} (hk : e.kind ≠ .other) (h : off < cmdCount e.cmd)
    (hv : verdictAt e.plan off = some (.encipher a lap l)) (hs : settledWith s off = none) (w : Sector) :
    treatSector s e off w = { out := 0, withheld := none, zeroedWrite := true } := by
  rw [treatSector, if_neg hk, if_neg h.not_ge]
  simp only [hv, hs]

end

/-- A sector combined with one keystream twice is itself (R57). -/
theorem xor_keystream_twice (w k : Sector) : w ^^^ k ^^^ k = w := by rw [BitVec.xor_assoc, BitVec.xor_self, BitVec.xor_zero]

/-- Settles O19: each row of R150, with what R31, R152 and R153 count for it. -/
theorem sectorsTreatedByVerdict : Obligations.SectorsTreatedByVerdict := by
  intro s o e b w he hb off out after counted
  have hcounted : countPassed off e = counted := countPassed_eq hb off
  have hcombined : ∀ {a lap l}, verdictAt e.plan off = some (.deliver a lap l) ∨ verdictAt e.plan off = some (.encipher a lap l) →
      e.kind ≠ .other → off < cmdCount e.cmd → ∀ k, settledWith s off = some k →
      out = w ^^^ k ∧ out ^^^ k = w ∧ entryOf after o = some counted := fun hv hk hlt k hs => by
    obtain ⟨hout, hentry, -⟩ := passSector_passes he hb (treatSector_settled hk hlt hv hs w)
    exact ⟨hout, by rw [show out = w ^^^ k from hout, xor_keystream_twice], hcounted ▸ hentry⟩
  refine ⟨fun hk => (passSector_passes he hb (treatSector_other hk w)).1, fun hk hend => ?_, fun hk hlt => ⟨fun hv => ?_,
    fun reason a l hv => ?_, fun a lap l hv => ⟨hcombined (.inl hv) hk hlt, fun hs => ?_⟩,
    fun a lap l hv => ⟨hcombined (.inr hv) hk hlt, fun hs => ?_⟩⟩⟩
  · exact hcounted ▸ passSector_passes he hb (treatSector_pastEnd hk hend w)
  · exact hcounted ▸ passSector_passes he hb (treatSector_clear hk hlt hv w)
  · exact hcounted ▸ passSector_withholds he hb (treatSector_withheld hk hlt hv w)
  · exact hcounted ▸ passSector_withholds he hb (treatSector_deliver_unsettled hk hlt hv hs w)
  · exact hcounted ▸ passSector_zeroes he hb (treatSector_encipher_unsettled hk hlt hv hs w)

end Sys2Proof.SectorClassification
end

