-- ==== Sys2Proof/Proofs/JobCompletions.lean ====
section
namespace Sys2Proof.SectorClassification
open Sys2Proof Sys2Proof.Machine Sys2Proof.LinkPassage Sys2Proof.CommandTracking

/-! ### SETUP and STREAM completions (R134, R135, R148) -/

theorem updateSlot_eq {k : KeyNo} {x : KeySlot} {s : State} (f : KeySlot → KeySlot) (hx : s.keys.slots.get k = some x) :
    updateSlot k f s = { s with keys := { s.keys with slots := s.keys.slots.set k (some (f x)) } } := by
  rw [updateSlot, hx]
  rfl

theorem tryClose_open {c : CtxSlot} {s : State} (h : (ctxOf s c).state ≠ .closing) : tryClose c s = s :=
  if_neg fun hc => h hc.1

/-- With no context waiting and none to close, a SETUP completion readies its slot alone (R134). -/
theorem finishSetup_eq {j : SetupJob} {x : KeySlot} {s : State} (hx : s.keys.slots.get j.slot = some x)
    (hc : (ctxOf s j.ctx).state ≠ .closing) (hw : s.keys.waiting = []) :
    finishSetup j s =
      { s with keys := { s.keys with slots := s.keys.slots.set j.slot (some { x with phase := .ready (ctxOf s j.ctx).key }) } } := by
  unfold finishSetup
  rw [updateSlot_eq _ hx]
  dsimp only
  rw [serveSlot_nobody, ite_self]
  · exact tryClose_open hc
  · exact hw

theorem putPhase_assigned {p : PoolNo} {y : PoolSlot} {s : State} (phase : PoolPhase) (hy : s.pool.slots.get p = some y)
    (ha : y.phase = .assigned) :
    putPhase p phase s = { s with pool := { s.pool with slots := s.pool.slots.set p (some { y with phase := phase }) } } := by
  rw [putPhase, hy]
  exact if_pos ha

/-- The key slot that counted a job has a user fewer (R135). -/
theorem dropUserOf_nobody {j : StreamJob} {k : KeyNo} {x : KeySlot} {s : State} (hk : j.keySlot = some k)
    (hx : s.keys.slots.get k = some x) (hw : s.keys.waiting = []) :
    dropUserOf j.keySlot s =
      { s with keys := { s.keys with slots := s.keys.slots.set k (some { x with users := x.users - 1 }) } } := by
  rw [hk]
  exact (dropUser_nobody k s hw).trans (updateSlot_eq _ hx)

/-- An ASSIGNED pool slot takes the keystream of its job while no frame stands on the links (R135, R148). -/
theorem finishStream_eq {j : StreamJob} {k : KeyNo} {x : KeySlot} {w : Block} {y : PoolSlot} {s : State} (hk : j.keySlot = some k)
    (hx : s.keys.slots.get k = some x) (hp : x.phase = .ready w) (hy : s.pool.slots.get j.pool = some y) (ha : y.phase = .assigned)
    (hw : s.keys.waiting = []) (hq : Quiet s) :
    finishStream j s =
      { s with
        keys := { s.keys with slots := s.keys.slots.set k (some { x with users := x.users - 1 }) }
        pool :=
          { s.pool with
            slots := s.pool.slots.set j.pool
              (some { y with phase := .ready (keystream w (ctxOf s j.ctx).serial j.lap j.logical) }) } } := by
  have hkey : jobKeystream s j = some (keystream w (ctxOf s j.ctx).serial j.lap j.logical) := by
    rw [jobKeystream, workingKeyOf_ready hk hx hp]
    rfl
  unfold finishStream
  rw [hkey]
  dsimp only
  rw [putPhase_assigned _ hy ha, settleHeads_quiet, dropUserOf_nobody hk (x := x)]
  · exact hx
  · exact hw
  · exact hq

/-- Settles O31: the completion of each job, and its discarding. -/
theorem setupAndStreamComplete : Obligations.SetupAndStreamComplete := by
  refine ⟨fun s => ⟨fun j x hrun hx hc hw => ?_, fun j hrun => ?_, fun hrun => ?_⟩, fun s j k x w d y hrun hk hx hp hy ha hw hq => ?_⟩
  · refine congrArg Host.Outcome.next ?_
    rw [setupEvent, hrun]
    exact finishSetup_eq (s := endRunning s) hx hc hw
  · refine congrArg Host.Outcome.next ?_
    rw [setupEvent, hrun]
    rfl
  · refine congrArg Host.Outcome.next ?_
    unfold setupEvent
    split
    next j d h => exact absurd h (hrun j d)
    next => rfl
  · refine congrArg Host.Outcome.next ?_
    rw [streamEvent, hrun]
    cases d with
    | true =>
      have hdrop := dropUserOf_nobody (s := endRunning s) hk hx hw
      exact (congrArg run hdrop).trans (run_quiet hq)
    | false =>
      have hdone := finishStream_eq (s := endRunning s) hk hx hp hy ha hw hq
      exact (congrArg run hdone).trans (run_quiet hq)

end Sys2Proof.SectorClassification
end

