-- ==== Sys2Proof/Proofs/RunForming.lean ====
section
namespace Sys2Proof.SectorClassification
open Sys2Proof Sys2Proof.Machine Sys2Proof.LinkPassage Sys2Proof.CommandTracking

/-! ### Runs stand one after another (R47) -/

/-- The runs of a plan from an offset: none empty, each where the one before it ends. -/
def Contiguous : Nat → List Run → Prop
  | _, [] => True
  | k, r :: rs => r.first = k ∧ 1 ≤ r.count ∧ Contiguous (k + r.count) rs

theorem Contiguous.getElem {k j : Nat} {l : List Run} {r : Run} (h : Contiguous k l) (hr : l[j]? = some r) :
    1 ≤ r.count ∧ r.first = k + ((l.take j).map (·.count)).sum := by
  induction l generalizing k j with
  | nil => simp at hr
  | cons q l ih =>
    obtain ⟨hfirst, hcount, hrest⟩ := h
    cases j with
    | zero =>
      obtain rfl : q = r := by simpa using hr
      exact ⟨hcount, by simp [hfirst]⟩
    | succ j =>
      obtain ⟨hc, hf⟩ := ih hrest (by simpa using hr)
      exact ⟨hc, by simp [hf, Nat.add_assoc]⟩

theorem verdictAt_cons (r : Run) (rs : List Run) (off : Nat) : verdictAt (r :: rs) off =
    if r.first ≤ off ∧ off < r.first + r.count then some (verdictFrom r.verdict (off - r.first)) else verdictAt rs off := by
  unfold verdictAt
  rw [List.find?_cons]
  by_cases h : r.first ≤ off ∧ off < r.first + r.count
  · simp [h]
  · have hout : (decide (r.first ≤ off) && decide (off < r.first + r.count)) = false := by simpa using h
    rw [if_neg h, hout]

/-! ### The runs of a list of verdicts (R47, R48) -/

/-- The places from m on, n of them, after which the verdicts do not go on. -/
def breaksFrom (v : Nat → Verdict) (m n : Nat) : Nat :=
  ((List.range' m n).filter fun k => v (k + 1) ≠ verdictFrom (v k) 1).length

theorem breaksFrom_succ (v : Nat → Verdict) (m n : Nat) :
    breaksFrom v m (n + 1) = breaksFrom v (m + 1) n + if v (m + 1) = verdictFrom (v m) 1 then 0 else 1 := by
  unfold breaksFrom
  rw [List.range'_succ, List.filter_cons]
  by_cases h : v (m + 1) = verdictFrom (v m) 1 <;> simp [h]

/-- What the plan from offset k of the n verdicts from place m on is: as many runs as the breaks cut, over every sector, each with its verdict. -/
structure PlanOf (v : Nat → Verdict) (k m n : Nat) (plan : List Run) : Prop where
  head : ∃ r rs, plan = r :: rs ∧ r.verdict = v m
  length : plan.length = breaksFrom v m (n - 1) + 1
  contiguous : Contiguous k plan
  sum : (plan.map (·.count)).sum = n
  verdict : ∀ i < n, verdictAt plan (k + i) = some (v (m + i))

theorem PlanOf.single (v : Nat → Verdict) (k m : Nat) : PlanOf v k m 1 [{ first := k, count := 1, verdict := v m }] where
  head := ⟨_, _, rfl, rfl⟩
  length := rfl
  contiguous := ⟨rfl, le_rfl, trivial⟩
  sum := rfl
  verdict i hi := by
    obtain rfl : i = 0 := by omega
    simp [verdictAt_cons, verdictFrom_zero]

/-- A sector whose verdict goes on joins the run before it. -/
theorem PlanOf.join {v : Nat → Verdict} {k m n : Nat} {r : Run} {rs : List Run} (h : PlanOf v (k + 1) (m + 1) (n + 1) (r :: rs))
    (hv : verdictFrom (v m) 1 = r.verdict) : PlanOf v k m (n + 2) ({ first := k, count := r.count + 1, verdict := v m } :: rs) := by
  obtain ⟨⟨q, qs, hq, hhead⟩, hlength, ⟨hfirst, hcount, hrest⟩, hsum, hverdict⟩ := h
  obtain ⟨rfl, rfl⟩ := List.cons.inj hq
  refine ⟨⟨_, _, rfl, rfl⟩, ?_, ⟨rfl, by simp, ?_⟩, ?_, fun i hi => ?_⟩
  · have hcut := breaksFrom_succ v m n
    rw [if_pos (hv.trans hhead).symm] at hcut
    simp only [List.length_cons, Nat.add_sub_cancel] at hlength
    simp [hcut, hlength]
  · exact (show k + 1 + r.count = k + (r.count + 1) by omega) ▸ hrest
  · simp only [List.map_cons, List.sum_cons] at hsum ⊢
    omega
  · rw [verdictAt_cons]
    cases i with
    | zero => simp [verdictFrom_zero]
    | succ i =>
      have h := hverdict i (by omega)
      rw [show k + 1 + i = k + (i + 1) by omega, show m + 1 + i = m + (i + 1) by omega, verdictAt_cons, hfirst] at h
      by_cases hin : i < r.count
      · rw [if_pos (by omega)] at h
        rw [if_pos (by constructor <;> dsimp only <;> omega), ← h, ← hv, verdictFrom_verdictFrom]
        exact congrArg some (congrArg _ (by dsimp only; omega))
      · rw [if_neg (by omega)] at h
        rw [if_neg (by dsimp only; omega), h]

/-- Any other sector begins a run of its own. -/
theorem PlanOf.cut {v : Nat → Verdict} {k m n : Nat} {plan : List Run} (h : PlanOf v (k + 1) (m + 1) (n + 1) plan)
    (hv : v (m + 1) ≠ verdictFrom (v m) 1) : PlanOf v k m (n + 2) ({ first := k, count := 1, verdict := v m } :: plan) := by
  refine ⟨⟨_, _, rfl, rfl⟩, ?_, ⟨rfl, le_rfl, h.contiguous⟩, ?_, fun i hi => ?_⟩
  · have hcut := breaksFrom_succ v m n
    rw [if_neg hv] at hcut
    have hlength := h.length
    simp only [Nat.add_sub_cancel] at hlength
    simp [hcut, hlength]
  · have hsum := h.sum
    simp only [List.map_cons, List.sum_cons]
    omega
  · rw [verdictAt_cons]
    cases i with
    | zero => simp [verdictFrom_zero]
    | succ i =>
      have h := h.verdict i (by omega)
      rw [show k + 1 + i = k + (i + 1) by omega, show m + 1 + i = m + (i + 1) by omega] at h
      rw [if_neg (by dsimp only; omega), h]

theorem planOf_formRuns (v : Nat → Verdict) (k m n : Nat) :
    PlanOf v k m (n + 1) (formRuns k ((List.range' m (n + 1)).map v)) := by
  induction n generalizing k m with
  | zero => exact .single v k m
  | succ n ih =>
    have h := ih (k + 1) (m + 1)
    rw [List.range'_succ (n := n + 1), List.map_cons, formRuns]
    obtain ⟨r, rs, hplan, hhead⟩ := h.head
    rw [hplan] at h ⊢
    dsimp only
    split
    next hv => exact h.join hv
    next hv => exact h.cut fun h => hv (h.symm.trans hhead.symm)

/-- The plan of a command, by the verdicts on its sectors. -/
theorem planOf_command (v : Nat → Verdict) (c : CommandFrame) :
    PlanOf v 0 0 (cmdCount c) (formRuns 0 ((List.range (cmdCount c)).map v)) := by
  obtain ⟨n, hn⟩ := Nat.exists_eq_succ_of_ne_zero (cmdCount_pos c).ne'
  rw [hn, List.range_eq_range']
  exact planOf_formRuns v 0 0 n

end Sys2Proof.SectorClassification
end

