-- ==== Sys2Proof/Proofs/ReadVerdicts.lean ====
section
namespace Sys2Proof.SectorClassification
open Sys2Proof Sys2Proof.Machine Sys2Proof.LinkPassage Sys2Proof.CommandTracking

/-! ### The verdict on a read sector (R49) -/

theorem readVerdict_region {s : State} {x : Nat} {r : Region} (h : lookup s x = some r) : readVerdict s x = regionVerdict s r x := by
  simp [readVerdict, h]

theorem regionVerdict_lockdown {s : State} (h : s.faults.lockdown = true) (r : Region) (x : Nat) :
    regionVerdict s r x = .withheld .lockdown r.ctx (logicalOf r x) := if_pos h

section
variable {s : State} {r : Region} (hd : s.faults.lockdown = false)
include hd

theorem regionVerdict_closing (hs : (ctxOf s r.ctx).state = .closing) (x : Nat) :
    regionVerdict s r x = .withheld .closing r.ctx (logicalOf r x) := by
  simp [regionVerdict, hd, hs]

theorem regionVerdict_expired (hs : (ctxOf s r.ctx).state = .expired) (x : Nat) :
    regionVerdict s r x = .withheld .expired r.ctx (logicalOf r x) := by
  simp [regionVerdict, hd, hs]

variable (hc : (ctxOf s r.ctx).state ≠ .closing) (he : (ctxOf s r.ctx).state ≠ .expired)
include hc he

theorem regionVerdict_noTime (ht : (ctxOf s r.ctx).cls = .timed) (hs : s.time.rightsSet = false) (x : Nat) :
    regionVerdict s r x = .withheld .noTime r.ctx (logicalOf r x) := by
  simp [regionVerdict, hd, hc, he, ht, hs]

theorem regionVerdict_deliver (h : (ctxOf s r.ctx).cls = .keep ∨ (ctxOf s r.ctx).cls = .timed ∧ s.time.rightsSet = true) (x : Nat) :
    regionVerdict s r x = .deliver r.ctx 0 (logicalOf r x) := by
  rcases h with h | ⟨h, hs⟩
  · simp [regionVerdict, hd, hc, he, h]
  · simp [regionVerdict, hd, hc, he, h, hs]

theorem regionVerdict_ring {g : Machine.Ring} (h : (ctxOf s r.ctx).cls = .shift) (hg : ringOf s r.ctx = some g) (x : Nat) :
    regionVerdict s r x = ringVerdict r.ctx g (x - r.base) (logicalOf r x) := by
  simp [regionVerdict, hd, hc, he, h, hg]

end

/-! ### The ring read check (R58, R59, R60) -/

/-- How far a position lies from the commit point on, around the ring. -/
theorem distance_eq {n c p : Nat} (hp : p < n) (hc : c < n) : (p + n - c) % n = if c ≤ p then p - c else p + n - c := by
  split
  next h =>
    rw [show p + n - c = p - c + n by omega, Nat.add_mod_right]
    exact Nat.mod_eq_of_lt (by omega)
  next h => exact Nat.mod_eq_of_lt (by omega)

/-- The position a distance from the commit point on. -/
theorem position_eq {n c j : Nat} (hj : j < n) (hc : c < n) : (c + j) % n = if c + j < n then c + j else c + j - n := by
  split
  next h => exact Nat.mod_eq_of_lt h
  next h =>
    rw [Nat.mod_eq_sub_mod (by omega)]
    exact Nat.mod_eq_of_lt (by omega)

/-- The positions below a distance are those reached from the commit point by fewer steps. -/
theorem distance_lt_iff {n c p k : Nat} (hp : p < n) (hc : c < n) (hk : k < n) :
    (p + n - c) % n < k ↔ ∃ j < k, p = (c + j) % n := by
  rw [distance_eq hp hc]
  constructor
  · intro h
    refine ⟨_, h, ?_⟩
    rw [position_eq (by omega) hc]
    split <;> split <;> omega
  · rintro ⟨j, hj, h⟩
    rw [position_eq (by omega) hc] at h
    split at h <;> split <;> omega

/-- A position is in flight where the spans hold it: all of them once the issue point has come round to the commit point, else those
between the two (R58). -/
theorem inFlight_iff {g : Machine.Ring} {p : Nat} (hp : p < g.length) (hc : g.commit < g.length) :
    inFlight g p = true ↔ g.spans ≠ [] ∧
      (g.issue = g.commit ∨ ∃ j, j < (g.issue + (g.length - g.commit)) % g.length ∧ p = (g.commit + j) % g.length) := by
  have hlt : (g.issue + (g.length - g.commit)) % g.length < g.length := Nat.mod_lt _ (by omega)
  have hsum : g.issue + g.length - g.commit = g.issue + (g.length - g.commit) := by omega
  have hflying := distance_lt_iff hp hc hlt
  unfold inFlight
  rw [hsum]
  by_cases hspans : g.spans = []
  · simp [hspans]
  · by_cases hissue : g.issue = g.commit
    · simp [hspans, hissue]
    · simpa [hspans, hissue] using hflying

/-! ### The plan of a command (R47, R48, R51) -/

/-- The breaks among the verdicts on a command's sectors. -/
def breaksOf (c : CommandFrame) (v : Nat → Verdict) : Nat :=
  ((List.range (cmdCount c - 1)).filter fun k => v (k + 1) ≠ verdictFrom (v k) 1).length

theorem breaksOf_eq (c : CommandFrame) (v : Nat → Verdict) : breaksFrom v 0 (cmdCount c - 1) = breaksOf c v := by
  rw [breaksOf, List.range_eq_range']
  rfl

/-- What R47 and R48 say of the answer to a command with these verdicts on its sectors. -/
def Judged (o : Owner) (c : CommandFrame) (s : State) (v : Nat → Verdict) : Prop :=
  (8 ≤ breaksOf c v → classify o c s = .error .tooFragmented) ∧
    (breaksOf c v < 8 → ∃ x, classify o c s = .ok x ∧ x.plan.length = breaksOf c v + 1 ∧ (x.plan.map (·.count)).sum = cmdCount c ∧
      (∀ j r, x.plan[j]? = some r → 1 ≤ r.count ∧ r.first = ((x.plan.take j).map (·.count)).sum) ∧
      ∀ k, k < cmdCount c → verdictAt x.plan k = some (v k))

/-- An answer that is TOO_FRAGMENTED above 8 runs and else has the runs of the verdicts as its plan. -/
theorem judged_of_plan {o : Owner} {c : CommandFrame} {s t : State} {v : Nat → Verdict} {plan : List Run}
    (hplan : plan = formRuns 0 ((List.range (cmdCount c)).map v))
    (h : classify o c s = if 8 < plan.length then .error .tooFragmented else .ok (plainPlan plan t)) : Judged o c s v := by
  obtain ⟨-, hlength, hcontiguous, hsum, hverdict⟩ := planOf_command v c
  rw [← hplan] at hlength hcontiguous hsum hverdict
  rw [breaksOf_eq] at hlength
  refine ⟨fun hb => h.trans (if_pos (by omega)), fun hb => ⟨_, h.trans (if_neg (by omega)), hlength, hsum, fun j r hr => ?_, fun k hk => ?_⟩⟩
  · have hplace := hcontiguous.getElem hr
    rwa [Nat.zero_add] at hplace
  · have hsector := hverdict k hk
    rwa [Nat.zero_add] at hsector

theorem classify_read {o : Owner} {c : CommandFrame} {s : State} (hk : kindReads (cmdKind c) = true) (ht : cmdLba c + cmdCount c ≤ lbaEnd) :
    classify o c s = if 8 < (readPlan s c).length then .error .tooFragmented
      else .ok (plainPlan (readPlan s c) (captureViews (readPlan s c) s)) := by
  rw [classify, passesTop_false ht, hk, if_neg (by simp), if_pos rfl, classifyRead]

theorem readPlan_eq (s : State) (c : CommandFrame) :
    readPlan s c = formRuns 0 ((List.range (cmdCount c)).map fun k => readVerdict s (cmdLba c + k)) := by
  rw [readPlan, lbasOf, List.map_map]
  rfl

theorem le_foldl_min {l : List Nat} {a b : Nat} (hb : a ≤ b) (h : ∀ x ∈ l, a ≤ x) : a ≤ l.foldl min b := by
  induction l generalizing b with
  | nil => exact hb
  | cons x l ih =>
    exact ih (le_min hb (h x List.mem_cons_self)) fun y hy => h y (List.mem_cons_of_mem _ hy)

theorem le_lowest {l : List Nat} {a : Nat} (hl : l ≠ []) (h : ∀ x ∈ l, a ≤ x) : a ≤ lowest l := by
  cases l with
  | nil => contradiction
  | cons x l => exact le_foldl_min (h x List.mem_cons_self) h

/-- The logical sectors of a write whose every sector lies in a region (R46). -/
theorem writeLogicals_eq {c : CommandFrame} {s : State} {l : Nat → Nat}
    (h : ∀ k < cmdCount c, ∃ r, lookup s (cmdLba c + k) = some r ∧ l k = r.logicalStart + (cmdLba c + k - r.base)) :
    writeLogicals s c = (List.range (cmdCount c)).map l := by
  rw [writeLogicals, lbasOf, List.filterMap_map, ← List.filterMap_eq_map]
  refine List.filterMap_congr fun k hk => ?_
  obtain ⟨r, hr, hl⟩ := h k (List.mem_range.1 hk)
  simp [hr, logicalOf, hl]

/-- A write above the frontier of its one KEEP or TIMED context comes to the run limit (R48, R51, R53). -/
theorem classify_frontier {o : Owner} {c : CommandFrame} {s : State} {a : CtxSlot} {l : Nat → Nat} (hk : kindWrites (cmdKind c) = true)
    (ht : cmdLba c + cmdCount c ≤ lbaEnd) (hd : s.faults.lockdown = false) (hs : (ctxOf s a).state = .recording)
    (hc : (ctxOf s a).cls ≠ .shift) (hw : EverySector c fun x => ∃ r, lookup s x = some r ∧ r.ctx = a)
    (hl : writeLogicals s c = (List.range (cmdCount c)).map l) (hf : ∀ k < cmdCount c, (ctxOf s a).frontier ≤ l k) :
    classify o c s = if 8 < (writePlan s c a 0).length then .error .tooFragmented
      else .ok (plainPlan (writePlan s c a 0) (updateCtx a (fun x => { x with frontier := highest (writeLogicals s c) + 1 }) s)) := by
  have hlow : ¬lowest (writeLogicals s c) < (ctxOf s a).frontier := by
    refine not_lt.2 (le_lowest ?_ ?_) <;> rw [hl]
    · simpa using (cmdCount_pos c).ne'
    · simpa using hf
  rw [classify_write hk ht, classifyWrite_within hd hw, if_neg (not_not.2 hs), if_neg hc, classifyFrontier, if_neg hlow]

/-- Settles O17: the steps of R49, the ring read check with its three limits, and the runs with their limit of 8. -/
theorem readVerdictsJudged : Obligations.ReadVerdictsJudged := by
  refine ⟨fun s x => ⟨fun h => by simp [readVerdict, h], fun r hr => ?_⟩, fun a g p l hp hc hi => ?_, fun o c s ht => ⟨fun hk => ?_, ?_⟩⟩
  · obtain ⟨hbase, hlimit⟩ := lookup_inWindow hr
    refine ⟨hbase, hlimit, ?_⟩
    dsimp only
    rw [readVerdict_region hr]
    exact ⟨fun hd => regionVerdict_lockdown hd r x, fun hd => ⟨fun hs => regionVerdict_closing hd hs x, fun hs => regionVerdict_expired hd hs x,
      fun hc he => ⟨fun ht hs => regionVerdict_noTime hd hc he ht hs x, fun h => regionVerdict_deliver hd hc he h x,
        fun h g hg => regionVerdict_ring hd hc he h hg x⟩⟩⟩
  · dsimp only
    rw [← inFlight_iff hp hc]
    refine ⟨fun hf => if_pos hf, fun hf hp hlap => (if_neg hf).trans (if_pos ⟨hp, hlap⟩), fun hf hwritten => ?_⟩
    have hlap : ¬(g.commit ≤ p ∧ g.commitLap = 0) := by omega
    exact ⟨fun hage => (if_neg hf).trans ((if_neg hlap).trans (if_pos hage)),
      fun hage => (if_neg hf).trans ((if_neg hlap).trans (if_neg hage.not_ge))⟩
  · exact judged_of_plan (readPlan_eq s c) (classify_read hk ht)
  · intro a l hk hd hs hc hsectors
    have hw : EverySector c fun x => ∃ r, lookup s x = some r ∧ r.ctx = a := fun k hk => by
      obtain ⟨r, hr, hctx, -⟩ := hsectors k hk
      exact ⟨r, hr, hctx⟩
    have hl : writeLogicals s c = (List.range (cmdCount c)).map l := writeLogicals_eq fun k hk => by
      obtain ⟨r, hr, -, hl, -⟩ := hsectors k hk
      exact ⟨r, hr, hl⟩
    have hf : ∀ k < cmdCount c, (ctxOf s a).frontier ≤ l k := fun k hk => by
      obtain ⟨-, -, -, -, hf⟩ := hsectors k hk
      exact hf
    have hplan : writePlan s c a 0 = formRuns 0 ((List.range (cmdCount c)).map fun k => .encipher a 0 (l k)) := by
      rw [writePlan, hl, List.map_map]
      rfl
    exact judged_of_plan hplan (classify_frontier hk ht hd hs hc hw hl hf)

end Sys2Proof.SectorClassification
end

