-- ==== Sys2Proof/Proofs/FirstView.lean ====
section
namespace Sys2Proof.SectorClassification
open Sys2Proof Sys2Proof.Machine Sys2Proof.LinkPassage Sys2Proof.CommandTracking

/-! ### A read that one region delivers (R49) -/

theorem touchedBy_onePlan (c : CommandFrame) {v : Verdict} {x : CtxSlot} (hv : verdictCtx v = some x) : touchedBy (onePlan c v) = [x] := by
  rw [← touchedBy_encipher c x 0 0]
  simp [touchedBy, onePlan, hv, show verdictCtx (.encipher x 0 0) = some x from rfl]

/-- What the checks of R49 need of a TIMED context to deliver its sectors. -/
structure Delivers (s : State) (a : CtxSlot) : Prop where
  lockdown : s.faults.lockdown = false
  state : (ctxOf s a).state = .recording ∨ (ctxOf s a).state = .sealing ∨ (ctxOf s a).state = .sealed
  timed : (ctxOf s a).cls = .timed
  rightsSet : s.time.rightsSet = true

theorem regionVerdict_delivers {s : State} {r : Region} (h : Delivers s r.ctx) (x : Nat) :
    regionVerdict s r x = .deliver r.ctx 0 (logicalOf r x) := by
  have hclosing : (ctxOf s r.ctx).state ≠ .closing := by rcases h.state with h | h | h <;> simp [h]
  have hexpired : (ctxOf s r.ctx).state ≠ .expired := by rcases h.state with h | h | h <;> simp [h]
  exact regionVerdict_deliver h.lockdown hclosing hexpired (.inr ⟨h.timed, h.rightsSet⟩) x

/-- A read inside one region that delivers is one DELIVER run of lap 0 (R47, R49). -/
theorem readPlan_delivers {c : CommandFrame} {r : Region} {s : State} (hl : EverySector c fun y => lookup s y = some r)
    (h : Delivers s r.ctx) : readPlan s c = onePlan c (.deliver r.ctx 0 (firstLogical r c)) := by
  have hbase : r.base ≤ cmdLba c := (lookup_inWindow (hl 0 (cmdCount_pos c))).1
  rw [readPlan_eq, ← formRuns_onePlan]
  refine congrArg _ (List.map_congr_left fun k hk => ?_)
  have hlogical : logicalOf r (cmdLba c + k) = firstLogical r c + k := by
    simp only [logicalOf, firstLogical]
    omega
  rw [readVerdict_region (hl k (List.mem_range.1 hk)), regionVerdict_delivers h, hlogical]
  rfl

/-- One context is delivered, so one first view at most is captured (R50). -/
theorem captureViews_deliver (c : CommandFrame) (a : CtxSlot) (lap l : Nat) (s : State) :
    captureViews (onePlan c (.deliver a lap l)) s = if viewPending (ctxOf s a) then captureView s a else s := rfl

theorem classify_delivers {o : Owner} {c : CommandFrame} {r : Region} {s : State} (hk : kindReads (cmdKind c) = true)
    (ht : cmdLba c + cmdCount c ≤ lbaEnd) (hl : EverySector c fun y => lookup s y = some r) (h : Delivers s r.ctx) :
    classify o c s = .ok (plainPlan (onePlan c (.deliver r.ctx 0 (firstLogical r c)))
      (if viewPending (ctxOf s r.ctx) then captureView s r.ctx else s)) := by
  rw [classify_read hk ht, readPlan_delivers hl h, if_neg (by simp [onePlan]), captureViews_deliver]

/-- A read of one delivered context is forwarded with that context's in-flight count raised (R21, R37). -/
theorem enterQueued_delivers {c : CommandFrame} {a : CtxSlot} {lap l : Nat} (hk : cmdKind c = .qread) (s : State) :
    enterQueued c (plainPlan (onePlan c (.deliver a lap l)) s) = sentDown [.command c]
      { raiseInFlight s a with trk := { s.trk with
        queued := s.trk.queued.set (cmdTag c) (some (freshEntry .forwarded .qread c (onePlan c (.deliver a lap l)) [a]))
        accepts := s.trk.accepts ++ [{ tag := cmdTag c, action := .relay }] } } := by
  have htouched : touchedBy (onePlan c (.deliver a lap l)) = [a] := touchedBy_onePlan c rfl
  rw [enterQueued_forwarded rfl]
  dsimp only [plainPlan]
  rw [enter_touches htouched]
  simp only [newEntry, htouched, hk]
  rfl

/-! ### The first view (R50) -/

theorem viewPending_iff (x : Context) : viewPending x = true ↔ x.cls = .timed ∧ 0 < x.window ∧ x.t0 = none := by
  simp [viewPending, and_assoc]

/-- E with the window counted from T0 (R62). -/
theorem effectiveExpiry_viewed {x : Context} (t : Nat) (h : 0 < x.window) :
    effectiveExpiry x.notAfter x.window (some t) = some (match x.notAfter with
      | none => min (t + x.window) maxSeconds
      | some a => min a (min (t + x.window) maxSeconds)) := by
  cases hn : x.notAfter <;> simp [effectiveExpiry, h, satAdd_eq_min]

theorem ctxOf_captureView (s : State) (a : CtxSlot) : ctxOf (captureView s a) a = firstViewed s.time.rights (ctxOf s a) :=
  (ctxOf_setCtx a a _ s).trans (if_pos rfl)

theorem captureView_compare (s : State) (a : CtxSlot) : (captureView s a).time.compare = compareValue (captureView s a).contexts := by
  simp [captureView, recomputeCompare]

theorem captureView_others (s : State) (a : CtxSlot) : (captureView s a).eng.others = s.eng.others ++
    [.receipt a (ctxOf s a).serial s.time.rights
      ((effectiveExpiry (ctxOf s a).notAfter (ctxOf s a).window (some s.time.rights)).getD 0)] := rfl

theorem captureView_notices {s : State} (a : CtxSlot) (h : s.nq.notices.length < 32) : (captureView s a).nq.notices =
    s.nq.notices ++ [noticeOf s .firstView (some a) none none s.time.rights] := by
  unfold captureView
  dsimp only
  rw [queueNotice_notices _ _ _ _ _ (by exact h)]
  rfl

/-- The compare value reads nothing of a record but its class, its state and its E (R166). -/
theorem compareValue_congr {t u : Vector Context 16} (h : ∀ c, compareEntry (t.get c) = compareEntry (u.get c)) :
    compareValue t = compareValue u := by
  unfold compareValue
  simp only [h]

theorem compareValue_raiseInFlight (s : State) (a : CtxSlot) : compareValue (raiseInFlight s a).contexts = compareValue s.contexts := by
  refine compareValue_congr fun c => ?_
  have h := ctxOf_raiseInFlight s a c
  unfold ctxOf at h
  rw [h]
  split
  next hc => subst hc; rfl
  next => rfl

/-- Settles O16: one DELIVER run, entered as R21 says, after the capture of R50 where it is due. -/
theorem firstViewCaptured : Obligations.FirstViewCaptured := by
  rintro lba count byte10 rest r s ⟨hup, hdrv, hreset, hq⟩ c t x sum e plan entered hlock htop hregions hstate hcls hset hf ha hs
  have hbusy : ¬TagBusy t s := by simpa [TagBusy, hf] using ha
  have hblocks : ¬SlotBlocks s := by simp [SlotBlocks, hs]
  have hclassify := classify_delivers (o := .tag t) (c := c) rfl htop hregions ⟨hlock, hstate, hcls, hset⟩
  have htaken : exec (.qread lba count byte10 rest) s = .next (sentDown [.command c] _) := congrArg Host.Outcome.next
    ((arriveUp_command (c := c) hup hq (.inl hreset)).trans ((takeCommand_queued rfl).trans
      ((takeQueued_accepted hbusy hblocks hdrv hclassify).trans (enterQueued_delivers rfl _))))
  refine ⟨fun hw ht0 hn => ⟨_, htaken, ?_⟩, fun ht0 => htaken.trans ?_⟩
  · have hview : viewPending (ctxOf s r.ctx) = true := (viewPending_iff x).2 ⟨hcls, hw, ht0⟩
    have hexpiry : effectiveExpiry x.notAfter x.window (some s.time.rights) = some e := effectiveExpiry_viewed _ hw
    rw [if_pos hview]
    refine ⟨?_, ?_, ?_, ?_, captureView_notices _ hn, ?_⟩
    · exact (entryOf_setEntry (.tag t) (.tag t) entered (captureView s r.ctx)).trans (if_pos rfl)
    · refine (ctxOf_raiseInFlight (captureView s r.ctx) r.ctx r.ctx).trans ((if_pos rfl).trans ?_)
      rw [ctxOf_captureView, firstViewed, hexpiry]
    · exact (captureView_compare s r.ctx).trans (compareValue_raiseInFlight _ _).symm
    · exact (captureView_others s r.ctx).trans (by rw [hexpiry]; rfl)
    · simp [sentDown, raiseInFlight]
  · have hview : ¬viewPending (ctxOf s r.ctx) = true := fun h => by simp [((viewPending_iff x).1 h).2.2] at ht0
    rw [if_neg hview]
    rfl

end Sys2Proof.SectorClassification
end

