-- ==== Sys2Proof/Proofs/PowerOnValues.lean ====
section
namespace Sys2Proof.RegionTable
open Sys2Proof Sys2Proof.Machine Sys2Proof.LinkPassage Sys2Proof.CommandTracking

/-! ### The tables after power-on (R64, R101, R127, R142) -/

/-- Settles O3: power-on puts the reset state's record in the place of every block but the commands that wait and what was sent, and the
tables of the reset state are empty. -/
theorem powerOnSetsValues : Obligations.PowerOnSetsValues := fun s => by
  have hregions : ∀ e, regionOf (powerOnEvent s) e = none := fun e => (regionOf_congr rfl e).trans (regionOf_reset e)
  have hrings : ∀ c, ringOf (powerOnEvent s) c = none := fun c => (ringOf_congr rfl c).trans (ringOf_reset c)
  exact ⟨powerOnEvent s, rfl, hregions, hrings, keySlot_reset, rfl, rfl, rfl, poolSlot_reset, rfl, rfl, rfl, rfl, rfl, rfl, rfl,
    rfl, rfl⟩

end Sys2Proof.RegionTable
end

