-- ==== Sys2Proof/Proofs/RegionRequests.lean ====
section
namespace Sys2Proof.RegionTable
open Sys2Proof Sys2Proof.Machine Sys2Proof.LinkPassage Sys2Proof.CommandTracking Sys2Proof.SectorClassification

/-! ### The checks of a new region against the enabled ones (R68, R70, R71) -/

theorem any_enabledRegions {s : State} {P : Region → Bool} :
    (enabledRegions s).any P = true ↔ ∃ e r, regionOf s e = some r ∧ P r = true := by
  simp only [List.any_eq_true, mem_enabledRegions]
  exact ⟨fun ⟨r, ⟨e, he⟩, hr⟩ => ⟨e, r, he, hr⟩, fun ⟨e, r, he, hr⟩ => ⟨r, ⟨e, he⟩, hr⟩⟩

section
variable {s : State} {p : RegionParams} {c : CtxSlot}

theorem any_windowsMeet : (enabledRegions s).any (windowsMeet (regionOfParams p c)) = true ↔
    ∃ e r, regionOf s e = some r ∧ p.base.toNat ≤ r.limit ∧ r.base ≤ p.limit.toNat := by
  simp only [any_enabledRegions, windowsMeet, regionOfParams, Bool.and_eq_true, decide_eq_true_eq]

theorem any_logicalsMeet : (enabledRegions s).any (logicalsMeet (regionOfParams p c)) = true ↔
    ∃ f r, regionOf s f = some r ∧ r.ctx = c ∧ p.logicalStart.toNat ≤ r.logicalStart + (r.limit - r.base) ∧
      r.logicalStart ≤ p.logicalStart.toNat + (p.limit.toNat - p.base.toNat) := by
  simp only [any_enabledRegions, logicalsMeet, Bool.and_eq_true, decide_eq_true_eq, and_assoc]
  simp only [lastLogical, regionOfParams, eq_comm (a := c)]

end

section
variable {s : State} {r : Region}

theorem regionRefusal_unloaded (h : ¬Loaded (ctxOf s r.ctx)) : regionRefusal s r = some .wrongState := if_pos h

theorem regionRefusal_overlaps (h : Loaded (ctxOf s r.ctx)) (hl : (enabledRegions s).any (logicalsMeet r) = true) :
    regionRefusal s r = some .logicalOverlap := (if_neg (not_not_intro h)).trans (if_pos hl)

/-- With the checks of its context's state and of its logical range passed, a region is refused for a ring alone (R71). -/
theorem regionRefusal_apart (h : Loaded (ctxOf s r.ctx)) (hl : ¬(enabledRegions s).any (logicalsMeet r) = true) :
    regionRefusal s r =
      if (ctxOf s r.ctx).cls = .shift ∧ (enabledRegions s).any (fun q => q.ctx = r.ctx) then some .ringBound
      else if (ctxOf s r.ctx).cls = .shift ∧ ¬(64 ≤ r.limit - r.base + 1 ∧ r.limit - r.base + 1 ≤ 2147483648) then some .outOfRange
      else none := (if_neg (not_not_intro h)).trans (if_neg hl)

end

/-! ### ADD_REGION (R66 to R73) -/

/-- The first five checks of R66 passed: a free entry, and a window and a logical range in their spaces. -/
structure Placed (p : RegionParams) (e : EntryNo) (s : State) : Prop where
  entry : entryOperand p.entry = some e
  free : regionOf s e = none
  ordered : p.base.toNat ≤ p.limit.toNat
  inside : p.logicalStart.toNat + (p.limit.toNat - p.base.toNat + 1) ≤ logicalEnd

/-- Also the sixth passed: the window meets no enabled one. -/
structure Fits (p : RegionParams) (e : EntryNo) (s : State) : Prop extends Placed p e s where
  apart : ¬(enabledRegions s).any (windowsMeet (regionOfParams p 0)) = true

section
variable {s : State} {p : RegionParams} {e : EntryNo} {c : CtxSlot} {code : Code}

theorem addRegionRequest_noEntry (h : entryOperand p.entry = none) : addRegionRequest p s = refuses .outOfRange s := by
  simp only [addRegionRequest, h]

theorem addRegionRequest_taken (he : entryOperand p.entry = some e) (h : (regionOf s e).isSome = true) :
    addRegionRequest p s = refuses .slotTaken s := by
  simp only [addRegionRequest, he, if_pos h]

/-- The window's end lies in the LBA space whatever the limit's 48 bits are, so R66 refuses a free entry's range for its order or its
logical end alone. -/
theorem addRegionRequest_outside (he : entryOperand p.entry = some e) (hfree : regionOf s e = none)
    (h : p.limit.toNat < p.base.toNat ∨ logicalEnd < p.logicalStart.toNat + (p.limit.toNat - p.base.toNat + 1)) :
    addRegionRequest p s = refuses .outOfRange s := by
  have hspace : ¬lbaEnd ≤ p.limit.toNat := Nat.not_le.2 p.limit.isLt
  have hused : ¬(regionOf s e).isSome = true := by simp [hfree]
  simp only [addRegionRequest, he, if_neg hused, if_neg hspace]
  rcases h with horder | hend
  · rw [if_pos horder]
  · simp only [if_pos hend, ite_self]

/-- With its first five checks passed, ADD_REGION is decided by the windows, the slot and the context (R66). -/
theorem Placed.request (h : Placed p e s) : addRegionRequest p s =
    if (enabledRegions s).any (windowsMeet (regionOfParams p 0)) then refuses .lbaOverlap s
    else (slotOperand p.slot).elim (refuses .outOfRange s) fun c =>
      (regionRefusal s (regionOfParams p c)).elim (accepts (enableRegion e (regionOfParams p c) s)) fun code => refuses code s := by
  obtain ⟨hentry, hfree, hordered, hinside⟩ := h
  have hspace : ¬lbaEnd ≤ p.limit.toNat := Nat.not_le.2 p.limit.isLt
  have hunused : ¬(regionOf s e).isSome = true := by simp [hfree]
  simp only [addRegionRequest, hentry, if_neg hunused, if_neg (Nat.not_lt.2 hordered), if_neg hspace, if_neg (Nat.not_lt.2 hinside)]
  refine ite_congr rfl (fun _ => rfl) fun _ => ?_
  cases slotOperand p.slot with
  | none => rfl
  | some c => cases hr : regionRefusal s (regionOfParams p c) <;> simp [hr]

theorem Placed.request_meets (h : Placed p e s) (hm : (enabledRegions s).any (windowsMeet (regionOfParams p 0)) = true) :
    addRegionRequest p s = refuses .lbaOverlap s := h.request.trans (if_pos hm)

theorem Fits.request_noSlot (h : Fits p e s) (hc : slotOperand p.slot = none) : addRegionRequest p s = refuses .outOfRange s := by
  rw [h.request, if_neg h.apart, hc, Option.elim_none]

theorem Fits.request_refused (h : Fits p e s) (hc : slotOperand p.slot = some c)
    (hr : regionRefusal s (regionOfParams p c) = some code) : addRegionRequest p s = refuses code s := by
  rw [h.request, if_neg h.apart, hc, Option.elim_some, hr, Option.elim_some]

theorem Fits.request_enabled (h : Fits p e s) (hc : slotOperand p.slot = some c)
    (hr : regionRefusal s (regionOfParams p c) = none) :
    addRegionRequest p s = accepts (enableRegion e (regionOfParams p c) s) := by
  rw [h.request, if_neg h.apart, hc, Option.elim_some, hr, Option.elim_none]

end

/-- Settles O44: the checks of R66 in their order, then those of the context a region names (R69 to R71), each refusing where those before
it have passed. -/
theorem addRegionChecked : Obligations.AddRegionChecked := by
  intro p s ha
  refine ⟨fun h => exec_refused (r := .addRegion p) rfl ha (addRegionRequest_noEntry (entryOperand_of_ge h)), fun e he => ?_⟩
  have hentry := entryOperand_of_val he
  refine ⟨fun h => exec_refused (r := .addRegion p) rfl ha (addRegionRequest_taken (s := closedBurst s) hentry h), fun hfree => ?_⟩
  refine ⟨fun h => exec_refused (r := .addRegion p) rfl ha (addRegionRequest_outside (s := closedBurst s) hentry hfree h),
    fun hordered hinside => ?_⟩
  have hplaced : Placed p e (closedBurst s) := ⟨hentry, hfree, hordered, hinside⟩
  have hmeets := any_windowsMeet (s := closedBurst s) (p := p) (c := 0)
  refine ⟨fun h => exec_refused (r := .addRegion p) rfl ha (hplaced.request_meets (hmeets.2 h)),
    fun h hslot => exec_refused (r := .addRegion p) rfl ha
      (Fits.request_noSlot ⟨hplaced, mt hmeets.1 h⟩ (slotOperand_of_ge hslot)),
    fun c hc hapart => ?_⟩
  have hslot := slotOperand_of_val hc
  have hfits : Fits p e (closedBurst s) := ⟨hplaced, mt hmeets.1 hapart⟩
  have hrefused : ∀ code, regionRefusal (closedBurst s) (regionOfParams p c) = some code →
      exec (.addRegion p) s = .next (answered (errorFrame code) s) := fun code hr =>
    exec_refused (r := .addRegion p) rfl ha (hfits.request_refused hslot hr)
  have henabled : ∀ {t : State}, regionRefusal (closedBurst s) (regionOfParams p c) = none →
      enableRegion e (regionOfParams p c) (closedBurst s) = closedBurst t → exec (.addRegion p) s = .next (answered okFrame t) :=
    fun hr ht => exec_accepted (r := .addRegion p) rfl ha ((hfits.request_enabled hslot hr).trans (congrArg accepts ht))
  have hshares := any_logicalsMeet (s := closedBurst s) (p := p) (c := c)
  have howns : (enabledRegions (closedBurst s)).any (fun q => q.ctx = c) = true ↔ ∃ f r, regionOf s f = some r ∧ r.ctx = c := by
    simp only [any_enabledRegions, decide_eq_true_eq]
    rfl
  have hchecked := fun (hx : Loaded (ctxOf s c)) hl =>
    regionRefusal_apart (s := closedBurst s) (r := regionOfParams p c) hx (mt hshares.1 hl)
  refine ⟨fun hx => hrefused _ (regionRefusal_unloaded hx), fun hx hl => hrefused _ (regionRefusal_overlaps hx (hshares.2 hl)),
    fun hx hl hcls h => hrefused _ ?_, fun hx hl hcls h hsize => hrefused _ ?_, fun hx hl hcls => henabled ?_ ?_,
    fun hx hl hcls h hsize => henabled ?_ ?_⟩
  · exact (hchecked hx hl).trans (if_pos ⟨hcls, howns.2 h⟩)
  · exact (hchecked hx hl).trans ((if_neg fun k => h (howns.1 k.2)).trans (if_pos ⟨hcls, hsize⟩))
  · exact (hchecked hx hl).trans ((if_neg fun k => hcls k.1).trans (if_neg fun k => hcls k.1))
  · exact if_neg hcls
  · exact (hchecked hx hl).trans ((if_neg fun k => h (howns.1 k.2)).trans (if_neg fun k => k.2 hsize))
  · exact if_pos hcls

/-! ### REMOVE_REGION (R74, R75) -/

theorem deleteRing_rings (c : CtxSlot) (s : State) : (deleteRing c s).rings = s.rings.set c none := by
  unfold deleteRing
  split
  next h =>
    have hget : s.rings[c.val] = none := h
    rw [← hget, Vector.set_getElem_self]
  next => simp [setRing]

/-- The entries of a deleted ring's HELD spans are forwarded where they wait for their span alone (R75). -/
theorem forwarded_deleteRing {c : CtxSlot} {g : Machine.Ring} {q : Tag} {a : Entry} {s : State} (hg : ringOf s c = some g)
    (hq : .tag q ∈ heldOwners g) (ha : AwaitsSpan q a s) : Forwarded q a (deleteRing c s) := by
  simp only [deleteRing, hg]
  exact releaseEntries_forwards ⟨(entryOf_congr rfl _).trans ha.1, ha.2⟩ hq

/-- The COMMAND of a forwarded entry is sent with those of its event, and the entry stays (R28). -/
theorem flushed_of_forwarded {q : Tag} {a : Entry} {s : State} (h : Forwarded q a s) :
    entryOf (flushReleased s) (.tag q) = some { a with state := .forwarded, ringWindow := false } ∧
      .command a.cmd ∈ (flushReleased s).drv.sent := by
  obtain ⟨he, hr⟩ := h
  refine ⟨(entryOf_flushReleased _ _).trans he, ?_⟩
  rw [flushReleased_eq]
  exact List.mem_append_right _ (List.mem_filterMap.2 ⟨.tag q, hr, by rw [commandOf, he]; rfl⟩)

section
variable {b : Byte} {e : EntryNo} {r : Region} {s : State}

theorem removeRegionRequest_noEntry (h : entryOperand b = none) : removeRegionRequest b s = refuses .outOfRange s := by
  simp only [removeRegionRequest, h]

theorem removeRegionRequest_free (he : entryOperand b = some e) (h : regionOf s e = none) : removeRegionRequest b s = accepts s := by
  simp only [removeRegionRequest, he, h]

theorem removeRegionRequest_enabled (he : entryOperand b = some e) (h : regionOf s e = some r) :
    removeRegionRequest b s = accepts (freeRegion e r s) := by
  simp only [removeRegionRequest, he, h]

theorem freeRegion_plain (h : (ctxOf s r.ctx).cls ≠ .shift) :
    freeRegion e r s = { s with regions := s.regions.set e none } := if_neg h

theorem freeRegion_shift (h : (ctxOf s r.ctx).cls = .shift) :
    freeRegion e r s = flushReleased (deleteRing r.ctx { s with regions := s.regions.set e none }) := if_pos h

/-- What a ring's region leaves when it goes (R74, R75). -/
theorem freeRegion_shift_keeps (h : (ctxOf s r.ctx).cls = .shift) :
    (freeRegion e r s).regions = s.regions.set e none ∧ (freeRegion e r s).rings = s.rings.set r.ctx none ∧
      (freeRegion e r s).contexts = s.contexts ∧ (freeRegion e r s).nq = s.nq ∧ (freeRegion e r s).up = s.up := by
  simp [freeRegion_shift h, deleteRing_rings]

/-- The commands of a ring's HELD spans are sent when its region goes, where they wait for their span alone (R75). -/
theorem freeRegion_shift_sends {g : Machine.Ring} {q : Tag} {a : Entry} (h : (ctxOf s r.ctx).cls = .shift) (hg : ringOf s r.ctx = some g)
    (hq : .tag q ∈ heldOwners g) (ha : AwaitsSpan q a s) :
    entryOf (freeRegion e r s) (.tag q) = some { a with state := .forwarded, ringWindow := false } ∧
      .command a.cmd ∈ (freeRegion e r s).drv.sent := by
  rw [freeRegion_shift h]
  exact flushed_of_forwarded (forwarded_deleteRing (s := { s with regions := s.regions.set e none }) hg hq ha)

end

/-- Settles O45: with a ring's region its ring is deleted, which forwards the entries of its HELD spans, and their COMMANDs are sent when
the event ends. -/
theorem removeRegionFrees : Obligations.RemoveRegionFrees := by
  intro b s ha
  refine ⟨fun h => exec_refused (r := .removeRegion b) rfl ha (removeRegionRequest_noEntry (entryOperand_of_ge h)), fun e he => ?_⟩
  have hentry := entryOperand_of_val he
  refine ⟨fun h => exec_accepted (r := .removeRegion b) rfl ha (removeRegionRequest_free (s := closedBurst s) hentry h), fun r hr => ?_⟩
  have hrequest := removeRegionRequest_enabled (s := closedBurst s) hentry hr
  refine ⟨fun hcls => exec_accepted (r := .removeRegion b) rfl ha (hrequest.trans (congrArg accepts (freeRegion_plain hcls))), fun hcls => ?_⟩
  obtain ⟨hregions, hrings, hcontexts, hnq, hup⟩ := freeRegion_shift_keeps (e := e) (s := closedBurst s) hcls
  have hanswer : answerRequest (removeRegionRequest b (closedBurst s)) = answered okFrame (freeRegion e r (closedBurst s)) := by
    rw [hrequest]
    exact answerRequest_accepts _ (by rw [hup]; rfl)
  refine ⟨_, (exec_request (r := .removeRegion b) rfl ha).trans (congrArg _ hanswer), hregions, hrings, hcontexts, hnq, ?_, ?_⟩
  · simp only [answered, hup]
    rfl
  · rintro g k x hg ⟨y, hmem, howner, hstatus⟩ hx hheld hwait
    have howners : .tag k ∈ heldOwners g := List.mem_map.2 ⟨y, List.mem_filter.2 ⟨hmem, by simpa using hstatus⟩, howner⟩
    obtain ⟨hentry', hsent⟩ := freeRegion_shift_sends (e := e) (s := closedBurst s) hcls hg howners ⟨hx, hheld, hwait⟩
    exact ⟨_, hentry', rfl, rfl, hsent⟩

end Sys2Proof.RegionTable
end

