-- ==== Sys2Proof/Proofs/BlockLayouts.lean ====
section
namespace Sys2Proof.RegionTable
open Sys2Proof Sys2Proof.Machine Sys2Proof.LinkPassage Sys2Proof.CommandTracking

/-! ### A block as the list of its fields (12.3, R197) -/

/-- A field of a block: its byte offset, its width in bits and what is written there. -/
structure BlockField where
  off : Nat
  width : Nat
  value : BitVec width

/-- A field that holds a number. -/
def numField (off width n : Nat) : BlockField := ⟨off, width, BitVec.ofNat width n⟩

/-- The block with the fields of a list written, and zeros elsewhere (R197). -/
def blockOf (l : List BlockField) : Sector :=
  l.foldr (fun f b => putField f.off f.value b) 0

/-- Whether a field shares no bit with the place of another. -/
def BlockField.apart (off width : Nat) (f : BlockField) : Bool :=
  8 * f.off + f.width ≤ 8 * off || 8 * off + width ≤ 8 * f.off

/-- Whether the fields of a list lie inside a block, no two of them on one bit. -/
def laid : List BlockField → Bool
  | [] => true
  | f :: l => 8 * f.off + f.width ≤ 4096 && l.all (·.apart f.off f.width) && laid l

section
variable {l : List BlockField} {off width : Nat}

theorem getField_blockOf_apart (hin : 8 * off + width ≤ 4096) (h : l.all (·.apart off width) = true) :
    getField off width (blockOf l) = 0 := by
  induction l with
  | nil => exact getField_zero off width
  | cons f l ih =>
    rw [List.all_cons, Bool.and_eq_true] at h
    obtain ⟨hf, hl⟩ := h
    simp only [BlockField.apart, Bool.or_eq_true, decide_eq_true_eq] at hf
    exact (getField_putField_apart _ _ _ _ hin hf).trans (ih hl)

theorem inside_of_laid (h : laid l = true) : ∀ f ∈ l, 8 * f.off + f.width ≤ 4096 := by
  induction l with
  | nil => exact fun f hf => absurd hf List.not_mem_nil
  | cons g l ih =>
    simp only [laid, Bool.and_eq_true, decide_eq_true_eq] at h
    obtain ⟨⟨hin, -⟩, hl⟩ := h
    exact List.forall_mem_cons.2 ⟨hin, ih hl⟩

/-- A field of a block reads what its list says is written there. -/
theorem getField_blockOf {value : BitVec width} (h : laid l = true) (hf : l.find? (·.off = off) = some ⟨off, width, value⟩) :
    getField off width (blockOf l) = value := by
  induction l with
  | nil => contradiction
  | cons f l ih =>
    simp only [laid, Bool.and_eq_true, decide_eq_true_eq] at h
    obtain ⟨⟨hin, happart⟩, hl⟩ := h
    by_cases hoff : f.off = off
    · rw [List.find?_cons_of_pos (by simpa using hoff)] at hf
      obtain rfl := Option.some.inj hf
      exact getField_putField_same _ _ _ hin (getField_blockOf_apart hin happart)
    · rw [List.find?_cons_of_neg (by simpa using hoff)] at hf
      have hmem := List.all_eq_true.1 happart _ (List.mem_of_find?_eq_some hf)
      simp only [BlockField.apart, Bool.or_eq_true, decide_eq_true_eq] at hmem
      exact (getField_putField_apart _ _ _ _ (inside_of_laid hl _ (List.mem_of_find?_eq_some hf)) hmem.symm).trans (ih hl hf)

theorem zeroFrom_blockOf (h : (l.all fun f => 8 * f.off + f.width ≤ 8 * off) = true) : ZeroFrom off (blockOf l) := by
  induction l with
  | nil => exact zeroFrom_zero off
  | cons f l ih =>
    rw [List.all_cons, Bool.and_eq_true, decide_eq_true_eq] at h
    exact (ih h.2).putField f.value h.1

/-- The bytes that no field names are 0 (R197). -/
theorem getField_blockOf_gaps {gaps : List Nat} (h : (gaps.all fun k => 8 * k + 8 ≤ 4096 && l.all (·.apart k 8)) = true) :
    ∀ k ∈ gaps, getField k 8 (blockOf l) = 0#8 := fun k hk => by
  have hgap := List.all_eq_true.1 h k hk
  rw [Bool.and_eq_true, decide_eq_true_eq] at hgap
  exact getField_blockOf_apart hgap.1 hgap.2

/-- A field that holds a number it has room for. -/
theorem getField_blockOf_toNat {n : Nat} (h : laid l = true) (hf : l.find? (·.off = off) = some (numField off width n))
    (hn : n < 2 ^ width) : (getField off width (blockOf l)).toNat = n := by
  rw [getField_blockOf h hf, BitVec.toNat_ofNat, Nat.mod_eq_of_lt hn]

/-- A byte that holds a flag. -/
theorem getField_blockOf_flag {p : Bool} (h : laid l = true) (hf : l.find? (·.off = off) = some (numField off 8 p.toNat)) :
    (getField off 8 (blockOf l)).toNat = if p then 1 else 0 := by
  rw [getField_blockOf_toNat h hf (by cases p <;> decide)]
  cases p <;> rfl

end

end Sys2Proof.RegionTable
end

