-- ==== Sys2Proof/Proofs/ReplyBlocks.lean ====
section
namespace Sys2Proof.RegionTable
open Sys2Proof Sys2Proof.Machine Sys2Proof.LinkPassage Sys2Proof.CommandTracking

/-! ### Code values and counts (12.2) -/

theorem ctxStateNumber_of_getElem? {j : Nat} {t : CtxState}
    (h : [CtxState.empty, .loading, .recording, .sealing, .sealed, .expired, .closing][j]? = some t) : ctxStateNumber t = j := by
  match j, h with
  | 0, h | 1, h | 2, h | 3, h | 4, h | 5, h | 6, h => cases h; rfl

theorem classNumber_of_getElem? {j : Nat} {x : CtxClass} (h : [CtxClass.keep, .timed, .shift][j]? = some x) : classNumber x = j := by
  match j, h with
  | 0, h | 1, h | 2, h => cases h; rfl

/-- A fault set's byte has each kind at its bit. -/
theorem getLsbD_faultSetNumber (f : FaultSet) (k : FaultKind) :
    (BitVec.ofNat 8 (faultSetNumber f)).getLsbD (faultBit k) =
      match k with
      | .keyParity => f.keyParity
      | .transform => f.transform
      | .protocol => f.protocol
      | .driveLost => f.driveLost := by
  obtain ⟨a, b, c, d⟩ := f
  revert a b c d
  cases k <;> decide

theorem severityNumber_eq (v : Severity) : severityNumber v = if v = .lockdown then 1 else 0 := by
  cases v <;> rfl

/-- The flags byte of a context has each flag at its bit, and no other. -/
theorem contextFlags_bits (x : Context) (ring : Bool) :
    (BitVec.ofNat 8 (contextFlags x ring)).getLsbD 0 = x.t0.isSome ∧ (BitVec.ofNat 8 (contextFlags x ring)).getLsbD 1 = x.expiry.isSome ∧
      (BitVec.ofNat 8 (contextFlags x ring)).getLsbD 2 = x.pin ∧ (BitVec.ofNat 8 (contextFlags x ring)).getLsbD 3 = ring ∧
      (BitVec.ofNat 8 (contextFlags x ring)).toNat < 16 := by
  unfold contextFlags
  generalize x.t0.isSome = a, x.expiry.isSome = b, x.pin = c
  revert a b c ring
  decide

/-- Each key slot is FREE, in SETUP or READY (R127). -/
theorem keySlots_counted (v : KeyNo → Option KeySlot) (l : List KeyNo) :
    (l.filter fun k => (v k).any fun x => x.phase ≠ .setup).length =
      l.length - (l.filter fun k => (v k).isNone).length - (l.filter fun k => (v k).any fun x => x.phase = .setup).length := by
  suffices h : (l.filter fun k => (v k).isNone).length + (l.filter fun k => (v k).any fun x => x.phase = .setup).length +
      (l.filter fun k => (v k).any fun x => x.phase ≠ .setup).length = l.length by omega
  induction l with
  | nil => rfl
  | cons k l ih =>
    cases hk : v k with
    | none => simp [hk, ← ih]; omega
    | some x =>
      by_cases hx : x.phase = .setup
      · simp [hk, hx, ← ih]; omega
      · simp [hk, hx, ← ih]; omega

theorem entriesInUse_lt (s : State) : entriesInUse s < 2 ^ 8 := by
  have hqueued : (tagsInUse s).length ≤ 32 := (List.length_filter_le _ _).trans_eq List.length_finRange
  unfold entriesInUse
  split <;> omega

/-- A number of slots out of at most 64 has room in a byte. -/
theorem length_filter_finRange_lt {n : Nat} (P : Fin n → Bool) (h : n ≤ 64) : ((List.finRange n).filter P).length < 2 ^ 8 := by
  have hle : ((List.finRange n).filter P).length ≤ n := (List.length_filter_le _ _).trans_eq List.length_finRange
  omega

/-! ### READ_STATUS (R180) -/

/-- The fields of a READ_STATUS reply (12.3). -/
def statusFields (s : State) : List BlockField :=
  [numField 4 8 s.faults.lockdown.toNat, numField 5 8 s.time.rightsSet.toNat,
    numField 6 8 (if s.faults.cause = .linkReset then 1 else 0), numField 7 8 s.req.drainPending.toNat,
    numField 8 32 s.time.rights, numField 12 32 s.time.mono, numField 16 8 (faultSetNumber s.faults.set),
    numField 17 8 ((s.faults.first.map faultBit).getD 255), numField 18 8 (entriesInUse s), numField 19 8 (poolFree s),
    numField 20 8 (slotsFree s), numField 21 8 (slotsSetup s), numField 22 8 (8 - slotsFree s - slotsSetup s),
    numField 23 8 s.nq.notices.length, numField 24 8 s.nq.overflow.toNat, numField 26 8 (if s.drv.link = .up then 0 else 1),
    numField 25 8 s.req.locked.toNat, numField 28 8 s.req.lookahead, numField 30 8 (severityNumber s.req.severities.keyParity),
    numField 31 8 (severityNumber s.req.severities.transform), numField 32 8 (severityNumber s.req.severities.protocol),
    numField 33 8 (severityNumber s.req.severities.driveLost), ⟨36, 32, s.req.attentionSet.setWidth 32⟩,
    numField 40 32 s.req.divider, numField 44 8 (contextsIn s .empty), numField 45 8 (contextsIn s .loading),
    numField 46 8 (contextsIn s .recording), numField 47 8 (contextsIn s .sealing), numField 48 8 (contextsIn s .sealed),
    numField 49 8 (contextsIn s .expired), numField 50 8 (contextsIn s .closing), ⟨0, 16, 16#16⟩]

theorem statusReply_eq (s : State) : statusReply s = blockOf (statusFields s) := rfl

theorem laid_statusFields (s : State) : laid (statusFields s) = true := by
  simp [statusFields, numField, laid, BlockField.apart]

theorem statusFields_severity (s : State) (k : FaultKind) :
    (statusFields s).find? (·.off = 30 + faultBit k) = some (numField (30 + faultBit k) 8 (severityNumber (severityOf k s.req.severities))) := by
  cases k <;> rfl

theorem statusFields_contexts (s : State) (t : CtxState) :
    (statusFields s).find? (·.off = 44 + ctxStateNumber t) = some (numField (44 + ctxStateNumber t) 8 (contextsIn s t)) := by
  cases t <;> rfl

/-- READ_STATUS: each field of its reply where it stands (R180, 12.3). -/
theorem statusReply_fields {s : State} (hsettings : SettingsLaw s) (hclock : ClockLaw s) (hrecords : RecordsLaw s) :
    let b := statusReply s
    let byte := fun off => (getField off 8 b).toNat
    let word := fun off => (getField off 32 b).toNat
    let count := fun P : Option KeySlot → Bool => ((List.finRange 8).filter fun k => P (s.keys.slots.get k)).length
    (getField 0 16 b).toNat = 16 ∧ byte 4 = (if s.faults.lockdown then 1 else 0) ∧ byte 5 = (if s.time.rightsSet then 1 else 0) ∧
    byte 6 = (if s.faults.cause = .powerOn then 0 else 1) ∧ byte 7 = (if s.req.drainPending then 1 else 0) ∧
    word 8 = s.time.rights ∧ word 12 = s.time.mono ∧
    (∀ k, (getField 16 8 b).getLsbD (faultBit k) =
      match k with
      | .keyParity => s.faults.set.keyParity
      | .transform => s.faults.set.transform
      | .protocol => s.faults.set.protocol
      | .driveLost => s.faults.set.driveLost) ∧
    byte 17 = (match s.faults.first with
      | none => 255
      | some k => faultBit k) ∧
    byte 18 = entriesInUse s ∧ byte 19 = ((List.finRange 64).filter fun p => (s.pool.slots.get p).isNone).length ∧
    byte 20 = count (·.isNone) ∧ byte 21 = count (·.any fun x => x.phase = .setup) ∧
    byte 22 = count (·.any fun x => x.phase ≠ .setup) ∧
    byte 23 = s.nq.notices.length ∧ byte 24 = (if s.nq.overflow then 1 else 0) ∧ byte 25 = (if s.req.locked then 1 else 0) ∧
    byte 26 = (if s.drv.link = .up then 0 else 1) ∧ byte 28 = s.req.lookahead ∧
    (∀ k, byte (30 + faultBit k) = if severityOf k s.req.severities = .lockdown then 1 else 0) ∧ word 36 = s.req.attentionSet.toNat ∧
    word 40 = s.req.divider ∧
    (∀ j t, [CtxState.empty, .loading, .recording, .sealing, .sealed, .expired, .closing][j]? = some t →
      byte (44 + j) = ((List.finRange 16).filter fun c => (ctxOf s c).state = t).length) ∧
    (∀ off ∈ [2, 3, 27, 29, 34, 35], byte off = 0) ∧ ∀ off, 51 ≤ off → off < 512 → byte off = 0 := by
  obtain ⟨-, hlook, -, hdivider⟩ := hsettings
  obtain ⟨-, hmono, hrights, -⟩ := hclock
  rw [← Nat.lt_succ_iff] at hmono hrights
  obtain ⟨hnotices, -⟩ := hrecords
  have hlaid := laid_statusFields s
  have hkeys := keySlots_counted s.keys.slots.get (List.finRange 8)
  rw [List.length_finRange] at hkeys
  have hfree : slotsFree s < 2 ^ 8 := length_filter_finRange_lt _ (by omega)
  have hsetup : slotsSetup s < 2 ^ 8 := length_filter_finRange_lt _ (by omega)
  dsimp only
  rw [statusReply_eq]
  refine ⟨?_, getField_blockOf_flag hlaid rfl, getField_blockOf_flag hlaid rfl, ?_, getField_blockOf_flag hlaid rfl,
    getField_blockOf_toNat hlaid rfl hrights, getField_blockOf_toNat hlaid rfl hmono, fun k => ?_, ?_,
    getField_blockOf_toNat hlaid rfl (entriesInUse_lt s),
    getField_blockOf_toNat hlaid rfl (length_filter_finRange_lt _ (by omega)), getField_blockOf_toNat hlaid rfl hfree,
    getField_blockOf_toNat hlaid rfl hsetup, ?_, getField_blockOf_toNat hlaid rfl (by omega), getField_blockOf_flag hlaid rfl,
    getField_blockOf_flag hlaid rfl, getField_blockOf_toNat hlaid rfl (by split <;> decide),
    getField_blockOf_toNat hlaid rfl (by omega), fun k => ?_, ?_, getField_blockOf_toNat hlaid rfl (by omega), fun j t ht => ?_,
    fun off hoff => ?_, fun off hoff hlt => ?_⟩
  · rw [getField_blockOf hlaid (value := 16#16) rfl]
    rfl
  · refine (getField_blockOf_toNat hlaid rfl (by split <;> decide)).trans ?_
    cases s.faults.cause <;> rfl
  · rw [getField_blockOf hlaid (value := BitVec.ofNat 8 (faultSetNumber s.faults.set)) rfl]
    exact getLsbD_faultSetNumber s.faults.set k
  · rw [getField_blockOf hlaid (value := BitVec.ofNat 8 ((s.faults.first.map faultBit).getD 255)) rfl]
    cases s.faults.first with
    | none => rfl
    | some k => cases k <;> rfl
  · rw [hkeys]
    exact getField_blockOf_toNat hlaid rfl (by omega)
  · rw [← severityNumber_eq]
    exact getField_blockOf_toNat hlaid (statusFields_severity s k) (by cases severityOf k s.req.severities <;> decide)
  · rw [getField_blockOf hlaid (value := s.req.attentionSet.setWidth 32) rfl, BitVec.toNat_setWidth_of_le (by omega)]
  · obtain rfl := ctxStateNumber_of_getElem? ht
    exact getField_blockOf_toNat hlaid (statusFields_contexts s t) (length_filter_finRange_lt _ (by omega))
  · exact congrArg BitVec.toNat (getField_blockOf_gaps rfl off hoff)
  · have hzero : ZeroFrom 51 (blockOf (statusFields s)) := zeroFrom_blockOf rfl
    exact congrArg BitVec.toNat (hzero.getField hoff)

/-! ### READ_CONTEXT (R95) -/

/-- The fields of a READ_CONTEXT reply but those of the ring (12.3). -/
def contextFields (s : State) (c : CtxSlot) : List BlockField :=
  let x := ctxOf s c
  [numField 4 8 c, numField 5 8 (ctxStateNumber x.state), numField 6 8 (classNumber x.cls), numField 7 8 (openingNumber x.opening),
    ⟨8, 48, x.serial⟩, numField 16 32 (x.notAfter.getD 0), numField 20 32 x.window, numField 24 32 (x.t0.getD 0),
    numField 28 32 (x.expiry.getD 0), numField 32 8 (contextFlags x (ringOf s c).isSome), numField 33 8 (keyStateNumber s c),
    numField 34 8 (receiptNumber x.receipt), numField 35 8 x.inFlight, numField 36 32 x.withheld,
    numField 40 48 (if x.cls = .shift then 0 else x.frontier), numField 46 8 (regionsOf s c), ⟨0, 16, 4#16⟩]

/-- The fields of a ring in a READ_CONTEXT reply (12.3). -/
def ringFields (g : Machine.Ring) : List BlockField :=
  [numField 48 32 g.length, numField 52 32 g.issue, numField 56 32 g.issueLap, numField 60 32 g.commit, numField 64 32 g.commitLap,
    numField 68 32 g.depth, numField 72 8 g.spans.length, numField 73 8 (forwardedCount g.spans), numField 76 32 (spanTotal g.spans)]

/-- A READ_CONTEXT reply holds its code alone for an EMPTY slot (log 16), else the context's fields and those of its ring. -/
theorem contextReply_eq (s : State) (c : CtxSlot) : contextReply s c = blockOf
    (if (ctxOf s c).state = .empty then [⟨0, 16, 4#16⟩] else (ringOf s c).elim [] ringFields ++ contextFields s c) := by
  unfold contextReply
  dsimp only
  split
  · rfl
  · cases hg : ringOf s c <;> simp only [contextFields, hg] <;> rfl

theorem contextReply_empty {s : State} {c : CtxSlot} (h : (ctxOf s c).state = .empty) :
    contextReply s c = blockOf [⟨0, 16, 4#16⟩] := by rw [contextReply_eq, if_pos h]

theorem contextReply_loaded {s : State} {c : CtxSlot} (h : (ctxOf s c).state ≠ .empty) :
    contextReply s c = blockOf ((ringOf s c).elim [] ringFields ++ contextFields s c) := by rw [contextReply_eq, if_neg h]

theorem laid_contextFields (g : Option Machine.Ring) (s : State) (c : CtxSlot) : laid (g.elim [] ringFields ++ contextFields s c) = true := by
  cases g <;> rfl

section
variable {s : State} {c : CtxSlot} {off width : Nat} {value : BitVec width}

theorem contextReply_field (h : (ctxOf s c).state ≠ .empty) (hoff : off < 48)
    (hf : (contextFields s c).find? (·.off = off) = some ⟨off, width, value⟩) : getField off width (contextReply s c) = value := by
  have hring : ((ringOf s c).elim [] ringFields).find? (·.off = off) = none := by
    rw [List.find?_eq_none]
    cases ringOf s c with
    | none => simp
    | some g =>
      simp only [Option.elim_some, ringFields, numField, List.forall_mem_cons, decide_eq_true_eq]
      refine ⟨?_, ?_, ?_, ?_, ?_, ?_, ?_, ?_, ?_, fun _ hmem => absurd hmem List.not_mem_nil⟩ <;> omega
  rw [contextReply_loaded h]
  exact getField_blockOf (laid_contextFields _ s c) (by rw [List.find?_append, hring, hf, Option.none_or])

theorem contextReply_ringField {g : Machine.Ring} (h : (ctxOf s c).state ≠ .empty) (hg : ringOf s c = some g)
    (hf : (ringFields g).find? (·.off = off) = some ⟨off, width, value⟩) : getField off width (contextReply s c) = value := by
  rw [contextReply_loaded h, hg]
  exact getField_blockOf (laid_contextFields (some g) s c) (by rw [Option.elim_some, List.find?_append, hf, Option.some_or])

theorem contextReply_gaps (s : State) (c : CtxSlot) : ∀ k ∈ [2, 3, 14, 15, 47, 74, 75], getField k 8 (contextReply s c) = 0#8 := by
  rw [contextReply_eq]
  split
  · exact getField_blockOf_gaps rfl
  · cases ringOf s c <;> exact getField_blockOf_gaps rfl

theorem zeroFrom_contextReply (s : State) (c : CtxSlot) : ZeroFrom 80 (contextReply s c) := by
  rw [contextReply_eq]
  split
  · exact zeroFrom_blockOf rfl
  · cases ringOf s c <;> exact zeroFrom_blockOf rfl

theorem zeroFrom_contextReply_empty (h : (ctxOf s c).state = .empty) : ZeroFrom 4 (contextReply s c) := by
  rw [contextReply_empty h]
  exact zeroFrom_blockOf rfl

theorem zeroFrom_contextReply_noRing (h : (ctxOf s c).state ≠ .empty) (hg : ringOf s c = none) : ZeroFrom 48 (contextReply s c) := by
  rw [contextReply_loaded h, hg]
  exact zeroFrom_blockOf rfl

theorem contextReply_code (s : State) (c : CtxSlot) : getField 0 16 (contextReply s c) = 4#16 := by
  by_cases h : (ctxOf s c).state = .empty
  · rw [contextReply_empty h]
    exact getField_blockOf rfl rfl
  · exact contextReply_field h (by omega) rfl

theorem keyStateNumber_noSlot (h : slotOf s c = none) : keyStateNumber s c = if c ∈ s.keys.waiting then 1 else 0 := by
  simp [keyStateNumber, h]

theorem keyStateNumber_slot {k : KeyNo} {y : KeySlot} (h : slotOf s c = some k) (hy : s.keys.slots.get k = some y) :
    keyStateNumber s c = if y.phase = .setup then 2 else 3 := by
  obtain ⟨ctx, phase, pinned, users⟩ := y
  cases phase <;> simp [keyStateNumber, h, hy]

end

/-! ### The enabled regions (R76, R95) -/

theorem enabledRegions_eq (s : State) : enabledRegions s = (List.finRange 128).filterMap (regionOf s) := by
  have htable : s.regions.toList = (List.finRange 128).map (regionOf s) :=
    List.ext_getElem (by simp) fun i hi _ => by simp [regionOf, Vector.get_eq_getElem]
  rw [enabledRegions, htable, List.filterMap_map]
  rfl

theorem length_filter_enabledRegions (s : State) (P : Region → Bool) :
    ((enabledRegions s).filter P).length = ((List.finRange 128).filter fun f => (regionOf s f).any P).length := by
  rw [← List.countP_eq_length_filter, enabledRegions_eq, List.countP_filterMap, List.countP_eq_length_filter]
  congr 1
  exact List.filter_congr fun f _ => by cases regionOf s f <;> rfl

theorem length_enabledRegions (s : State) :
    (enabledRegions s).length = ((List.finRange 128).filter fun f => (regionOf s f).isSome).length := by
  rw [enabledRegions_eq, List.length_filterMap_eq_countP, List.countP_eq_length_filter]

/-- READ_CONTEXT: each field of its reply where it stands (R95, 12.3; log 16). -/
theorem contextReply_fields (s : State) (c : CtxSlot) :
    let x := ctxOf s c
    let b := contextReply s c
    let byte := fun off => getField off 8 b
    let nat := fun off n => BitVec.ofNat 8 n = byte off
    let word := fun off n => BitVec.ofNat 32 n = getField off 32 b
    getField 0 16 b = 4#16 ∧ (∀ off ∈ [2, 3, 14, 15, 47, 74, 75], byte off = 0#8) ∧ (∀ off, 80 ≤ off → off < 512 → byte off = 0#8) ∧
    (x.state = .empty → ∀ off, 4 ≤ off → off < 80 → byte off = 0#8) ∧
    (x.state ≠ .empty →
      nat 4 c ∧
      (∀ j : Nat, [CtxState.empty, .loading, .recording, .sealing, .sealed, .expired, .closing][j]? = some x.state → nat 5 j) ∧
      (∀ j : Nat, [CtxClass.keep, .timed, .shift][j]? = some x.cls → nat 6 j) ∧ nat 7 (if x.opening = .record then 0 else 1) ∧
      getField 8 48 b = x.serial ∧ word 16 (x.notAfter.getD 0) ∧ word 20 x.window ∧ word 24 (x.t0.getD 0) ∧
      word 28 (x.expiry.getD 0) ∧ (byte 32).getLsbD 0 = x.t0.isSome ∧ (byte 32).getLsbD 1 = x.expiry.isSome ∧
      (byte 32).getLsbD 2 = x.pin ∧ (byte 32).getLsbD 3 = (ringOf s c).isSome ∧ (byte 32).toNat < 16 ∧
      (slotOf s c = none → nat 33 (if c ∈ s.keys.waiting then 1 else 0)) ∧
      (∀ k y, slotOf s c = some k → s.keys.slots.get k = some y → nat 33 (if y.phase = .setup then 2 else 3)) ∧
      nat 34 (match x.receipt with
        | .absent => 0
        | .pending => 1
        | .ready _ => 2) ∧
      nat 35 x.inFlight ∧ word 36 x.withheld ∧ getField 40 48 b = BitVec.ofNat 48 (if x.cls = .shift then 0 else x.frontier) ∧
      nat 46 ((List.finRange 128).filter fun f => (regionOf s f).any fun r => r.ctx = c).length ∧
      (ringOf s c = none → ∀ off, 48 ≤ off → off < 80 → byte off = 0#8) ∧
      ∀ g, ringOf s c = some g → word 48 g.length ∧ word 52 g.issue ∧ word 56 g.issueLap ∧ word 60 g.commit ∧ word 64 g.commitLap ∧
        word 68 g.depth ∧ nat 72 g.spans.length ∧ nat 73 (g.spans.filter fun y => y.status = .forwarded).length ∧
        word 76 (g.spans.map (·.count)).sum) := by
  refine ⟨contextReply_code s c, contextReply_gaps s c, fun off hoff _ => (zeroFrom_contextReply s c).getField hoff,
    fun h off hoff _ => (zeroFrom_contextReply_empty h).getField hoff, fun h => ?_⟩
  have hfield := fun {off width : Nat} {v : BitVec width} => contextReply_field (off := off) (value := v) h
  have hflags := contextFlags_bits (ctxOf s c) (ringOf s c).isSome
  rw [← hfield (off := 32) (by omega) rfl] at hflags
  obtain ⟨ht0, hexpiry, hpin, hring, hsmall⟩ := hflags
  refine ⟨(hfield (by omega) rfl).symm, fun j hj => ?_, fun j hj => ?_, ?_, hfield (by omega) rfl, (hfield (by omega) rfl).symm,
    (hfield (by omega) rfl).symm, (hfield (by omega) rfl).symm, (hfield (by omega) rfl).symm, ht0, hexpiry, hpin, hring, hsmall,
    fun hk => ?_, fun k y hk hy => ?_, ?_, (hfield (by omega) rfl).symm, (hfield (by omega) rfl).symm, hfield (by omega) rfl, ?_,
    fun hg off hoff _ => (zeroFrom_contextReply_noRing h hg).getField hoff, fun g hg => ?_⟩
  · rw [← ctxStateNumber_of_getElem? hj]
    exact (hfield (by omega) rfl).symm
  · rw [← classNumber_of_getElem? hj]
    exact (hfield (by omega) rfl).symm
  · refine Eq.trans ?_ (hfield (by omega) rfl).symm
    cases (ctxOf s c).opening <;> rfl
  · rw [← keyStateNumber_noSlot hk]
    exact (hfield (by omega) rfl).symm
  · rw [← keyStateNumber_slot hk hy]
    exact (hfield (by omega) rfl).symm
  · refine Eq.trans ?_ (hfield (by omega) rfl).symm
    cases (ctxOf s c).receipt <;> rfl
  · rw [← length_filter_enabledRegions]
    exact (hfield (by omega) rfl).symm
  · have hfield := fun {off width : Nat} {v : BitVec width} => contextReply_ringField (off := off) (value := v) h hg
    exact ⟨(hfield rfl).symm, (hfield rfl).symm, (hfield rfl).symm, (hfield rfl).symm, (hfield rfl).symm, (hfield rfl).symm,
      (hfield rfl).symm, (hfield rfl).symm, (hfield rfl).symm⟩

/-! ### READ_RECEIPT (R97) -/

/-- The fields of a READ_RECEIPT reply that its state decides (R97). -/
def receiptTimes (x : Context) : List BlockField :=
  match x.receipt with
  | .absent => []
  | .pending => [numField 16 32 (x.t0.getD 0), numField 20 32 (x.expiry.getD 0)]
  | .ready v => [numField 16 32 (x.t0.getD 0), numField 20 32 (x.expiry.getD 0), ⟨24, 128, v⟩]

/-- The fields of a READ_RECEIPT reply (12.3; log 36). -/
def receiptFields (c : CtxSlot) (x : Context) : List BlockField :=
  receiptTimes x ++ [numField 4 8 c, numField 5 8 (receiptNumber x.receipt), ⟨8, 48, x.serial⟩, ⟨0, 16, 5#16⟩]

theorem receiptReply_eq (s : State) (c : CtxSlot) : receiptReply s c = blockOf (receiptFields c (ctxOf s c)) := by
  unfold receiptReply receiptFields receiptTimes
  dsimp only
  cases (ctxOf s c).receipt <;> rfl

/-- What a READ_RECEIPT reply holds in every state of the receipt. -/
theorem receiptReply_head (s : State) (c : CtxSlot) :
    let b := receiptReply s c
    getField 0 16 b = 5#16 ∧ getField 4 8 b = BitVec.ofNat 8 c ∧ getField 8 48 b = (ctxOf s c).serial ∧
    (∀ off ∈ [2, 3, 6, 7, 14, 15], getField off 8 b = 0#8) ∧ ∀ off, 40 ≤ off → off < 512 → getField off 8 b = 0#8 := by
  dsimp only
  rw [receiptReply_eq, receiptFields, receiptTimes]
  cases (ctxOf s c).receipt <;>
  exact ⟨getField_blockOf rfl rfl, getField_blockOf rfl rfl, getField_blockOf rfl rfl, getField_blockOf_gaps rfl,
    fun off hoff _ => (zeroFrom_blockOf (off := 40) rfl).getField hoff⟩

/-- What a READ_RECEIPT reply holds of each state of the receipt (R97). -/
theorem receiptReply_state (s : State) (c : CtxSlot) :
    let x := ctxOf s c
    let b := receiptReply s c
    let times := fun t0 e : Nat => getField 16 32 b = BitVec.ofNat 32 t0 ∧ getField 20 32 b = BitVec.ofNat 32 e
    (x.receipt = .absent → getField 5 8 b = 0#8 ∧ times 0 0 ∧ getField 24 128 b = 0) ∧
    (x.receipt = .pending → getField 5 8 b = 1#8 ∧ times (x.t0.getD 0) (x.expiry.getD 0) ∧ getField 24 128 b = 0) ∧
    ∀ v, x.receipt = .ready v → getField 5 8 b = 2#8 ∧ times (x.t0.getD 0) (x.expiry.getD 0) ∧ getField 24 128 b = v := by
  dsimp only
  rw [receiptReply_eq, receiptFields, receiptTimes]
  refine ⟨fun h => ?_, fun h => ?_, fun v h => ?_⟩
  · rw [h]
    exact ⟨getField_blockOf rfl rfl, ⟨getField_blockOf_apart (by omega) rfl, getField_blockOf_apart (by omega) rfl⟩,
      getField_blockOf_apart (by omega) rfl⟩
  · rw [h]
    exact ⟨getField_blockOf rfl rfl, ⟨getField_blockOf rfl rfl, getField_blockOf rfl rfl⟩, getField_blockOf_apart (by omega) rfl⟩
  · rw [h]
    exact ⟨getField_blockOf rfl rfl, ⟨getField_blockOf rfl rfl, getField_blockOf rfl rfl⟩, getField_blockOf rfl rfl⟩

/-! ### READ_REGIONS (R76) -/

theorem length_regionWindow (e : EntryNo) : (regionWindow e).length = min 16 (128 - e.val) := by
  simp [regionWindow]

theorem getElem?_regionWindow {e f : EntryNo} {j : Nat} (hj : j < min 16 (128 - e.val)) (hf : f.val = e.val + j) :
    (regionWindow e)[j]? = some f := by
  rw [regionWindow, List.getElem?_take_of_lt (by omega), List.getElem?_drop, List.getElem?_eq_getElem (by simp; omega)]
  simp [← hf]

/-- The writer of the record of an entry as a state holds it. -/
def putEntryRecord (s : State) (off : Nat) (e : EntryNo) (b : Sector) : Sector :=
  putRegion off e.val (regionOf s e) b

theorem recordWriter_putEntryRecord (s : State) : RecordWriter 24 (putEntryRecord s) where
  before off e b f w hf hw := by
    unfold putEntryRecord
    cases regionOf s e <;> simp (disch := omega) only [putRegion, putNat_eq, getField_putField_apart]
  past off e b hb := by
    have hwide := hb.mono (Nat.le_add_right off 24)
    unfold putEntryRecord
    cases regionOf s e with
    | none => exact hwide.putField (f := off) (BitVec.ofNat 8 e) (by omega)
    | some r =>
      have hstart := hwide.putField (f := off + 17) (BitVec.ofNat 40 r.logicalStart) (by omega)
      have hctx := hstart.putField (f := off + 16) (BitVec.ofNat 8 r.ctx) (by omega)
      have hlimit := hctx.putField (f := off + 10) (BitVec.ofNat 48 r.limit) (by omega)
      have hbase := hlimit.putField (f := off + 4) (BitVec.ofNat 48 r.base) (by omega)
      have henabled := hbase.putField (f := off + 1) (BitVec.ofNat 8 1) (by omega)
      exact henabled.putField (f := off) (BitVec.ofNat 8 e) (by omega)

section
variable {off entry : Nat} {b : Sector} (hb : ZeroFrom off b) (ho : off + 24 ≤ 512)
include hb ho

/-- The record of a free entry holds its number alone (R76). -/
theorem getField_putRegion_free :
    getField off 8 (putRegion off entry none b) = BitVec.ofNat 8 entry ∧
      ∀ k, 1 ≤ k → k < 24 → getField (off + k) 8 (putRegion off entry none b) = 0#8 := by
  refine ⟨getField_putField_same _ _ _ (by omega) (hb.getField le_rfl), fun k hk hlt => ?_⟩
  exact (getField_putField_apart _ _ _ _ (by omega) (by omega)).trans (hb.getField (by omega))

/-- The fields of an enabled entry's record read back, and its other bytes are 0 (R76, R197). -/
theorem getField_putRegion_enabled (r : Region) :
    let b' := putRegion off entry (some r) b
    getField off 8 b' = BitVec.ofNat 8 entry ∧ (∀ k ∈ [2, 3, 22, 23], getField (off + k) 8 b' = 0#8) ∧
      getField (off + 1) 8 b' = 1#8 ∧ getField (off + 4) 48 b' = BitVec.ofNat 48 r.base ∧
      getField (off + 10) 48 b' = BitVec.ofNat 48 r.limit ∧ getField (off + 16) 8 b' = BitVec.ofNat 8 r.ctx ∧
      getField (off + 17) 40 b' = BitVec.ofNat 40 r.logicalStart := by
  have hzero : ∀ f w, off ≤ f → getField f w b = 0 := fun f w hf => hb.getField hf
  simp (disch := first | omega | (simp (disch := omega) only [getField_putField_apart, hzero]; done)) only
    [putRegion, putNat_eq, getField_putField_same, getField_putField_apart, hzero, List.forall_mem_cons, List.not_mem_nil,
      IsEmpty.forall_iff, implies_true, BitVec.ofNat_eq_ofNat, and_self]

end

/-- The fields of a READ_REGIONS reply ahead of its records (12.3). -/
def regionsHead (s : State) (e : EntryNo) : List BlockField :=
  [numField 4 8 (regionWindow e).length, numField 6 16 (enabledRegions s).length, ⟨0, 16, 9#16⟩]

theorem regionsReply_eq (s : State) (e : EntryNo) :
    regionsReply s e = putRecords 24 (putEntryRecord s) 8 (regionWindow e) (blockOf (regionsHead s e)) := rfl

theorem zeroFrom_regionsHead (s : State) (e : EntryNo) : ZeroFrom 8 (blockOf (regionsHead s e)) := zeroFrom_blockOf rfl

theorem regionsReply_head {s : State} {e : EntryNo} {off width : Nat} (h : 8 * off + width ≤ 64) :
    getField off width (regionsReply s e) = getField off width (blockOf (regionsHead s e)) :=
  (recordWriter_putEntryRecord s).putRecords_before _ _ (by omega) (by omega)

/-- The record of an entry in a READ_REGIONS reply reads as it was written, on a block with nothing behind. -/
theorem regionsReply_record (s : State) {e f : EntryNo} {j : Nat} (hj : j < min 16 (128 - e.val)) (hf : f.val = e.val + j) :
    ∃ b, ZeroFrom (8 + 24 * j) b ∧ ∀ k w, 8 * k + w ≤ 192 →
      getField (8 + 24 * j + k) w (regionsReply s e) = getField (8 + 24 * j + k) w (putRegion (8 + 24 * j) f.val (regionOf s f) b) := by
  obtain ⟨b, hb, hread⟩ :=
    (recordWriter_putEntryRecord s).putRecords_record (zeroFrom_regionsHead s e) (getElem?_regionWindow hj hf)
  exact ⟨b, hb, fun k w hw => hread _ _ (by omega) (by omega)⟩

/-- READ_REGIONS: each field of its reply where it stands (R76, 12.3; log 35). -/
theorem regionsReply_fields (s : State) (e : EntryNo) :
    let b := regionsReply s e
    let n := min 16 (128 - e.val)
    getField 0 16 b = 9#16 ∧ getField 4 8 b = BitVec.ofNat 8 n ∧
    getField 6 16 b = BitVec.ofNat 16 ((List.finRange 128).filter fun f => (regionOf s f).isSome).length ∧
    (∀ off ∈ [2, 3, 5], getField off 8 b = 0#8) ∧ (∀ off, 8 + 24 * n ≤ off → off < 512 → getField off 8 b = 0#8) ∧
    ∀ (j : Nat) (f : EntryNo), j < n → f.val = e.val + j →
      let off := 8 + 24 * j
      getField off 8 b = BitVec.ofNat 8 f ∧ (∀ k ∈ [2, 3, 22, 23], getField (off + k) 8 b = 0#8) ∧
      (regionOf s f = none → ∀ k, 1 ≤ k → k < 24 → getField (off + k) 8 b = 0#8) ∧
      ∀ r, regionOf s f = some r → getField (off + 1) 8 b = 1#8 ∧ getField (off + 4) 48 b = BitVec.ofNat 48 r.base ∧
        getField (off + 10) 48 b = BitVec.ofNat 48 r.limit ∧ getField (off + 16) 8 b = BitVec.ofNat 8 r.ctx ∧
        getField (off + 17) 40 b = BitVec.ofNat 40 r.logicalStart := by
  dsimp only
  rw [← length_enabledRegions, ← length_regionWindow]
  refine ⟨(regionsReply_head (by omega)).trans (getField_blockOf rfl rfl), (regionsReply_head (by omega)).trans (getField_blockOf rfl rfl),
    (regionsReply_head (by omega)).trans (getField_blockOf rfl rfl), fun off hoff => ?_, fun off hoff _ => ?_, fun j f hj hf => ?_⟩
  · have hsmall : off ≤ 5 := by
      simp only [List.mem_cons, List.not_mem_nil, or_false] at hoff
      omega
    exact (regionsReply_head (by omega)).trans (getField_blockOf_gaps rfl off hoff)
  · exact ((recordWriter_putEntryRecord s).putRecords_past _ (zeroFrom_regionsHead s e)).getField hoff
  · rw [length_regionWindow] at hj
    obtain ⟨b, hb, hread⟩ := regionsReply_record s hj hf
    have hnumber := hread 0 8 (by omega)
    cases hr : regionOf s f with
    | none =>
      rw [hr] at hread hnumber
      obtain ⟨hentry, hrest⟩ := getField_putRegion_free (entry := f.val) hb (by omega)
      have hfree : ∀ k, 1 ≤ k → k < 24 → getField (8 + 24 * j + k) 8 (regionsReply s e) = 0#8 := fun k hk hlt =>
        (hread k 8 (by omega)).trans (hrest k hk hlt)
      refine ⟨hnumber.trans hentry, fun k hk => ?_, fun _ => hfree, nofun⟩
      simp only [List.mem_cons, List.not_mem_nil, or_false] at hk
      exact hfree k (by omega) (by omega)
    | some r =>
      rw [hr] at hread hnumber
      obtain ⟨hentry, hgaps, henabled, hbase, hlimit, hctx, hstart⟩ := getField_putRegion_enabled (entry := f.val) hb (by omega) r
      refine ⟨hnumber.trans hentry, fun k hk => (hread k 8 ?_).trans (hgaps k hk), nofun, fun q hq => ?_⟩
      · simp only [List.mem_cons, List.not_mem_nil, or_false] at hk
        omega
      · obtain rfl := Option.some.inj hq
        exact ⟨(hread 1 8 (by omega)).trans henabled, (hread 4 48 (by omega)).trans hbase,
          (hread 10 48 (by omega)).trans hlimit, (hread 16 8 (by omega)).trans hctx,
          (hread 17 40 (by omega)).trans hstart⟩

/-- Settles O40: each reply is the block of its fields, no two on one bit, so each reads where it is written and the other bytes are 0. -/
theorem replyFields : Obligations.ReplyFields := by
  refine ⟨fun s hsettings hclock hrecords => statusReply_fields hsettings hclock hrecords, fun s c e =>
    ⟨contextReply_fields s c, ?_, regionsReply_fields s e⟩⟩
  obtain ⟨hcode, hslot, hserial, hgaps, hbeyond⟩ := receiptReply_head s c
  exact ⟨hcode, hslot, hserial, hgaps, hbeyond, receiptReply_state s c⟩

end Sys2Proof.RegionTable
end

