-- ==== Sys2Proof/Proofs/ContextRequests.lean ====
section
namespace Sys2Proof.RecordingContexts
open Sys2Proof Sys2Proof.Machine Sys2Proof.LinkPassage Sys2Proof.CommandTracking

/-! ### LOAD_CONTEXT (R82, R83) -/

/-- The class that a class byte of 0 to 2 names (12.2). -/
def namedClass (b : Byte) : CtxClass :=
  if b = 0#8 then .keep else if b = 1#8 then .timed else .shift

/-- The opening that an opening byte of 0 or 1 names (12.2). -/
def namedOpening (b : Byte) : Opening :=
  if b = 0#8 then .record else .playback

theorem classOperand_eq (b : Byte) : classOperand b = if b.toNat ≤ 2 then some (namedClass b) else none := by
  have hcodes : b.toNat ≤ 2 ↔ b = 0#8 ∨ b = 1#8 ∨ b = 2#8 := by
    simp only [← BitVec.toNat_inj, BitVec.toNat_ofNat]
    omega
  unfold classOperand namedClass
  grind

theorem openingOperand_eq (b : Byte) : openingOperand b = if b.toNat ≤ 1 then some (namedOpening b) else none := by
  have hcodes : b.toNat ≤ 1 ↔ b = 0#8 ∨ b = 1#8 := by
    simp only [← BitVec.toNat_inj, BitVec.toNat_ofNat]
    omega
  unfold openingOperand namedOpening
  grind

theorem namedClass_timed {b : Byte} : namedClass b = .timed ↔ b = 1#8 := by
  unfold namedClass
  grind

theorem namedClass_shift {b : Byte} (h : b.toNat ≤ 2) : namedClass b = .shift ↔ b = 2#8 := by
  unfold namedClass
  simp only [← BitVec.toNat_inj, BitVec.toNat_ofNat]
  grind

theorem namedOpening_record {b : Byte} : namedOpening b = .record ↔ b = 0#8 := by
  unfold namedOpening
  grind

/-- A blob's rights fields agree with its class where it is TIMED exactly if one of them is given (R82 step 6). -/
theorem rightsAgree_iff (b : Blob) : rightsAgree (namedClass b.cls) b = true ↔
    if b.cls = 1#8 then b.notAfter ≠ 0#32 ∨ b.window ≠ 0#32 else b.notAfter = 0#32 ∧ b.window = 0#32 := by
  by_cases h : b.cls = 1#8
  · rw [if_pos h, namedClass_timed.2 h]
    simp [rightsAgree]
  · have hcls : namedClass b.cls ≠ .timed := mt namedClass_timed.1 h
    rw [if_neg h]
    cases hc : namedClass b.cls <;> simp_all [rightsAgree]

/-- The fields of a blob that R82 checks last are in their code lists and agree with each other (R82 steps 5 to 7). -/
def Proper (b : Blob) : Prop :=
  b.cls.toNat ≤ 2 ∧ b.opening.toNat ≤ 1 ∧
    (if b.cls = 1#8 then b.notAfter ≠ 0#32 ∨ b.window ≠ 0#32 else b.notAfter = 0#32 ∧ b.window = 0#32) ∧
    (b.cls = 2#8 → b.opening = 0#8)

section
variable {slot : Byte} {b : Blob} {c : CtxSlot} {s : State}

theorem serialTaken_iff {serial : BitVec 48} :
    serialTaken s c serial = true ↔ ∃ d, d ≠ c ∧ (ctxOf s d).state ≠ .empty ∧ (ctxOf s d).serial = serial := by
  simp [serialTaken, and_assoc]

theorem loadContextRequest_noSlot (h : slotOperand slot = none) : loadContextRequest slot b s = refuses .outOfRange s := by
  simp only [loadContextRequest, h]

theorem loadContextRequest_taken (hc : slotOperand slot = some c) (h : (ctxOf s c).state ≠ .empty) :
    loadContextRequest slot b s = refuses .slotTaken s := by
  simp only [loadContextRequest, hc, if_pos h]

theorem loadContextRequest_duplicate (hc : slotOperand slot = some c) (he : (ctxOf s c).state = .empty)
    (h : serialTaken s c b.serial = true) : loadContextRequest slot b s = refuses .duplicate s := by
  simp only [loadContextRequest, hc, if_neg (not_not_intro he), if_pos h]

theorem loadContextRequest_lockdown (hc : slotOperand slot = some c) (he : (ctxOf s c).state = .empty)
    (ht : ¬serialTaken s c b.serial = true) (h : s.faults.lockdown = true) : loadContextRequest slot b s = refuses .lockdown s := by
  simp only [loadContextRequest, hc, if_neg (not_not_intro he), if_neg ht, if_pos h]

/-- The slot LOADING with the blob's fields, and the UNWRAP job at the tail of its queue (R83). -/
def loadedWith (c : CtxSlot) (b : Blob) (s : State) : State :=
  { setCtx c (loadingContext b (namedClass b.cls) (namedOpening b.opening)) s with
    eng := { s.eng with others := s.eng.others ++ [.unwrap c b] } }

/-- With its checks of the slot, of the serials and of lockdown passed, LOAD_CONTEXT is decided by the blob alone (R82 steps 5 to 7). -/
theorem loadContextRequest_checked [Decidable (Proper b)] (hc : slotOperand slot = some c) (he : (ctxOf s c).state = .empty)
    (ht : ¬serialTaken s c b.serial = true) (hl : ¬s.faults.lockdown = true) :
    loadContextRequest slot b s = if Proper b then accepts (loadedWith c b s) else refuses .malformed s := by
  simp only [loadContextRequest, hc, if_neg (not_not_intro he), if_neg ht, if_neg hl, classOperand_eq, openingOperand_eq]
  by_cases hcls : b.cls.toNat ≤ 2
  · by_cases hopening : b.opening.toNat ≤ 1
    · simp only [if_pos hcls, if_pos hopening]
      have hproper : Proper b ↔ rightsAgree (namedClass b.cls) b = true ∧
          ¬(namedClass b.cls = .shift ∧ namedOpening b.opening ≠ .record) := by
        rw [rightsAgree_iff, namedClass_shift hcls, not_and_not_right, namedOpening_record]
        simp only [Proper, hcls, hopening, true_and]
      by_cases hrights : rightsAgree (namedClass b.cls) b = true
      · by_cases hshift : namedClass b.cls = .shift ∧ namedOpening b.opening ≠ .record
        · rw [if_neg (by simp [hrights]), if_pos hshift, if_neg fun h => (hproper.1 h).2 hshift]
        · rw [if_neg (by simp [hrights]), if_neg hshift, if_pos (hproper.2 ⟨hrights, hshift⟩)]
          rfl
      · rw [if_pos (by simpa using hrights), if_neg fun h => hrights (hproper.1 h).1]
    · simp only [if_pos hcls, if_neg hopening]
      exact (if_neg fun h => hopening h.2.1).symm
  · simp only [if_neg hcls]
    exact (if_neg fun h => hcls h.1).symm

end

/-- Settles O36: the checks of R82 in their order, the last of them those of the blob's own fields. -/
theorem loadContextQueuesUnwrap : Obligations.LoadContextQueuesUnwrap := by
  classical
  intro slot b s ha
  have hrefused : ∀ code, loadContextRequest slot b (closedBurst s) = refuses code (closedBurst s) →
      exec (.loadContext slot b) s = .next (answered (errorFrame code) s) := fun code h =>
    exec_refused (r := .loadContext slot b) rfl ha h
  refine ⟨fun h => hrefused _ (loadContextRequest_noSlot (slotOperand_of_ge h)), fun c hval => ?_⟩
  have hc := slotOperand_of_val hval
  have htaken := serialTaken_iff (s := closedBurst s) (c := c) (serial := b.serial)
  have hchecked := fun he ht (hl : s.faults.lockdown = false) =>
    loadContextRequest_checked (s := closedBurst s) hc he (mt htaken.1 ht) (Bool.eq_false_iff.1 hl)
  refine ⟨fun h => hrefused _ (loadContextRequest_taken hc h), fun he h => hrefused _ (loadContextRequest_duplicate hc he (htaken.2 h)),
    fun he ht h => hrefused _ (loadContextRequest_lockdown hc he (mt htaken.1 ht) h), fun he ht hl h => hrefused _ ?_,
    fun he ht hl h => exec_accepted (r := .loadContext slot b) rfl ha ?_⟩
  · exact (hchecked he ht hl).trans (if_neg h)
  · exact (hchecked he ht hl).trans (if_pos h)

/-! ### SEAL_CONTEXT (R88) -/

section
variable {slot : Byte} {c : CtxSlot} {s : State}

theorem sealContextRequest_noSlot (h : slotOperand slot = none) : sealContextRequest slot s = refuses .outOfRange s := by
  simp only [sealContextRequest, h]

theorem sealContextRequest_wrongState (hc : slotOperand slot = some c) (h : (ctxOf s c).state ≠ .recording) :
    sealContextRequest slot s = refuses .wrongState s := by
  simp only [sealContextRequest, hc, if_pos h]

theorem sealContextRequest_idle (hc : slotOperand slot = some c) (hr : (ctxOf s c).state = .recording)
    (h : (ctxOf s c).inFlight = 0) : sealContextRequest slot s = accepts (completeSeal c s) := by
  simp only [sealContextRequest, hc, if_neg (not_not_intro hr), if_pos h]

theorem sealContextRequest_busy (hc : slotOperand slot = some c) (hr : (ctxOf s c).state = .recording)
    (h : (ctxOf s c).inFlight ≠ 0) :
    sealContextRequest slot s = accepts (updateCtx c (fun x => { x with state := .sealing }) s) := by
  simp only [sealContextRequest, hc, if_neg (not_not_intro hr), if_neg h]

end

/-- Settles O37: each answer of the request, the notice's value being that of `sealedValue_eq`. -/
theorem sealContextSeals : Obligations.SealContextSeals := by
  intro slot s ha
  refine ⟨fun h => exec_refused (r := .sealContext slot) rfl ha (sealContextRequest_noSlot (slotOperand_of_ge h)), fun c hval => ?_⟩
  have hc := slotOperand_of_val hval
  refine ⟨fun h => exec_refused (r := .sealContext slot) rfl ha (sealContextRequest_wrongState (s := closedBurst s) hc h),
    fun hr h => exec_accepted (r := .sealContext slot) rfl ha ((sealContextRequest_idle (s := closedBurst s) hc hr h).trans ?_),
    fun hr h => exec_accepted (r := .sealContext slot) rfl ha (sealContextRequest_busy (s := closedBurst s) hc hr h)⟩
  rw [completeSeal, sealedValue_eq]
  rfl

/-! ### CLEAR_UNIT (R98, R99) -/

section
variable {s : State}

theorem tagsInUse_isEmpty : (tagsInUse s).isEmpty = true ↔ ∀ k : Tag, entryOf s (.tag k) = none := by
  simp [tagsInUse, entryOf]

theorem any_runsOther : s.eng.running.any runsOther = false ↔ ∀ j, s.eng.running ≠ some (.other j) := by
  cases s.eng.running with
  | none => simp
  | some r => cases r <;> simp [runsOther]

theorem unitIdle_iff : unitIdle s = true ↔
    (∀ k : Tag, entryOf s (.tag k) = none) ∧ s.eng.others = [] ∧ ∀ j, s.eng.running ≠ some (.other j) := by
  rw [unitIdle, Bool.and_eq_true, Bool.and_eq_true, Bool.not_eq_true', tagsInUse_isEmpty, any_runsOther, List.isEmpty_iff, and_assoc]

/-- What CLEAR_UNIT empties: the tables, the key slots and their waiting list, and the SETUP jobs (R99, R140). -/
theorem clearUnit_empties (s : State) :
    (∀ c, ctxOf (clearUnit s) c = Context.blank) ∧ (∀ e, regionOf (clearUnit s) e = none) ∧ (∀ c, ringOf (clearUnit s) c = none) ∧
      (∀ k, (clearUnit s).keys.slots.get k = none) ∧ (clearUnit s).keys.waiting = [] ∧ (clearUnit s).eng.setups = [] :=
  ⟨ctxOf_reset, regionOf_reset, ringOf_reset, keySlot_reset, rfl, rfl⟩

theorem clearUnit_discards {j : SetupJob} {d : Bool} (h : s.eng.running = some (.setup j d)) :
    (clearUnit s).eng.running = some (.setup j true) := by
  rw [clearUnit, h]
  rfl

end

/-- Settles O43: the unit is idle exactly where no queued entry is in use and no UNWRAP or CHECK job is in hand. -/
theorem clearUnitEmptiesTables : Obligations.ClearUnitEmptiesTables := by
  intro s ha
  have hidle := unitIdle_iff (s := closedBurst s)
  refine ⟨fun h => exec_refused (r := .clearUnit) rfl ha (if_neg (mt hidle.1 h)), fun h =>
    ⟨answered okFrame (clearUnit s), exec_accepted (r := .clearUnit) rfl ha (if_pos (hidle.2 h)), ?_⟩⟩
  obtain ⟨hcontexts, hregions, hrings, hslots, hwaiting, hsetups⟩ := clearUnit_empties s
  exact ⟨hcontexts, hregions, hrings, hslots, hwaiting, rfl, hsetups, rfl, fun j d hj => clearUnit_discards hj, rfl, rfl, rfl, rfl, rfl,
    rfl, rfl⟩

end Sys2Proof.RecordingContexts
end

