-- ==== Sys2Proof/Proofs/ContextCloses.lean ====
section
namespace Sys2Proof.RecordingContexts
open Sys2Proof Sys2Proof.Machine Sys2Proof.LinkPassage Sys2Proof.CommandTracking Sys2Proof.SectorClassification

/-! ### The key slot of a closed context (R94, R127, R130) -/

/-- No two key slots belong to one context (R127). -/
def SlotsApart (s : State) : Prop :=
  ∀ j k x y, j ≠ k → s.keys.slots.get j = some x → s.keys.slots.get k = some y → x.ctx ≠ y.ctx

section
variable {c d : CtxSlot} {k j : KeyNo} {x y : KeySlot} {s : State}

/-- Slot k, if it is given away, goes to the head of the key-wait list; no other slot changes (R130). -/
theorem serveSlot_slots (h : (serveSlot k s).keys.slots.get j = some y) :
    s.keys.slots.get j = some y ∨ y.ctx ∈ s.keys.waiting := by
  unfold serveSlot at h
  split at h
  next => exact .inl h
  next a rest hw =>
    rw [allocateSlot, get_set] at h
    split at h
    next =>
      obtain rfl := Option.some.inj h
      exact .inr (hw ▸ List.mem_cons_self)
    next => exact .inl h

theorem serveSlot_waiting (k : KeyNo) (s : State) : (serveSlot k s).keys.waiting ⊆ s.keys.waiting := by
  unfold serveSlot
  split
  next => exact fun _ h => h
  next a rest hw => exact hw ▸ List.subset_cons_self a rest

theorem serveSlot_others (k : KeyNo) (s : State) : (serveSlot k s).eng.others = s.eng.others := by
  unfold serveSlot
  split <;> rfl

/-- A slot freed is FREE or that of a context that waited (R94, R130). -/
theorem freeKeySlot_slots (h : (freeKeySlot k s).keys.slots.get j = some y) :
    (j ≠ k ∧ s.keys.slots.get j = some y) ∨ y.ctx ∈ s.keys.waiting := by
  refine (serveSlot_slots h).imp_left fun h => ?_
  rw [get_set] at h
  split at h
  next => contradiction
  next hne => exact ⟨Ne.symm hne, h⟩

theorem not_mem_leaveWaiting (c : CtxSlot) (s : State) : c ∉ (leaveWaiting c s).keys.waiting := by
  simp [leaveWaiting]

/-- The state of a close in which its context's key slot is freed: its regions and its ring are gone, and it no longer waits (R94). -/
def unbound (c : CtxSlot) (s : State) : State :=
  leaveWaiting c (setRing c none { s with regions := freeRegionsOf c s.regions })

/-- The key slot of a context is found in the table of key slots alone (R127). -/
theorem slotOf_congr {t : State} (h : t.keys.slots = s.keys.slots) (c : CtxSlot) : slotOf t c = slotOf s c := by
  simp only [slotOf, h]

theorem completeClose_keys (c : CtxSlot) (s : State) :
    (completeClose c s).keys = ((slotOf s c).elim (unbound c s) fun k => freeKeySlot k (unbound c s)).keys := by
  unfold completeClose
  dsimp only
  rw [setCtx_keys, queueNotice_keys]
  split
  next h =>
    have hnone : slotOf s c = none := (slotOf_congr (s := s) (t := unbound c s) rfl c).symm.trans h
    rw [hnone]
    rfl
  next k h =>
    have hsome : slotOf s c = some k := (slotOf_congr (s := s) (t := unbound c s) rfl c).symm.trans h
    rw [hsome]
    rfl

theorem completeClose_notWaiting (c : CtxSlot) (s : State) : c ∉ (completeClose c s).keys.waiting := by
  have hgone : c ∉ (unbound c s).keys.waiting := not_mem_leaveWaiting c _
  rw [completeClose_keys]
  cases slotOf s c with
  | none => exact hgone
  | some k => exact mt (fun h => serveSlot_waiting k _ h) hgone

/-- A closed context has no key slot: it had one at most, and it waits for none (R94, R127). -/
theorem completeClose_noSlot (hs : SlotsApart s) (h : (completeClose c s).keys.slots.get j = some y) : y.ctx ≠ c := by
  rw [completeClose_keys] at h
  cases hslot : slotOf s c with
  | none =>
    rw [hslot] at h
    exact slotOf_none.1 hslot j y h
  | some k =>
    rw [hslot] at h
    obtain ⟨x, hx, hctx⟩ := slotOf_some hslot
    rcases freeKeySlot_slots h with ⟨hne, hy⟩ | hwait
    · exact hctx ▸ (hs k j x y hne.symm hx hy).symm
    · rintro rfl
      exact not_mem_leaveWaiting y.ctx _ hwait

end

theorem regionOf_completeClose_iff {c : CtxSlot} {s : State} {e : EntryNo} {r : Region} :
    regionOf (completeClose c s) e = some r ↔ regionOf s e = some r ∧ r.ctx ≠ c := by
  simp [regionOf_completeClose, Option.filter_eq_some_iff]

/-- A completed close leaves what R94 says. -/
theorem closedFrom_completeClose (c : CtxSlot) (s : State) : ClosedFrom c s (completeClose c s) := by
  refine ⟨fun d => ctxOf_completeClose c d s, fun e r => regionOf_completeClose_iff, fun d => ringOf_completeClose c d s,
    completeClose_notWaiting c s, fun hkeys k y hy => completeClose_noSlot hkeys.1 hy, completeClose_nq c s, ?_⟩
  simp

/-! ### A context that starts to close (R92) -/

/-- A context as its close starts (R92). -/
def closingContext (x : Context) : Context :=
  { x with state := .closing, pin := false, receipt := closingReceipt x.receipt }

/-- The record of a context that starts to close has changed and its UNWRAP and receipt CHECK jobs are withdrawn; its pin is still to be
cleared (R92). -/
def withdrawn (c : CtxSlot) (s : State) : State :=
  { updateCtx c (fun x => { x with state := .closing, receipt := closingReceipt x.receipt }) s with
    eng := { s.eng with others := s.eng.others.filter fun j => !ownJob c j } }

/-- A context's close has started, and has not been tried (R92). -/
def closeStarted (c : CtxSlot) (s : State) : State :=
  recomputeCompare (unpinContext c (withdrawn c s))

theorem startClose_eq (c : CtxSlot) (s : State) : startClose c s = tryClose c (closeStarted c s) := rfl

section
variable {c d : CtxSlot} {s : State}

theorem ctxOf_unpinContext (c d : CtxSlot) (s : State) :
    ctxOf (unpinContext c s) d = if d = c then { ctxOf s c with pin := false } else ctxOf s d := by
  by_cases hp : (ctxOf s c).pin = true
  · have htable : (unpinContext c s).contexts = (updateCtx c (fun x => { x with pin := false }) s).contexts := by
      unfold unpinContext
      rw [if_pos hp]
      dsimp only
      split <;> split <;> simp
    rw [ctxOf_congr htable]
    exact ctxOf_setCtx c d _ s
  · have hsame : unpinContext c s = s := if_neg hp
    rw [hsame]
    split
    next h => rw [h, ← Bool.eq_false_of_not_eq_true hp]
    next => rfl

theorem unpinContext_others (c : CtxSlot) (s : State) : (unpinContext c s).eng.others = s.eng.others := by
  unfold unpinContext
  dsimp only
  split
  next =>
    split
    next =>
      split
      next => exact serveSlot_others _ _
      next => rfl
    next => split <;> rfl
  next => rfl

theorem ctxOf_closeStarted (c d : CtxSlot) (s : State) :
    ctxOf (closeStarted c s) d = if d = c then closingContext (ctxOf s c) else ctxOf s d := by
  have hwithdrawn : ∀ d, ctxOf (withdrawn c s) d =
      if d = c then { ctxOf s c with state := .closing, receipt := closingReceipt (ctxOf s c).receipt } else ctxOf s d :=
    fun d => ctxOf_setCtx c d _ s
  rw [closeStarted, ctxOf_congr (recomputeCompare_contexts _), ctxOf_unpinContext, hwithdrawn, if_pos rfl, hwithdrawn]
  split <;> rfl

/-- The start of a close frees nothing and queues no notice (R92). -/
theorem closeStarted_keeps (c : CtxSlot) (s : State) :
    (closeStarted c s).up = s.up ∧ (closeStarted c s).regions = s.regions ∧ (closeStarted c s).rings = s.rings ∧
      (closeStarted c s).nq = s.nq ∧ (closeStarted c s).time.mono = s.time.mono := by
  simp [closeStarted, withdrawn]

theorem closeStarted_others (c : CtxSlot) (s : State) :
    (closeStarted c s).eng.others = s.eng.others.filter fun j => !ownJob c j := by
  rw [closeStarted, recomputeCompare_eng, unpinContext_others]
  rfl

/-- With work in flight a close that starts waits (R92, R94). -/
theorem startClose_waits (h : (ctxOf s c).inFlight ≠ 0) : startClose c s = closeStarted c s := by
  rw [startClose_eq]
  refine if_neg fun hclose => h ?_
  rw [← hclose.2.1, ctxOf_closeStarted, if_pos rfl]
  rfl

/-- With no context waiting, a pin cleared starts no job and takes no slot from its context (R130, R132). -/
theorem unpinContext_nobody (hw : s.keys.waiting = []) :
    (unpinContext c s).eng = s.eng ∧
      ∀ k, ((unpinContext c s).keys.slots.get k).map (·.ctx) = (s.keys.slots.get k).map (·.ctx) := by
  unfold unpinContext
  split
  next =>
    dsimp only
    split
    next k _ =>
      rw [serveSlot_nobody _ _ (by exact hw), ite_self]
      refine ⟨rfl, fun j => ?_⟩
      rw [updateSlot]
      dsimp only
      rw [get_set]
      split
      next h => rw [h, Option.map_map]; rfl
      next => rfl
    next => split <;> exact ⟨rfl, fun _ => rfl⟩
  next => exact ⟨rfl, fun _ => rfl⟩

theorem SlotsApart.of_ctx {t : State} (hs : SlotsApart s)
    (h : ∀ k, (t.keys.slots.get k).map (·.ctx) = (s.keys.slots.get k).map (·.ctx)) : SlotsApart t := by
  intro j k x y hne hx hy
  have hj := h j
  have hk := h k
  rw [hx, Option.map_some, eq_comm, Option.map_eq_some_iff] at hj
  rw [hy, Option.map_some, eq_comm, Option.map_eq_some_iff] at hk
  obtain ⟨x', hx', hxc⟩ := hj
  obtain ⟨y', hy', hyc⟩ := hk
  exact hxc ▸ hyc ▸ hs j k x' y' hne hx' hy'

/-- A close that starts with nothing in flight, no SETUP job of its context and no context waiting completes at once (R94). -/
theorem startClose_completes (hn : (ctxOf s c).inFlight = 0) (hj : ∀ j ∈ s.eng.setups, j.ctx ≠ c)
    (hr : ∀ r, s.eng.running = some r → runningOwnJob c r = false) (hw : s.keys.waiting = []) :
    startClose c s = completeClose c (closeStarted c s) := by
  have heng : (closeStarted c s).eng = (withdrawn c s).eng := by
    rw [closeStarted, recomputeCompare_eng]
    exact (unpinContext_nobody (s := withdrawn c s) hw).1
  have hjob : hasJob (closeStarted c s) c = false := by
    rw [hasJob_congr (s := withdrawn c s) heng, hasJob, Bool.or_eq_false_iff, Bool.or_eq_false_iff]
    refine ⟨⟨?_, ?_⟩, ?_⟩
    · simp [withdrawn]
    · simpa [withdrawn] using hj
    · cases hrun : s.eng.running with
      | none => simp [withdrawn, hrun]
      | some r => simpa [withdrawn, hrun] using hr r hrun
  have hctx := ctxOf_closeStarted c c s
  rw [if_pos rfl] at hctx
  exact if_pos ⟨congrArg Context.state hctx, (congrArg Context.inFlight hctx).trans hn, hjob⟩

theorem slotsApart_closeStarted (hs : SlotsApart s) (hw : s.keys.waiting = []) : SlotsApart (closeStarted c s) := by
  refine hs.of_ctx fun k => ?_
  rw [closeStarted, recomputeCompare_keys]
  exact (unpinContext_nobody (s := withdrawn c s) hw).2 k

end

/-! ### CLOSE_CONTEXT (R92, R94) -/

section
variable {slot : Byte} {c : CtxSlot} {s : State}

theorem closeContextRequest_noSlot (h : slotOperand slot = none) : closeContextRequest slot s = refuses .outOfRange s := by
  simp only [closeContextRequest, h]

theorem closeContextRequest_empty (hc : slotOperand slot = some c) (h : (ctxOf s c).state = .empty) :
    closeContextRequest slot s = refuses .wrongState s := by
  simp only [closeContextRequest, hc, if_pos h]

theorem closeContextRequest_closing (hc : slotOperand slot = some c) (h : (ctxOf s c).state = .closing) :
    closeContextRequest slot s = accepts s := by
  simp [closeContextRequest, hc, h]

theorem closeContextRequest_starts (hc : slotOperand slot = some c) (he : (ctxOf s c).state ≠ .empty)
    (h : (ctxOf s c).state ≠ .closing) : closeContextRequest slot s = accepts (startClose c s) := by
  simp only [closeContextRequest, hc, if_neg he, if_neg h]

/-- A close that starts is answered OK (R173). -/
theorem exec_closeContext_starts (ha : AwaitsBlock s) (hc : slotOperand slot = some c) (he : (ctxOf s c).state ≠ .empty)
    (h : (ctxOf s c).state ≠ .closing) :
    exec (.closeContext slot) s = .next (answered okFrame (startClose c (closedBurst s))) := by
  have hup : (startClose c (closedBurst s)).up = (closedBurst s).up := by
    rw [startClose_eq]
    simp [closeStarted_keeps]
  rw [exec_request (r := .closeContext slot) rfl ha]
  change Host.Outcome.next (answerRequest (closeContextRequest slot (closedBurst s))) = _
  rw [closeContextRequest_starts (s := closedBurst s) hc he h, answerRequest_accepts _ (by rw [hup]; rfl)]

theorem answered_sendList {f : Frame} {t : State} (h : t.up = (closedBurst s).up) :
    (answered f t).up.sendList = s.up.sendList ++ [fromPart f] := by
  rw [answered, h]
  rfl

end

/-- Settles O38: a close that starts with work in flight stops at `closeStarted`; with nothing in flight and no job it goes on to
`completeClose`. -/
theorem closeContextCloses : Obligations.CloseContextCloses := by
  intro slot s ha
  refine ⟨fun h => exec_refused (r := .closeContext slot) rfl ha (closeContextRequest_noSlot (slotOperand_of_ge h)), fun c hval => ?_⟩
  have hc := slotOperand_of_val hval
  refine ⟨fun h => exec_refused (r := .closeContext slot) rfl ha (closeContextRequest_empty (s := closedBurst s) hc h),
    fun h => exec_accepted (r := .closeContext slot) rfl ha (closeContextRequest_closing (s := closedBurst s) hc h),
    fun he hcl hn => ⟨_, exec_closeContext_starts ha hc he hcl, ?_⟩,
    fun he hcl hn hsetups hrun hw hroom => ⟨_, exec_closeContext_starts ha hc he hcl, ?_⟩⟩
  all_goals obtain ⟨hup, hregions, hrings, hnq, hmono⟩ := closeStarted_keeps c (closedBurst s)
  · rw [startClose_waits (s := closedBurst s) hn]
    refine ⟨?_, ?_, rfl, closeStarted_others c (closedBurst s), hregions, hrings, hnq⟩
    · refine (ctxOf_closeStarted c c (closedBurst s)).trans ((if_pos rfl).trans ?_)
      rfl
    · exact answered_sendList hup
  · rw [startClose_completes (s := closedBurst s) hn hsetups hrun hw]
    have hctx := fun d => ctxOf_closeStarted c d (closedBurst s)
    have hother : ∀ d, d ≠ c → ctxOf (closeStarted c (closedBurst s)) d = ctxOf s d := fun d hd => (hctx d).trans (if_neg hd)
    have hwithheld : (ctxOf (closeStarted c (closedBurst s)) c).withheld = (ctxOf s c).withheld :=
      (congrArg Context.withheld ((hctx c).trans (if_pos rfl)) :)
    obtain ⟨hcontexts, hregions', hrings', -, -, hnotices, -⟩ := closedFrom_completeClose c (closeStarted c (closedBurst s))
    refine ⟨(hcontexts c).trans (if_pos rfl), fun d hd => ((hcontexts d).trans (if_neg hd)).trans (hother d hd), fun e r => ?_,
      (hrings' c).trans (if_pos rfl), fun d hd => ((hrings' d).trans (if_neg hd)).trans (ringOf_congr hrings d),
      fun hkeys k y hy => completeClose_noSlot (slotsApart_closeStarted (s := closedBurst s) hkeys.1 hw) hy, ?_,
      answered_sendList (by simpa using hup), rfl⟩
    · rw [← regionOf_congr (t := closeStarted c (closedBurst s)) (s := s) hregions]
      exact hregions' e r
    · refine (congrArg NoticeQueue.notices hnotices).trans ?_
      rw [queueNotice_notices _ _ _ _ _ (by rwa [hnq]), hwithheld, hnq, noticeOf, hmono]
      rfl

end Sys2Proof.RecordingContexts
end

