-- ==== Sys2Proof/Proofs/CheckResults.lean ====
section
namespace Sys2Proof.RecordingContexts
open Sys2Proof Sys2Proof.Machine Sys2Proof.LinkPassage Sys2Proof.CommandTracking Sys2Proof.SectorClassification

/-! ### UNWRAP (R84 to R86) -/

section
variable {c : CtxSlot} {b : Blob} {s : State}

theorem unwrapEvent_running (h : s.eng.running = some (.other (.unwrap c b))) : unwrapEvent s = finishUnwrap c b (endRunning s) := by
  rw [unwrapEvent, h]

/-- With T0 absent, E is not_after (R62, R85). -/
theorem loadedExpiry_eq (x : Context) : loadedExpiry x = if x.cls = .timed then x.notAfter else none := by
  unfold loadedExpiry
  split
  · cases x.notAfter <;> rfl
  · rfl

theorem openedState_eq (o : Opening) : openedState o = if o = .record then .recording else .sealed := by
  cases o <;> rfl

/-- One record outside the compare set in the place of another leaves the compare value (R166). -/
theorem compareValue_setCtx {x : Context} (hx : compareEntry x = none) (h : compareEntry (ctxOf s c) = none) :
    compareValue (setCtx c x s).contexts = compareValue s.contexts := by
  refine compareValue_congr fun d => ?_
  change compareEntry (ctxOf (setCtx c x s) d) = compareEntry (ctxOf s d)
  rw [ctxOf_setCtx]
  split
  next hd => rw [hd, hx, h]
  next => rfl

theorem compareEntry_loading {x : Context} (h : x.state = .loading) : compareEntry x = none := by
  simp [compareEntry, h]

/-- The Context Table after a match, before the compare value is judged and the notice is queued (R85). -/
def opened (c : CtxSlot) (b : Blob) (s : State) : State :=
  updateCtx c (loadedContext (unwrapKey b)) s

theorem ctxOf_opened (c d : CtxSlot) (b : Blob) (s : State) :
    ctxOf (opened c b s) d = if d = c then loadedContext (unwrapKey b) (ctxOf s c) else ctxOf s d :=
  ctxOf_setCtx c d _ s

/-- Where the compare value held, the recomputation of R85 keeps it: a context with no E, or not TIMED, does not count. -/
theorem opened_compare (hl : (ctxOf s c).state = .loading) (hc : CompareLaw s) :
    (if (ctxOf (opened c b s) c).cls = .timed ∧ (ctxOf (opened c b s) c).expiry.isSome then recomputeCompare (opened c b s)
      else opened c b s) = recomputeCompare (opened c b s) := by
  split
  next => rfl
  next h =>
    have hentry : compareEntry (loadedContext (unwrapKey b) (ctxOf s c)) = none := by
      rw [ctxOf_opened, if_pos rfl] at h
      unfold compareEntry
      split
      next hset => simpa using fun e => h ⟨hset.1, e⟩
      next => rfl
    have hsame : s.time.compare = compareValue (opened c b s).contexts :=
      hc.trans (compareValue_setCtx hentry (compareEntry_loading hl)).symm
    unfold recomputeCompare
    rw [← hsame]
    rfl

theorem finishUnwrap_match (hl : (ctxOf s c).state = .loading) (hb : b.check = blobCheck b) (hc : CompareLaw s) :
    finishUnwrap c b s = queueNotice .contextReady (some c) none none (serialLow (ctxOf s c)) (recomputeCompare (opened c b s)) := by
  have hlow : serialLow (ctxOf (recomputeCompare (opened c b s)) c) = serialLow (ctxOf s c) := by
    rw [ctxOf_congr (recomputeCompare_contexts _), ctxOf_opened, if_pos rfl]
    rfl
  rw [finishUnwrap, if_pos hl, if_pos hb.symm, ← hlow, ← opened_compare hl hc]
  rfl

theorem finishUnwrap_mismatch (hl : (ctxOf s c).state = .loading) (hb : b.check ≠ blobCheck b) :
    finishUnwrap c b s = queueNotice .keyRejected (some c) none none (serialLow (ctxOf s c)) (setCtx c .blank s) := by
  rw [finishUnwrap, if_pos hl, if_neg hb.symm]
  rfl

theorem finishUnwrap_closing (h : (ctxOf s c).state = .closing) : finishUnwrap c b s = tryClose c s :=
  if_neg (by simp [h])

end

/-! ### A job that ends after its context has been closed (R92, R94) -/

section
variable {c : CtxSlot} {s : State}

theorem tryClose_waits (h : (ctxOf s c).inFlight ≠ 0 ∨ hasJob s c = true) : tryClose c s = s :=
  if_neg fun hclose => h.elim (· hclose.2.1) (by simp [hclose.2.2])

theorem tryClose_completes (hs : (ctxOf s c).state = .closing) (h : ¬((ctxOf s c).inFlight ≠ 0 ∨ hasJob s c = true)) :
    tryClose c s = completeClose c s := by
  rw [not_or, not_not, Bool.not_eq_true] at h
  exact if_pos ⟨hs, h⟩

end

/-! ### The receipt's CHECK (R96) -/

section
variable {c : CtxSlot} {s : State} {v : Block}

theorem receiptEvent_running {serial : BitVec 48} {t0 e : Nat} (h : s.eng.running = some (.other (.receipt c serial t0 e))) :
    receiptEvent s = finishReceipt c (receiptCheck serial t0 e) (endRunning s) := by
  rw [receiptEvent, h]

theorem finishReceipt_pending (hp : (ctxOf s c).receipt = .pending) (h : (ctxOf s c).state ≠ .closing) :
    finishReceipt c v s = updateCtx c (fun x => { x with receipt := .ready v }) s := by
  rw [finishReceipt, if_pos hp, tryClose_open]
  rwa [updateCtx, ctxOf_setCtx, if_pos rfl]

theorem finishReceipt_discarded (h : (ctxOf s c).receipt ≠ .pending) : finishReceipt c v s = tryClose c s := by
  rw [finishReceipt, if_neg h]

end

/-- Settles O33: a match and a mismatch at a LOADING slot, a receipt that is PENDING, and the discarded results, which only try the close. -/
theorem unwrapAndReceiptComplete : Obligations.UnwrapAndReceiptComplete := by
  intro s c
  have hdiscarded : ∀ i : Instr, exec i s = .next (tryClose c (endRunning s)) → (ctxOf s c).state = .closing →
      (¬((ctxOf s c).inFlight ≠ 0 ∨ hasJob (endRunning s) c = true) → ∃ t, exec i s = .next t ∧ ClosedFrom c (endRunning s) t) ∧
      ((ctxOf s c).inFlight ≠ 0 ∨ hasJob (endRunning s) c = true → exec i s = .next (endRunning s)) := fun i hi hs =>
    ⟨fun h => ⟨_, hi.trans (congrArg _ (tryClose_completes (s := endRunning s) hs h)), closedFrom_completeClose c _⟩,
      fun h => hi.trans (congrArg _ (tryClose_waits (s := endRunning s) h))⟩
  refine ⟨fun b hrun => ?_, fun serial t0 e hrun => ?_⟩
  · have hexec : exec .unwrapComplete s = .next (finishUnwrap c b (endRunning s)) := congrArg _ (unwrapEvent_running hrun)
    have hclosed := fun hs => hdiscarded _ (hexec.trans (congrArg _ (finishUnwrap_closing (s := endRunning s) hs))) hs
    refine ⟨fun hl hb hc => ?_, fun hl hb => ?_, fun hs => (hclosed hs).1, fun hs => (hclosed hs).2⟩
    · refine ⟨_, hexec.trans (congrArg _ (finishUnwrap_match (s := endRunning s) hl hb hc)), fun d => ?_, rfl, rfl, rfl, rfl⟩
      refine (ctxOf_opened c d b (endRunning s)).trans ?_
      rw [loadedContext, loadedExpiry_eq, openedState_eq]
      rfl
    · exact hexec.trans (congrArg _ (finishUnwrap_mismatch (s := endRunning s) hl hb))
  · have hexec : exec .receiptCheckComplete s = .next (finishReceipt c (receiptCheck serial t0 e) (endRunning s)) :=
      congrArg _ (receiptEvent_running hrun)
    refine ⟨fun hp hs => hexec.trans (congrArg _ (finishReceipt_pending (s := endRunning s) hp hs)), fun hp => ?_⟩
    have hclosed := fun hs => hdiscarded _ (hexec.trans (congrArg _ (finishReceipt_discarded (s := endRunning s) hp))) hs
    exact ⟨fun hs => (hclosed hs).1, fun hs => (hclosed hs).2⟩

end Sys2Proof.RecordingContexts
end

