-- ==== Sys2Proof/Proofs/ExpiryAtTicks.lean ====
section
namespace Sys2Proof.RecordingContexts
open Sys2Proof Sys2Proof.Machine Sys2Proof.LinkPassage Sys2Proof.CommandTracking Sys2Proof.SectorClassification

/-! ### The expiry compare value is the least E of the compare set (R166) -/

/-- A value is present and at most e. -/
def AtMost (a : Option Nat) (e : Nat) : Prop :=
  ∃ v, a = some v ∧ v ≤ e

theorem atMost_leastOf_left {a : Option Nat} {e : Nat} (h : AtMost a e) (b : Option Nat) : AtMost (leastOf a b) e := by
  obtain ⟨v, rfl, hv⟩ := h
  cases b with
  | none => exact ⟨v, rfl, hv⟩
  | some w => exact ⟨min v w, rfl, (min_le_left v w).trans hv⟩

theorem atMost_leastOf_right {b : Option Nat} {e : Nat} (h : AtMost b e) (a : Option Nat) : AtMost (leastOf a b) e := by
  obtain ⟨v, rfl, hv⟩ := h
  cases a with
  | none => exact ⟨v, rfl, hv⟩
  | some w => exact ⟨min w v, rfl, (min_le_right w v).trans hv⟩

theorem atMost_foldl_leastOf {α : Type} (f : α → Option Nat) {e : Nat} (l : List α) (acc : Option Nat)
    (h : AtMost acc e ∨ ∃ a ∈ l, AtMost (f a) e) : AtMost (l.foldl (fun acc a => leastOf acc (f a)) acc) e := by
  induction l generalizing acc with
  | nil => simpa using h
  | cons a l ih =>
    refine ih _ ?_
    rcases h with hacc | ⟨b, hb, hle⟩
    · exact .inl (atMost_leastOf_left hacc _)
    · rcases List.mem_cons.1 hb with rfl | hb
      · exact .inl (atMost_leastOf_right hle _)
      · exact .inr ⟨b, hb, hle⟩

theorem compareValue_le {s : State} {c : CtxSlot} {e : Nat} (h : compareEntry (ctxOf s c) = some e) :
    AtMost (compareValue s.contexts) e :=
  atMost_foldl_leastOf (fun c => compareEntry (s.contexts.get c)) _ none (.inr ⟨c, List.mem_finRange c, e, h, le_rfl⟩)

/-! ### Expiry (R90, R167) -/

/-- What the expiry comparison makes of a context at a rights time: EXPIRED where it is of the compare set and its E has passed (R90). -/
def expiredAt (rights : Nat) (x : Context) : Context :=
  match compareEntry x with
  | none => x
  | some e => if e < rights then { x with state := .expired } else x

section
variable {x : Context} {rights : Nat}

theorem expiredAt_kept (h : ∀ e, compareEntry x = some e → rights ≤ e) : expiredAt rights x = x := by
  unfold expiredAt
  split
  next => rfl
  next e he => exact if_neg (Nat.not_lt.2 (h e he))

theorem expiredAt_passed {e : Nat} (he : compareEntry x = some e) (h : e < rights) :
    expiredAt rights x = { x with state := .expired } := by
  simp only [expiredAt, he, if_pos h]

/-- An EXPIRED context is of the compare set no longer, so a second comparison leaves it (R166). -/
theorem expiredAt_idem (rights : Nat) (x : Context) : expiredAt rights (expiredAt rights x) = expiredAt rights x := by
  by_cases h : ∃ e, compareEntry x = some e ∧ e < rights
  · obtain ⟨e, he, hlt⟩ := h
    rw [expiredAt_passed he hlt]
    exact expiredAt_kept (by simp [compareEntry])
  · have hsame : expiredAt rights x = x := expiredAt_kept fun e he => Nat.not_lt.1 fun hlt => h ⟨e, he, hlt⟩
    rw [hsame, hsame]

end

section
variable {s : State} {c : CtxSlot}

theorem ctxOf_expireContext (s : State) (c d : CtxSlot) :
    ctxOf (expireContext s c) d = if d = c then expiredAt s.time.rights (ctxOf s c) else ctxOf s d := by
  have hkept : expiredAt s.time.rights (ctxOf s c) = ctxOf s c →
      ctxOf s d = if d = c then expiredAt s.time.rights (ctxOf s c) else ctxOf s d := fun h => by
    rw [h]
    split
    next hd => rw [hd]
    next => rfl
  unfold expireContext
  split
  next hnone => exact hkept (expiredAt_kept (by simp [hnone]))
  next e he =>
    split
    next hlt =>
      rw [expiredAt_passed he hlt]
      exact ctxOf_setCtx c d _ s
    next hle => exact hkept (expiredAt_kept (by simpa [he] using hle))

/-- The contexts of a list are compared one after another, each as it was at first (R167). -/
theorem ctxOf_expireContexts (l : List CtxSlot) (s : State) (c : CtxSlot) :
    ctxOf (l.foldl expireContext s) c = if c ∈ l then expiredAt s.time.rights (ctxOf s c) else ctxOf s c := by
  induction l generalizing s with
  | nil => simp
  | cons d l ih =>
    have htime : (expireContext s d).time = s.time := by simp
    rw [List.foldl_cons, ih, htime, ctxOf_expireContext]
    by_cases hc : c = d
    · subst hc
      simp [expiredAt_idem]
    · simp [hc]

/-- Under its law the compare value shuts out no context that has expired (R166, R167). -/
theorem ctxOf_expiryComparison (hs : CompareLaw s) (c : CtxSlot) :
    ctxOf (expiryComparison s) c = if s.time.rightsSet then expiredAt s.time.rights (ctxOf s c) else ctxOf s c := by
  unfold expiryComparison
  split
  next =>
    split
    next hnone =>
      refine (expiredAt_kept fun e he => ?_).symm
      obtain ⟨v, hv, -⟩ := compareValue_le he
      rw [← hs, hnone] at hv
      contradiction
    next v hv =>
      split
      next =>
        rw [ctxOf_congr (recomputeCompare_contexts _), ctxOf_expireContexts, if_pos (List.mem_finRange c)]
      next hlate =>
        refine (expiredAt_kept fun e he => ?_).symm
        obtain ⟨w, hw, hle⟩ := compareValue_le he
        rw [← hs, hv] at hw
        obtain rfl := Option.some.inj hw
        exact (Nat.not_lt.1 hlate).trans hle
  next => rfl

end

/-! ### The tick (R159 to R161) -/

/-- The clocks after a tick, before the expiry comparison (R159, R160, R161). -/
def ticked (s : State) : State :=
  { s with
    time :=
      { s.time with
        divideCount := 0
        mono := satAdd maxSeconds s.time.mono 1
        rights := if s.time.rightsSet then satAdd maxSeconds s.time.rights 1 else s.time.rights } }

theorem tickEvent_eq (s : State) : tickEvent s = expiryComparison (ticked s) := rfl

/-- Settles O8: the clocks advance, and the comparison under the compare law expires the contexts whose E they have passed. -/
theorem tickAdvancesAndExpires : Obligations.TickAdvancesAndExpires := by
  intro s hs
  have hlaw : CompareLaw (ticked s) := hs
  refine ⟨tickEvent s, rfl, ?_, ?_, ?_, ?_, fun c => ?_, by simp⟩
  · simp [tickEvent_eq, ticked]
  · simp [tickEvent_eq, ticked, satAdd_eq_min]
  · simp [tickEvent_eq, ticked]
  · simp [tickEvent_eq, ticked, satAdd_eq_min]
  · rw [tickEvent_eq, ctxOf_expiryComparison hlaw]
    have hctx : ctxOf (ticked s) c = ctxOf s c := rfl
    have hset : (ticked s).time.rightsSet = s.time.rightsSet := rfl
    have hrights : s.time.rightsSet = true → (ticked s).time.rights = min (s.time.rights + 1) maxSeconds := fun h => by
      simp [ticked, h, satAdd_eq_min]
    rw [hctx, hset]
    cases hr : s.time.rightsSet with
    | false =>
      simp only [Bool.false_eq_true, false_and, if_false]
      split <;> rfl
    | true =>
      rw [hrights hr]
      simp only [if_true, true_and]
      rfl

end Sys2Proof.RecordingContexts
end

