-- ==== Sys2Proof/Proofs/SpanQueues.lean ====
section
namespace Sys2Proof.RingQueues
open Sys2Proof Sys2Proof.Machine Sys2Proof.LinkPassage

/-! ### A span queue in the limits of R102, running between the two points of its ring -/

/-- The window of a span queue is full where a span is HELD, and no HELD span stands ahead of a FORWARDED one (R102). -/
structure Windowed (l : List Span) : Prop where
  limit : forwardedCount l ≤ 4
  full : (∃ x ∈ l, x.status = .held) → forwardedCount l = 4
  ordered : l.Pairwise fun x y => ¬(x.status = .held ∧ y.status = .forwarded)

/-- What R102 says of one ring. -/
structure RingSound (g : Machine.Ring) : Prop where
  length : g.spans.length ≤ 12
  total : spanTotal g.spans ≤ g.length
  runs : SpansRun g.length g.spans g.commit g.commitLap g.issue g.issueLap
  windowed : Windowed g.spans

/-- The law of the span queue and its agreement with the points, ring by ring. -/
def RingsSound (s : State) : Prop := ∀ c g, ringOf s c = some g → RingSound g

theorem ringsSound_iff (s : State) : RingsSound s ↔ RingLaw s ∧ RingPointsLaw s := by
  refine ⟨fun h => ⟨fun c g hg => ?_, fun c g hg => ?_⟩, fun ⟨hlaw, hpoints⟩ c g hg => ?_⟩
  · obtain ⟨hlength, htotal, -, hwindow⟩ := h c g hg
    exact ⟨hlength, hwindow.limit, htotal⟩
  · obtain ⟨-, -, hruns, hwindow⟩ := h c g hg
    exact ⟨hruns, hwindow.full, hwindow.ordered⟩
  · obtain ⟨hlength, hlimit, htotal⟩ := hlaw c g hg
    obtain ⟨hruns, hfull, hordered⟩ := hpoints c g hg
    exact ⟨hlength, htotal, hruns, hlimit, hfull, hordered⟩

/-- An empty queue between two points that agree. -/
theorem ringSound_empty {g : Machine.Ring} (hs : g.spans = []) (hp : g.issue = g.commit) (hl : g.issueLap = g.commitLap) :
    RingSound g := by
  refine ⟨?_, ?_, ?_, ?_, ?_, ?_⟩ <;> rw [hs]
  · exact Nat.zero_le _
  · exact Nat.zero_le _
  · exact ⟨hp, hl⟩
  · exact Nat.zero_le _
  · simp
  · exact .nil

/-! ### The FORWARDED spans of a queue -/

theorem forwardedCount_append (l m : List Span) : forwardedCount (l ++ m) = forwardedCount l + forwardedCount m := by
  simp [forwardedCount]

theorem forwardedCount_cons (x : Span) (l : List Span) :
    forwardedCount (x :: l) = (if x.status = .forwarded then 1 else 0) + forwardedCount l := by
  rw [← List.singleton_append, forwardedCount_append]
  congr 1
  by_cases h : x.status = .forwarded <;> simp [forwardedCount, h]

/-! ### The places of spans: what an outcome or a release leaves of a span -/

/-- Where a span lies, under which lap and with how many sectors. -/
def placeOf (x : Span) : Nat × Nat × Nat := (x.first, x.lap, x.count)

theorem spanTotal_places {l m : List Span} (h : l.map placeOf = m.map placeOf) : spanTotal l = spanTotal m := by
  have hcount : ∀ l : List Span, l.map (·.count) = (l.map placeOf).map fun p => p.2.2 := fun l => by
    rw [List.map_map]
    rfl
  rw [spanTotal, spanTotal, hcount, hcount, h]

theorem length_places {l m : List Span} (h : l.map placeOf = m.map placeOf) : l.length = m.length := by
  simpa using congrArg List.length h

theorem spansRun_places {n : Nat} {l m : List Span} (h : l.map placeOf = m.map placeOf) {c p i k : Nat} :
    SpansRun n l c p i k ↔ SpansRun n m c p i k := by
  induction l generalizing m c p with
  | nil =>
    obtain rfl : m = [] := by simpa using h.symm
    rfl
  | cons x l ih =>
    obtain ⟨y, m, rfl, hxy, hlm⟩ := List.map_eq_cons_iff.1 h.symm
    have hplace : y.first = x.first ∧ y.lap = x.lap ∧ y.count = x.count := by simpa [placeOf] using hxy
    obtain ⟨hfirst, hlap, hcount⟩ := hplace
    rw [SpansRun, SpansRun, hfirst, hlap, hcount, ih hlm.symm]

/-! ### A span appended (R106, R107) -/

theorem spansRun_append {n : Nat} {l : List Span} {x : Span} {c p : Nat} (h : SpansRun n l c p x.first x.lap) :
    SpansRun n (l ++ [x]) c p (advancePoint n x.first x.lap x.count).1 (advancePoint n x.first x.lap x.count).2 := by
  induction l generalizing c p with
  | nil =>
    obtain ⟨rfl, rfl⟩ := h
    exact ⟨rfl, rfl, rfl, rfl⟩
  | cons y l ih =>
    obtain ⟨hfirst, hlap, hrest⟩ := h
    exact ⟨hfirst, hlap, ih hrest⟩

/-- A new span is FORWARDED while the window has room, and then none is HELD ahead of it; else it is HELD behind four. -/
theorem windowed_append {l : List Span} {x : Span} (h : Windowed l)
    (hx : x.status = if 4 ≤ forwardedCount l then .held else .forwarded) : Windowed (l ++ [x]) := by
  obtain ⟨hlimit, hfull, hordered⟩ := h
  have hcount : forwardedCount (l ++ [x]) = forwardedCount l + if x.status = .forwarded then 1 else 0 := by
    rw [forwardedCount_append, forwardedCount_cons]
    rfl
  by_cases hroom : 4 ≤ forwardedCount l
  · have hheld : x.status = .held := hx.trans (if_pos hroom)
    rw [if_neg (by simp [hheld])] at hcount
    refine ⟨by omega, fun _ => by omega, List.pairwise_append.2 ⟨hordered, List.pairwise_singleton _ _, fun y _ z hz => ?_⟩⟩
    rw [List.mem_singleton.1 hz, hheld]
    simp
  · have hforwarded : x.status = .forwarded := hx.trans (if_neg hroom)
    have hnone : ∀ y ∈ l, y.status ≠ .held := fun y hy hheld => hroom (hfull ⟨y, hy, hheld⟩).ge
    rw [if_pos hforwarded] at hcount
    refine ⟨by omega, ?_, List.pairwise_append.2 ⟨hordered, List.pairwise_singleton _ _, fun y hy _ _ h => hnone y hy h.1⟩⟩
    rintro ⟨y, hy, hheld⟩
    rcases List.mem_append.1 hy with hy | hy
    · exact absurd hheld (hnone y hy)
    · rw [List.mem_singleton.1 hy, hforwarded] at hheld
      contradiction

/-- What checks 5c and 5d leave room for (R104, R105). -/
theorem room_of_ringRefusal {g : Machine.Ring} {start n : Nat} (h : ringRefusal g start n = none) :
    g.spans.length < 12 ∧ spanTotal g.spans + n ≤ g.length := by
  unfold ringRefusal at h
  split at h
  next => contradiction
  next =>
    split at h
    next => contradiction
    next =>
      split at h
      next => contradiction
      next hspans =>
        split at h
        next => contradiction
        next htotal => exact ⟨Nat.not_le.1 hspans, Nat.not_lt.1 htotal⟩

/-- A write that passes the ring's checks takes a span that keeps its law (R106). -/
theorem ringSound_acceptSpan {g : Machine.Ring} {start n : Nat} (o : Owner) (hg : RingSound g) (h : ringRefusal g start n = none) :
    RingSound (acceptSpan o n g) := by
  obtain ⟨hlength, htotal, hruns, hwindow⟩ := hg
  obtain ⟨hspans, hroom⟩ := room_of_ringRefusal h
  refine ⟨?_, ?_, spansRun_append hruns, windowed_append hwindow (CommandTracking.appendStatus_eq g)⟩
  · rw [acceptSpan, List.length_append]
    exact hspans
  · simpa [acceptSpan, spanTotal] using hroom

/-! ### A span that gets its outcome (R111) -/

/-- A span is marked where one of its owner is FORWARDED. -/
theorem markSpan_some {o : Owner} {ok : Bool} {l m : List Span} (h : markSpan o ok l = some m) :
    ∃ a x b, l = a ++ x :: b ∧ x.status = .forwarded ∧ m = markedSpans a b x ok := by
  induction l generalizing m with
  | nil => contradiction
  | cons y l ih =>
    unfold markSpan at h
    split at h
    next hy =>
      obtain rfl := Option.some.inj h
      exact ⟨[], y, l, rfl, hy.2, rfl⟩
    next =>
      obtain ⟨m, hm, rfl⟩ := Option.map_eq_some_iff.1 h
      obtain ⟨a, x, b, rfl, hx, rfl⟩ := ih hm
      exact ⟨y :: a, x, b, rfl, hx, rfl⟩

theorem places_markedSpans (a b : List Span) (x : Span) (ok : Bool) : (markedSpans a b x ok).map placeOf = (a ++ x :: b).map placeOf := by
  simp [markedSpans, placeOf]

theorem outcome_status (ok : Bool) : (if ok then SpanStatus.done else .failed) ≠ .forwarded ∧
    (if ok then SpanStatus.done else .failed) ≠ .held := by
  cases ok <;> decide

/-- A queue as an outcome or a commit leaves it, before the release step has filled its window again (R109). -/
structure Opened (l : List Span) : Prop where
  limit : forwardedCount l ≤ 4
  ordered : l.Pairwise fun x y => ¬(x.status = .held ∧ y.status = .forwarded)

/-- An outcome takes one span out of the window. -/
theorem opened_markedSpans {a b : List Span} {x : Span} (ok : Bool) (h : Windowed (a ++ x :: b)) :
    Opened (markedSpans a b x ok) := by
  obtain ⟨hlimit, -, hordered⟩ := h
  obtain ⟨hforwarded, hheld⟩ := outcome_status ok
  obtain ⟨ha, hxb, hab⟩ := List.pairwise_append.1 hordered
  obtain ⟨-, hb⟩ := List.pairwise_cons.1 hxb
  refine ⟨?_, ?_⟩
  · rw [forwardedCount_append, forwardedCount_cons] at hlimit
    rw [markedSpans, forwardedCount_append, forwardedCount_cons, if_neg hforwarded]
    omega
  · refine List.pairwise_append.2 ⟨ha, List.pairwise_cons.2 ⟨fun y _ h => hheld h.1, hb⟩, fun y hy z hz => ?_⟩
    rcases List.mem_cons.1 hz with rfl | hz
    · exact fun h => hforwarded h.2
    · exact hab y hy z (List.mem_cons_of_mem x hz)

/-! ### The commit from the front (R112) -/

/-- What the commit leaves runs on from the new commit point. -/
theorem spansRun_committed {n : Nat} {l : List Span} {c p i k : Nat} (h : SpansRun n l c p i k) :
    SpansRun n (l.dropWhile (SpanEnded ·)) (committedPoint n (l.takeWhile (SpanEnded ·)) (c, p)).1
      (committedPoint n (l.takeWhile (SpanEnded ·)) (c, p)).2 i k := by
  induction l generalizing c p with
  | nil => exact h
  | cons x l ih =>
    by_cases hx : SpanEnded x
    · rw [List.dropWhile_cons_of_pos (by simpa using hx), List.takeWhile_cons_of_pos (by simpa using hx)]
      obtain ⟨-, -, hrest⟩ := h
      exact ih hrest
    · rw [List.dropWhile_cons_of_neg (by simpa using hx), List.takeWhile_cons_of_neg (by simpa using hx)]
      exact h

theorem opened_dropWhile {l : List Span} (h : Opened l) : Opened (l.dropWhile (SpanEnded ·)) := by
  have hsub := List.dropWhile_sublist (l := l) (SpanEnded ·)
  exact ⟨(hsub.filter _).length_le.trans h.limit, h.ordered.sublist hsub⟩

/-! ### The release step (R109) -/

theorem releaseSpans_released {n : Nat} {x : Span} (hx : x.status = .held ∧ n < 4) (l : List Span) :
    (releaseSpans n (x :: l)).1 = { x with status := .forwarded } :: (releaseSpans (n + 1) l).1 := by
  rw [releaseSpans, if_pos hx]

theorem releaseSpans_passed {n : Nat} {x : Span} (hx : ¬(x.status = .held ∧ n < 4)) (l : List Span) :
    (releaseSpans n (x :: l)).1 = x :: (releaseSpans n l).1 := by
  rw [releaseSpans, if_neg hx]

theorem places_releaseSpans (n : Nat) (l : List Span) : (releaseSpans n l).1.map placeOf = l.map placeOf := by
  induction l generalizing n with
  | nil => rfl
  | cons x l ih =>
    by_cases hx : x.status = .held ∧ n < 4
    · rw [releaseSpans_released hx]
      exact congrArg (placeOf x :: ·) (ih _)
    · rw [releaseSpans_passed hx]
      exact congrArg (placeOf x :: ·) (ih _)

/-- With a full window nothing is released. -/
theorem releaseSpans_full {n : Nat} (h : 4 ≤ n) (l : List Span) : (releaseSpans n l).1 = l := by
  induction l with
  | nil => rfl
  | cons x l ih =>
    rw [releaseSpans_passed fun hx => Nat.not_lt.2 h hx.2, ih]

/-- Some number r of spans is released from a queue in whose ring n spans are FORWARDED: no more than the window takes, and as many
where a span is left HELD. -/
theorem releaseSpans_fills {n : Nat} (hn : n ≤ 4) (l : List Span) :
    ∃ r, forwardedCount (releaseSpans n l).1 = forwardedCount l + r ∧ n + r ≤ 4 ∧
      ((∃ x ∈ (releaseSpans n l).1, x.status = .held) → n + r = 4) := by
  induction l generalizing n with
  | nil => exact ⟨0, rfl, hn, nofun⟩
  | cons x l ih =>
    by_cases hx : x.status = .held ∧ n < 4
    · obtain ⟨r, hcount, hroom, hfull⟩ := ih (n := n + 1) hx.2
      rw [releaseSpans_released hx]
      refine ⟨r + 1, ?_, by omega, ?_⟩
      · rw [forwardedCount_cons, forwardedCount_cons, if_pos rfl, if_neg (by simp [hx.1])]
        omega
      · rintro ⟨y, hy, hheld⟩
        rcases List.mem_cons.1 hy with rfl | hy
        · contradiction
        · have := hfull ⟨y, hy, hheld⟩
          omega
    · by_cases hheld : x.status = .held
      · have hfour : 4 ≤ n := Nat.not_lt.1 fun h => hx ⟨hheld, h⟩
        exact ⟨0, congrArg forwardedCount (releaseSpans_full hfour _), hn, fun _ => le_antisymm hn hfour⟩
      · obtain ⟨r, hcount, hroom, hfull⟩ := ih hn
        rw [releaseSpans_passed hx]
        refine ⟨r, ?_, hroom, ?_⟩
        · rw [forwardedCount_cons, forwardedCount_cons, hcount, Nat.add_assoc]
        · rintro ⟨y, hy, hyheld⟩
          rcases List.mem_cons.1 hy with rfl | hy
          · exact absurd hyheld hheld
          · exact hfull ⟨y, hy, hyheld⟩

/-- The oldest HELD spans are released first, so that none is left ahead of a FORWARDED one. -/
theorem releaseSpans_ordered (n : Nat) {l : List Span} (h : l.Pairwise fun x y => ¬(x.status = .held ∧ y.status = .forwarded)) :
    (releaseSpans n l).1.Pairwise fun x y => ¬(x.status = .held ∧ y.status = .forwarded) := by
  induction l generalizing n with
  | nil => exact .nil
  | cons x l ih =>
    by_cases hx : x.status = .held ∧ n < 4
    · rw [releaseSpans_released hx]
      exact List.pairwise_cons.2 ⟨fun y _ hy => (nomatch hy.1), ih _ h.of_cons⟩
    · by_cases hheld : x.status = .held
      · rwa [releaseSpans_full (Nat.not_lt.1 fun hn => hx ⟨hheld, hn⟩)]
      · rw [releaseSpans_passed hx]
        exact List.pairwise_cons.2 ⟨fun y _ hy => hheld hy.1, ih _ h.of_cons⟩

/-- The release step fills the window again. -/
theorem windowed_releaseSpans {l : List Span} (h : Opened l) : Windowed (releaseSpans (forwardedCount l) l).1 := by
  obtain ⟨r, hcount, hroom, hfull⟩ := releaseSpans_fills h.limit l
  rw [← hcount] at hroom hfull
  exact ⟨hroom, hfull, releaseSpans_ordered _ h.ordered⟩

/-! ### Rings whose queue changes -/

/-- An outcome, the commit and the release that follow it keep a ring's law (R109, R111, R112). -/
theorem ringSound_reportedRing {g : Machine.Ring} {o : Owner} {ok : Bool} {spans : List Span} (hg : RingSound g)
    (h : markSpan o ok g.spans = some spans) : RingSound (reportedRing g spans) := by
  obtain ⟨hlength, htotal, hruns, hwindow⟩ := hg
  obtain ⟨a, x, b, hspans, -, rfl⟩ := markSpan_some h
  rw [hspans] at hlength htotal hruns hwindow
  have hmarked := places_markedSpans a b x ok
  have hleft := List.dropWhile_sublist (l := markedSpans a b x ok) (SpanEnded ·)
  have hplaces := places_releaseSpans (forwardedCount ((markedSpans a b x ok).dropWhile (SpanEnded ·)))
    ((markedSpans a b x ok).dropWhile (SpanEnded ·))
  refine ⟨?_, ?_, ?_, windowed_releaseSpans (opened_dropWhile (opened_markedSpans ok hwindow))⟩
  · rw [← length_places hmarked] at hlength
    exact (length_places hplaces).trans_le (hleft.length_le.trans hlength)
  · rw [← spanTotal_places hmarked] at htotal
    exact (spanTotal_places hplaces).trans_le (((hleft.map _).sum_le_sum fun _ _ => Nat.zero_le _).trans htotal)
  · exact (spansRun_places hplaces).2 (spansRun_committed ((spansRun_places hmarked).2 hruns))

/-- A rewind empties the queue and draws the issue side back (R115). -/
theorem ringSound_rewound (g : Machine.Ring) : RingSound (rewound g) := ringSound_empty rfl rfl rfl

theorem ringSound_newRing (r : Region) : RingSound (newRing r) := ringSound_empty rfl rfl rfl

end Sys2Proof.RingQueues
end

