-- ==== Sys2Proof/Proofs/RingMoves.lean ====
section
namespace Sys2Proof.RingQueues
open Sys2Proof Sys2Proof.Machine Sys2Proof.LinkPassage

/-! ### What can happen to the rings

Every step changes the rings by a few kinds of change. The law of one ring is shown for each kind, and each operation is shown to make
only such changes. -/

/-- A change of the rings: some are deleted and the others kept, or one is bound to its region, takes a span, has an outcome reported, is
rewound or takes a depth. -/
inductive RingMove (s : State) : State → Prop
  | fewer {t : State} : (∀ c g, ringOf t c = some g → ringOf s c = some g) → RingMove s t
  | bound (c : CtxSlot) (r : Region) : RingMove s (setRing c (some (newRing r)) s)
  | accepted (c : CtxSlot) (o : Owner) (g : Machine.Ring) (start n : Nat) : ringOf s c = some g → ringRefusal g start n = none →
      RingMove s (setRing c (some (acceptSpan o n g)) s)
  | reported (c : CtxSlot) (o : Owner) (ok : Bool) (g : Machine.Ring) (spans : List Span) : ringOf s c = some g →
      markSpan o ok g.spans = some spans → RingMove s (setRing c (some (reportedRing g spans)) s)
  | rewound (c : CtxSlot) (g : Machine.Ring) : RingMove s (setRing c (some (rewound g)) s)
  | deepened (c : CtxSlot) (g : Machine.Ring) (n : Nat) : ringOf s c = some g → RingMove s (setRing c (some { g with depth := n }) s)

theorem ringsSound_setRing {c : CtxSlot} {g : Machine.Ring} {s : State} (hs : RingsSound s) (hg : RingSound g) :
    RingsSound (setRing c (some g) s) := fun d h hd => by
  rw [ringOf_setRing] at hd
  split at hd
  next => exact Option.some.inj hd ▸ hg
  next => exact hs d h hd

theorem RingMove.sound {s t : State} (h : RingMove s t) (hs : RingsSound s) : RingsSound t := by
  cases h with
  | fewer h => exact fun c g hg => hs c g (h c g hg)
  | bound c r => exact ringsSound_setRing hs (ringSound_newRing r)
  | accepted c o g start n hg h => exact ringsSound_setRing hs (ringSound_acceptSpan o (hs c g hg) h)
  | reported c o ok g spans hg h => exact ringsSound_setRing hs (ringSound_reportedRing (hs c g hg) h)
  | rewound c g => exact ringsSound_setRing hs (ringSound_rewound g)
  | deepened c g n hg =>
    obtain ⟨hlength, htotal, hruns, hwindow⟩ := hs c g hg
    exact ringsSound_setRing hs ⟨hlength, htotal, hruns, hwindow⟩

/-- From s to t the rings make such changes one after another. -/
def RingMoves (s t : State) : Prop := Relation.ReflTransGen RingMove s t

theorem RingMoves.refl (s : State) : RingMoves s s := Relation.ReflTransGen.refl

theorem RingMoves.trans {s t u : State} (h : RingMoves s t) (k : RingMoves t u) : RingMoves s u := Relation.ReflTransGen.trans h k

theorem RingMoves.foldl {α : Type} (f : State → α → State) (h : ∀ s a, RingMoves s (f s a)) (l : List α) (s : State) :
    RingMoves s (l.foldl f s) := by
  induction l generalizing s with
  | nil => exact .refl s
  | cons a l ih => exact (h s a).trans (ih _)

theorem RingMove.moves {s t : State} (h : RingMove s t) : RingMoves s t := .single h

theorem moves_of_rings {s t : State} (h : t.rings = s.rings) : RingMoves s t :=
  RingMove.moves (.fewer fun c g hg => by rwa [ringOf_congr h] at hg)

/-- An operation that leaves the rings alone, after changes. -/
theorem RingMoves.keeping {s t u : State} (h : RingMoves s t) (k : u.rings = t.rings) : RingMoves s u := h.trans (moves_of_rings k)

/-- An operation that leaves the rings alone, before changes. -/
theorem RingMoves.since {s t u : State} (h : RingMoves t u) (k : t.rings = s.rings) : RingMoves s u := (moves_of_rings k).trans h

theorem RingMoves.sound {s t : State} (h : RingMoves s t) (hs : RingsSound s) : RingsSound t := by
  induction h with
  | refl => exact hs
  | tail _ h ih => exact h.sound ih

theorem rings_flushReleased (s : State) : (flushReleased s).rings = s.rings := by simp

/-! ### The rings at the ends of entries -/

theorem moves_reportOutcome (c : CtxSlot) (o : Owner) (ok : Bool) (s : State) : RingMoves s (reportOutcome c o ok s) := by
  unfold reportOutcome
  split
  next => exact .refl s
  next g hg =>
    split
    next => exact .refl s
    next spans hspans =>
      have hvoids := foldl_keeps_rings (noticeVoid c) fun s x => by simp
      have hreleased := foldl_keeps_rings (fun s o => releaseEntry o s) fun s o => by simp
      dsimp only
      rw [commitFront_eq]
      exact (RingMove.reported c o ok g spans hg hspans).moves.keeping ((hreleased _ _).trans (hvoids _ _))

theorem moves_rewindRings (s : State) : RingMoves s (rewindRings s) := by
  refine .foldl rewindRing (fun s c => ?_) _ s
  unfold rewindRing
  split
  next => exact .refl s
  next g _ =>
    split
    next => exact .refl s
    next => exact (RingMove.rewound c g).moves.keeping (by simp)

theorem moves_completeClose (c : CtxSlot) (s : State) : RingMoves s (completeClose c s) := by
  refine RingMove.moves (.fewer fun d g hg => ?_)
  rw [ringOf_completeClose] at hg
  split at hg
  next => contradiction
  next => exact hg

theorem moves_tryClose (c : CtxSlot) (s : State) : RingMoves s (tryClose c s) := by
  unfold tryClose
  split
  · exact moves_completeClose c s
  · exact .refl s

theorem moves_lowerInFlight (s : State) (c : CtxSlot) : RingMoves s (lowerInFlight s c) := by
  have hcounted : RingMoves s (counted c s) := moves_of_rings rfl
  by_cases hseals : Seals c s
  · rw [lowerInFlight_seals hseals]
    exact hcounted.keeping (by simp)
  · by_cases hcloses : Closes c s
    · rw [lowerInFlight_closes hcloses]
      exact hcounted.trans (moves_completeClose c _)
    · rw [lowerInFlight_counts hseals hcloses]
      exact hcounted

theorem moves_reportEnd (o : Owner) (e : Entry) (r : Option Bool) (s : State) : RingMoves s (reportEnd o e r s) := by
  unfold reportEnd
  split
  · exact moves_reportOutcome _ _ _ _
  · exact .refl s

theorem moves_endEntry (o : Owner) (r : Option Bool) (s : State) : RingMoves s (endEntry o r s) := by
  unfold endEntry
  split
  next => exact .refl s
  next e _ =>
    have hslots : RingMoves s (releaseEntrySlots o e s) := moves_of_rings (by simp)
    have hnotice : RingMoves s (noticeWithheld o e (reportEnd o e r (releaseEntrySlots o e s))) :=
      (hslots.trans (moves_reportEnd o e r _)).keeping (by simp)
    have hlowered := hnotice.trans (.foldl lowerInFlight moves_lowerInFlight e.touched _)
    dsimp only
    split <;> exact hlowered.keeping (by simp)

/-! ### Admission -/

theorem moves_classifyRing {o : Owner} {c : CommandFrame} {x : CtxSlot} {s : State} {a : Accepted} (h : classifyRing o c x s = .ok a) :
    RingMoves s a.after := by
  unfold classifyRing at h
  split at h
  next => contradiction
  next g hg =>
    split at h
    next => contradiction
    next hnone =>
      split at h
      next => contradiction
      next =>
        cases h
        exact (RingMove.accepted x o g _ _ hg hnone).moves

theorem rings_classifyFrontier {c : CommandFrame} {x : CtxSlot} {s : State} {a : Accepted} (h : classifyFrontier c x s = .ok a) :
    a.after.rings = s.rings := by
  unfold classifyFrontier at h
  split at h
  next => contradiction
  next =>
    split at h
    next => contradiction
    next => cases h; rfl

theorem rings_classifyRead {c : CommandFrame} {s : State} {a : Accepted} (h : classifyRead c s = .ok a) : a.after.rings = s.rings := by
  unfold classifyRead at h
  split at h
  next => contradiction
  next =>
    cases h
    simp [plainPlan]

/-- The Classifier changes a ring only by the span of a write that has passed its checks (R51, R106). -/
theorem moves_classifyWrite {o : Owner} {c : CommandFrame} {s : State} {a : Accepted} (h : classifyWrite o c s = .ok a) :
    RingMoves s a.after := by
  unfold classifyWrite at h
  dsimp only at h
  split at h
  next => cases h; exact .refl s
  next =>
    split at h
    next => contradiction
    next =>
      split at h
      next => contradiction
      next =>
        split at h
        next => contradiction
        next =>
          split at h
          next => exact moves_classifyRing h
          next => exact moves_of_rings (rings_classifyFrontier h)

theorem moves_classify {o : Owner} {c : CommandFrame} {s : State} {a : Accepted} (h : classify o c s = .ok a) : RingMoves s a.after := by
  unfold classify at h
  split at h
  next => contradiction
  next =>
    split at h
    next => exact moves_of_rings (rings_classifyRead h)
    next => exact moves_classifyWrite h

theorem rings_enterQueued (c : CommandFrame) (a : Accepted) : (enterQueued c a).rings = a.after.rings := by
  unfold enterQueued
  dsimp only
  split <;> simp

theorem rings_enterSingle (c : CommandFrame) (a : Accepted) : (enterSingle c a).rings = a.after.rings := by
  unfold enterSingle
  dsimp only
  split <;> simp

theorem moves_takeCommand (c : CommandFrame) (s : State) : RingMoves s (takeCommand c s) := by
  have ht := taken_takeCommand c s
  generalize takeCommand c s = t at ht ⊢
  cases ht with
  | refusedQueued | refusedSingle | refusedPlain | bridge => exact moves_of_rings rfl
  | queued a _ _ _ _ h => exact (moves_classify h).keeping (rings_enterQueued c a)
  | single a _ _ _ h => exact (moves_classify h).keeping (rings_enterSingle c a)
  | other => exact moves_of_rings (rings_enterSingle c (plainPlan [] s))

/-! ### The frames of the drive -/

theorem rings_passDown (b : UpBurst) (d : DataFrame) (s : State) : (passDown b d s).rings = s.rings := by
  simp [passDown]

theorem rings_takeReady (r : ReadyFrame) (s : State) : (takeReady r s).rings = s.rings := by
  unfold takeReady strayReady slipPastEnd openBurst
  dsimp only
  repeat' split
  all_goals simp

theorem rings_takeDataDrive (d : DataFrame) (s : State) : (takeDataDrive d s).rings = s.rings := by
  unfold takeDataDrive strayDataDrive passUp
  repeat' split
  all_goals simp

theorem moves_takeAcceptance (r : AcceptRecord) (rest : List AcceptRecord) (f : StatusFrame) (s : State) :
    RingMoves s (takeAcceptance r rest f s) := by
  have haccepted : ∀ u, (acceptedBy r f u).rings = u.rings := fun u => by unfold acceptedBy; split <;> simp
  have hrejected : ∀ u, RingMoves u (rejectedBy r f u) := fun u => by
    unfold rejectedBy
    dsimp only
    split <;> exact (moves_endEntry (.tag r.tag) (some false) u).keeping (by simp)
  unfold takeAcceptance
  refine RingMoves.since (t := { s with trk := { s.trk with accepts := rest } }) (RingMoves.keeping ?_ (rings_flushReleased _)) rfl
  split
  · exact moves_of_rings (by simp)
  · split
    · exact moves_of_rings (by simp [haccepted])
    · exact hrejected _

theorem moves_completeSingle (f : StatusFrame) (s : State) : RingMoves s (completeSingle f s) := by
  have hjudged : (judged f s).rings = s.rings := by unfold judged; split <;> simp
  rw [completeSingle_eq]
  exact (RingMoves.since (moves_endEntry _ _ _) hjudged).keeping ((rings_flushReleased _).trans (placeRelayed_rings _ _))

theorem moves_takeStatus (f : StatusFrame) (s : State) : RingMoves s (takeStatus f s) := by
  unfold takeStatus
  split
  · split
    · exact moves_of_rings (by simp)
    · exact moves_takeAcceptance _ _ f s
  · split
    · exact moves_completeSingle f s
    · exact moves_of_rings (by simp)

theorem moves_endDone (l : List Tag) (s : State) : RingMoves s (endDone l s).2 := by
  induction l generalizing s with
  | nil => exact .refl s
  | cons k l ih =>
    have hready : (answerAhead k (checkShort (.tag k) s)).rings = s.rings := by simp
    unfold endDone
    dsimp only
    split <;> exact (RingMoves.since (moves_endEntry _ _ _) hready).trans (ih _)

theorem moves_endFailed (s : State) (p : Byte × Byte) : RingMoves s (endFailed s p) :=
  RingMoves.since (moves_endEntry _ _ _) (by simp)

theorem moves_abortEntry (k : Tag) (e : Entry) (s : State) : RingMoves s (abortEntry k e s).2 := by
  unfold abortEntry
  repeat' split
  all_goals exact (moves_endEntry (.tag k) none s).keeping (by simp)

theorem moves_abortEntries (l : List Tag) (s : State) : RingMoves s (abortEntries l s).2 := by
  induction l generalizing s with
  | nil => exact .refl s
  | cons k l ih =>
    unfold abortEntries
    split
    · exact ih s
    · exact (moves_abortEntry _ _ _).trans (ih _)

theorem moves_abortQueued (s : State) : RingMoves s (abortQueued s).2 := by
  have hended := moves_abortEntries (List.finRange 32) s
  unfold abortQueued
  dsimp only
  generalize (abortEntries (List.finRange 32) s).2 = u at *
  exact hended.trans ((moves_rewindRings _).since rfl)

theorem moves_abortSingle (s : State) : RingMoves s (abortSingle s) := by
  unfold abortSingle
  split
  · exact .refl s
  · split
    · exact (moves_endEntry .single none s).keeping (by simp)
    · exact moves_of_rings (by simp)

theorem moves_doneEnded (d : DoneFrame) (s : State) : RingMoves s (doneEnded d s) := by
  have hslip : ∀ b u, (slipDone b u).rings = u.rings := fun b u => by unfold slipDone; split <;> simp
  unfold doneEnded
  dsimp only
  refine RingMoves.trans ?_ (.foldl endFailed moves_endFailed _ _)
  exact RingMoves.since (moves_endDone _ _) ((hslip _ _).trans (by simp))

theorem moves_takeDone (d : DoneFrame) (s : State) : RingMoves s (takeDone d s) := by
  have hrelay : ∀ l m u, (relayDone d l m u).rings = u.rings := fun l m u => by unfold relayDone; split <;> simp
  have hended := moves_doneEnded d s
  unfold doneEnded at hended
  unfold takeDone
  dsimp only at hended ⊢
  refine (hended.trans ?_).keeping (rings_flushReleased _)
  split
  · exact ((moves_abortQueued _).keeping (hrelay _ _ _)).trans (moves_abortSingle _)
  · exact moves_of_rings (hrelay _ _ _)

theorem moves_takeDrive (f : Frame) (s : State) : RingMoves s (takeDrive f s) := by
  unfold takeDrive
  split
  next =>
    refine moves_of_rings ?_
    unfold takeInReset
    dsimp only
    repeat' split
    all_goals rfl
  next =>
    split
    next =>
      split
      next r _ => exact moves_of_rings (rings_takeReady r s)
      next d _ => exact moves_of_rings (rings_takeDataDrive d s)
      next t _ => exact moves_takeStatus t s
      next d _ => exact moves_takeDone d s
      all_goals exact .refl s
    next => exact moves_of_rings (by simp)

end Sys2Proof.RingQueues
end

