-- ==== Sys2Proof/Proofs/RingLawsKept.lean ====
section
namespace Sys2Proof.RingQueues
open Sys2Proof Sys2Proof.Machine Sys2Proof.LinkPassage Sys2Proof.CommandTracking

/-! ### Requests of the bridge -/

theorem moves_startClose (c : CtxSlot) (s : State) : RingMoves s (startClose c s) := by
  unfold startClose
  exact RingMoves.since (moves_tryClose c _) (by simp)

theorem moves_closeContext (slot : Byte) (s : State) : RingMoves s (closeContextRequest slot s).after := by
  unfold closeContextRequest refuses accepts
  split
  next => exact .refl s
  next c _ =>
    split
    · exact .refl s
    · split
      · exact .refl s
      · exact moves_startClose c s

theorem moves_enableRegion (e : EntryNo) (r : Region) (s : State) : RingMoves s (enableRegion e r s) := by
  unfold enableRegion
  dsimp only
  split
  · exact RingMoves.since (RingMove.bound r.ctx r).moves rfl
  · exact moves_of_rings rfl

/-- What ADD_REGION does: nothing, or an entry is enabled (R66). -/
theorem addRegion_after (p : RegionParams) (s : State) :
    (addRegionRequest p s).after = s ∨ ∃ e r, (addRegionRequest p s).after = enableRegion e r s := by
  unfold addRegionRequest
  split
  next => exact .inl rfl
  next e _ =>
    repeat' split
    all_goals first
      | exact .inl rfl
      | exact .inr ⟨e, _, rfl⟩

theorem moves_addRegion (p : RegionParams) (s : State) : RingMoves s (addRegionRequest p s).after := by
  rcases addRegion_after p s with h | ⟨e, r, h⟩ <;> rw [h]
  · exact .refl s
  · exact moves_enableRegion e r s

theorem moves_deleteRing (c : CtxSlot) (s : State) : RingMoves s (deleteRing c s) := by
  refine RingMove.moves (.fewer fun d g hg => ?_)
  have hrings : (deleteRing c s).rings = (setRing c none s).rings := by
    unfold deleteRing
    split
    next h => exact (SectorClassification.setRing_none_of_none h).symm
    next => simp
  rw [ringOf_congr hrings, ringOf_setRing] at hg
  split at hg
  next => contradiction
  next => exact hg

theorem moves_freeRegion (e : EntryNo) (r : Region) (s : State) : RingMoves s (freeRegion e r s) := by
  unfold freeRegion
  dsimp only
  split
  · exact (RingMoves.since (moves_deleteRing r.ctx _) (by rfl)).keeping (rings_flushReleased _)
  · exact moves_of_rings rfl

theorem moves_removeRegion (entry : Byte) (s : State) : RingMoves s (removeRegionRequest entry s).after := by
  rcases removeRegion_after entry s with h | ⟨e, r, -, h⟩ <;> rw [h]
  · exact .refl s
  · exact moves_freeRegion e r s

theorem moves_setShiftDepth (slot : Byte) (depth : BitVec 32) (s : State) : RingMoves s (setShiftDepthRequest slot depth s).after := by
  unfold setShiftDepthRequest refuses accepts
  split
  next => exact .refl s
  next c _ =>
    dsimp only
    split
    next => exact .refl s
    next =>
      split
      next => exact .refl s
      next g hg => exact (RingMove.deepened c g _ hg).moves

theorem moves_clearUnit (s : State) : RingMoves s (clearUnitRequest s).after := by
  unfold clearUnitRequest refuses accepts
  split
  · refine RingMove.moves (.fewer fun c g hg => ?_)
    simp [ringOf, clearUnit, Vector.get_eq_getElem] at hg
  · exact .refl s

/-- A request that names no region, no depth, no close and no clearing of the unit leaves the rings alone (R172). -/
theorem moves_executeRequest (r : Request) (s : State) : RingMoves s (executeRequest r s).after := by
  cases r <;> simp only [executeRequest]
  case closeContext slot => exact moves_closeContext slot s
  case clearUnit => exact moves_clearUnit s
  case addRegion p => exact moves_addRegion p s
  case removeRegion entry => exact moves_removeRegion entry s
  case setShiftDepth slot depth => exact moves_setShiftDepth slot depth s
  all_goals refine moves_of_rings ?_
  case loadContext => unfold loadContextRequest refuses accepts; dsimp only; repeat' split
                      all_goals rfl
  case sealContext => unfold sealContextRequest refuses accepts; repeat' split
                      all_goals simp
  case readContext => unfold readContextRequest refuses replies; split <;> rfl
  case readReceipt => unfold readReceiptRequest refuses replies; repeat' split
                      all_goals rfl
  case readRegions => unfold readRegionsRequest refuses replies; split <;> rfl
  case pinKey => unfold pinKeyRequest refuses accepts; dsimp only; repeat' split
                 all_goals simp
  case unpinKey => unfold unpinKeyRequest refuses accepts; split <;> simp
  case setRightsTime => unfold setRightsTimeRequest refuses accepts; split <;> rfl
  case writeSettings => unfold writeSettingsRequest applySettings refuses accepts; repeat' split
                        all_goals simp
  case drain => unfold drainRequest accepts; dsimp only; split <;> simp
  case readNotices => simp [readNoticesRequest, replies]
  all_goals rfl

theorem rings_answerRequest (x : Executed) : (answerRequest x).rings = x.after.rings := by
  unfold answerRequest
  split <;> rfl

theorem moves_takeRequest (block : Sector) (s : State) : RingMoves s (takeRequest block s) := by
  unfold takeRequest
  split
  · exact moves_of_rings (rings_answerRequest (refuses .malformed s))
  · exact (moves_executeRequest _ s).keeping (rings_answerRequest _)

/-! ### The frames of the controller -/

theorem moves_takeDataUp (d : DataFrame) (s : State) : RingMoves s (takeDataUp d s) := by
  unfold takeDataUp
  split
  next =>
    unfold strayDataUp
    split <;> exact moves_of_rings (by simp)
  next b _ =>
    split
    next =>
      unfold takeBlock
      split
      next => exact .refl s
      next block _ _ =>
        have hcut : ∀ n u, (cutExcess n 1 u).rings = u.rings := fun n u => by simp
        have hrequest : RingMoves s (takeRequest block (closedBurst s)) := (moves_takeRequest block _).since rfl
        exact hrequest.keeping (hcut _ _)
    next => exact moves_of_rings (rings_passDown b d s)

theorem moves_takeUp (f : Frame) (s : State) : RingMoves s (takeUp f s) := by
  unfold takeUp
  split
  next =>
    split
    next c _ => exact moves_takeCommand c s
    next d _ => exact moves_takeDataUp d s
    all_goals exact .refl s
  next => exact moves_of_rings (by simp)

theorem moves_ports (s : State) : KeptByPorts (RingMoves s) where
  links _ _ _ _ h := h.keeping rfl
  settle _ h := h.keeping (by simp)
  up f t h := h.trans (moves_takeUp f t)
  drive f t h := h.trans (moves_takeDrive f t)

theorem moves_run {s t : State} (h : RingMoves s t) : RingMoves s (run t) := (moves_ports s).run h

/-! ### The events that are no frames -/

theorem moves_endQueued (s : State) : RingMoves s (endQueued s) := .foldl _ (fun s o => moves_endEntry o none s) _ s

theorem moves_linkReset (s : State) : RingMoves s (linkResetEvent s) := by
  have hfreed : (freeAllSlots (resetPorts s)).rings = s.rings := by simp [resetPorts]
  have hentries : RingMoves s (resetEntries s) :=
    (RingMoves.since ((moves_endQueued _).trans (moves_endEntry .single none _)) hfreed).keeping (clearAccepts_rings _)
  have hdrop : ∀ u, (dropReply u).rings = u.rings := fun _ => rfl
  rw [linkResetEvent_eq]
  exact (hentries.keeping (hdrop _)).trans (moves_rewindRings _)

theorem moves_endLost (s : State) : RingMoves s (endLost s) := by
  unfold endLost
  split
  · exact (moves_endQueued s).trans (moves_endEntry _ _ _)
  · exact moves_endQueued s

theorem moves_lossEvent (s : State) : RingMoves s (lossEvent s) := by
  have hports : (lostPorts s).rings = s.rings := by simp [lostPorts]
  have hanswer : ∀ u, (answerLoss s u).rings = u.rings := foldl_keeps_rings (fun s f => placePart f s) (fun _ _ => rfl) (lossAnswers s)
  exact ((RingMoves.since (moves_endLost _) hports).keeping (by simp [hanswer])).trans (moves_rewindRings _)

theorem moves_setupEvent (s : State) : RingMoves s (setupEvent s) := by
  unfold setupEvent finishSetup
  dsimp only
  split
  next j _ _ =>
    split
    next => exact moves_of_rings rfl
    next => split <;> exact RingMoves.since (moves_tryClose j.ctx _) (by simp)
  next => exact .refl s

theorem moves_unwrapEvent (s : State) : RingMoves s (unwrapEvent s) := by
  unfold unwrapEvent finishUnwrap acceptBlob rejectBlob
  dsimp only
  split
  next c b _ =>
    split
    next => repeat' split
            all_goals exact moves_of_rings (by simp)
    next => exact RingMoves.since (moves_tryClose c _) rfl
  next => exact .refl s

theorem moves_receiptEvent (s : State) : RingMoves s (receiptEvent s) := by
  unfold receiptEvent finishReceipt
  split
  · split <;> exact RingMoves.since (moves_tryClose _ _) rfl
  · exact .refl s

theorem rings_tokenEvent (s : State) : (tokenEvent s).rings = s.rings := by
  unfold tokenEvent
  split <;> simp

theorem rings_streamDone (s : State) : (streamDone s).rings = s.rings := by
  unfold streamDone finishStream
  repeat' split
  all_goals simp

theorem rings_parityDone (s : State) : (parityDone s).rings = s.rings := by
  unfold parityDone firstFailure secondFailure
  dsimp only
  repeat' split
  all_goals simp

theorem rings_startJob (s : State) : (startJob s).rings = s.rings := by
  unfold startJob startNext
  repeat' split
  all_goals rfl

theorem rings_sendItem (k : Nat) (i : SendItem) (s : State) : (sendItem k i s).rings = s.rings :=
  (SectorClassification.sameTables_sendItem k i s).2.2

/-- Every step changes the rings by such changes alone. -/
theorem moves_of_step {s t : State} (h : step s = .next t) : RingMoves s t := by
  obtain ⟨l, he⟩ := event_of_step h
  refine RingMoves.since (t := { s with pending := l }) ?_ rfl
  generalize ({ s with pending := l } : State) = u at he
  cases he with
  | powerOn =>
    refine RingMove.moves (.fewer fun c g hg => ?_)
    simp [ringOf, powerOnEvent, State.reset, Vector.get_eq_getElem] at hg
  | upstreamUp => exact moves_of_rings rfl
  | linkReset => exact moves_linkReset u
  | driveUp => exact moves_run (moves_of_rings rfl)
  | driveLost => exact moves_run (moves_lossEvent u)
  | tick => exact moves_of_rings (by simp)
  | period => exact moves_of_rings (by simp)
  | up f => exact (moves_ports u).arriveUp f (.refl u)
  | drive f => exact (moves_ports u).arriveDrive f (.refl u)
  | send =>
    rcases transmit_cases u with h | ⟨k, i, -, -, h⟩ <;> rw [h]
    exacts [.refl u, moves_run (moves_of_rings (rings_sendItem k i u))]
  | start => exact moves_of_rings (rings_startJob u)
  | setup => exact moves_setupEvent u
  | stream =>
    rcases streamEvent_cases u with h | h <;> rw [h]
    exacts [.refl u, moves_run (moves_of_rings (rings_streamDone u))]
  | parity =>
    rcases parityEvent_cases u with h | h <;> rw [h]
    exacts [.refl u, moves_run (moves_of_rings (rings_parityDone u))]
  | unwrap => exact moves_unwrapEvent u
  | receipt => exact moves_receiptEvent u
  | token => exact moves_of_rings (rings_tokenEvent u)

/-- Settles O57: each change that a step makes to the rings keeps the law of every ring. -/
theorem ringLawsKept : Obligations.RingLawsKept := fun s t hlaw hpoints h =>
  (ringsSound_iff t).1 ((moves_of_step h).sound ((ringsSound_iff s).2 ⟨hlaw, hpoints⟩))

end Sys2Proof.RingQueues
end

