-- ==== Sys2Proof/Proofs/ShiftDepth.lean ====
section
namespace Sys2Proof.RingQueues
open Sys2Proof Sys2Proof.Machine Sys2Proof.LinkPassage Sys2Proof.CommandTracking

/-! ### SET_SHIFT_DEPTH (R117, R118) -/

/-- The clamp of R118, of a ring of at least two sectors, in one expression. -/
theorem clampDepth_eq {n : Nat} (h : 2 ≤ n) (d : Nat) : clampDepth n d = max 1 (min d (n - 1)) := by
  unfold clampDepth
  split_ifs <;> omega

/-- A context whose ring's depth may be set: SHIFT, in one of the four states of R118. -/
def HasDepth (x : Context) : Prop :=
  x.cls = .shift ∧ (x.state = .recording ∨ x.state = .sealing ∨ x.state = .sealed ∨ x.state = .closing)

section
variable {slot : Byte} {depth : BitVec 32} {c : CtxSlot} {g : Machine.Ring} {s : State}

theorem setShiftDepthRequest_noSlot (h : slotOperand slot = none) : setShiftDepthRequest slot depth s = refuses .outOfRange s := by
  simp only [setShiftDepthRequest, h]

theorem setShiftDepthRequest_improper (hc : slotOperand slot = some c) (h : ¬HasDepth (ctxOf s c)) :
    setShiftDepthRequest slot depth s = refuses .wrongState s := by
  simp only [setShiftDepthRequest, hc]
  exact if_pos h

theorem setShiftDepthRequest_proper (hc : slotOperand slot = some c) (h : HasDepth (ctxOf s c)) :
    setShiftDepthRequest slot depth s = (ringOf s c).elim (refuses .wrongState s) fun g =>
      accepts (setRing c (some { g with depth := clampDepth g.length depth.toNat }) s) := by
  simp only [setShiftDepthRequest, hc]
  refine (if_neg (not_not_intro h)).trans ?_
  cases ringOf s c <;> rfl

theorem setShiftDepthRequest_noRing (hc : slotOperand slot = some c) (h : ringOf s c = none) :
    setShiftDepthRequest slot depth s = refuses .wrongState s := by
  by_cases hx : HasDepth (ctxOf s c)
  · rw [setShiftDepthRequest_proper hc hx, h, Option.elim_none]
  · exact setShiftDepthRequest_improper hc hx

end

/-- Settles O46: the checks of R118 in their order, then the clamp. -/
theorem shiftDepthClamped : Obligations.ShiftDepthClamped := by
  intro slot depth s ha
  refine ⟨fun h => exec_refused (r := .setShiftDepth slot depth) rfl ha (setShiftDepthRequest_noSlot (slotOperand_of_ge h)),
    fun c hval => ?_⟩
  have hc := slotOperand_of_val hval
  refine ⟨fun h => exec_refused (r := .setShiftDepth slot depth) rfl ha ?_,
    fun g hx hg hlength => exec_accepted (r := .setShiftDepth slot depth) rfl ha ?_⟩
  · rcases h with h | h
    · exact setShiftDepthRequest_improper (s := closedBurst s) hc h
    · exact setShiftDepthRequest_noRing (s := closedBurst s) hc h
  · have hring : ringOf (closedBurst s) c = some g := hg
    refine (setShiftDepthRequest_proper (s := closedBurst s) hc hx).trans ?_
    rw [hring, Option.elim_some, clampDepth_eq hlength]
    rfl

end Sys2Proof.RingQueues
end

