-- ==== Sys2Proof/Proofs/KeyMoves.lean ====
section
namespace Sys2Proof.KeysAndEngine
open Sys2Proof Sys2Proof.Machine Sys2Proof.LinkPassage Sys2Proof.CommandTracking Sys2Proof.RecordingContexts

/-! ### The two laws of the Key Cache, by what they read (R127, R130) -/

/-- The law of key slots as far as it reads the Key Cache alone: one slot for a context, and no context waits twice or with a slot. -/
structure CacheLaw (s : State) : Prop where
  apart : SlotsApart s
  once : s.keys.waiting.Nodup
  waits : ∀ c ∈ s.keys.waiting, slotOf s c = none

theorem keyLaw_iff (s : State) : KeyLaw s ↔ CacheLaw s ∧ pinnedCount s ≤ 7 :=
  ⟨fun ⟨hapart, hpins, honce, hwaits⟩ => ⟨⟨hapart, honce, hwaits⟩, hpins⟩,
    fun ⟨⟨hapart, honce, hwaits⟩, hpins⟩ => ⟨hapart, hpins, honce, hwaits⟩⟩

/-- A key slot that serves nobody on the key-wait list: it is neither FREE nor evictable (R130). -/
def Engaged (x : Option KeySlot) : Prop :=
  ∃ y, x = some y ∧ (y.phase = .setup ∨ y.pinned = true ∨ 0 < y.users)

theorem engaged_iff (x : Option KeySlot) : Engaged x ↔ x ≠ none ∧ evictable x = false := by
  cases x with
  | none => simp [Engaged]
  | some y =>
    have h := evictable_iff y
    rw [← Bool.not_eq_true, h]
    simp only [Engaged, Option.some.injEq, exists_eq_left', ne_eq, reduceCtorEq, not_false_eq_true, true_and, not_and_or, not_not,
      Bool.not_eq_false, Nat.pos_iff_ne_zero]

/-- The law of the key-wait list where slot k has just changed and may yet have to serve the list (R130). -/
def WaitLawBut (k : KeyNo) (s : State) : Prop :=
  (∀ j, j ∈ s.keys.lru) ∧ (s.keys.waiting ≠ [] → ∀ j, j ≠ k → Engaged (s.keys.slots.get j))

theorem keyWaitLaw_but {s : State} (hs : KeyWaitLaw s) (k : KeyNo) : WaitLawBut k s :=
  ⟨hs.1, fun hw j _ => hs.2 hw j⟩

section
variable {k : KeyNo} {c : CtxSlot} {x : Option KeySlot} {s t : State}

/-- One slot changes, to FREE or to a context that has no other slot and does not wait; contexts may leave the list. -/
theorem cacheLaw_set (hs : CacheLaw s) (hslots : t.keys.slots = s.keys.slots.set k x)
    (hwait : t.keys.waiting.Sublist s.keys.waiting)
    (hnew : ∀ y, x = some y → y.ctx ∉ t.keys.waiting ∧ ∀ j z, j ≠ k → s.keys.slots.get j = some z → z.ctx ≠ y.ctx) :
    CacheLaw t := by
  have hget : ∀ j, t.keys.slots.get j = if k = j then x else s.keys.slots.get j := fun j => by rw [hslots, get_set]
  refine ⟨fun i j y z hij hy hz => ?_, hs.once.sublist hwait, fun d hd => slotOf_none.2 fun j y hy => ?_⟩
  · rw [hget] at hy hz
    split at hy
    next hi =>
      rw [if_neg fun hj => hij (hi.symm.trans hj)] at hz
      exact ((hnew y hy).2 j z (fun hj => hij (hi.symm.trans hj.symm)) hz).symm
    next hi =>
      split at hz
      next => exact (hnew z hz).2 i y (Ne.symm hi) hy
      next => exact hs.apart i j y z hij hy hz
  · rw [hget] at hy
    split at hy
    next => rintro rfl; exact (hnew y hy).1 hd
    next => exact slotOf_none.1 (hs.waits d (hwait.subset hd)) j y hy

/-- The slot that had changed is engaged. -/
theorem keyWaitLaw_set (hs : WaitLawBut k s) (hslots : t.keys.slots = s.keys.slots.set k x) (hlru : ∀ j ∈ s.keys.lru, j ∈ t.keys.lru)
    (hwait : t.keys.waiting ≠ [] → s.keys.waiting ≠ []) (hx : Engaged x) : KeyWaitLaw t := by
  refine ⟨fun j => hlru j (hs.1 j), fun hw j => ?_⟩
  rw [hslots, get_set]
  split
  next => exact hx
  next hj => exact hs.2 (hwait hw) j (Ne.symm hj)

/-- A change of one slot leaves the others engaged. -/
theorem waitLawBut_set (hs : KeyWaitLaw s) (hslots : t.keys.slots = s.keys.slots.set k x) (hlru : t.keys.lru = s.keys.lru)
    (hwait : t.keys.waiting = s.keys.waiting) : WaitLawBut k t := by
  refine ⟨hlru ▸ hs.1, fun hw j hj => ?_⟩
  rw [hslots, get_set, if_neg (Ne.symm hj)]
  exact hs.2 (hwait ▸ hw) j

theorem mem_mostRecent {j : KeyNo} {l : List KeyNo} (h : j ∈ l) : j ∈ mostRecent k l := by
  by_cases hj : j = k <;> simp [mostRecent, h, hj]

/-! ### Slots given and served (R128, R130) -/

theorem cacheLaw_allocateSlot (hs : CacheLaw s) (hslot : slotOf s c = none) (hc : c ∉ s.keys.waiting) : CacheLaw (allocateSlot k c s) := by
  refine cacheLaw_set hs rfl (.refl _) fun y hy => ?_
  obtain rfl := Option.some.inj hy
  exact ⟨hc, fun j z _ hz => slotOf_none.1 hslot j z hz⟩

theorem keyWaitLaw_allocateSlot (hs : WaitLawBut k s) : KeyWaitLaw (allocateSlot k c s) :=
  keyWaitLaw_set hs rfl (fun _ => mem_mostRecent) id ⟨_, rfl, .inl rfl⟩

/-- The head of the list leaves it and takes the slot. -/
theorem cacheLaw_serveSlot (k : KeyNo) (hs : CacheLaw s) : CacheLaw (serveSlot k s) := by
  unfold serveSlot
  split
  next => exact hs
  next c rest hw =>
    obtain ⟨happart, honce, hwaits⟩ := hs
    rw [hw] at honce hwaits
    obtain ⟨hc, honce⟩ := List.nodup_cons.1 honce
    exact cacheLaw_allocateSlot (s := { s with keys := { s.keys with waiting := rest } })
      ⟨happart, honce, fun d hd => hwaits d (List.mem_cons_of_mem c hd)⟩ (hwaits c List.mem_cons_self) hc

theorem keyWaitLaw_serveSlot (hs : WaitLawBut k s) : KeyWaitLaw (serveSlot k s) := by
  unfold serveSlot
  split
  next hw => exact ⟨hs.1, fun h => absurd hw h⟩
  next c rest hw =>
    exact keyWaitLaw_set hs rfl (fun _ => mem_mostRecent) (fun _ => hw ▸ List.cons_ne_nil c rest) ⟨_, rfl, .inl rfl⟩

end

/-! ### Operations that keep both laws -/

/-- From s to t both laws of the Key Cache are kept, each for itself, and the limit of the pins. -/
structure KeysKept (s t : State) : Prop where
  cache : CacheLaw s → CacheLaw t
  pins : pinnedCount s ≤ 7 → pinnedCount t ≤ 7
  wait : KeyWaitLaw s → KeyWaitLaw t

theorem KeysKept.refl (s : State) : KeysKept s s := ⟨id, id, id⟩

theorem KeysKept.trans {s t u : State} (h : KeysKept s t) (k : KeysKept t u) : KeysKept s u :=
  ⟨k.cache ∘ h.cache, k.pins ∘ h.pins, k.wait ∘ h.wait⟩

theorem KeysKept.foldl {α : Type} (f : State → α → State) (h : ∀ s a, KeysKept s (f s a)) (l : List α) (s : State) :
    KeysKept s (l.foldl f s) := by
  induction l generalizing s with
  | nil => exact .refl s
  | cons a l ih => exact (h s a).trans (ih _)

theorem pinnedCount_congr {s t : State} (h : t.contexts = s.contexts) : pinnedCount t = pinnedCount s := by
  simp only [pinnedCount, ctxOf, h]

/-- Fewer contexts are pinned where no pin is set. -/
theorem pinnedCount_le {s t : State} (h : ∀ c, (ctxOf t c).pin = true → (ctxOf s c).pin = true) : pinnedCount t ≤ pinnedCount s :=
  (List.monotone_filter_right (List.finRange 16) h).length_le

/-- The Key Cache is as it was, and no pin is set. -/
theorem kept_of_pins {s t : State} (hk : t.keys = s.keys) (hp : ∀ c, (ctxOf t c).pin = true → (ctxOf s c).pin = true) :
    KeysKept s t := by
  refine ⟨fun ⟨hapart, honce, hwaits⟩ => ⟨?_, ?_, fun c hc => ?_⟩, (pinnedCount_le hp).trans, fun h => ?_⟩
  · rwa [SlotsApart, hk]
  · rwa [hk]
  · rw [hk] at hc
    rw [slotOf_congr (congrArg KeyCache.slots hk)]
    exact hwaits c hc
  · rwa [KeyWaitLaw, hk]

/-- What the laws read is as it was. -/
def SameKeys (s t : State) : Prop := t.keys = s.keys ∧ t.contexts = s.contexts

theorem kept_of_same {s t : State} (h : SameKeys s t) : KeysKept s t :=
  kept_of_pins h.1 fun c hc => by rwa [ctxOf_congr h.2] at hc

/-- An operation that leaves alone what the laws read, after others. -/
theorem KeysKept.keeping {s t u : State} (h : KeysKept s t) (k : SameKeys t u) : KeysKept s u := h.trans (kept_of_same k)

/-- An operation that leaves alone what the laws read, before others. -/
theorem KeysKept.since {s t u : State} (h : KeysKept t u) (k : SameKeys s t) : KeysKept s u := (kept_of_same k).trans h

/-- A context's record changes, and no pin is set. -/
theorem kept_setCtx {c : CtxSlot} {x : Context} {s : State} (h : x.pin = true → (ctxOf s c).pin = true) : KeysKept s (setCtx c x s) := by
  refine kept_of_pins rfl fun d hd => ?_
  rw [ctxOf_setCtx] at hd
  split at hd
  next hdc => exact hdc ▸ h hd
  next => exact hd

theorem kept_updateCtx {c : CtxSlot} {f : Context → Context} {s : State} (h : (f (ctxOf s c)).pin = true → (ctxOf s c).pin = true) :
    KeysKept s (updateCtx c f s) := kept_setCtx h

/-- One context's pin is one of those counted (R131). -/
theorem pinnedCount_setCtx (c : CtxSlot) (x : Context) (s : State) :
    pinnedCount (setCtx c x s) + (ctxOf s c).pin.toNat = pinnedCount s + x.pin.toNat := by
  have hcount := countP_differ (List.nodup_finRange 16) (List.mem_finRange c) (p := fun d => (ctxOf (setCtx c x s) d).pin)
    (q := fun d => (ctxOf s d).pin) fun d hd => by rw [ctxOf_setCtx, if_neg hd]
  rwa [List.countP_eq_length_filter, List.countP_eq_length_filter, ctxOf_setCtx, if_pos rfl] at hcount

/-- A pin is set while fewer than 7 contexts are pinned (R131). -/
theorem kept_setPin {c : CtxSlot} {s : State} (h : pinnedCount s < 7) : KeysKept s (updateCtx c (fun x => { x with pin := true }) s) := by
  refine ⟨fun ⟨hapart, honce, hwaits⟩ => ⟨hapart, honce, hwaits⟩, fun _ => ?_, id⟩
  have hcount : pinnedCount (updateCtx c (fun x => { x with pin := true }) s) + (ctxOf s c).pin.toNat = pinnedCount s + 1 :=
    pinnedCount_setCtx c _ s
  omega

section
variable {k : KeyNo} {c : CtxSlot} {f : KeySlot → KeySlot} {s t : State}

/-! ### A slot in use that changes in place -/

theorem updateSlot_free (h : s.keys.slots.get k = none) : updateSlot k f s = s := by
  have hset : s.keys.slots.set k none = s.keys.slots := by
    rw [Vector.get_eq_getElem] at h
    rw [← h]
    exact Vector.set_getElem_self k.isLt
  rw [updateSlot, h, Option.map_none, hset]

theorem updateSlot_slots (k : KeyNo) (f : KeySlot → KeySlot) (s : State) :
    (updateSlot k f s).keys.slots = s.keys.slots.set k ((s.keys.slots.get k).map f) := rfl

theorem cacheLaw_updateSlot (hf : ∀ x, (f x).ctx = x.ctx) (hs : CacheLaw s) : CacheLaw (updateSlot k f s) := by
  refine cacheLaw_set hs (updateSlot_slots k f s) (.refl _) fun y hy => ?_
  obtain ⟨x, hx, rfl⟩ := Option.map_eq_some_iff.1 hy
  rw [hf]
  exact ⟨fun hw => slotOf_none.1 (hs.waits _ hw) k x hx rfl, fun j z hj hz => hs.apart j k z x hj hz hx⟩

/-- The slot keeps its context, and stays engaged where it was (R130). -/
theorem kept_updateSlot (hf : ∀ x, (f x).ctx = x.ctx) (he : ∀ x, Engaged (some x) → Engaged (some (f x))) :
    KeysKept s (updateSlot k f s) := by
  refine ⟨cacheLaw_updateSlot hf, id, fun hs => ?_⟩
  cases hx : s.keys.slots.get k with
  | none => rwa [updateSlot_free hx]
  | some x =>
    refine ⟨hs.1, fun hw j => ?_⟩
    have hj := hs.2 hw j
    rw [updateSlot_slots, get_set, hx]
    split
    next hkj =>
      rw [← hkj, hx] at hj
      exact he x hj
    next => exact hj

/-- The key-wait list is served from a slot if it has become evictable (R130). -/
def served (k : KeyNo) (s : State) : State :=
  if evictable (s.keys.slots.get k) then serveSlot k s else s

/-- The slot keeps its context, and serves the list where it has become evictable. -/
theorem kept_served (hf : ∀ x, (f x).ctx = x.ctx) : KeysKept s (served k (updateSlot k f s)) := by
  unfold served
  split
  next =>
    exact ⟨fun hs => cacheLaw_serveSlot k (cacheLaw_updateSlot hf hs), fun h => by
        rwa [pinnedCount_congr (s := s) (by simp)],
      fun hs => keyWaitLaw_serveSlot (waitLawBut_set hs (updateSlot_slots k f s) rfl rfl)⟩
  next he =>
    refine ⟨cacheLaw_updateSlot hf, id, fun hs => ?_⟩
    cases hx : s.keys.slots.get k with
    | none => rwa [updateSlot_free hx]
    | some x =>
      refine keyWaitLaw_set (keyWaitLaw_but hs k) (updateSlot_slots k f s) (fun _ => id) id ?_
      rw [updateSlot_slots, get_set, if_pos rfl, hx, Option.map_some, Bool.not_eq_true] at he
      rw [hx, Option.map_some]
      exact (engaged_iff _).2 ⟨by simp, he⟩

theorem kept_dropUser (k : KeyNo) (s : State) : KeysKept s (dropUser k s) :=
  kept_served (f := fun x => { x with users := x.users - 1 }) fun _ => rfl

theorem kept_dropUserOf (k : Option KeyNo) (s : State) : KeysKept s (dropUserOf k s) := by
  cases k with
  | none => exact .refl s
  | some k => exact kept_dropUser k s

/-! ### Requests for a key (R128) -/

/-- A context without a slot takes a FREE or an evictable one, or waits where there is none (R128). -/
theorem kept_obtainSlot (hc : slotOf s c = none) : KeysKept s (obtainSlot c s) := by
  have hgiven : ∀ k, c ∉ s.keys.waiting → KeysKept s (allocateSlot k c s) := fun k hw =>
    ⟨fun hs => cacheLaw_allocateSlot hs hc hw, id, fun hs => keyWaitLaw_allocateSlot (keyWaitLaw_but hs k)⟩
  unfold obtainSlot
  split
  next => exact .refl s
  next hw =>
    have hw : c ∉ s.keys.waiting := by simpa using hw
    split
    next k _ => exact hgiven k hw
    next hfree =>
      split
      next k _ => exact hgiven k hw
      next hevict =>
        refine ⟨fun hs => ⟨hs.apart, ?_, fun d hd => ?_⟩, id, fun hs => ⟨hs.1, fun _ k => ?_⟩⟩
        · exact List.nodup_append.2 ⟨hs.once, List.nodup_singleton c, fun a ha b hb => by
            rw [List.mem_singleton.1 hb]; rintro rfl; exact hw ha⟩
        · rcases List.mem_append.1 hd with hd | hd
          · exact hs.waits d hd
          · exact List.mem_singleton.1 hd ▸ hc
        · have hsome := List.find?_eq_none.1 hfree k (List.mem_finRange k)
          have hkept := List.find?_eq_none.1 hevict k (hs.1 k)
          exact (engaged_iff _).2 ⟨by simpa using hsome, by simpa using hkept⟩

/-- A STREAM job raises the users of its context's slot, or a slot is requested for it (R128). -/
theorem kept_queueStream (j : StreamJob) (s : State) : KeysKept s (queueStream j s) := by
  unfold queueStream
  split
  next k _ =>
    refine KeysKept.since (t := { s with eng := { s.eng with streams := s.eng.streams ++ [{ j with keySlot := some k }] } })
      (kept_updateSlot (fun _ => rfl) fun x _ => ?_) ⟨rfl, rfl⟩
    exact ⟨_, rfl, .inr (.inr x.users.succ_pos)⟩
  next h => exact KeysKept.since (kept_obtainSlot h) ⟨rfl, rfl⟩

/-- A slot freed serves the list (R94, R140). -/
theorem kept_freeKeySlot (k : KeyNo) (s : State) : KeysKept s (freeKeySlot k s) := by
  unfold freeKeySlot
  refine ⟨fun hs => cacheLaw_serveSlot k (cacheLaw_set (k := k) (x := none) hs rfl (.refl _) nofun), fun h => ?_,
    fun hs => keyWaitLaw_serveSlot (waitLawBut_set (k := k) (x := none) hs rfl rfl rfl)⟩
  rwa [pinnedCount_congr (s := s) (by simp)]

theorem kept_leaveWaiting (c : CtxSlot) (s : State) : KeysKept s (leaveWaiting c s) :=
  ⟨fun hs => ⟨hs.apart, hs.once.filter _, fun d hd => hs.waits d (List.mem_of_mem_filter hd)⟩, id,
    fun hs => ⟨hs.1, fun hw => hs.2 fun hnil => hw (by simp [leaveWaiting, hnil])⟩⟩

/-! ### Pins (R131, R132) -/

theorem kept_pinContext (h : pinnedCount s < 7) : KeysKept s (pinContext c s) := by
  unfold pinContext
  dsimp only
  refine (kept_setPin (c := c) h).trans ?_
  split
  next => exact kept_updateSlot (fun _ => rfl) fun x _ => ⟨_, rfl, .inr (.inl rfl)⟩
  next hslot => exact kept_obtainSlot hslot

theorem kept_unpinContext (c : CtxSlot) (s : State) : KeysKept s (unpinContext c s) := by
  unfold unpinContext
  dsimp only
  split
  next =>
    refine KeysKept.trans (t := updateCtx c (fun x => { x with pin := false }) s) (kept_updateCtx nofun) ?_
    split
    next => exact kept_served (f := fun x => { x with pinned := false }) fun _ => rfl
    next =>
      split
      next => exact .refl _
      next => exact kept_leaveWaiting c _
  next => exact .refl s

/-! ### Parity failures (R137, R138) -/

/-- A slot that returns to SETUP is that slot with its phase changed. -/
theorem returnToSetup_keys (k : KeyNo) (s : State) :
    (returnToSetup k s).keys = (updateSlot k (fun x => { x with phase := .setup }) s).keys := by
  unfold returnToSetup
  split
  next h => rw [updateSlot_free h]
  next x h => rw [updateSlot, h, Option.map_some]

theorem kept_returnToSetup (k : KeyNo) (f : KeySlot → KeySlot) (hf : ∀ x, (f x).ctx = x.ctx) (s : State) :
    KeysKept s (returnToSetup k (updateSlot k f s)) := by
  have hkeys : (returnToSetup k (updateSlot k f s)).keys = (updateSlot k (fun x => { f x with phase := .setup }) s).keys := by
    rw [returnToSetup_keys]
    cases h : s.keys.slots.get k with
    | none => rw [updateSlot_free h, updateSlot_free h, updateSlot_free h]
    | some x =>
      simp only [updateSlot, get_set, h, Option.map_some, if_true, Vector.set_set]
  have hslot : KeysKept s (updateSlot k (fun x => { f x with phase := .setup }) s) :=
    kept_updateSlot hf fun x _ => ⟨_, rfl, .inl rfl⟩
  exact hslot.keeping ⟨hkeys, by simp⟩

theorem kept_failSlot (k : Option KeyNo) (s : State) : KeysKept s (failSlot k s) := by
  cases k with
  | none => exact .refl s
  | some k =>
    have hslot : KeysKept s (updateSlot k (fun x => { x with phase := .setup }) s) :=
      kept_updateSlot (fun _ => rfl) fun x _ => ⟨_, rfl, .inl rfl⟩
    exact hslot.keeping ⟨returnToSetup_keys k s, by simp [failSlot]⟩

/-- A user fewer and SETUP together: between the two the slot may be evictable (R138; log 25). -/
theorem kept_failUser (k : Option KeyNo) (s : State) : KeysKept s (failSlot k (failUser k s)) := by
  cases k with
  | none => exact .refl s
  | some k => exact kept_returnToSetup k (fun x => { x with users := x.users - 1 }) (fun _ => rfl) s

end

end Sys2Proof.KeysAndEngine
end

