-- ==== Sys2Proof/Proofs/KeyOperations.lean ====
section
namespace Sys2Proof.KeysAndEngine
open Sys2Proof Sys2Proof.Machine Sys2Proof.LinkPassage Sys2Proof.CommandTracking Sys2Proof.RecordingContexts

/-! ### The Keystream Pool asks for keys and gives up users (R145, R149, R156) -/

theorem kept_allocateFrom (o : Owner) (e : Entry) (l : List Nat) (s : State) : KeysKept s (allocateFrom o e l s) := by
  induction l generalizing s with
  | nil => exact .refl s
  | cons off rest ih =>
    unfold allocateFrom
    split
    next =>
      split
      next =>
        refine KeysKept.trans ?_ (ih _)
        exact KeysKept.since (kept_queueStream _ _) ⟨by rfl, by rfl⟩
      next => exact .refl s
    next => exact .refl s

theorem kept_refill (s : State) : KeysKept s (refill s) := by
  unfold refill
  split
  next => exact .refl s
  next =>
    split
    next => exact .refl s
    next => exact kept_allocateFrom _ _ _ s

theorem kept_openPoolBurst (e : Entry) (first count : Nat) (s : State) : KeysKept s (openPoolBurst e first count s) := by
  unfold openPoolBurst
  split
  next => exact kept_of_same ⟨rfl, rfl⟩
  next => exact KeysKept.since (kept_refill _) ⟨rfl, rfl⟩

theorem kept_withdrawStream (p : PoolNo) (s : State) : KeysKept s (withdrawStream p s) := by
  unfold withdrawStream
  split
  next => exact .refl s
  next => exact KeysKept.since (kept_dropUserOf _ _) ⟨rfl, rfl⟩

theorem kept_freePoolSlot (p : PoolNo) (s : State) : KeysKept s (freePoolSlot p s) := by
  unfold freePoolSlot
  exact KeysKept.keeping (KeysKept.since (kept_withdrawStream p _) ⟨by rfl, by rfl⟩) ⟨rfl, rfl⟩

theorem kept_freeSlotsOf (o : Owner) (s : State) : KeysKept s (freeSlotsOf o s) :=
  .foldl (fun s p => freePoolSlot p s) (fun s p => kept_freePoolSlot p s) _ s

theorem kept_freeAllSlots (s : State) : KeysKept s (freeAllSlots s) :=
  KeysKept.since (t := dropPoolBurst s) (.foldl (fun s p => freePoolSlot p s) (fun s p => kept_freePoolSlot p s) _ _) ⟨rfl, rfl⟩

theorem kept_settleSector (o : Owner) (e : Entry) (off : Nat) (s : State) : KeysKept s (settleSector o e off s) := by
  have hserved : ∀ p x, KeysKept s (refill (freePoolSlot p (addSettled off x s))) := fun p x =>
    (KeysKept.since (kept_freePoolSlot p _) ⟨by rfl, by rfl⟩).trans (kept_refill _)
  unfold settleSector
  split
  next => exact .refl s
  next =>
    split
    next => exact kept_of_same ⟨rfl, rfl⟩
    next =>
      split
      next => exact .refl s
      next p _ =>
        split
        next k _ => exact hserved p (some _)
        next => exact hserved p none
        next => exact .refl s

theorem kept_settleFrame (o : Owner) (n : Nat) (s : State) : KeysKept s (settleFrame o n s) := by
  unfold settleFrame
  split
  next => exact .refl s
  next e _ => exact .foldl (fun s off => settleSector o e off s) (fun s off => kept_settleSector o e off s) _ s

theorem kept_settleHeads (s : State) : KeysKept s (settleHeads s) := by
  unfold settleHeads
  cases upstreamHead s with
  | none =>
    dsimp only
    split
    exacts [.refl s, kept_settleFrame _ _ s]
  | some head =>
    dsimp only
    split
    exacts [kept_settleFrame _ _ s, (kept_settleFrame _ _ s).trans (kept_settleFrame _ _ _)]

/-! ### Faults (R139, R190) -/

theorem kept_enterLockdown (s : State) : KeysKept s (enterLockdown s) := by
  have hwithdrawn : ∀ l : List PoolNo, ∀ u, KeysKept u (l.foldl (fun s p => withdrawStream p s) u) :=
    .foldl (fun s p => withdrawStream p s) fun s p => kept_withdrawStream p s
  unfold enterLockdown
  exact KeysKept.keeping (KeysKept.since (hwithdrawn _ _) ⟨by rfl, by rfl⟩) ⟨rfl, rfl⟩

theorem kept_raiseFault (k : FaultKind) (s : State) : KeysKept s (raiseFault k s) := by
  have hnoted : SameKeys s (noted k s) := ⟨rfl, rfl⟩
  by_cases h : Severe k s
  · rw [raiseFault_severe h]
    exact (kept_enterLockdown _).since hnoted
  · rw [raiseFault_mild h]
    exact kept_of_same hnoted

theorem kept_cutExcess (n left : Nat) (s : State) : KeysKept s (cutExcess n left s) := by
  unfold cutExcess
  split
  · exact kept_raiseFault _ s
  · exact .refl s

/-! ### A context's close (R94) -/

theorem kept_completeClose (c : CtxSlot) (s : State) : KeysKept s (completeClose c s) := by
  have hunbound : KeysKept s (unbound c s) :=
    KeysKept.since (t := setRing c none { s with regions := freeRegionsOf c s.regions }) (kept_leaveWaiting c _)
      (by simp [SameKeys])
  have hfreed : KeysKept s ((slotOf s c).elim (unbound c s) fun k => freeKeySlot k (unbound c s)) := by
    cases slotOf s c with
    | none => exact hunbound
    | some k => exact hunbound.trans (kept_freeKeySlot k _)
  refine hfreed.trans (kept_of_pins (completeClose_keys c s) fun d hd => ?_)
  have hctx : ctxOf ((slotOf s c).elim (unbound c s) fun k => freeKeySlot k (unbound c s)) d = ctxOf s d := by
    cases slotOf s c with
    | none => exact ctxOf_congr (s := s) (t := unbound c s) (by simp [unbound]) d
    | some k => exact ctxOf_congr (s := s) (t := freeKeySlot k (unbound c s)) (by simp [unbound]) d
  rw [ctxOf_completeClose] at hd
  rw [hctx]
  split at hd
  next => contradiction
  next => exact hd

theorem kept_tryClose (c : CtxSlot) (s : State) : KeysKept s (tryClose c s) := by
  unfold tryClose
  split
  · exact kept_completeClose c s
  · exact .refl s

theorem kept_completeSeal (c : CtxSlot) (s : State) : KeysKept s (completeSeal c s) := by
  unfold completeSeal
  exact KeysKept.keeping (kept_updateCtx (c := c) (f := fun x => { x with state := .sealed }) id) ⟨rfl, rfl⟩

theorem kept_lowerInFlight (s : State) (c : CtxSlot) : KeysKept s (lowerInFlight s c) := by
  have hcounted : KeysKept s (counted c s) := kept_updateCtx id
  by_cases hseals : Seals c s
  · rw [lowerInFlight_seals hseals]
    exact hcounted.trans (kept_completeSeal c _)
  · by_cases hcloses : Closes c s
    · rw [lowerInFlight_closes hcloses]
      exact hcounted.trans (kept_completeClose c _)
    · rw [lowerInFlight_counts hseals hcloses]
      exact hcounted

/-! ### The ends of entries (R33) -/

theorem kept_releaseEntrySlots (o : Owner) (e : Entry) (s : State) : KeysKept s (releaseEntrySlots o e s) := by
  unfold releaseEntrySlots
  dsimp only
  split
  next => exact (KeysKept.since (kept_freeSlotsOf o _) ⟨by rfl, by rfl⟩).trans (kept_refill _)
  next => exact (kept_freeSlotsOf o s).trans (kept_refill _)

theorem kept_endEntry (o : Owner) (r : Option Bool) (s : State) : KeysKept s (endEntry o r s) := by
  unfold endEntry
  split
  next => exact .refl s
  next e _ =>
    have hnotice : KeysKept s (noticeWithheld o e (reportEnd o e r (releaseEntrySlots o e s))) :=
      (kept_releaseEntrySlots o e s).keeping (by simp [SameKeys])
    have hlowered := hnotice.trans (.foldl lowerInFlight kept_lowerInFlight e.touched _)
    dsimp only
    split <;> exact hlowered.keeping (by simp [SameKeys])

theorem kept_closeOwned (p : Owner → Bool) (s : State) : KeysKept s (closeOwned p s) := by
  unfold closeOwned closeShort
  dsimp only
  split
  next => exact .refl s
  next b _ =>
    have hfreed : KeysKept s (freeSlotsOf b.owner (dropPoolBurst { s with drv := { s.drv with burst := none } })) :=
      KeysKept.since (kept_freeSlotsOf b.owner _) ⟨by rfl, by rfl⟩
    exact hfreed.keeping (by simp [SameKeys])

theorem kept_checkShort (o : Owner) (s : State) : KeysKept s (checkShort o s) := by
  unfold checkShort
  split
  next => exact .refl s
  next =>
    split
    next => exact KeysKept.since (kept_raiseFault _ _) ⟨by rfl, by rfl⟩
    next => exact .refl s

/-! ### Expiry, first views and admission: no pin is set -/

theorem kept_expiryComparison (s : State) : KeysKept s (expiryComparison s) := by
  have hexpire : ∀ u c, KeysKept u (expireContext u c) := fun u c => by
    unfold expireContext
    split
    next => exact .refl u
    next =>
      split
      next => exact KeysKept.keeping (kept_updateCtx (c := c) (f := fun x => { x with state := .expired }) id) ⟨rfl, rfl⟩
      next => exact .refl u
  unfold expiryComparison
  split
  next =>
    split
    next => exact .refl s
    next =>
      split
      next =>
        have hexpired := KeysKept.foldl expireContext hexpire (List.finRange 16) s
        exact hexpired.keeping (by simp [SameKeys])
      next => exact .refl s
  next => exact .refl s

theorem kept_captureViews (plan : List Run) (s : State) : KeysKept s (captureViews plan s) := by
  refine .foldl _ (fun s c => ?_) _ s
  split
  next =>
    exact KeysKept.keeping (kept_setCtx (c := c) (x := SectorClassification.firstViewed s.time.rights (ctxOf s c)) id) ⟨rfl, rfl⟩
  next => exact .refl s

theorem kept_classifyRead {c : CommandFrame} {s : State} {a : Accepted} (h : classifyRead c s = .ok a) : KeysKept s a.after := by
  unfold classifyRead at h
  split at h
  next => contradiction
  next => cases h; exact kept_captureViews _ s

theorem kept_classifyFrontier {c : CommandFrame} {x : CtxSlot} {s : State} {a : Accepted} (h : classifyFrontier c x s = .ok a) :
    KeysKept s a.after := by
  unfold classifyFrontier at h
  split at h
  next => contradiction
  next =>
    split at h
    next => contradiction
    next => cases h; exact kept_updateCtx (c := x) (f := fun y => { y with frontier := _ }) id

theorem kept_classifyRing {o : Owner} {c : CommandFrame} {x : CtxSlot} {s : State} {a : Accepted} (h : classifyRing o c x s = .ok a) :
    KeysKept s a.after := by
  unfold classifyRing at h
  split at h
  next => contradiction
  next =>
    split at h
    next => contradiction
    next =>
      split at h
      next => contradiction
      next => cases h; exact kept_of_same ⟨rfl, rfl⟩

theorem kept_classifyWrite {o : Owner} {c : CommandFrame} {s : State} {a : Accepted} (h : classifyWrite o c s = .ok a) :
    KeysKept s a.after := by
  unfold classifyWrite at h
  dsimp only at h
  split at h
  next => cases h; exact .refl s
  next =>
    split at h
    next => contradiction
    next =>
      split at h
      next => contradiction
      next =>
        split at h
        next => contradiction
        next =>
          split at h
          next => exact kept_classifyRing h
          next => exact kept_classifyFrontier h

theorem kept_classify {o : Owner} {c : CommandFrame} {s : State} {a : Accepted} (h : classify o c s = .ok a) : KeysKept s a.after := by
  unfold classify at h
  split at h
  next => contradiction
  next =>
    split at h
    next => exact kept_classifyRead h
    next => exact kept_classifyWrite h

theorem kept_enter (o : Owner) (e : Entry) (s : State) : KeysKept s (enter o e s) :=
  KeysKept.since (.foldl raiseInFlight (fun _ _ => kept_updateCtx id) _ _) ⟨by rfl, by rfl⟩

theorem kept_enterQueued (c : CommandFrame) (a : Accepted) : KeysKept a.after (enterQueued c a) := by
  unfold enterQueued
  dsimp only
  split <;> exact (kept_enter _ _ _).keeping ⟨by rfl, by rfl⟩

theorem kept_enterSingle (c : CommandFrame) (a : Accepted) : KeysKept a.after (enterSingle c a) := by
  unfold enterSingle
  dsimp only
  split <;> exact (kept_enter _ _ _).keeping ⟨by rfl, by rfl⟩

theorem kept_takeCommand (c : CommandFrame) (s : State) : KeysKept s (takeCommand c s) := by
  have ht := taken_takeCommand c s
  generalize takeCommand c s = t at ht ⊢
  cases ht with
  | refusedQueued | refusedSingle | refusedPlain | bridge => exact kept_of_same ⟨rfl, rfl⟩
  | queued a _ _ _ _ h => exact (kept_classify h).trans (kept_enterQueued c a)
  | single a _ _ _ h => exact (kept_classify h).trans (kept_enterSingle c a)
  | other => exact kept_enterSingle c (plainPlan [] s)

/-! ### The frames of a burst -/

theorem kept_passSectors (o : Owner) (l : List Sector) (s : State) : KeysKept s (passSectors o l s).2 := by
  have hcounted : ∀ w u, KeysKept u (countCtxWithheld w u) := fun w u => by
    unfold countCtxWithheld
    split
    · exact .refl u
    · exact kept_updateCtx id
  have hpassed : ∀ w u, KeysKept u (passSector o w u).2 := fun w u => by
    unfold passSector
    split
    next e _ =>
      split
      next b _ =>
        have hset : SameKeys u (setEntry o (some (passedEntry (nextOffset b) (treatSector u e (nextOffset b) w) e)) u) := ⟨rfl, rfl⟩
        exact KeysKept.keeping ((hcounted _ _).since hset) ⟨by rfl, by rfl⟩
      next => exact kept_of_same ⟨rfl, rfl⟩
    next => exact kept_of_same ⟨rfl, rfl⟩
  induction l generalizing s with
  | nil => exact .refl s
  | cons w l ih => exact (hpassed w s).trans (ih _)

theorem kept_passDown (b : UpBurst) (d : DataFrame) (s : State) : KeysKept s (passDown b d s) := by
  unfold passDown
  dsimp only
  refine KeysKept.trans ?_ (kept_cutExcess _ _ _)
  exact (kept_passSectors b.owner (d.sectors.take (min d.sectors.length b.left)) s).keeping (by simp [SameKeys])

theorem kept_passUp (b : DriveBurst) (d : DataFrame) (s : State) : KeysKept s (passUp b d s) := by
  unfold passUp
  dsimp only
  refine KeysKept.trans ?_ (kept_cutExcess _ _ _)
  exact (kept_passSectors b.owner (d.sectors.take (min d.sectors.length b.left)) s).keeping (by simp [SameKeys])

/-! ### The frames of the drive -/

theorem kept_takeReady (r : ReadyFrame) (s : State) : KeysKept s (takeReady r s) := by
  have hopen : ∀ e, KeysKept s (openBurst r e s) := fun e => by
    unfold openBurst
    exact KeysKept.keeping (KeysKept.since (kept_openPoolBurst _ _ _ _) ⟨by rfl, by rfl⟩) ⟨rfl, rfl⟩
  unfold takeReady
  split
  next =>
    unfold strayReady
    split <;> exact KeysKept.since (kept_raiseFault _ _) ⟨rfl, rfl⟩
  next e _ =>
    dsimp only
    split
    next => exact (hopen e).trans (KeysKept.since (kept_raiseFault _ _) ⟨by rfl, by rfl⟩)
    next => exact hopen e

theorem kept_strayDataDrive (n : Nat) (s : State) : KeysKept s (strayDataDrive n s) := by
  unfold strayDataDrive
  repeat' split
  case _ => exact kept_raiseFault _ s
  case _ => exact kept_of_same ⟨rfl, rfl⟩
  case _ => exact kept_of_same ⟨rfl, rfl⟩
  case _ => exact KeysKept.since (kept_raiseFault _ _) ⟨rfl, rfl⟩

theorem kept_takeDataDrive (d : DataFrame) (s : State) : KeysKept s (takeDataDrive d s) := by
  unfold takeDataDrive
  split
  · split
    · exact kept_passUp _ d s
    · exact kept_strayDataDrive _ s
  · exact kept_strayDataDrive _ s

theorem kept_flushReleased (s : State) : KeysKept s (flushReleased s) := kept_of_same (by simp [SameKeys])

theorem kept_takeAcceptance (r : AcceptRecord) (rest : List AcceptRecord) (f : StatusFrame) (s : State) :
    KeysKept s (takeAcceptance r rest f s) := by
  have haccepted : ∀ u, SameKeys u (acceptedBy r f u) := fun u => by unfold acceptedBy; split <;> exact ⟨rfl, rfl⟩
  have hrejected : ∀ u, KeysKept u (rejectedBy r f u) := fun u => by
    unfold rejectedBy
    dsimp only
    split <;> exact (kept_endEntry (.tag r.tag) (some false) u).keeping ⟨rfl, rfl⟩
  have hcleared : ∀ u, KeysKept u (clearQueueWait u) := fun u => kept_of_same (by simp [SameKeys])
  unfold takeAcceptance
  refine KeysKept.since (t := { s with trk := { s.trk with accepts := rest } }) (KeysKept.trans ?_ (kept_flushReleased _)) ⟨rfl, rfl⟩
  split
  · exact hcleared _
  · split
    · exact (hcleared _).since (haccepted _)
    · exact hrejected _

theorem kept_completeSingle (f : StatusFrame) (s : State) : KeysKept s (completeSingle f s) := by
  have hjudged : KeysKept s (judged f s) := by
    unfold judged
    split
    · exact (kept_closeOwned _ s).trans (kept_checkShort _ _)
    · exact kept_closeOwned _ s
  rw [completeSingle_eq]
  exact ((hjudged.trans (kept_endEntry _ _ _)).trans (kept_of_same (t := placeRelayed _ _) ⟨rfl, rfl⟩)).trans (kept_flushReleased _)

theorem kept_takeStatus (f : StatusFrame) (s : State) : KeysKept s (takeStatus f s) := by
  unfold takeStatus
  split
  · split
    · exact kept_raiseFault _ s
    · exact kept_takeAcceptance _ _ f s
  · split
    · exact kept_completeSingle f s
    · exact kept_raiseFault _ s

theorem kept_answerAhead (k : Tag) (s : State) : KeysKept s (answerAhead k s) := kept_of_same (by simp [SameKeys])

theorem kept_endDone (l : List Tag) (s : State) : KeysKept s (endDone l s).2 := by
  induction l generalizing s with
  | nil => exact .refl s
  | cons k l ih =>
    have hready := (kept_checkShort (.tag k) s).trans (kept_answerAhead k _)
    unfold endDone
    dsimp only
    split <;> exact (hready.trans (kept_endEntry _ _ _)).trans (ih _)

theorem kept_endFailed (s : State) (p : Byte × Byte) : KeysKept s (endFailed s p) :=
  (kept_answerAhead _ s).trans (kept_endEntry _ _ _)

theorem kept_abortEntry (k : Tag) (e : Entry) (s : State) : KeysKept s (abortEntry k e s).2 := by
  unfold abortEntry
  repeat' split
  all_goals exact (kept_endEntry (.tag k) none s).keeping ⟨rfl, rfl⟩

theorem kept_abortEntries (l : List Tag) (s : State) : KeysKept s (abortEntries l s).2 := by
  induction l generalizing s with
  | nil => exact .refl s
  | cons k l ih =>
    unfold abortEntries
    split
    · exact ih s
    · exact (kept_abortEntry _ _ _).trans (ih _)

theorem kept_abortQueued (s : State) : KeysKept s (abortQueued s).2 :=
  (kept_abortEntries (List.finRange 32) s).keeping (by simp [SameKeys, abortQueued])

theorem kept_abortSingle (s : State) : KeysKept s (abortSingle s) := by
  unfold abortSingle
  split
  · exact .refl s
  · split
    · exact (kept_endEntry .single none s).keeping ⟨rfl, rfl⟩
    · exact kept_of_same (by simp [SameKeys])

theorem kept_relayDone (d : DoneFrame) (l : List Tag) (m : List (Byte × Byte)) (s : State) : KeysKept s (relayDone d l m s) := by
  unfold relayDone
  split <;> exact kept_of_same ⟨rfl, rfl⟩

theorem kept_doneEnded (d : DoneFrame) (s : State) : KeysKept s (doneEnded d s) := by
  have hslip : ∀ b u, KeysKept u (slipDone b u) := fun b u => by
    unfold slipDone
    split
    · exact kept_raiseFault _ u
    · exact .refl u
  exact ((kept_closeOwned _ s).trans (hslip _ _)).trans ((kept_endDone _ _).trans (.foldl endFailed kept_endFailed _ _))

theorem kept_takeDone (d : DoneFrame) (s : State) : KeysKept s (takeDone d s) := by
  have hended := kept_doneEnded d s
  unfold doneEnded at hended
  unfold takeDone
  dsimp only at hended ⊢
  refine (hended.trans ?_).trans (kept_flushReleased _)
  split
  · exact ((kept_abortQueued _).trans (kept_relayDone _ _ _ _)).trans (kept_abortSingle _)
  · exact kept_relayDone _ _ _ _

theorem kept_takeDrive (f : Frame) (s : State) : KeysKept s (takeDrive f s) := by
  unfold takeDrive
  split
  next =>
    refine kept_of_same ?_
    unfold takeInReset
    dsimp only
    repeat' split
    all_goals exact ⟨rfl, rfl⟩
  next =>
    split
    next =>
      split
      next r _ => exact kept_takeReady r s
      next d _ => exact kept_takeDataDrive d s
      next t _ => exact kept_takeStatus t s
      next d _ => exact kept_takeDone d s
      all_goals exact .refl s
    next => exact kept_raiseFault _ s

end Sys2Proof.KeysAndEngine
end

