-- ==== Sys2Proof/Proofs/KeyLawKept.lean ====
section
namespace Sys2Proof.KeysAndEngine
open Sys2Proof Sys2Proof.Machine Sys2Proof.LinkPassage Sys2Proof.CommandTracking Sys2Proof.RecordingContexts

/-! ### Requests of the bridge -/

theorem kept_startClose (c : CtxSlot) (s : State) : KeysKept s (startClose c s) := by
  have hwithdrawn : KeysKept s (withdrawn c s) :=
    KeysKept.keeping (kept_updateCtx (c := c) (f := fun x => { x with state := .closing, receipt := closingReceipt x.receipt }) id)
      ⟨rfl, rfl⟩
  have hstarted : KeysKept s (closeStarted c s) := (hwithdrawn.trans (kept_unpinContext c _)).keeping (by simp [SameKeys, closeStarted])
  rw [startClose_eq]
  exact hstarted.trans (kept_tryClose c _)

theorem kept_closeContext (slot : Byte) (s : State) : KeysKept s (closeContextRequest slot s).after := by
  unfold closeContextRequest refuses accepts
  split
  next => exact .refl s
  next c _ =>
    split
    · exact .refl s
    · split
      · exact .refl s
      · exact kept_startClose c s

theorem kept_loadContext (slot : Byte) (b : Blob) (s : State) : KeysKept s (loadContextRequest slot b s).after := by
  have hloading : ∀ c cls opening, KeysKept s (setCtx c (loadingContext b cls opening) s) := fun c cls opening =>
    kept_setCtx (x := loadingContext b cls opening) nofun
  unfold loadContextRequest refuses accepts
  dsimp only
  repeat' split
  any_goals exact .refl s
  exact (hloading _ _ _).keeping ⟨rfl, rfl⟩

theorem kept_sealContext (slot : Byte) (s : State) : KeysKept s (sealContextRequest slot s).after := by
  unfold sealContextRequest refuses accepts
  split
  next => exact .refl s
  next c _ =>
    split
    · exact .refl s
    · split
      · exact kept_completeSeal c s
      · exact kept_updateCtx (c := c) (f := fun x => { x with state := .sealing }) id

theorem same_enableRegion (e : EntryNo) (r : Region) (s : State) : SameKeys s (enableRegion e r s) := by
  unfold enableRegion
  dsimp only
  split <;> exact ⟨rfl, rfl⟩

theorem kept_addRegion (p : RegionParams) (s : State) : KeysKept s (addRegionRequest p s).after := by
  rcases RingQueues.addRegion_after p s with h | ⟨e, r, h⟩ <;> rw [h]
  · exact .refl s
  · exact kept_of_same (same_enableRegion e r s)

theorem same_freeRegion (e : EntryNo) (r : Region) (s : State) : SameKeys s (freeRegion e r s) := by
  have hdeleted : ∀ c u, SameKeys u (deleteRing c u) := fun c u => by
    unfold deleteRing
    split <;> simp [SameKeys]
  have hreleased : ∀ u, SameKeys u (flushReleased u) := fun u => by simp [SameKeys]
  unfold freeRegion
  dsimp only
  split
  · obtain ⟨hkeys, hcontexts⟩ := hdeleted r.ctx { s with regions := s.regions.set e none }
    obtain ⟨hkeys', hcontexts'⟩ := hreleased (deleteRing r.ctx { s with regions := s.regions.set e none })
    exact ⟨hkeys'.trans hkeys, hcontexts'.trans hcontexts⟩
  · exact ⟨rfl, rfl⟩

theorem kept_removeRegion (entry : Byte) (s : State) : KeysKept s (removeRegionRequest entry s).after := by
  rcases removeRegion_after entry s with h | ⟨e, r, -, h⟩ <;> rw [h]
  · exact .refl s
  · exact kept_of_same (same_freeRegion e r s)

/-- PIN_KEY sets a pin only while fewer than 7 contexts are pinned (R131). -/
theorem kept_pinKey (slot : Byte) (s : State) : KeysKept s (pinKeyRequest slot s).after := by
  unfold pinKeyRequest refuses accepts
  split
  next => exact .refl s
  next c _ =>
    dsimp only
    split
    · exact .refl s
    · split
      · exact .refl s
      · split
        next => exact .refl s
        next hlimit => exact kept_pinContext (not_le.1 hlimit)

theorem kept_unpinKey (slot : Byte) (s : State) : KeysKept s (unpinKeyRequest slot s).after := by
  unfold unpinKeyRequest refuses accepts
  split
  exacts [.refl s, kept_unpinContext _ s]

/-- CLEAR_UNIT frees every slot, empties the key-wait list and blanks the contexts (R99). -/
theorem kept_clearUnit (s : State) : KeysKept s (clearUnitRequest s).after := by
  unfold clearUnitRequest refuses accepts
  split
  · refine ⟨fun _ => ⟨fun j k x y _ hj => ?_, List.nodup_nil, nofun⟩, fun _ => ?_, fun hs => ⟨hs.1, fun h => absurd rfl h⟩⟩
    · simp [clearUnit, Vector.get_eq_getElem] at hj
    · simp [pinnedCount, ctxOf, clearUnit, Vector.get_eq_getElem, Context.blank]
  · exact .refl s

theorem kept_writeSettings (p : SettingsParams) (s : State) : KeysKept s (writeSettingsRequest p s).after := by
  unfold writeSettingsRequest refuses accepts
  split
  · exact .refl s
  · split
    next => exact .refl s
    next v _ => exact KeysKept.since (kept_refill _) ⟨by rfl, by rfl⟩

/-- A request that names no context, no pin and no setting leaves the Key Cache and the contexts alone (R172). -/
theorem kept_executeRequest (r : Request) (s : State) : KeysKept s (executeRequest r s).after := by
  cases r <;> simp only [executeRequest]
  case loadContext slot b => exact kept_loadContext slot b s
  case sealContext slot => exact kept_sealContext slot s
  case closeContext slot => exact kept_closeContext slot s
  case clearUnit => exact kept_clearUnit s
  case addRegion p => exact kept_addRegion p s
  case removeRegion entry => exact kept_removeRegion entry s
  case pinKey slot => exact kept_pinKey slot s
  case unpinKey slot => exact kept_unpinKey slot s
  case writeSettings p => exact kept_writeSettings p s
  all_goals refine kept_of_same ?_
  case readContext => unfold readContextRequest refuses replies; split <;> exact ⟨rfl, rfl⟩
  case readReceipt => unfold readReceiptRequest refuses replies; repeat' split
                      all_goals exact ⟨rfl, rfl⟩
  case readRegions => unfold readRegionsRequest refuses replies; split <;> exact ⟨rfl, rfl⟩
  case setShiftDepth => unfold setShiftDepthRequest refuses accepts; dsimp only; repeat' split
                        all_goals exact ⟨rfl, rfl⟩
  case setRightsTime => unfold setRightsTimeRequest refuses accepts; split <;> exact ⟨rfl, rfl⟩
  case drain => unfold drainRequest accepts; dsimp only; split <;> exact ⟨rfl, rfl⟩
  all_goals exact ⟨rfl, rfl⟩

theorem same_answerRequest (x : Executed) : SameKeys x.after (answerRequest x) := by
  unfold answerRequest
  split <;> exact ⟨rfl, rfl⟩

theorem kept_takeRequest (block : Sector) (s : State) : KeysKept s (takeRequest block s) := by
  unfold takeRequest
  split
  · exact kept_of_same (same_answerRequest (refuses .malformed s))
  · exact (kept_executeRequest _ s).keeping (same_answerRequest _)

/-! ### The frames of the controller -/

theorem kept_takeDataUp (d : DataFrame) (s : State) : KeysKept s (takeDataUp d s) := by
  unfold takeDataUp
  split
  next =>
    unfold strayDataUp
    split
    exacts [kept_of_same ⟨rfl, rfl⟩, KeysKept.since (kept_raiseFault _ _) ⟨rfl, rfl⟩]
  next b _ =>
    split
    next =>
      unfold takeBlock
      split
      next => exact .refl s
      next block _ _ =>
        have hrequest : KeysKept s (takeRequest block (closedBurst s)) := (kept_takeRequest block _).since ⟨rfl, rfl⟩
        exact hrequest.trans (kept_cutExcess _ _ _)
    next => exact kept_passDown b d s

theorem kept_takeUp (f : Frame) (s : State) : KeysKept s (takeUp f s) := by
  unfold takeUp
  split
  next =>
    split
    next c _ => exact kept_takeCommand c s
    next d _ => exact kept_takeDataUp d s
    all_goals exact .refl s
  next => exact kept_raiseFault _ s

theorem kept_ports (s : State) : KeptByPorts (KeysKept s) where
  links _ _ _ _ h := h.keeping ⟨rfl, rfl⟩
  settle _ h := h.trans (kept_settleHeads _)
  up f t h := h.trans (kept_takeUp f t)
  drive f t h := h.trans (kept_takeDrive f t)

theorem kept_run {s t : State} (h : KeysKept s t) : KeysKept s (run t) := (kept_ports s).run h

/-! ### The events of the ports -/

theorem kept_endQueued (s : State) : KeysKept s (endQueued s) := .foldl _ (fun s o => kept_endEntry o none s) _ s

theorem kept_linkReset (s : State) : KeysKept s (linkResetEvent s) := by
  have hfreed : KeysKept s (freeAllSlots (resetPorts s)) := (kept_freeAllSlots _).since ⟨rfl, rfl⟩
  have hentries : KeysKept s (resetEntries s) :=
    (hfreed.trans ((kept_endQueued _).trans (kept_endEntry .single none _))).keeping (by simp [SameKeys, resetEntries])
  have hdrop : ∀ u, SameKeys u (dropReply u) := fun _ => ⟨rfl, rfl⟩
  rw [linkResetEvent_eq]
  exact (hentries.keeping (hdrop _)).keeping (by simp [SameKeys])

theorem kept_loseBurst (s : State) : KeysKept s (loseBurst s) := by
  unfold loseBurst
  split
  next => exact .refl s
  next b _ =>
    have hfreed : KeysKept s (freeSlotsOf b.owner (dropPoolBurst { s with drv := { s.drv with burst := none } })) :=
      KeysKept.since (kept_freeSlotsOf b.owner _) ⟨by rfl, by rfl⟩
    dsimp only
    split <;> exact hfreed.keeping (by simp [SameKeys])

theorem kept_endLost (s : State) : KeysKept s (endLost s) := by
  unfold endLost
  split
  · exact (kept_endQueued s).trans (kept_endEntry _ _ _)
  · exact kept_endQueued s

theorem kept_lossEvent (s : State) : KeysKept s (lossEvent s) := by
  have hports : KeysKept s (lostPorts s) := (kept_loseBurst s).keeping ⟨rfl, rfl⟩
  have hanswer : ∀ u, KeysKept u (answerLoss s u) :=
    .foldl (fun s f => placePart f s) (fun _ _ => kept_of_same ⟨rfl, rfl⟩) (lossAnswers s)
  have hended : KeysKept s (clearAccepts (endLost (lostPorts s))) := (hports.trans (kept_endLost _)).keeping ⟨rfl, rfl⟩
  have hraised := (hended.trans (hanswer _)).trans
    (KeysKept.since (kept_raiseFault .driveLost (queueNotice .driveLost none none none (lossCount s) _)) ⟨rfl, rfl⟩)
  exact hraised.keeping (by simp [SameKeys, lossEvent])

/-! ### The ends of jobs (R134 to R138) -/

theorem kept_setupEvent (s : State) : KeysKept s (setupEvent s) := by
  unfold setupEvent
  split
  next j _ _ =>
    split
    next => exact kept_of_same ⟨rfl, rfl⟩
    next =>
      have hready : KeysKept (endRunning s) (served j.slot
          (updateSlot j.slot (fun x => { x with phase := .ready (ctxOf (endRunning s) j.ctx).key }) (endRunning s))) :=
        kept_served fun _ => rfl
      exact (hready.since (s := s) ⟨rfl, rfl⟩).trans (kept_tryClose j.ctx _)
  next => exact .refl s

theorem kept_putPhase (p : PoolNo) (x : PoolPhase) (s : State) : KeysKept s (putPhase p x s) := kept_of_same (by simp [SameKeys])

theorem kept_streamDone (s : State) : KeysKept s (streamDone s) := by
  unfold streamDone finishStream
  split
  next j _ _ =>
    have hended : SameKeys s (endRunning s) := ⟨rfl, rfl⟩
    split
    · exact (kept_dropUserOf _ _).since hended
    · split
      · exact (kept_dropUserOf _ _).since hended
      · exact (((kept_putPhase _ _ _).trans (kept_settleHeads _)).trans (kept_dropUserOf _ _)).since hended
  next => exact .refl s

theorem kept_firstFailure (j : StreamJob) (discard : Bool) (s : State) : KeysKept s (firstFailure j discard s) := by
  unfold firstFailure
  refine KeysKept.trans ?_ (kept_raiseFault _ _)
  split
  · exact kept_failUser j.keySlot s
  · exact (kept_failSlot j.keySlot s).keeping (by simp [SameKeys])

theorem kept_secondFailure (j : StreamJob) (discard : Bool) (s : State) : KeysKept s (secondFailure j discard s) := by
  unfold secondFailure
  refine KeysKept.trans (KeysKept.trans ?_ (kept_failUser j.keySlot _)) (kept_raiseFault _ _)
  split
  · exact .refl s
  · exact (kept_putPhase _ _ s).trans (kept_settleHeads _)

theorem kept_parityDone (s : State) : KeysKept s (parityDone s) := by
  unfold parityDone
  split
  next j discard _ =>
    split
    · exact (kept_secondFailure j discard _).since ⟨rfl, rfl⟩
    · exact (kept_firstFailure j discard _).since ⟨rfl, rfl⟩
  next => exact .refl s

theorem kept_unwrapEvent (s : State) : KeysKept s (unwrapEvent s) := by
  have haccepted : ∀ c b u, KeysKept u (acceptBlob c b u) := fun c b u => by
    have hloaded : KeysKept u (updateCtx c (loadedContext (unwrapKey b)) u) := kept_updateCtx id
    unfold acceptBlob
    dsimp only
    split <;> exact hloaded.keeping (by simp [SameKeys])
  have hrejected : ∀ c u, KeysKept u (rejectBlob c u) := fun c u =>
    KeysKept.keeping (kept_setCtx (c := c) (x := .blank) nofun) ⟨rfl, rfl⟩
  unfold unwrapEvent finishUnwrap
  split
  next c b _ =>
    refine KeysKept.since (t := endRunning s) ?_ ⟨rfl, rfl⟩
    split
    · split
      exacts [haccepted c b _, hrejected c _]
    · exact kept_tryClose c _
  next => exact .refl s

theorem kept_receiptEvent (s : State) : KeysKept s (receiptEvent s) := by
  unfold receiptEvent finishReceipt
  split
  next c _ _ _ _ =>
    refine KeysKept.since (t := endRunning s) (KeysKept.trans ?_ (kept_tryClose c _)) ⟨rfl, rfl⟩
    split
    exacts [kept_updateCtx id, .refl _]
  next => exact .refl s

theorem same_judgeToken (time : BitVec 32) (check : Block) (s : State) : SameKeys s (judgeToken time check s) := by
  unfold judgeToken moveTime
  repeat' split
  all_goals exact ⟨rfl, rfl⟩

theorem kept_tokenEvent (s : State) : KeysKept s (tokenEvent s) := by
  unfold tokenEvent finishToken
  split
  next time check _ =>
    have hjudged : KeysKept s (judgeToken time check { endRunning s with time := { (endRunning s).time with token := none } }) :=
      KeysKept.since (kept_of_same (same_judgeToken time check _)) ⟨rfl, rfl⟩
    exact hjudged.trans (kept_expiryComparison _)
  next => exact .refl s

/-- A job's start changes the slots' order of use alone: no slot leaves it (R129). -/
theorem kept_startJob (s : State) : KeysKept s (startJob s) := by
  have hstream : ∀ j : StreamJob, KeysKept s (startStream j s) := fun j => by
    have hlru : ∀ k ∈ s.keys.lru, k ∈ (startStream j s).keys.lru := fun k hk => by
      unfold startStream
      cases j.keySlot with
      | none => exact hk
      | some i => exact mem_mostRecent hk
    exact ⟨fun ⟨happart, honce, hwaits⟩ => ⟨happart, honce, hwaits⟩, id, fun hs => ⟨fun k => hlru k (hs.1 k), hs.2⟩⟩
  unfold startJob startNext
  split
  · exact .refl s
  · repeat' split
    case _ => exact kept_of_same ⟨rfl, rfl⟩
    case _ j _ => exact hstream j
    case _ => exact kept_of_same ⟨rfl, rfl⟩
    case _ => exact .refl s

theorem kept_tick (s : State) : KeysKept s (tickEvent s) := KeysKept.since (kept_expiryComparison _) ⟨by rfl, by rfl⟩

theorem kept_period (s : State) : KeysKept s (referencePeriod s) := by
  unfold referencePeriod
  split
  exacts [kept_of_same ⟨rfl, rfl⟩, kept_tick s]

theorem same_sendItem (k : Nat) (i : SendItem) (s : State) : SameKeys s (sendItem k i s) := by
  unfold sendItem sentItem sentReady sentData openUpstream placeReply
  dsimp only
  repeat' split
  all_goals simp [SameKeys]

/-! ### Every step -/

/-- POWER_ON leaves what reset leaves of the Key Cache and the contexts. -/
theorem kept_powerOn (s : State) : KeysKept s (powerOnEvent s) := by
  obtain ⟨hcache, hpins⟩ := (keyLaw_iff _).1 keyLaw_reset
  have hreset : KeysKept State.reset (powerOnEvent s) := kept_of_same ⟨rfl, rfl⟩
  exact ⟨fun _ => hreset.cache hcache, fun _ => hreset.pins hpins, fun _ => hreset.wait keyWaitLaw_reset⟩

theorem kept_of_step {s t : State} (h : step s = .next t) : KeysKept s t := by
  obtain ⟨l, he⟩ := event_of_step h
  refine KeysKept.since (t := { s with pending := l }) ?_ ⟨rfl, rfl⟩
  generalize ({ s with pending := l } : State) = u at he
  cases he with
  | powerOn => exact kept_powerOn u
  | upstreamUp => exact kept_of_same ⟨rfl, rfl⟩
  | linkReset => exact kept_linkReset u
  | driveUp => exact kept_run (kept_of_same ⟨rfl, rfl⟩)
  | driveLost => exact kept_run (kept_lossEvent u)
  | tick => exact kept_tick u
  | period => exact kept_period u
  | up f => exact (kept_ports u).arriveUp f (.refl u)
  | drive f => exact (kept_ports u).arriveDrive f (.refl u)
  | send =>
    rcases transmit_cases u with h | ⟨k, i, -, -, h⟩ <;> rw [h]
    exacts [.refl u, kept_run (kept_of_same (same_sendItem k i u))]
  | start => exact kept_startJob u
  | setup => exact kept_setupEvent u
  | stream =>
    rcases streamEvent_cases u with h | h <;> rw [h]
    exacts [.refl u, kept_run (kept_streamDone u)]
  | parity =>
    rcases parityEvent_cases u with h | h <;> rw [h]
    exacts [.refl u, kept_run (kept_parityDone u)]
  | unwrap => exact kept_unwrapEvent u
  | receipt => exact kept_receiptEvent u
  | token => exact kept_tokenEvent u

/-- Settles O58: every step is made of changes to the Key Cache and the pins that keep its two laws. -/
theorem keyLawKept : Obligations.KeyLawKept := by
  intro s t h
  have hkept := kept_of_step h
  refine ⟨fun hs => ?_, hkept.wait⟩
  obtain ⟨hcache, hpins⟩ := (keyLaw_iff s).1 hs
  exact (keyLaw_iff t).2 ⟨hkept.cache hcache, hkept.pins hpins⟩

end Sys2Proof.KeysAndEngine
end

