-- ==== Sys2Proof/Proofs/EngineArbiter.lean ====
section
namespace Sys2Proof.KeysAndEngine
open Sys2Proof Sys2Proof.Machine

/-! ### The engine's choice (R133, R135; log 33) -/

section
variable {s : State} {j : StreamJob} {l m : List StreamJob}

/-- The STREAM job chosen: ready, with no ready job before it but unretried ones where it is retried, and no ready retried job behind it where it is
not. -/
theorem nextStream_ready (hs : s.eng.streams = l ++ j :: m) (hj : eligible s j = true)
    (hl : ∀ i ∈ l, eligible s i = true → j.retried = true ∧ i.retried = false)
    (hm : ∀ i ∈ m, eligible s i = true → i.retried = true → j.retried = true) : nextStream s = some j := by
  unfold nextStream
  rw [hs]
  cases hr : j.retried with
  | true =>
    have hfirst : (l ++ j :: m).find? (fun j => j.retried && eligible s j) = some j := by
      refine List.find?_eq_some_iff_append.2 ⟨by rw [hr, hj]; rfl, l, m, rfl, fun i hi => ?_⟩
      cases hready : eligible s i with
      | false => simp
      | true => simp [(hl i hi hready).2]
    rw [hfirst, Option.some_or]
  | false =>
    have hbefore : ∀ i ∈ l, ¬eligible s i = true := fun i hi hready => by
      have := (hl i hi hready).1
      simp [hr] at this
    have hnone : (l ++ j :: m).find? (fun j => j.retried && eligible s j) = none := by
      refine List.find?_eq_none.2 fun i hi h => ?_
      obtain ⟨hretried, hready⟩ := Bool.and_eq_true_iff.1 h
      rcases List.mem_append.1 hi with hi | hi
      · exact hbefore i hi hready
      · rcases List.mem_cons.1 hi with rfl | hi
        · simp [hr] at hretried
        · simpa [hr] using hm i hi hready hretried
    rw [hnone, Option.none_or]
    exact List.find?_eq_some_iff_append.2 ⟨hj, l, m, rfl, fun i hi => by simpa using hbefore i hi⟩

theorem nextStream_none (h : ∀ i ∈ s.eng.streams, ¬eligible s i = true) : nextStream s = none := by
  have hretried : s.eng.streams.find? (fun j => j.retried && eligible s j) = none :=
    List.find?_eq_none.2 fun i hi hp => h i hi (Bool.and_eq_true_iff.1 hp).2
  rw [nextStream, hretried, Option.none_or]
  exact List.find?_eq_none.2 h

/-! ### The start of a job -/

theorem startJob_running (h : s.eng.running.isSome = true) : startJob s = s := if_pos h

theorem startJob_idle (h : s.eng.running = none) : startJob s = startNext s := if_neg (by simp [h])

theorem startNext_setup {j : SetupJob} {rest : List SetupJob} (h : s.eng.setups = j :: rest) : startNext s = startSetup j rest s := by
  rw [startNext, h]

theorem startNext_stream (h : s.eng.setups = []) (hj : nextStream s = some j) : startNext s = startStream j s := by
  rw [startNext, h]
  dsimp only
  rw [hj]

theorem startNext_other {j : OtherJob} {rest : List OtherJob} (h : s.eng.setups = []) (hn : nextStream s = none)
    (hj : s.eng.others = j :: rest) : startNext s = startOther j rest s := by
  rw [startNext, h]
  dsimp only
  rw [hn, hj]

theorem startNext_nothing (h : s.eng.setups = []) (hn : nextStream s = none) (ho : s.eng.others = []) : startNext s = s := by
  rw [startNext, h]
  dsimp only
  rw [hn, ho]

/-- A STREAM job's start moves its key slot to the most recent end (R129). -/
theorem startStream_eq {k : KeyNo} (hk : j.keySlot = some k) :
    startStream j s =
      { s with
        eng := { s.eng with streams := s.eng.streams.filter fun i => i.pool ≠ j.pool, running := some (.stream j false) }
        keys := { s.keys with lru := mostRecent k s.keys.lru } } := by
  rw [startStream, hk]
  rfl

end

/-- Settles O30: a job starts only in an idle engine, and by the first of the three choices that has one. -/
theorem engineArbiterOrder : Obligations.EngineArbiterOrder := by
  intro s ready
  have hready : ∀ j, eligible s j = true ↔ ready j := eligible_iff s
  have hexec : exec .engineJobStart s = .next (startJob s) := rfl
  refine ⟨fun h => by rw [hexec, startJob_running h], fun hidle => ?_⟩
  rw [hexec, startJob_idle hidle]
  refine ⟨fun j rest h => by rw [startNext_setup h]; rfl, fun hsetups => ⟨fun l m j k hs hj hk hl hm => ?_, fun hnone => ?_⟩⟩
  · have hnext : nextStream s = some j :=
      nextStream_ready hs ((hready j).2 hj) (fun i hi h => hl i hi ((hready i).1 h)) fun i hi h => hm i hi ((hready i).1 h)
    rw [startNext_stream hsetups hnext, startStream_eq hk]
    rfl
  · have hnext : nextStream s = none := nextStream_none fun i hi h => hnone i hi ((hready i).1 h)
    exact ⟨fun j rest h => by rw [startNext_other hsetups hnext h]; rfl, fun h => by rw [startNext_nothing hsetups hnext h]⟩

end Sys2Proof.KeysAndEngine
end

