-- ==== Sys2Proof/Proofs/ParityAndTokens.lean ====
section
namespace Sys2Proof.KeysAndEngine
open Sys2Proof Sys2Proof.Machine

/-! ### Parity failures of a job not due for discard (R137, R138) -/

section
variable {s : State} {j : StreamJob} {k : KeyNo} {x : KeySlot} {y : PoolSlot}

/-- A slot in use returns to SETUP with its context, mark and users, and its SETUP is queued (R137). -/
theorem returnToSetup_eq (hx : s.keys.slots.get k = some x) :
    returnToSetup k s =
      { s with
        keys := { s.keys with slots := s.keys.slots.set k (some { x with phase := .setup }) }
        eng := { s.eng with setups := s.eng.setups ++ [{ slot := k, ctx := x.ctx }] } } := by
  rw [returnToSetup, hx]

/-- A user fewer and SETUP, the second parity failure's change of the key slot (R138). -/
theorem failSlot_failUser (hk : j.keySlot = some k) (hx : s.keys.slots.get k = some x) :
    failSlot j.keySlot (failUser j.keySlot s) =
      { s with
        keys := { s.keys with slots := s.keys.slots.set k (some { x with phase := .setup, users := x.users - 1 }) }
        eng := { s.eng with setups := s.eng.setups ++ [{ slot := k, ctx := x.ctx }] } } := by
  have huser : failUser (some k) s =
      { s with keys := { s.keys with slots := s.keys.slots.set k (some { x with users := x.users - 1 }) } } :=
    SectorClassification.updateSlot_eq _ hx
  have hget : (failUser (some k) s).keys.slots.get k = some { x with users := x.users - 1 } := by
    rw [huser]
    exact (get_set _ k k _).trans (if_pos rfl)
  rw [hk, failSlot, returnToSetup_eq hget, huser]
  simp only [Vector.set_set]

theorem firstFailure_eq (hk : j.keySlot = some k) (hx : s.keys.slots.get k = some x) :
    firstFailure j false s = raiseFault .keyParity
      { s with
        eng := { s.eng with
          setups := s.eng.setups ++ [{ slot := k, ctx := x.ctx }], streams := s.eng.streams ++ [{ j with retried := true }] }
        keys := { s.keys with slots := s.keys.slots.set k (some { x with phase := .setup }) } } := by
  have hslot : failSlot j.keySlot s = returnToSetup k s := by rw [hk]; rfl
  exact congrArg (raiseFault .keyParity) (congrArg (requeue j) (hslot.trans (returnToSetup_eq hx)))

theorem secondFailure_eq (hk : j.keySlot = some k) (hx : s.keys.slots.get k = some x) (hy : s.pool.slots.get j.pool = some y)
    (ha : y.phase = .assigned) (hq : Quiet s) :
    secondFailure j false s = raiseFault .transform
      { s with
        eng := { s.eng with setups := s.eng.setups ++ [{ slot := k, ctx := x.ctx }] }
        keys := { s.keys with slots := s.keys.slots.set k (some { x with phase := .setup, users := x.users - 1 }) }
        pool := { s.pool with slots := s.pool.slots.set j.pool (some { y with phase := .faulted }) } } := by
  have hfaulted : settleHeads (putPhase j.pool .faulted s) =
      { s with pool := { s.pool with slots := s.pool.slots.set j.pool (some { y with phase := .faulted }) } } := by
    rw [SectorClassification.putPhase_assigned _ hy ha]
    exact settleHeads_quiet hq
  refine congrArg (raiseFault .transform) ?_
  refine (congrArg (fun u => failSlot j.keySlot (failUser j.keySlot u)) hfaulted).trans ?_
  exact failSlot_failUser (x := x) hk hx

/-- With no frame standing, a parity failure is the failure's handling alone. -/
theorem parityEvent_quiet (hrun : s.eng.running = some (.stream j false)) (f : FaultKind) (u : State) (hu : Quiet u)
    (h : (if j.retried then secondFailure j false (endRunning s) else firstFailure j false (endRunning s)) = raiseFault f u) :
    parityEvent s = raiseFault f u := by
  have hq : Quiet (raiseFault f u) := by
    obtain ⟨hup, hdrv, -⟩ := raiseFault_keeps f u
    rwa [Quiet, hup, hdrv]
  rw [parityEvent, hrun]
  dsimp only
  rw [h, run_quiet hq]

end

/-- Settles O32: the first failure requeues the job, the second faults its pool slot; either way the key slot goes back to SETUP. -/
theorem parityFailuresHandled : Obligations.ParityFailuresHandled := by
  intro s j k x y hrun hk hx hy ha hq setups
  refine ⟨fun hr => congrArg Host.Outcome.next ?_, fun hr => congrArg Host.Outcome.next ?_⟩
  · refine parityEvent_quiet hrun _ _ hq ?_
    rw [hr]
    exact firstFailure_eq (s := endRunning s) hk hx
  · refine parityEvent_quiet hrun _ _ hq ?_
    rw [hr]
    exact secondFailure_eq (s := endRunning s) hk hx hy ha hq

/-! ### Time tokens (R163, R164) -/

/-- The expiry comparison expires nothing while rights time is not past its value (R167). -/
theorem expiryComparison_idle {s : State} (h : ∀ v, s.time.compare = some v → s.time.rights ≤ v) : expiryComparison s = s := by
  unfold expiryComparison
  split
  next =>
    split
    next => rfl
    next v hv => exact if_neg (not_lt.2 (h v hv))
  next => rfl

section
variable {time : BitVec 32} {check : Block} {s : State}

theorem judgeToken_mismatch (h : tokenCheck time ≠ check) :
    judgeToken time check s = queueNotice .timeRefused none none (some .check) time.toNat s := if_pos h

/-- A token that checks sets rights time where it is not set yet or not ahead of the token (R163). -/
theorem judgeToken_sets (h : tokenCheck time = check) (hset : s.time.rightsSet = false ∨ s.time.rights ≤ time.toNat) :
    judgeToken time check s = setTime time.toNat s := by
  refine (if_neg (not_not_intro h)).trans ?_
  cases hr : s.time.rightsSet with
  | false => rfl
  | true => exact if_pos (hset.resolve_left (by simp [hr]))

/-- A token that checks is held or refused where rights time is set and ahead of it (R163, R164). -/
theorem judgeToken_behind (h : tokenCheck time = check) (hset : s.time.rightsSet = true) (hlt : time.toNat < s.time.rights) :
    judgeToken time check s =
      if s.time.rights - time.toNat ≤ 300 then queueNotice .timeHeld none none none (s.time.rights - time.toNat) s
      else queueNotice .timeRefused none none (some .rollback) time.toNat s := by
  refine (if_neg (not_not_intro h)).trans ((if_pos hset).trans ?_)
  exact if_neg (not_le.2 hlt)

end

/-- The engine is idle again and no token pends: the state in which a token is judged (R125). -/
def tokenEnded (s : State) : State :=
  { s with eng := { s.eng with running := none }, time := { s.time with token := none } }

/-- A token's completion is its judgement alone where what it leaves is past no expiry (R163, R167). -/
theorem exec_token {s u : State} {time : BitVec 32} {check : Block} (hrun : s.eng.running = some (.other (.token time check)))
    (hu : judgeToken time check (tokenEnded s) = u) (hexpiry : ∀ v, u.time.compare = some v → u.time.rights ≤ v) :
    exec .timeTokenCheckComplete s = .next u := by
  have hevent : tokenEvent s = expiryComparison (judgeToken time check (tokenEnded s)) := by
    rw [tokenEvent, hrun]
    rfl
  refine congrArg Host.Outcome.next (hevent.trans ?_)
  rw [hu, expiryComparison_idle hexpiry]

/-- Settles O35: the judgement's cases, none of which leaves rights time past an expiry. -/
theorem tokenSetsRightsTime : Obligations.TokenSetsRightsTime := by
  intro s time check hrun c n valid idle hexpiry
  have hkept : ∀ v, s.time.compare = some v → s.time.rights ≤ v := fun v hv => (le_max_left c n).trans (hexpiry v hv)
  have hset : ∀ v, s.time.compare = some v → n ≤ v := fun v hv => (le_max_right c n).trans (hexpiry v hv)
  refine ⟨fun hcheck => ?_, fun hcheck h => ?_, fun hcheck hr hlt hle => ?_, fun hcheck hr hlt => ?_⟩
  · exact exec_token hrun (judgeToken_mismatch (Ne.symm hcheck)) hkept
  · exact exec_token hrun (judgeToken_sets (s := tokenEnded s) (Eq.symm hcheck) h) hset
  · refine exec_token hrun ((judgeToken_behind (s := tokenEnded s) (Eq.symm hcheck) hr hlt).trans (if_pos ?_)) hkept
    exact Nat.sub_le_iff_le_add'.2 hle
  · refine exec_token hrun ((judgeToken_behind (s := tokenEnded s) (Eq.symm hcheck) hr ?_).trans (if_neg ?_)) hkept
    · exact Nat.lt_of_add_right_lt hlt
    · exact not_le.2 (Nat.lt_sub_iff_add_lt'.2 hlt)

end Sys2Proof.KeysAndEngine
end

