-- ==== Sys2Proof/Proofs/KeyPins.lean ====
section
namespace Sys2Proof.KeysAndEngine
open Sys2Proof Sys2Proof.Machine Sys2Proof.CommandTracking Sys2Proof.RecordingContexts

/-! ### A slot obtained (R128 to R130) -/

/-- A context has the pin flag given. -/
def withPin (c : CtxSlot) (pin : Bool) (s : State) : State :=
  { s with contexts := s.contexts.set c { ctxOf s c with pin := pin } }

/-- A context's pin flag, and with it the pinned mark of its key slot (R131, R132). -/
def withMark (c : CtxSlot) (k : KeyNo) (y : KeySlot) (pin : Bool) (s : State) : State :=
  { withPin c pin s with keys := { s.keys with slots := s.keys.slots.set k (some { y with pinned := pin }) } }

theorem waitsFor_eq (c : CtxSlot) : waitsFor c = fun j => decide (j.ctx = c ∧ j.keySlot = none) := by
  funext j
  cases h : j.keySlot <;> simp [waitsFor, h]

theorem waitsFor_none {c : CtxSlot} {l : List StreamJob} (h : ∀ j ∈ l, j.ctx ≠ c) : ∀ j ∈ l, waitsFor c j = false :=
  fun j hj => by simp [waitsFor_eq, h j hj]

section
variable {c d : CtxSlot} {k : KeyNo} {y : KeySlot} {s : State}

/-- The context and its users move into the slot: those of the STREAM jobs that wait for its key (R128, R129). -/
theorem allocateSlot_eq (k : KeyNo) (c : CtxSlot) (s : State) :
    allocateSlot k c s =
      { s with
        keys := { s.keys with
          slots := s.keys.slots.set k (some
            { ctx := c, phase := .setup, pinned := (ctxOf s c).pin,
              users := (s.eng.streams.filter fun j => j.ctx = c ∧ j.keySlot = none).length })
          lru := (s.keys.lru.filter fun j => j ≠ k) ++ [k] }
        eng := { s.eng with
          setups := s.eng.setups ++ [{ slot := k, ctx := c }]
          streams := s.eng.streams.map fun j => if j.ctx = c ∧ j.keySlot = none then { j with keySlot := some k } else j } } := by
  simp only [allocateSlot, waitsFor_eq, decide_eq_true_eq, mostRecent]

/-- No STREAM job has waited for the context's key. -/
theorem allocateSlot_fresh (h : ∀ j ∈ s.eng.streams, j.ctx ≠ c) :
    allocateSlot k c s =
      { s with
        keys := { s.keys with
          slots := s.keys.slots.set k (some { ctx := c, phase := .setup, pinned := (ctxOf s c).pin, users := 0 })
          lru := (s.keys.lru.filter fun j => j ≠ k) ++ [k] }
        eng := { s.eng with setups := s.eng.setups ++ [{ slot := k, ctx := c }] } } := by
  have hnobody := waitsFor_none h
  have hfilter : s.eng.streams.filter (waitsFor c) = [] := List.filter_eq_nil_iff.2 fun j hj => by simp [hnobody j hj]
  have hmap : (s.eng.streams.map fun j => if waitsFor c j then { j with keySlot := some k } else j) = s.eng.streams :=
    (List.map_congr_left fun j hj => if_neg (by simp [hnobody j hj])).trans (List.map_id _)
  unfold allocateSlot
  rw [hfilter, hmap]
  rfl

theorem obtainSlot_waiting (h : c ∈ s.keys.waiting) : obtainSlot c s = s := if_pos (List.contains_iff_mem.2 h)

/-- The lowest FREE slot is taken (R128). -/
theorem obtainSlot_free (hw : c ∉ s.keys.waiting) (hk : s.keys.slots.get k = none) (hlow : ∀ j, j < k → s.keys.slots.get j ≠ none) :
    obtainSlot c s = allocateSlot k c s := by
  have hfind : (List.finRange 8).find? (fun k => (s.keys.slots.get k).isNone) = some k := by
    refine List.find?_eq_some_iff_getElem.2 ⟨by simp [hk], k, by simp, by simp, fun j hj => ?_⟩
    simpa [Option.isSome_iff_ne_none] using hlow ⟨j, hj.trans k.isLt⟩ hj
  rw [obtainSlot, if_neg (by simpa using hw), hfind]

theorem find_free_none (h : ∀ j, s.keys.slots.get j ≠ none) :
    (List.finRange 8).find? (fun k => (s.keys.slots.get k).isNone) = none :=
  List.find?_eq_none.2 fun j _ => by simpa using h j

/-- With none FREE the least recent evictable slot is taken (R128, R129). -/
theorem obtainSlot_evicts {l m : List KeyNo} (hw : c ∉ s.keys.waiting) (hused : ∀ j, s.keys.slots.get j ≠ none)
    (hlru : s.keys.lru = l ++ k :: m) (hk : evictable (s.keys.slots.get k) = true)
    (hl : ∀ j ∈ l, ¬evictable (s.keys.slots.get j) = true) : obtainSlot c s = allocateSlot k c s := by
  have hfind : s.keys.lru.find? (fun k => evictable (s.keys.slots.get k)) = some k :=
    List.find?_eq_some_iff_append.2 ⟨hk, l, m, hlru, fun j hj => by simpa using hl j hj⟩
  rw [obtainSlot, if_neg (by simpa using hw), find_free_none hused]
  dsimp only
  rw [hfind]

/-- With none FREE and none evictable the context joins the key-wait list (R130). -/
theorem obtainSlot_joins (hw : c ∉ s.keys.waiting) (hused : ∀ j, s.keys.slots.get j ≠ none)
    (hnone : ∀ j ∈ s.keys.lru, ¬evictable (s.keys.slots.get j) = true) :
    obtainSlot c s = { s with keys := { s.keys with waiting := s.keys.waiting ++ [c] } } := by
  have hfind : s.keys.lru.find? (fun k => evictable (s.keys.slots.get k)) = none := List.find?_eq_none.2 hnone
  rw [obtainSlot, if_neg (by simpa using hw), find_free_none hused]
  dsimp only
  rw [hfind]

/-! ### A slot served (R130) -/

theorem served_engaged (h : ¬evictable (s.keys.slots.get k) = true) : served k s = s := if_neg h

theorem served_nobody (h : s.keys.waiting = []) : served k s = s := by
  rw [served, serveSlot_nobody k s h, ite_self]

theorem served_head {rest : List CtxSlot} (h : evictable (s.keys.slots.get k) = true) (hw : s.keys.waiting = d :: rest) :
    served k s = allocateSlot k d { s with keys := { s.keys with waiting := rest } } := by
  rw [served, if_pos h, serveSlot, hw]

/-! ### The pin of a context (R131, R132) -/

theorem slotOf_updateCtx (f : Context → Context) (s : State) : slotOf (updateCtx d f s) c = slotOf s c := slotOf_congr rfl c

theorem withMark_slot (pin : Bool) (s : State) : (withMark c k y pin s).keys.slots.get k = some { y with pinned := pin } :=
  (get_set _ k k _).trans (if_pos rfl)

theorem pinContext_slot (h : slotOf s c = some k) (hy : s.keys.slots.get k = some y) : pinContext c s = withMark c k y true s := by
  unfold pinContext
  dsimp only
  rw [slotOf_updateCtx, h]
  exact SectorClassification.updateSlot_eq _ hy

theorem pinContext_noSlot (h : slotOf s c = none) : pinContext c s = obtainSlot c (withPin c true s) := by
  unfold pinContext
  dsimp only
  rw [slotOf_updateCtx, h]
  rfl

theorem unpinContext_unpinned (h : (ctxOf s c).pin = false) : unpinContext c s = s := if_neg (by simp [h])

theorem unpinContext_slot (hp : (ctxOf s c).pin = true) (h : slotOf s c = some k) (hy : s.keys.slots.get k = some y) :
    unpinContext c s = served k (withMark c k y false s) := by
  rw [unpinContext, if_pos hp]
  dsimp only
  rw [slotOf_updateCtx, h]
  exact congrArg (served k) (SectorClassification.updateSlot_eq (s := withPin c false s) _ hy)

theorem unpinContext_noSlot (hp : (ctxOf s c).pin = true) (h : slotOf s c = none) :
    unpinContext c s = if s.eng.streams.any (waitsFor c) then withPin c false s else leaveWaiting c (withPin c false s) := by
  rw [unpinContext, if_pos hp]
  dsimp only
  rw [slotOf_updateCtx, h]
  rfl

theorem ctxOf_withPin (c d : CtxSlot) (pin : Bool) (s : State) :
    ctxOf (withPin c pin s) d = if d = c then { ctxOf s c with pin := pin } else ctxOf s d := ctxOf_setCtx c d _ s

/-- The slot obtained for a pinned context that has no STREAM job: in SETUP, pinned, with no users (R128, R131). -/
theorem pinContext_takes (h : slotOf s c = none)
    (htaken : obtainSlot c (withPin c true s) = allocateSlot k c (withPin c true s)) (hfresh : ∀ j ∈ s.eng.streams, j.ctx ≠ c) :
    pinContext c s =
      { withPin c true s with
        keys := { s.keys with
          slots := s.keys.slots.set k (some { ctx := c, phase := .setup, pinned := true, users := 0 })
          lru := (s.keys.lru.filter fun j => j ≠ k) ++ [k] }
        eng := { s.eng with setups := s.eng.setups ++ [{ slot := k, ctx := c }] } } := by
  have hpin : (ctxOf (withPin c true s) c).pin = true := by rw [ctxOf_withPin, if_pos rfl]
  rw [pinContext_noSlot h, htaken, allocateSlot_fresh (s := withPin c true s) hfresh, hpin]
  rfl

/-- A slot that stays engaged, or that nobody waits for, loses its pinned mark alone (R132). -/
theorem unpinContext_keeps (hp : (ctxOf s c).pin = true) (h : slotOf s c = some k) (hy : s.keys.slots.get k = some y)
    (hkeeps : s.keys.waiting = [] ∨ y.phase = .setup ∨ 0 < y.users) :
    unpinContext c s = withMark c k y false s := by
  rw [unpinContext_slot hp h hy]
  rcases hkeeps with hw | hy
  · exact served_nobody hw
  · refine served_engaged fun he => ?_
    obtain ⟨hphase, -, husers⟩ := (evictable_iff _).1 (withMark_slot false s ▸ he)
    exact hy.elim hphase husers.not_gt

/-- A slot that has become evictable goes to the head of the key-wait list, with the STREAM jobs that wait there as its users (R130, R132). -/
theorem unpinContext_serves {rest : List CtxSlot} (hp : (ctxOf s c).pin = true) (h : slotOf s c = some k)
    (hy : s.keys.slots.get k = some y) (hw : s.keys.waiting = d :: rest) (hphase : y.phase ≠ .setup) (husers : y.users = 0)
    (hd : d ≠ c) :
    unpinContext c s =
      { withPin c false s with
        keys :=
          { slots := s.keys.slots.set k (some
              { ctx := d, phase := .setup, pinned := (ctxOf s d).pin,
                users := (s.eng.streams.filter fun j => j.ctx = d ∧ j.keySlot = none).length })
            lru := (s.keys.lru.filter fun j => j ≠ k) ++ [k]
            waiting := rest }
        eng := { s.eng with
          setups := s.eng.setups ++ [{ slot := k, ctx := d }]
          streams := s.eng.streams.map fun j => if j.ctx = d ∧ j.keySlot = none then { j with keySlot := some k } else j } } := by
  have hctx : ctxOf (withPin c false s) d = ctxOf s d := by rw [ctxOf_withPin, if_neg hd]
  refine (unpinContext_slot hp h hy).trans ((served_head (s := withMark c k y false s) ?_ hw).trans ?_)
  · rw [withMark_slot]
    exact (evictable_iff _).2 ⟨hphase, rfl, husers⟩
  · rw [allocateSlot_eq, ← hctx]
    simp only [withMark, Vector.set_set]
    rfl

end

/-- The slots that PIN_KEY may evict, by their fields (R129). -/
theorem evictable_iff_ready (x : Option KeySlot) :
    evictable x = true ↔ ∃ y w, x = some y ∧ y.phase = .ready w ∧ y.pinned = false ∧ y.users = 0 := by
  cases x with
  | none => simp [evictable]
  | some y => cases h : y.phase <;> simp [evictable_iff, h]

/-! ### PIN_KEY and UNPIN_KEY -/

/-- A context in one of the four states of R131. -/
def Pinnable (x : Context) : Prop :=
  x.state = .recording ∨ x.state = .sealing ∨ x.state = .sealed ∨ x.state = .expired

section
variable {slot : Byte} {c : CtxSlot} {s t : State}

theorem pinKeyRequest_noSlot (h : slotOperand slot = none) : pinKeyRequest slot s = refuses .outOfRange s := by
  simp only [pinKeyRequest, h]

theorem unpinKeyRequest_noSlot (h : slotOperand slot = none) : unpinKeyRequest slot s = refuses .outOfRange s := by
  simp only [unpinKeyRequest, h]

theorem unpinKeyRequest_accepts (hc : slotOperand slot = some c) : unpinKeyRequest slot s = accepts (unpinContext c s) := by
  simp only [unpinKeyRequest, hc]

theorem pinKeyRequest_improper (hc : slotOperand slot = some c) (h : ¬Pinnable (ctxOf s c)) :
    pinKeyRequest slot s = refuses .wrongState s := by
  simp only [pinKeyRequest, hc]
  exact if_pos h

theorem pinKeyRequest_pinned (hc : slotOperand slot = some c) (h : Pinnable (ctxOf s c)) (hp : (ctxOf s c).pin = true) :
    pinKeyRequest slot s = accepts s := by
  simp only [pinKeyRequest, hc]
  exact (if_neg (not_not_intro h)).trans (if_pos hp)

/-- The checks past the states: the limit of 7, then the pin (R131). -/
theorem pinKeyRequest_unpinned (hc : slotOperand slot = some c) (h : Pinnable (ctxOf s c)) (hp : (ctxOf s c).pin = false) :
    pinKeyRequest slot s = if 7 ≤ pinnedCount s then refuses .pinLimit s else accepts (pinContext c s) := by
  simp only [pinKeyRequest, hc]
  exact (if_neg (not_not_intro h)).trans (if_neg (by simp [hp]))

theorem exec_unpins (hc : slotOperand slot = some c) (ha : AwaitsBlock s) (h : unpinContext c (closedBurst s) = closedBurst t) :
    exec (.unpinKey slot) s = .next (answered okFrame t) :=
  exec_accepted (r := .unpinKey slot) rfl ha ((unpinKeyRequest_accepts hc).trans (congrArg accepts h))

theorem exec_pins (hc : slotOperand slot = some c) (ha : AwaitsBlock s) (hx : Pinnable (ctxOf s c)) (hp : (ctxOf s c).pin = false)
    (hn : pinnedCount s < 7) (h : pinContext c (closedBurst s) = closedBurst t) :
    exec (.pinKey slot) s = .next (answered okFrame t) := by
  refine exec_accepted (r := .pinKey slot) rfl ha ?_
  refine (pinKeyRequest_unpinned (s := closedBurst s) hc hx hp).trans ((if_neg (not_le.2 hn)).trans ?_)
  exact congrArg accepts h

end

/-- Settles O47: the checks in their order, then what the pin flag does to the context's slot, or to the key-wait list where it has none. -/
theorem pinsSetAndCleared : Obligations.PinsSetAndCleared := by
  intro slot s ha
  refine ⟨fun h => ?_, ?_⟩
  · have hc := slotOperand_of_ge h
    exact ⟨exec_refused (r := .pinKey slot) rfl ha (pinKeyRequest_noSlot hc),
      exec_refused (r := .unpinKey slot) rfl ha (unpinKeyRequest_noSlot hc)⟩
  intro c hval x usable pinned marked evicts
  have hc := slotOperand_of_val hval
  have hevicts : ∀ k, evictable (s.keys.slots.get k) = true ↔ evicts k := fun k => evictable_iff_ready _
  refine ⟨fun hx => ?improper, fun hx hp => ?already, fun hx hp hn => ?limit, fun hx hp hn => ?pins, fun hp => ?unpinned,
    fun hp => ?unpins⟩
  case improper => exact exec_refused (r := .pinKey slot) rfl ha (pinKeyRequest_improper (s := closedBurst s) hc hx)
  case already => exact exec_accepted (r := .pinKey slot) rfl ha (pinKeyRequest_pinned (s := closedBurst s) hc hx hp)
  case limit =>
    exact exec_refused (r := .pinKey slot) rfl ha ((pinKeyRequest_unpinned (s := closedBurst s) hc hx hp).trans (if_pos hn))
  case pins =>
    refine ⟨fun k y hk hy => ?_, fun hk hw => ?_, fun k hk hw hfree hlow hfresh => ?_,
      fun hk hw hused => ⟨fun k l m hlru he hl hfresh => ?_, fun hnone => ?_⟩⟩ <;> refine exec_pins hc ha hx hp hn ?_
    · exact pinContext_slot (s := closedBurst s) hk hy
    · exact (pinContext_noSlot (s := closedBurst s) hk).trans (obtainSlot_waiting hw)
    · exact pinContext_takes (s := closedBurst s) hk (obtainSlot_free hw hfree hlow) hfresh
    · exact pinContext_takes (s := closedBurst s) hk
        (obtainSlot_evicts hw hused hlru ((hevicts k).2 he) fun j hj => mt (hevicts j).1 (hl j hj)) hfresh
    · exact (pinContext_noSlot (s := closedBurst s) hk).trans
        (obtainSlot_joins hw hused fun j hj => mt (hevicts j).1 (hnone j hj))
  case unpinned => exact exec_unpins hc ha (unpinContext_unpinned (s := closedBurst s) hp)
  case unpins =>
    refine ⟨fun k y hk hy hw => ?_, fun k y d rest hk hy hw => ⟨fun hkeeps => ?_, fun hphase husers hd => ?_⟩,
      fun hk ⟨j, hj, hjc, hjk⟩ => ?_, fun hk hfresh => ?_⟩ <;> refine exec_unpins hc ha ?_
    · exact unpinContext_keeps (s := closedBurst s) hp hk hy (.inl hw)
    · exact unpinContext_keeps (s := closedBurst s) hp hk hy (.inr hkeeps)
    · exact unpinContext_serves (s := closedBurst s) hp hk hy hw hphase husers hd
    · refine (unpinContext_noSlot (s := closedBurst s) hp hk).trans (if_pos ?_)
      exact List.any_eq_true.2 ⟨j, hj, by simp [waitsFor_eq, hjc, hjk]⟩
    · refine (unpinContext_noSlot (s := closedBurst s) hp hk).trans (if_neg ?_)
      rw [Bool.not_eq_true]
      exact List.any_eq_false.2 fun j hj => by simp [waitsFor_none hfresh j hj]

end Sys2Proof.KeysAndEngine
end

