-- ==== Sys2Proof/Proofs/PoolOperations.lean ====
section
namespace Sys2Proof.KeystreamPool
open Sys2Proof Sys2Proof.Machine Sys2Proof.LinkPassage

/-! ### The law of the pool, by what it reads (R142, R175) -/

section
variable {s t : State}

/-- The pool slots and L are as they were. -/
def SamePool (s t : State) : Prop := t.pool.slots = s.pool.slots ∧ t.req.lookahead = s.req.lookahead

theorem poolLaw_same (h : SamePool s t) (hs : PoolLaw s) : PoolLaw t := by
  obtain ⟨hslots, hlook⟩ := h
  simpa only [PoolLaw, slotsHeld, hslots, hlook] using hs

/-- Every pool slot in use was in use for the same owner: slots become FREE or change their phase, and none is given. -/
def OwnersKept (s t : State) : Prop :=
  ∀ p x, t.pool.slots.get p = some x → ∃ y, s.pool.slots.get p = some y ∧ y.owner = x.owner

theorem OwnersKept.slotsHeld_le (h : OwnersKept s t) (o : Owner) : slotsHeld t o ≤ slotsHeld s o := by
  refine (List.monotone_filter_right (List.finRange 64) fun p hp => ?_).length_le
  obtain ⟨x, hx, hxo⟩ := Option.map_eq_some_iff.1 (of_decide_eq_true hp)
  obtain ⟨y, hy, hyx⟩ := h p x hx
  exact decide_eq_true (Option.map_eq_some_iff.2 ⟨y, hy, hyx.trans hxo⟩)

theorem poolLaw_ownersKept (h : OwnersKept s t) (hl : t.req.lookahead = s.req.lookahead) (hs : PoolLaw s) : PoolLaw t := by
  obtain ⟨hlook, hheld⟩ := hs
  exact ⟨hl ▸ hlook, fun o => (h.slotsHeld_le o).trans (hheld o)⟩

/-- One pool slot becomes FREE or changes in place. -/
theorem ownersKept_set {p : PoolNo} {x : Option PoolSlot} (ht : t.pool.slots = s.pool.slots.set p x)
    (hx : ∀ z, x = some z → ∃ y, s.pool.slots.get p = some y ∧ y.owner = z.owner) : OwnersKept s t := fun q z hz => by
  rw [ht, get_set] at hz
  split at hz
  next hpq => exact hpq ▸ hx z hz
  next => exact ⟨z, hz, rfl⟩

end

/-! ### Allocation (R144 to R146) -/

section
variable {s t : State}

theorem slotsHeld_take_other {p : PoolNo} {x : PoolSlot} {o : Owner} (hp : s.pool.slots.get p = none) (hx : x.owner ≠ o)
    (ht : t.pool.slots = s.pool.slots.set p (some x)) : slotsHeld t o = slotsHeld s o := by
  unfold slotsHeld
  refine congrArg List.length (List.filter_congr fun q _ => ?_)
  rw [ht, get_set]
  split
  next hpq => simp [← hpq, hp, hx]
  next => rfl

theorem freePool_free {p : PoolNo} (h : freePool s = some p) : s.pool.slots.get p = none :=
  Option.isNone_iff_eq_none.1 (List.find?_some (p := fun q => (s.pool.slots.get q).isNone) h)

/-- A FREE slot is given to a command that holds fewer than L (R145). -/
theorem poolLaw_assignSlot {o : Owner} {p : PoolNo} (off : Nat) (c : CtxSlot) (lap logical : Nat) (hp : s.pool.slots.get p = none)
    (hroom : slotsHeld s o < s.req.lookahead) (hs : PoolLaw s) : PoolLaw (assignSlot o off c lap logical p s) := by
  obtain ⟨hlook, hheld⟩ := hs
  obtain ⟨hslots, -⟩ := assigned_leaves o off c lap logical p s
  refine ⟨by simpa using hlook, fun q => ?_⟩
  by_cases hq : o = q
  · subst hq
    rw [slotsHeld_take hp rfl hslots]
    exact hroom.trans_le hlook
  · rw [slotsHeld_take_other hp hq hslots]
    exact hheld q

theorem poolLaw_allocateFrom (o : Owner) (e : Entry) (l : List Nat) (hs : PoolLaw s) : PoolLaw (allocateFrom o e l s) := by
  induction l generalizing s with
  | nil => exact hs
  | cons off rest ih =>
    unfold allocateFrom
    split
    next p c lap logical hfree _ =>
      split
      next hroom =>
        have hrest : PoolLaw { s with pool := { s.pool with unserved := rest } } := poolLaw_same ⟨rfl, rfl⟩ hs
        exact ih (poolLaw_assignSlot off c lap logical (freePool_free hfree) hroom hrest)
      next => exact hs
    next => exact hs

theorem poolLaw_refill (hs : PoolLaw s) : PoolLaw (refill s) := by
  unfold refill
  split
  next => exact hs
  next =>
    split
    next => exact hs
    next => exact poolLaw_allocateFrom _ _ _ hs

theorem poolLaw_openPoolBurst (e : Entry) (first count : Nat) (hs : PoolLaw s) : PoolLaw (openPoolBurst e first count s) := by
  unfold openPoolBurst
  split
  next => exact poolLaw_same ⟨rfl, rfl⟩ hs
  next => exact poolLaw_refill (poolLaw_same ⟨rfl, rfl⟩ hs)

/-! ### Release (R143, R156, R157) -/

theorem poolLaw_freePoolSlot (p : PoolNo) (hs : PoolLaw s) : PoolLaw (freePoolSlot p s) := by
  have hslots : (freePoolSlot p s).pool.slots = s.pool.slots.set p none := by rw [freePoolSlot_pool]
  exact poolLaw_ownersKept (ownersKept_set hslots (by simp)) (by simp) hs

theorem poolLaw_freeSlots (l : List PoolNo) (hs : PoolLaw s) : PoolLaw (l.foldl (fun s p => freePoolSlot p s) s) :=
  List.foldlRecOn l _ hs fun _ hu p _ => poolLaw_freePoolSlot p hu

theorem poolLaw_freeSlotsOf (o : Owner) (hs : PoolLaw s) : PoolLaw (freeSlotsOf o s) := poolLaw_freeSlots _ hs

theorem poolLaw_dropPoolBurst (hs : PoolLaw s) : PoolLaw (dropPoolBurst s) := poolLaw_same ⟨rfl, rfl⟩ hs

theorem poolLaw_freeAllSlots (hs : PoolLaw s) : PoolLaw (freeAllSlots s) := poolLaw_freeSlots _ (poolLaw_dropPoolBurst hs)

/-! ### Settling (R148, R149) -/

/-- A slot changes its phase and keeps its owner (R148). -/
theorem poolLaw_putPhase (p : PoolNo) (x : PoolPhase) (hs : PoolLaw s) : PoolLaw (putPhase p x s) := by
  unfold putPhase
  split
  next y hy =>
    split
    next =>
      refine poolLaw_ownersKept (ownersKept_set (x := some { y with phase := x }) rfl fun z hz => ⟨y, hy, ?_⟩) rfl hs
      rw [← Option.some.inj hz]
    next => exact hs
  next => exact hs

/-- A settled sector gives up its slot, and the slot serves refill (R149). -/
theorem poolLaw_settleSector (o : Owner) (e : Entry) (off : Nat) (hs : PoolLaw s) : PoolLaw (settleSector o e off s) := by
  have hserved : ∀ p x, PoolLaw (refill (freePoolSlot p (addSettled off x s))) := fun p x =>
    poolLaw_refill (poolLaw_freePoolSlot p (poolLaw_same ⟨rfl, rfl⟩ hs))
  unfold settleSector
  split
  next => exact hs
  next =>
    split
    next => exact poolLaw_same ⟨rfl, rfl⟩ hs
    next =>
      split
      next => exact hs
      next p _ =>
        split
        next k _ => exact hserved p (some k)
        next => exact hserved p none
        next => exact hs

theorem poolLaw_settleFrame (o : Owner) (n : Nat) (hs : PoolLaw s) : PoolLaw (settleFrame o n s) := by
  unfold settleFrame
  split
  next => exact hs
  next e _ => exact List.foldlRecOn _ _ hs fun _ hu off _ => poolLaw_settleSector o e off hu

theorem poolLaw_settleHeads (hs : PoolLaw s) : PoolLaw (settleHeads s) := by
  unfold settleHeads
  cases upstreamHead s with
  | none =>
    dsimp only
    split
    exacts [hs, poolLaw_settleFrame _ _ hs]
  | some head =>
    have hup := poolLaw_settleFrame head.1 head.2 hs
    dsimp only
    split
    exacts [hup, poolLaw_settleFrame _ _ hup]

/-! ### Faults (R139, R155, R190) -/

/-- Lockdown faults the slots in use and gives none (R155). -/
theorem poolLaw_enterLockdown (hs : PoolLaw s) : PoolLaw (enterLockdown s) := by
  obtain ⟨-, -, hslots⟩ := enterLockdown_pool s
  refine poolLaw_ownersKept (fun p x hx => ?_) (by simp) hs
  rw [hslots] at hx
  obtain ⟨y, hy, rfl⟩ := Option.map_eq_some_iff.1 hx
  exact ⟨y, hy, rfl⟩

theorem poolLaw_raiseFault (k : FaultKind) (hs : PoolLaw s) : PoolLaw (raiseFault k s) := by
  have hnoted : PoolLaw (noted k s) := poolLaw_same ⟨rfl, rfl⟩ hs
  by_cases h : Severe k s
  · rw [raiseFault_severe h]
    exact poolLaw_enterLockdown hnoted
  · rwa [raiseFault_mild h]

theorem poolLaw_cutExcess (n left : Nat) (hs : PoolLaw s) : PoolLaw (cutExcess n left s) := by
  unfold cutExcess
  split
  exacts [poolLaw_raiseFault _ hs, hs]

/-! ### The ends of entries and bursts (R7, R32, R33, R156) -/

theorem poolLaw_releaseEntrySlots (o : Owner) (e : Entry) (hs : PoolLaw s) : PoolLaw (releaseEntrySlots o e s) := by
  unfold releaseEntrySlots
  dsimp only
  split
  next => exact poolLaw_refill (poolLaw_freeSlotsOf o (poolLaw_dropPoolBurst hs))
  next => exact poolLaw_refill (poolLaw_freeSlotsOf o hs)

/-- Of an entry's end only the release of its slots reaches the pool. -/
theorem poolLaw_endEntry (o : Owner) (r : Option Bool) (hs : PoolLaw s) : PoolLaw (endEntry o r s) := by
  cases he : entryOf s o with
  | none => rwa [endEntry, he]
  | some e => exact poolLaw_same ⟨congrArg Pool.slots (endEntry_pool r he), by simp⟩ (poolLaw_releaseEntrySlots o e hs)

theorem poolLaw_endQueued (hs : PoolLaw s) : PoolLaw (endQueued s) :=
  List.foldlRecOn _ _ hs fun _ hu o _ => poolLaw_endEntry o none hu

theorem poolLaw_closeOwned (p : Owner → Bool) (hs : PoolLaw s) : PoolLaw (closeOwned p s) := by
  unfold closeOwned
  split
  next => exact hs
  next b _ =>
    have hdropped : PoolLaw (dropPoolBurst { s with drv := { s.drv with burst := none } }) := poolLaw_same ⟨rfl, rfl⟩ hs
    exact poolLaw_same (by simp [SamePool, closeShort]) (poolLaw_freeSlotsOf b.owner hdropped)

theorem poolLaw_checkShort (o : Owner) (hs : PoolLaw s) : PoolLaw (checkShort o s) := by
  unfold checkShort
  split
  next => exact hs
  next =>
    split
    exacts [poolLaw_raiseFault _ (poolLaw_same ⟨rfl, rfl⟩ hs), hs]

theorem poolLaw_loseBurst (hs : PoolLaw s) : PoolLaw (loseBurst s) := by
  unfold loseBurst
  split
  next => exact hs
  next b _ =>
    have hfreed : PoolLaw (freeSlotsOf b.owner (dropPoolBurst { s with drv := { s.drv with burst := none } })) :=
      poolLaw_freeSlotsOf b.owner (poolLaw_same ⟨rfl, rfl⟩ hs)
    dsimp only
    split
    exacts [poolLaw_same ⟨rfl, rfl⟩ hfreed, poolLaw_same (by simp [SamePool]) hfreed]

end

end Sys2Proof.KeystreamPool
end

