-- ==== Sys2Proof/Proofs/PoolLawKept.lean ====
section
namespace Sys2Proof.KeystreamPool
open Sys2Proof Sys2Proof.Machine Sys2Proof.LinkPassage Sys2Proof.CommandTracking

section
variable {s t : State}

/-! ### Commands: none holds a slot before its burst opens (R144) -/

theorem samePool_classify {o : Owner} {c : CommandFrame} {a : Accepted} (h : classify o c s = .ok a) : SamePool s a.after := by
  unfold classify classifyRead classifyWrite classifyRing classifyFrontier plainPlan at h
  dsimp only at h
  repeat' split at h
  all_goals cases h
  all_goals simp [SamePool]

theorem samePool_enterQueued (c : CommandFrame) (a : Accepted) : SamePool a.after (enterQueued c a) := by
  unfold enterQueued
  dsimp only
  split <;> simp [SamePool]

theorem samePool_enterSingle (c : CommandFrame) (a : Accepted) : SamePool a.after (enterSingle c a) := by
  unfold enterSingle
  dsimp only
  split <;> simp [SamePool]

theorem poolLaw_takeCommand (c : CommandFrame) (hs : PoolLaw s) : PoolLaw (takeCommand c s) := by
  have ht := taken_takeCommand c s
  generalize takeCommand c s = t at ht ⊢
  cases ht with
  | refusedQueued | refusedSingle | refusedPlain | bridge => exact poolLaw_same ⟨rfl, rfl⟩ hs
  | queued a _ _ _ _ h => exact poolLaw_same (samePool_enterQueued c a) (poolLaw_same (samePool_classify h) hs)
  | single a _ _ _ h => exact poolLaw_same (samePool_enterSingle c a) (poolLaw_same (samePool_classify h) hs)
  | other => exact poolLaw_same (samePool_enterSingle c (plainPlan [] s)) hs

/-! ### Requests of the bridge (R172, R176, R177) -/

theorem clampLookahead_le (n : Nat) : clampLookahead n ≤ 16 := by
  unfold clampLookahead
  split
  next => decide
  next =>
    split
    exacts [le_rfl, by omega]

/-- The new L is at most 16, and the waiting burst is served under it (R146, R177). -/
theorem poolLaw_applySettings (p : SettingsParams) (v : Severities) (hs : PoolLaw s) : PoolLaw (applySettings p v s) := by
  obtain ⟨-, hheld⟩ := hs
  exact poolLaw_refill ⟨clampLookahead_le _, hheld⟩

theorem poolLaw_writeSettings (p : SettingsParams) (hs : PoolLaw s) : PoolLaw (writeSettingsRequest p s).after := by
  unfold writeSettingsRequest
  split
  next => exact hs
  next =>
    split
    next => exact hs
    next v _ => exact poolLaw_applySettings p v hs

theorem samePool_freeRegion (e : EntryNo) (r : Region) (s : State) : SamePool s (freeRegion e r s) := by
  unfold freeRegion
  dsimp only
  split <;> simp [SamePool]

/-- No request but WRITE_SETTINGS reaches the pool slots or L. -/
theorem samePool_executeRequest (r : Request) (h : ∀ p, r ≠ .writeSettings p) : SamePool s (executeRequest r s).after := by
  cases r <;> simp only [executeRequest]
  case writeSettings p => exact absurd rfl (h p)
  case addRegion p =>
    rcases RingQueues.addRegion_after p s with h | ⟨e, r, h⟩ <;> rw [h]
    · exact ⟨rfl, rfl⟩
    · unfold enableRegion
      dsimp only
      split <;> exact ⟨rfl, rfl⟩
  case removeRegion entry =>
    rcases removeRegion_after entry s with h | ⟨e, r, -, h⟩ <;> rw [h]
    exacts [⟨rfl, rfl⟩, samePool_freeRegion e r s]
  case loadContext => unfold loadContextRequest refuses accepts; repeat' split
                      all_goals simp [SamePool]
  case sealContext => unfold sealContextRequest refuses accepts; repeat' split
                      all_goals simp [SamePool]
  case closeContext => unfold closeContextRequest startClose refuses accepts; repeat' split
                       all_goals simp [SamePool]
  case readContext => unfold readContextRequest refuses replies; split <;> exact ⟨rfl, rfl⟩
  case readReceipt => unfold readReceiptRequest refuses replies; repeat' split
                      all_goals exact ⟨rfl, rfl⟩
  case clearUnit => unfold clearUnitRequest refuses accepts; split <;> exact ⟨rfl, rfl⟩
  case readRegions => unfold readRegionsRequest refuses replies; split <;> exact ⟨rfl, rfl⟩
  case setShiftDepth => unfold setShiftDepthRequest refuses accepts; dsimp only; repeat' split
                        all_goals exact ⟨rfl, rfl⟩
  case pinKey => unfold pinKeyRequest refuses accepts; dsimp only; repeat' split
                 all_goals simp [SamePool]
  case unpinKey => unfold unpinKeyRequest refuses accepts; split <;> simp [SamePool]
  case setRightsTime => unfold setRightsTimeRequest refuses accepts; split <;> exact ⟨rfl, rfl⟩
  case drain => unfold drainRequest accepts; dsimp only; split <;> exact ⟨rfl, rfl⟩
  all_goals exact ⟨rfl, rfl⟩

theorem poolLaw_executeRequest (r : Request) (hs : PoolLaw s) : PoolLaw (executeRequest r s).after := by
  by_cases h : ∃ p, r = .writeSettings p
  · obtain ⟨p, rfl⟩ := h
    exact poolLaw_writeSettings p hs
  · exact poolLaw_same (samePool_executeRequest r fun p hp => h ⟨p, hp⟩) hs

theorem poolLaw_takeRequest (block : Sector) (hs : PoolLaw s) : PoolLaw (takeRequest block s) := by
  have hanswer : ∀ x, PoolLaw x.after → PoolLaw (answerRequest x) := fun x hx => by
    unfold answerRequest
    split <;> exact poolLaw_same ⟨rfl, rfl⟩ hx
  unfold takeRequest
  split
  next => exact hanswer _ hs
  next r _ => exact hanswer _ (poolLaw_executeRequest r hs)

/-! ### The frames of a burst (R6, R11, R150) -/

theorem samePool_passSectors (o : Owner) (l : List Sector) (s : State) : SamePool s (passSectors o l s).2 :=
  ⟨(passSectors_pool o l s).1, by simp⟩

theorem samePool_countDriveBurst (n : Nat) (s : State) : SamePool s (countDriveBurst n s) := by
  unfold countDriveBurst
  split
  next => exact ⟨rfl, rfl⟩
  next => split <;> simp [SamePool, dropPoolBurst]

theorem poolLaw_passDown (b : UpBurst) (d : DataFrame) (hs : PoolLaw s) : PoolLaw (passDown b d s) := by
  have hpassed := poolLaw_same (samePool_passSectors b.owner (d.sectors.take (min d.sectors.length b.left)) s) hs
  unfold passDown
  exact poolLaw_cutExcess _ _ (poolLaw_same (samePool_countDriveBurst _ _) (poolLaw_same ⟨rfl, rfl⟩ hpassed))

theorem poolLaw_passUp (b : DriveBurst) (d : DataFrame) (hs : PoolLaw s) : PoolLaw (passUp b d s) := by
  have hpassed := poolLaw_same (samePool_passSectors b.owner (d.sectors.take (min d.sectors.length b.left)) s) hs
  unfold passUp
  exact poolLaw_cutExcess _ _ (poolLaw_same (samePool_countDriveBurst _ _) (poolLaw_same ⟨rfl, rfl⟩ hpassed))

/-! ### The frames of the controller -/

theorem poolLaw_takeDataUp (d : DataFrame) (hs : PoolLaw s) : PoolLaw (takeDataUp d s) := by
  unfold takeDataUp
  split
  next =>
    unfold strayDataUp
    split
    exacts [poolLaw_same ⟨rfl, rfl⟩ hs, poolLaw_raiseFault _ (poolLaw_same ⟨rfl, rfl⟩ hs)]
  next b _ =>
    split
    next =>
      unfold takeBlock
      split
      next => exact hs
      next block _ _ => exact poolLaw_cutExcess _ _ (poolLaw_takeRequest block (poolLaw_same ⟨rfl, rfl⟩ hs))
    next => exact poolLaw_passDown b d hs

theorem poolLaw_takeUp (f : Frame) (hs : PoolLaw s) : PoolLaw (takeUp f s) := by
  unfold takeUp
  split
  next =>
    split
    next c _ => exact poolLaw_takeCommand c hs
    next d _ => exact poolLaw_takeDataUp d hs
    all_goals exact hs
  next => exact poolLaw_raiseFault _ hs

/-! ### The frames of the drive -/

theorem poolLaw_takeReady (r : ReadyFrame) (hs : PoolLaw s) : PoolLaw (takeReady r s) := by
  unfold takeReady
  split
  next =>
    unfold strayReady
    split <;> exact poolLaw_raiseFault _ (poolLaw_same ⟨rfl, rfl⟩ hs)
  next e _ =>
    have hopened : PoolLaw (openBurst r e s) :=
      poolLaw_same (t := openBurst r e s) ⟨rfl, rfl⟩ (poolLaw_openPoolBurst e r.offset.toNat (readyCount r)
        (poolLaw_same (t := burstOpened r e s) ⟨rfl, rfl⟩ hs))
    dsimp only
    split
    exacts [poolLaw_raiseFault _ (poolLaw_same ⟨rfl, rfl⟩ hopened), hopened]

theorem poolLaw_strayDataDrive (n : Nat) (hs : PoolLaw s) : PoolLaw (strayDataDrive n s) := by
  unfold strayDataDrive
  split
  next => exact poolLaw_raiseFault _ hs
  next =>
    split
    next => exact poolLaw_same ⟨rfl, rfl⟩ hs
    next =>
      split
      exacts [poolLaw_same ⟨rfl, rfl⟩ hs, poolLaw_raiseFault _ (poolLaw_same ⟨rfl, rfl⟩ hs)]

theorem poolLaw_takeDataDrive (d : DataFrame) (hs : PoolLaw s) : PoolLaw (takeDataDrive d s) := by
  unfold takeDataDrive
  split
  next b _ =>
    split
    exacts [poolLaw_passUp b d hs, poolLaw_strayDataDrive _ hs]
  next => exact poolLaw_strayDataDrive _ hs

theorem poolLaw_flushReleased (hs : PoolLaw s) : PoolLaw (flushReleased s) := poolLaw_same (by simp [SamePool]) hs

theorem poolLaw_clearQueueWait (hs : PoolLaw s) : PoolLaw (clearQueueWait s) := poolLaw_same (by simp [SamePool]) hs

theorem poolLaw_rewindRings (hs : PoolLaw s) : PoolLaw (rewindRings s) := poolLaw_same (by simp [SamePool]) hs

theorem poolLaw_answerAhead (k : Tag) (hs : PoolLaw s) : PoolLaw (answerAhead k s) := poolLaw_same (by simp [SamePool]) hs

theorem poolLaw_takeAcceptance (r : AcceptRecord) (rest : List AcceptRecord) (f : StatusFrame) (hs : PoolLaw s) :
    PoolLaw (takeAcceptance r rest f s) := by
  have hremoved : PoolLaw { s with trk := { s.trk with accepts := rest } } := poolLaw_same ⟨rfl, rfl⟩ hs
  unfold takeAcceptance
  generalize ({ s with trk := { s.trk with accepts := rest } } : State) = u at hremoved
  refine poolLaw_flushReleased ?_
  split
  next => exact poolLaw_clearQueueWait hremoved
  next =>
    split
    next =>
      refine poolLaw_clearQueueWait ?_
      unfold acceptedBy
      split <;> exact poolLaw_same ⟨rfl, rfl⟩ hremoved
    next =>
      unfold rejectedBy
      dsimp only
      split <;> exact poolLaw_same ⟨rfl, rfl⟩ (poolLaw_endEntry (.tag r.tag) (some false) hremoved)

theorem poolLaw_completeSingle (f : StatusFrame) (hs : PoolLaw s) : PoolLaw (completeSingle f s) := by
  have hclosed := poolLaw_closeOwned (· = .single) hs
  have hjudged : PoolLaw (judged f s) := by
    unfold judged
    split
    exacts [poolLaw_checkShort _ hclosed, hclosed]
  rw [completeSingle_eq]
  exact poolLaw_flushReleased (poolLaw_same (t := placeRelayed _ _) ⟨rfl, rfl⟩ (poolLaw_endEntry _ _ hjudged))

theorem poolLaw_takeStatus (f : StatusFrame) (hs : PoolLaw s) : PoolLaw (takeStatus f s) := by
  unfold takeStatus
  split
  next r rest _ =>
    split
    exacts [poolLaw_raiseFault _ hs, poolLaw_takeAcceptance r rest f hs]
  next =>
    split
    exacts [poolLaw_completeSingle f hs, poolLaw_raiseFault _ hs]

theorem poolLaw_endDone (l : List Tag) (hs : PoolLaw s) : PoolLaw (endDone l s).2 := by
  induction l generalizing s with
  | nil => exact hs
  | cons k l ih =>
    have hready := poolLaw_answerAhead k (poolLaw_checkShort (.tag k) hs)
    unfold endDone
    dsimp only
    split <;> exact ih (poolLaw_endEntry _ _ hready)

theorem poolLaw_endFailed (p : Byte × Byte) (hs : PoolLaw s) : PoolLaw (endFailed s p) :=
  poolLaw_endEntry _ _ (poolLaw_answerAhead _ hs)

theorem poolLaw_abortEntry (k : Tag) (e : Entry) (hs : PoolLaw s) : PoolLaw (abortEntry k e s).2 := by
  have hended := poolLaw_endEntry (.tag k) none hs
  unfold abortEntry
  split
  next => exact hended
  next =>
    split
    exacts [hended, poolLaw_same ⟨rfl, rfl⟩ hended]

theorem poolLaw_abortEntries (l : List Tag) (hs : PoolLaw s) : PoolLaw (abortEntries l s).2 := by
  induction l generalizing s with
  | nil => exact hs
  | cons k l ih =>
    unfold abortEntries
    split
    exacts [ih hs, ih (poolLaw_abortEntry k _ hs)]

theorem poolLaw_abortQueued (hs : PoolLaw s) : PoolLaw (abortQueued s).2 := by
  have hended := poolLaw_abortEntries (List.finRange 32) hs
  unfold abortQueued
  dsimp only
  generalize (abortEntries (List.finRange 32) s).2 = u at *
  exact poolLaw_rewindRings (poolLaw_same ⟨rfl, rfl⟩ hended)

theorem poolLaw_abortSingle (hs : PoolLaw s) : PoolLaw (abortSingle s) := by
  unfold abortSingle
  split
  next => exact hs
  next =>
    split
    exacts [poolLaw_same ⟨rfl, rfl⟩ (poolLaw_endEntry .single none hs), poolLaw_clearQueueWait hs]

theorem poolLaw_relayDone (d : DoneFrame) (l : List Tag) (m : List (Byte × Byte)) (hs : PoolLaw s) : PoolLaw (relayDone d l m s) := by
  unfold relayDone
  split
  exacts [hs, poolLaw_same ⟨rfl, rfl⟩ hs]

theorem poolLaw_slipDone (b : Bool) (hs : PoolLaw s) : PoolLaw (slipDone b s) := by
  unfold slipDone
  split
  exacts [poolLaw_raiseFault _ hs, hs]

theorem poolLaw_doneEnded (d : DoneFrame) (hs : PoolLaw s) : PoolLaw (doneEnded d s) :=
  List.foldlRecOn _ _ (poolLaw_endDone _ (poolLaw_slipDone _ (poolLaw_closeOwned (doneNames d) hs)))
    fun _ hu p _ => poolLaw_endFailed p hu

theorem poolLaw_takeDone (d : DoneFrame) (hs : PoolLaw s) : PoolLaw (takeDone d s) := by
  have hended := poolLaw_doneEnded d hs
  unfold doneEnded at hended
  unfold takeDone
  dsimp only at hended ⊢
  refine poolLaw_flushReleased ?_
  split
  exacts [poolLaw_abortSingle (poolLaw_relayDone _ _ _ (poolLaw_abortQueued hended)), poolLaw_relayDone _ _ _ hended]

theorem poolLaw_takeInReset (f : Frame) (hs : PoolLaw s) : PoolLaw (takeInReset f s) := by
  unfold takeInReset
  dsimp only
  split
  next => split <;> exact poolLaw_same ⟨rfl, rfl⟩ hs
  all_goals exact hs

theorem poolLaw_takeDrive (f : Frame) (hs : PoolLaw s) : PoolLaw (takeDrive f s) := by
  unfold takeDrive
  split
  next => exact poolLaw_takeInReset f hs
  next =>
    split
    next =>
      split
      next r _ => exact poolLaw_takeReady r hs
      next d _ => exact poolLaw_takeDataDrive d hs
      next f _ => exact poolLaw_takeStatus f hs
      next d _ => exact poolLaw_takeDone d hs
      all_goals exact hs
    next => exact poolLaw_raiseFault _ hs

theorem poolLaw_ports : KeptByPorts PoolLaw where
  links _ _ _ _ hs := poolLaw_same ⟨rfl, rfl⟩ hs
  settle _ hs := poolLaw_settleHeads hs
  up f _ hs := poolLaw_takeUp f hs
  drive f _ hs := poolLaw_takeDrive f hs

/-! ### The events that are no frames -/

theorem poolLaw_clearAccepts (hs : PoolLaw s) : PoolLaw (clearAccepts s) := poolLaw_same ⟨rfl, rfl⟩ hs

theorem poolLaw_dropReply (hs : PoolLaw s) : PoolLaw (dropReply s) := poolLaw_same ⟨rfl, rfl⟩ hs

theorem poolLaw_linkReset (hs : PoolLaw s) : PoolLaw (linkResetEvent s) := by
  have hfreed : PoolLaw (freeAllSlots (resetPorts s)) := poolLaw_freeAllSlots (poolLaw_same ⟨rfl, rfl⟩ hs)
  have hended : PoolLaw (resetEntries s) := poolLaw_clearAccepts (poolLaw_endEntry .single none (poolLaw_endQueued hfreed))
  rw [linkResetEvent_eq]
  exact poolLaw_rewindRings (poolLaw_dropReply hended)

theorem poolLaw_endLost (hs : PoolLaw s) : PoolLaw (endLost s) := by
  unfold endLost
  split
  exacts [poolLaw_endEntry _ _ (poolLaw_endQueued hs), poolLaw_endQueued hs]

theorem poolLaw_answerLoss (s : State) {u : State} (hu : PoolLaw u) : PoolLaw (answerLoss s u) :=
  List.foldlRecOn _ _ hu fun _ h _ _ => poolLaw_same ⟨rfl, rfl⟩ h

theorem poolLaw_lossEvent (hs : PoolLaw s) : PoolLaw (lossEvent s) := by
  have hports : PoolLaw (lostPorts s) := poolLaw_same ⟨rfl, rfl⟩ (poolLaw_loseBurst hs)
  have hanswered := poolLaw_answerLoss s (poolLaw_clearAccepts (poolLaw_endLost hports))
  exact poolLaw_rewindRings (poolLaw_raiseFault _ (poolLaw_same ⟨rfl, rfl⟩ hanswered))

theorem samePool_sendItem (k : Nat) (i : SendItem) (s : State) : SamePool s (sendItem k i s) := by
  unfold sendItem sentItem sentReady sentData openUpstream placeReply
  dsimp only
  repeat' split
  all_goals exact ⟨rfl, rfl⟩

theorem samePool_startJob (s : State) : SamePool s (startJob s) := by
  unfold startJob startNext
  repeat' split
  all_goals exact ⟨rfl, rfl⟩

theorem samePool_setupEvent (s : State) : SamePool s (setupEvent s) := by
  unfold setupEvent finishSetup
  dsimp only
  repeat' split
  all_goals simp [SamePool, endRunning]

theorem samePool_unwrapEvent (s : State) : SamePool s (unwrapEvent s) := by
  unfold unwrapEvent finishUnwrap acceptBlob rejectBlob
  dsimp only
  repeat' split
  all_goals simp [SamePool, endRunning]

theorem samePool_receiptEvent (s : State) : SamePool s (receiptEvent s) := by
  unfold receiptEvent finishReceipt
  repeat' split
  all_goals simp [SamePool, endRunning]

theorem samePool_tokenEvent (s : State) : SamePool s (tokenEvent s) := by
  unfold tokenEvent
  split <;> simp [SamePool, endRunning]

/-- The pool slot of a STREAM job becomes READY and may be settled at once (R148, R149). -/
theorem poolLaw_streamDone (hs : PoolLaw s) : PoolLaw (streamDone s) := by
  have hended : PoolLaw (endRunning s) := poolLaw_same ⟨rfl, rfl⟩ hs
  have hdropped : ∀ k u, PoolLaw u → PoolLaw (dropUserOf k u) := fun k u hu => poolLaw_same (by simp [SamePool]) hu
  unfold streamDone finishStream
  split
  next j _ _ =>
    split
    next => exact hdropped _ _ hended
    next =>
      split
      next => exact hdropped _ _ hended
      next => exact hdropped _ _ (poolLaw_settleHeads (poolLaw_putPhase _ _ hended))
  next => exact hs

theorem poolLaw_firstFailure (j : StreamJob) (discard : Bool) (hs : PoolLaw s) : PoolLaw (firstFailure j discard s) := by
  unfold firstFailure
  split <;> exact poolLaw_raiseFault _ (poolLaw_same (by simp [SamePool]) hs)

/-- A second failure makes the pool slot FAULTED, unless the job is due for discard (R138). -/
theorem poolLaw_secondFailure (j : StreamJob) (discard : Bool) (hs : PoolLaw s) : PoolLaw (secondFailure j discard s) := by
  unfold secondFailure
  refine poolLaw_raiseFault _ (poolLaw_same (by simp [SamePool]) (s := if discard then s else settleHeads (putPhase j.pool .faulted s)) ?_)
  split
  exacts [hs, poolLaw_settleHeads (poolLaw_putPhase _ _ hs)]

theorem poolLaw_parityDone (hs : PoolLaw s) : PoolLaw (parityDone s) := by
  have hended : PoolLaw (endRunning s) := poolLaw_same ⟨rfl, rfl⟩ hs
  unfold parityDone
  split
  next j discard _ =>
    split
    exacts [poolLaw_secondFailure j discard hended, poolLaw_firstFailure j discard hended]
  next => exact hs

/-! ### Every step -/

theorem poolLaw_event (he : Event s t) (hs : PoolLaw s) : PoolLaw t := by
  cases he with
  | powerOn => exact poolLaw_same (t := powerOnEvent s) ⟨rfl, rfl⟩ poolLaw_reset
  | upstreamUp => exact poolLaw_same ⟨rfl, rfl⟩ hs
  | linkReset => exact poolLaw_linkReset hs
  | driveUp => exact poolLaw_ports.run (poolLaw_same ⟨rfl, rfl⟩ hs)
  | driveLost => exact poolLaw_ports.run (poolLaw_lossEvent hs)
  | tick => exact poolLaw_same (by simp [SamePool]) hs
  | period => exact poolLaw_same (by simp [SamePool]) hs
  | up f => exact poolLaw_ports.arriveUp f hs
  | drive f => exact poolLaw_ports.arriveDrive f hs
  | send =>
    rcases transmit_cases s with h | ⟨k, i, -, -, h⟩ <;> rw [h]
    exacts [hs, poolLaw_ports.run (poolLaw_same (samePool_sendItem k i s) hs)]
  | start => exact poolLaw_same (samePool_startJob s) hs
  | setup => exact poolLaw_same (samePool_setupEvent s) hs
  | stream =>
    rcases streamEvent_cases s with h | h <;> rw [h]
    exacts [hs, poolLaw_ports.run (poolLaw_streamDone hs)]
  | parity =>
    rcases parityEvent_cases s with h | h <;> rw [h]
    exacts [hs, poolLaw_ports.run (poolLaw_parityDone hs)]
  | unwrap => exact poolLaw_same (samePool_unwrapEvent s) hs
  | receipt => exact poolLaw_same (samePool_receiptEvent s) hs
  | token => exact poolLaw_same (samePool_tokenEvent s) hs

end

/-- Settles O59: a slot is given only to a command that holds fewer than L, L stays at most 16, and every other change of the pool leaves
each slot in use with its owner or frees it. -/
theorem poolLawKept : Obligations.PoolLawKept := by
  intro s t hs h
  obtain ⟨l, he⟩ := event_of_step h
  exact poolLaw_event he (poolLaw_same ⟨rfl, rfl⟩ hs)

end Sys2Proof.KeystreamPool
end

