-- ==== Sys2Proof/Proofs/UnitMoves.lean ====
section
namespace Sys2Proof.RightsTime
open Sys2Proof Sys2Proof.Machine Sys2Proof.LinkPassage Sys2Proof.SectorClassification

/-! ### Events on which the clocks and settings stay in range and go only onward (R160, R161, R166, R177, R179, R192) -/

/-- The divide count, monotonic time and rights time (R158). -/
@[simp] def clocksOf (s : State) : Nat × Nat × Nat × Bool :=
  (s.time.divideCount, s.time.mono, s.time.rights, s.time.rightsSet)

/-- The settings with their lock (R175). -/
@[simp] def settingsOf (s : State) : Nat × BitVec 16 × Severities × Nat × Bool :=
  (s.req.lookahead, s.req.attentionSet, s.req.severities, s.req.divider, s.req.locked)

/-- From s to t the three laws stay, and nothing is undone that only a POWER_ON undoes. -/
structure Onward (s t : State) : Prop where
  settings : SettingsLaw s → SettingsLaw t
  clocks : ClockLaw s → ClockLaw t
  times : ClockLaw s → s.time.mono ≤ t.time.mono ∧ s.time.rights ≤ t.time.rights ∧ (s.time.rightsSet = true → t.time.rightsSet = true)
  compare : CompareLaw s → CompareLaw t
  lockdown : s.faults.lockdown = true → t.faults.lockdown = true
  lock : s.req.locked = true → settingsOf t = settingsOf s

/-- The clocks and the settings are as they were, and lockdown has not ended. -/
@[simp] def SameUnits (s t : State) : Prop :=
  clocksOf t = clocksOf s ∧ settingsOf t = settingsOf s ∧ (s.faults.lockdown = true → t.faults.lockdown = true)

/-- All that the laws and the lasting states read: clocks, settings, the compare value with its table, and lockdown. -/
@[simp] def readOf (s : State) :
    (Nat × Nat × Nat × Bool) × (Nat × BitVec 16 × Severities × Nat × Bool) × Option Nat × Vector Context 16 × Bool :=
  (clocksOf s, settingsOf s, s.time.compare, s.contexts, s.faults.lockdown)

section
variable {s t u : State}

theorem Onward.refl (s : State) : Onward s s := ⟨id, id, fun _ => ⟨le_rfl, le_rfl, id⟩, id, id, fun _ => rfl⟩

theorem Onward.trans (h : Onward s t) (k : Onward t u) : Onward s u where
  settings := k.settings ∘ h.settings
  clocks := k.clocks ∘ h.clocks
  times hs := by
    obtain ⟨hmono, hrights, hset⟩ := h.times hs
    obtain ⟨kmono, krights, kset⟩ := k.times (h.clocks hs)
    exact ⟨hmono.trans kmono, hrights.trans krights, kset ∘ hset⟩
  compare := k.compare ∘ h.compare
  lockdown := k.lockdown ∘ h.lockdown
  lock hs := by
    have ht := h.lock hs
    have hlocked : t.req.locked = true := (congrArg (·.2.2.2.2) ht).trans hs
    exact (k.lock hlocked).trans ht

theorem onward_of_units (h : SameUnits s t) (hc : CompareLaw s → CompareLaw t) : Onward s t := by
  obtain ⟨hclocks, hsettings, hlock⟩ := h
  have hsame := hsettings
  simp only [clocksOf, settingsOf, Prod.mk.injEq] at hclocks hsettings
  obtain ⟨hcount, hmono, hrights, hset⟩ := hclocks
  obtain ⟨hlook, -, -, hdiv, -⟩ := hsettings
  refine ⟨fun hs => ?_, fun hs => ?_, fun _ => ?_, hc, hlock, fun _ => hsame⟩
  · rwa [SettingsLaw, hlook, hdiv]
  · rwa [ClockLaw, hcount, hmono, hrights, hset, hdiv]
  · rw [hmono, hrights, hset]
    exact ⟨le_rfl, le_rfl, id⟩

/-- A change of nothing that the laws read. -/
theorem Onward.unmoved (h : Onward s t) (hu : readOf u = readOf t) : Onward s u := by
  simp only [readOf, Prod.mk.injEq] at hu
  obtain ⟨hclocks, hsettings, hcompare, hcontexts, hlock⟩ := hu
  refine h.trans (onward_of_units ⟨hclocks, hsettings, by rw [hlock]; exact id⟩ fun hs => ?_)
  rwa [CompareLaw, hcompare, hcontexts]

/-- A recomputed compare value is the least E of the table as it stands (R166). -/
theorem Onward.recomputed (h : Onward s t) (hu : SameUnits t u) : Onward s (recomputeCompare u) :=
  h.trans (onward_of_units (t := recomputeCompare u) hu fun _ => rfl)

/-- The compare value reads of the table only the E of each context of the compare set (R166). -/
theorem Onward.entries (h : Onward s t) (hu : SameUnits t u) (hc : u.time.compare = t.time.compare)
    (he : ∀ c, compareEntry (ctxOf u c) = compareEntry (ctxOf t c)) : Onward s u :=
  h.trans (onward_of_units hu fun hs => hc.trans (hs.trans (compareValue_congr he).symm))

theorem onward_foldl {α : Type} {f : State → α → State} (hf : ∀ {t} a, Onward s t → Onward s (f t a)) (l : List α) (h : Onward s t) :
    Onward s (l.foldl f t) :=
  List.foldlRecOn l f h fun _ hu a _ => hf a hu

/-! ### Contexts (R80, R88, R94) -/

theorem onward_setCtx {c : CtxSlot} {x : Context} (hx : compareEntry x = compareEntry (ctxOf t c)) (h : Onward s t) :
    Onward s (setCtx c x t) := by
  refine h.entries ⟨rfl, rfl, id⟩ rfl fun d => ?_
  rw [ctxOf_setCtx]
  split
  next hd => rw [hx, hd]
  next => rfl

theorem onward_updateCtx {c : CtxSlot} {f : Context → Context} (hf : compareEntry (f (ctxOf t c)) = compareEntry (ctxOf t c))
    (h : Onward s t) : Onward s (updateCtx c f t) := onward_setCtx hf h

theorem onward_queueNotice (k : NoticeKind) (c : Option CtxSlot) (g : Option Tag) (d : Option Code) (v : Nat) (h : Onward s t) :
    Onward s (queueNotice k c g d v t) := h.unmoved rfl

/-- A context that closes is of the compare set no longer (R92, R166). -/
theorem onward_completeClose {c : CtxSlot} (hc : (ctxOf t c).state = .closing) (h : Onward s t) : Onward s (completeClose c t) := by
  refine h.entries (by simp) (by simp) fun d => ?_
  rw [ctxOf_completeClose]
  split
  next hd => simp [hd, compareEntry, hc, Context.blank]
  next => rfl

theorem onward_tryClose (c : CtxSlot) (h : Onward s t) : Onward s (tryClose c t) := by
  unfold tryClose
  split
  next hc => exact onward_completeClose hc.1 h
  next => exact h

/-- RECORDING, SEALING and SEALED contexts are all of the compare set (R166). -/
theorem onward_completeSeal {c : CtxSlot} (hc : (ctxOf t c).state = .recording ∨ (ctxOf t c).state = .sealing) (h : Onward s t) :
    Onward s (completeSeal c t) := by
  refine onward_queueNotice _ _ _ _ _ (onward_updateCtx ?_ h)
  rcases hc with hc | hc <;> simp [compareEntry, hc]

theorem onward_inFlightZero (c : CtxSlot) (h : Onward s t) : Onward s (inFlightZero c t) := by
  unfold inFlightZero
  split
  next hc => exact onward_completeSeal (.inr hc) h
  next => exact onward_tryClose c h
  next => exact h

theorem onward_lowerInFlight (c : CtxSlot) (h : Onward s t) : Onward s (lowerInFlight t c) := by
  have hlower : Onward s (updateCtx c (fun x => { x with inFlight := (ctxOf t c).inFlight - 1 }) t) := onward_updateCtx rfl h
  unfold lowerInFlight
  dsimp only
  split
  next => exact onward_inFlightZero c hlower
  next => exact hlower

/-! ### Faults and the ends of entries -/

/-- Lockdown is entered and not left (R192). -/
theorem onward_raiseFault (k : FaultKind) (h : Onward s t) : Onward s (raiseFault k t) := by
  have hlock : t.faults.lockdown = true → (raiseFault k t).faults.lockdown = true := fun ht => by
    rw [raiseFault_mild fun hsev => by simp [hsev.2] at ht]
    exact ht
  exact h.trans (onward_of_units ⟨by simp, by simp, hlock⟩ fun hs => by simpa [CompareLaw] using hs)

theorem onward_cutExcess (n left : Nat) (h : Onward s t) : Onward s (cutExcess n left t) := by
  unfold cutExcess
  split
  exacts [onward_raiseFault _ h, h]

theorem onward_placeItem (i : SendItem) (h : Onward s t) : Onward s (placeItem i t) := h.unmoved rfl

theorem onward_placePart (f : Frame) (h : Onward s t) : Onward s (placePart f t) := onward_placeItem _ h

theorem onward_placeRelayed (f : Frame) (h : Onward s t) : Onward s (placeRelayed f t) := onward_placeItem _ h

theorem onward_clearQueueWait (h : Onward s t) : Onward s (clearQueueWait t) := h.unmoved (by simp)

theorem onward_flushReleased (h : Onward s t) : Onward s (flushReleased t) := h.unmoved (by simp)

theorem onward_rewindRings (h : Onward s t) : Onward s (rewindRings t) := h.unmoved (by simp)

theorem onward_clearAccepts (h : Onward s t) : Onward s (clearAccepts t) := h.unmoved rfl

/-- Of an entry's end only the in-flight counts reach the contexts (R33, R37). -/
theorem onward_endEntry (o : Owner) (r : Option Bool) (h : Onward s t) : Onward s (endEntry o r t) := by
  unfold endEntry
  split
  next => exact h
  next e _ =>
    have hreport : Onward s (noticeWithheld o e (reportEnd o e r (releaseEntrySlots o e t))) := h.unmoved (by simp)
    have hleave : ∀ u, Onward s u → Onward s (setEntry o none (leaveSnapshot o u)) := fun u hu => hu.unmoved (by simp)
    have hended := hleave _ (onward_foldl onward_lowerInFlight e.touched hreport)
    dsimp only
    split
    · exact hended
    · exact onward_clearQueueWait hended

theorem onward_endQueued (h : Onward s t) : Onward s (endQueued t) := onward_foldl (fun o hu => onward_endEntry o none hu) _ h

theorem onward_closeOwned (p : Owner → Bool) (h : Onward s t) : Onward s (closeOwned p t) := h.unmoved (by simp)

theorem onward_checkShort (o : Owner) (h : Onward s t) : Onward s (checkShort o t) := by
  unfold checkShort
  split
  next => exact h
  next =>
    split
    exacts [onward_raiseFault _ (h.unmoved rfl), h]

end

end Sys2Proof.RightsTime
end

