-- ==== Sys2Proof/Proofs/OnwardFrames.lean ====
section
namespace Sys2Proof.RightsTime
open Sys2Proof Sys2Proof.Machine Sys2Proof.LinkPassage Sys2Proof.SectorClassification

section
variable {s t : State}

/-! ### Commands (R50, R53) -/

/-- A first view changes the E of its context and recomputes the compare value (R50, R166). -/
theorem onward_captureView (c : CtxSlot) (h : Onward s t) : Onward s (captureView t c) := by
  have hviewed : SameUnits t (setCtx c (firstViewed t.time.rights (ctxOf t c)) t) := ⟨rfl, rfl, id⟩
  exact (h.recomputed hviewed).unmoved rfl

theorem onward_captureViews (plan : List Run) (h : Onward s t) : Onward s (captureViews plan t) := by
  refine onward_foldl (fun c hu => ?_) _ h
  split
  exacts [onward_captureView c hu, hu]

theorem onward_classifyFrontier {c : CommandFrame} {x : CtxSlot} {a : Accepted} (hc : classifyFrontier c x t = .ok a)
    (h : Onward s t) : Onward s a.after := by
  unfold classifyFrontier at hc
  split at hc
  next => contradiction
  next =>
    split at hc
    next => contradiction
    next =>
      cases hc
      exact onward_updateCtx (f := fun y => { y with frontier := highest (writeLogicals t c) + 1 }) rfl h

theorem onward_classifyRing {o : Owner} {c : CommandFrame} {x : CtxSlot} {a : Accepted} (hc : classifyRing o c x t = .ok a)
    (h : Onward s t) : Onward s a.after := by
  unfold classifyRing at hc
  repeat' split at hc
  all_goals cases hc
  exact h.unmoved rfl

theorem onward_classifyWrite {o : Owner} {c : CommandFrame} {a : Accepted} (hc : classifyWrite o c t = .ok a) (h : Onward s t) :
    Onward s a.after := by
  unfold classifyWrite at hc
  dsimp only at hc
  split at hc
  next => cases hc; exact h
  next =>
    split at hc
    next => contradiction
    next =>
      split at hc
      next => contradiction
      next =>
        split at hc
        next => contradiction
        next =>
          split at hc
          exacts [onward_classifyRing hc h, onward_classifyFrontier hc h]

theorem onward_classify {o : Owner} {c : CommandFrame} {a : Accepted} (hc : classify o c t = .ok a) (h : Onward s t) :
    Onward s a.after := by
  unfold classify classifyRead at hc
  split at hc
  next => contradiction
  next =>
    split at hc
    next =>
      split at hc
      next => contradiction
      next => cases hc; exact onward_captureViews _ h
    next => exact onward_classifyWrite hc h

theorem onward_enter (o : Owner) (e : Entry) (h : Onward s t) : Onward s (enter o e t) :=
  onward_foldl (fun _ hu => onward_updateCtx rfl hu) _ (h.unmoved rfl)

theorem onward_enterQueued (c : CommandFrame) {a : Accepted} (h : Onward s a.after) : Onward s (enterQueued c a) := by
  unfold enterQueued
  dsimp only
  split
  · exact onward_placePart _ (onward_enter _ _ h)
  · exact (onward_enter _ _ h).unmoved rfl

theorem onward_enterSingle (c : CommandFrame) {a : Accepted} (h : Onward s a.after) : Onward s (enterSingle c a) := by
  unfold enterSingle
  dsimp only
  split
  · exact onward_enter _ _ h
  · exact (onward_enter _ _ h).unmoved rfl

theorem onward_takeCommand (c : CommandFrame) (h : Onward s t) : Onward s (takeCommand c t) := by
  have ht := taken_takeCommand c t
  generalize takeCommand c t = u at ht ⊢
  cases ht with
  | refusedQueued | refusedSingle | refusedPlain | bridge => exact h.unmoved rfl
  | queued a _ _ _ _ hc => exact onward_enterQueued c (onward_classify hc h)
  | single a _ _ _ hc => exact onward_enterSingle c (onward_classify hc h)
  | other => exact onward_enterSingle c (a := plainPlan [] t) h

/-! ### The frames of a burst (R6, R11, R81) -/

theorem onward_countCtxWithheld (w : Option (WithheldReason × CtxSlot)) (h : Onward s t) : Onward s (countCtxWithheld w t) := by
  unfold countCtxWithheld
  split
  exacts [h, onward_updateCtx rfl h]

theorem onward_passSector (o : Owner) (w : Sector) (h : Onward s t) : Onward s (passSector o w t).2 := by
  unfold passSector
  split
  next e _ =>
    split
    next b _ =>
      have hpassed : Onward s (setEntry o (some (passedEntry (nextOffset b) (treatSector t e (nextOffset b) w) e)) t) :=
        h.unmoved rfl
      exact (onward_countCtxWithheld _ hpassed).unmoved rfl
    next => exact h.unmoved rfl
  next => exact h.unmoved rfl

theorem onward_passSectors (o : Owner) (l : List Sector) (h : Onward s t) : Onward s (passSectors o l t).2 := by
  induction l generalizing t with
  | nil => exact h
  | cons w l ih => exact ih (onward_passSector o w h)

theorem onward_countDriveBurst (n : Nat) (h : Onward s t) : Onward s (countDriveBurst n t) := h.unmoved (by simp)

theorem onward_passDown (b : UpBurst) (d : DataFrame) (h : Onward s t) : Onward s (passDown b d t) := by
  unfold passDown
  exact onward_cutExcess _ _ (onward_countDriveBurst _ ((onward_passSectors _ _ h).unmoved rfl))

theorem onward_passUp (b : DriveBurst) (d : DataFrame) (h : Onward s t) : Onward s (passUp b d t) := by
  unfold passUp
  exact onward_cutExcess _ _ (onward_countDriveBurst _ (onward_placeItem _ (onward_passSectors _ _ h)))

/-! ### The frames of the drive -/

theorem onward_takeReady (r : ReadyFrame) (h : Onward s t) : Onward s (takeReady r t) := by
  unfold takeReady
  split
  next =>
    refine onward_raiseFault _ (h.unmoved ?_)
    split <;> rfl
  next e _ =>
    have hopened : Onward s (openBurst r e t) := h.unmoved (by simp [openBurst])
    dsimp only
    split
    exacts [onward_raiseFault _ (hopened.unmoved rfl), hopened]

theorem onward_strayDataDrive (n : Nat) (h : Onward s t) : Onward s (strayDataDrive n t) := by
  unfold strayDataDrive
  split
  next => exact onward_raiseFault _ h
  next =>
    split
    next => exact h.unmoved rfl
    next =>
      have hclosed : Onward s { t with drv := { t.drv with discard := none } } := h.unmoved rfl
      split
      exacts [hclosed, onward_raiseFault _ hclosed]

theorem onward_takeDataDrive (d : DataFrame) (h : Onward s t) : Onward s (takeDataDrive d t) := by
  unfold takeDataDrive
  split
  next b _ =>
    split
    exacts [onward_passUp b d h, onward_strayDataDrive _ h]
  next => exact onward_strayDataDrive _ h

theorem onward_takeAcceptance (r : AcceptRecord) (rest : List AcceptRecord) (f : StatusFrame) (h : Onward s t) :
    Onward s (takeAcceptance r rest f t) := by
  have hremoved : Onward s { t with trk := { t.trk with accepts := rest } } := h.unmoved rfl
  unfold takeAcceptance
  generalize ({ t with trk := { t.trk with accepts := rest } } : State) = u at hremoved
  refine onward_flushReleased ?_
  split
  next => exact onward_clearQueueWait hremoved
  next =>
    split
    next =>
      refine onward_clearQueueWait (hremoved.unmoved ?_)
      unfold acceptedBy
      split <;> rfl
    next =>
      have hended := onward_endEntry (.tag r.tag) (some false) hremoved
      unfold rejectedBy
      dsimp only
      split
      exacts [onward_placeRelayed _ hended, onward_placePart _ hended]

theorem onward_completeSingle (f : StatusFrame) (h : Onward s t) : Onward s (completeSingle f t) := by
  have hclosed := onward_closeOwned (· = .single) h
  have hjudged : Onward s (judged f t) := by
    unfold judged
    split
    exacts [onward_checkShort _ hclosed, hclosed]
  rw [completeSingle_eq]
  exact onward_flushReleased (onward_placeRelayed _ (onward_endEntry _ _ hjudged))

theorem onward_takeStatus (f : StatusFrame) (h : Onward s t) : Onward s (takeStatus f t) := by
  unfold takeStatus
  split
  next r rest _ =>
    split
    exacts [onward_raiseFault _ h, onward_takeAcceptance r rest f h]
  next =>
    split
    exacts [onward_completeSingle f h, onward_raiseFault _ h]

theorem onward_answerAhead (k : Tag) (h : Onward s t) : Onward s (answerAhead k t) := h.unmoved (by simp)

theorem onward_endDone (l : List Tag) (h : Onward s t) : Onward s (endDone l t).2 := by
  induction l generalizing t with
  | nil => exact h
  | cons k l ih =>
    have hready := onward_answerAhead k (onward_checkShort (.tag k) h)
    unfold endDone
    dsimp only
    split <;> exact ih (onward_endEntry _ _ hready)

theorem onward_endFailed (p : Byte × Byte) (h : Onward s t) : Onward s (endFailed t p) :=
  onward_endEntry _ _ (onward_answerAhead _ h)

theorem onward_abortEntry (k : Tag) (e : Entry) (h : Onward s t) : Onward s (abortEntry k e t).2 := by
  have hended := onward_endEntry (.tag k) none h
  unfold abortEntry
  split
  next => exact hended
  next =>
    split
    exacts [hended, onward_placePart _ hended]

theorem onward_abortEntries (l : List Tag) (h : Onward s t) : Onward s (abortEntries l t).2 := by
  induction l generalizing t with
  | nil => exact h
  | cons k l ih =>
    unfold abortEntries
    split
    exacts [ih h, ih (onward_abortEntry k _ h)]

theorem onward_abortQueued (h : Onward s t) : Onward s (abortQueued t).2 := by
  have hended := onward_abortEntries (List.finRange 32) h
  unfold abortQueued
  dsimp only
  generalize (abortEntries (List.finRange 32) t).2 = u at *
  exact onward_rewindRings (hended.unmoved rfl)

theorem onward_abortSingle (h : Onward s t) : Onward s (abortSingle t) := by
  unfold abortSingle
  split
  next => exact h
  next =>
    split
    exacts [onward_placePart _ (onward_endEntry .single none h), onward_clearQueueWait h]

theorem onward_relayDone (d : DoneFrame) (l : List Tag) (m : List (Byte × Byte)) (h : Onward s t) : Onward s (relayDone d l m t) := by
  unfold relayDone
  split
  exacts [h, onward_placeRelayed _ h]

theorem onward_doneEnded (d : DoneFrame) (h : Onward s t) : Onward s (doneEnded d t) := by
  have hslip : ∀ b u, Onward s u → Onward s (slipDone b u) := fun b u hu => by
    unfold slipDone
    split
    exacts [onward_raiseFault _ hu, hu]
  exact onward_foldl onward_endFailed _ (onward_endDone _ (hslip _ _ (onward_closeOwned (doneNames d) h)))

theorem onward_takeDone (d : DoneFrame) (h : Onward s t) : Onward s (takeDone d t) := by
  have hended := onward_doneEnded d h
  unfold doneEnded at hended
  unfold takeDone
  dsimp only at hended ⊢
  refine onward_flushReleased ?_
  split
  exacts [onward_abortSingle (onward_relayDone _ _ _ (onward_abortQueued hended)), onward_relayDone _ _ _ hended]

theorem onward_takeInReset (f : Frame) (h : Onward s t) : Onward s (takeInReset f t) := by
  unfold takeInReset
  dsimp only
  split
  next => split <;> exact h.unmoved rfl
  all_goals exact h

theorem onward_takeDrive (f : Frame) (h : Onward s t) : Onward s (takeDrive f t) := by
  unfold takeDrive
  split
  next => exact onward_takeInReset f h
  next =>
    split
    next =>
      split
      next r _ => exact onward_takeReady r h
      next d _ => exact onward_takeDataDrive d h
      next f _ => exact onward_takeStatus f h
      next d _ => exact onward_takeDone d h
      all_goals exact h
    next => exact onward_raiseFault _ h

end

end Sys2Proof.RightsTime
end

