-- ==== Sys2Proof/Proofs/ClocksKept.lean ====
section
namespace Sys2Proof.RightsTime
open Sys2Proof Sys2Proof.Machine Sys2Proof.LinkPassage Sys2Proof.SectorClassification Sys2Proof.RecordingContexts

section
variable {s t : State}

/-! ### The settings (R176, R177, R179) -/

/-- The tick divider is clamped into 1,000,000 to 100,000,000 (R177). -/
theorem clampDivider_eq (n : Nat) : clampDivider n = max 1000000 (min n 100000000) := by
  unfold clampDivider
  repeat' split
  all_goals omega

/-- The state with the four settings written and the divide count restarted, before the attention line is judged (R159, R176). -/
def withSettings (p : SettingsParams) (v : Severities) (s : State) : State :=
  { s with
    req :=
      { s.req with
        lookahead := clampLookahead p.lookahead.toNat
        attentionSet := p.attentionSet.setWidth 16
        severities := v
        divider := clampDivider p.divider.toNat }
    time := { s.time with divideCount := 0 } }

theorem applySettings_eq (p : SettingsParams) (v : Severities) (s : State) :
    applySettings p v s = refill (judgeAttention (withSettings p v s)) := rfl

theorem settingsLaw_withSettings (p : SettingsParams) (v : Severities) (s : State) : SettingsLaw (withSettings p v s) := by
  simp only [SettingsLaw, withSettings, clampLookahead_eq, clampDivider_eq]
  omega

/-- New settings, written only where they are not locked, restart the divide count below the new divider (R159, R179). -/
theorem onward_withSettings (p : SettingsParams) (v : Severities) (hl : t.req.locked = false) (h : Onward s t) :
    Onward s (withSettings p v t) := by
  refine h.trans ⟨fun _ => settingsLaw_withSettings p v t, fun hs => ?_, fun _ => ⟨le_rfl, le_rfl, id⟩, id, id, fun hs => ?_⟩
  · obtain ⟨-, hmono, hrights, hunset⟩ := hs
    obtain ⟨-, -, hdivider, -⟩ := settingsLaw_withSettings p v t
    exact ⟨Nat.lt_of_lt_of_le (by decide : 0 < 1000000) hdivider, hmono, hrights, hunset⟩
  · simp [hl] at hs

theorem onward_writeSettings (p : SettingsParams) (h : Onward s t) : Onward s (writeSettingsRequest p t).after := by
  unfold writeSettingsRequest
  split
  next => exact h
  next hl =>
    split
    next => exact h
    next v _ => exact (onward_withSettings p v (by simpa using hl) h).unmoved (by simp [accepts, applySettings_eq])

theorem onward_lockSettings (h : Onward s t) : Onward s (lockSettingsRequest t).after :=
  h.trans ⟨id, id, fun _ => ⟨le_rfl, le_rfl, id⟩, id, id, fun hl => by simp [lockSettingsRequest, accepts, hl]⟩

/-! ### Requests on contexts and on the unit (R83, R88, R92, R99) -/

theorem onward_loadContext (slot : Byte) (b : Blob) (h : Onward s t) : Onward s (loadContextRequest slot b t).after := by
  unfold loadContextRequest refuses accepts
  split
  next => exact h
  next c _ =>
    split
    next => exact h
    next hempty =>
      have hload : ∀ cls opening, Onward s (setCtx c (loadingContext b cls opening) t) := fun cls opening =>
        onward_setCtx (by simp [compareEntry, loadingContext, not_not.1 hempty]) h
      dsimp only
      repeat' split
      all_goals first
        | exact h
        | exact (hload _ _).unmoved rfl

theorem onward_sealContext (slot : Byte) (h : Onward s t) : Onward s (sealContextRequest slot t).after := by
  unfold sealContextRequest refuses accepts
  split
  next => exact h
  next c _ =>
    split
    next => exact h
    next hstate =>
      have hrec : (ctxOf t c).state = .recording := not_not.1 hstate
      split
      next => exact onward_completeSeal (.inl hrec) h
      next => exact onward_updateCtx (f := fun x => { x with state := .sealing }) (by simp [compareEntry, hrec]) h

/-- A context that starts to close leaves the compare set, and the compare value is recomputed (R92). -/
theorem onward_closeContext (slot : Byte) (h : Onward s t) : Onward s (closeContextRequest slot t).after := by
  unfold closeContextRequest refuses accepts
  split
  next => exact h
  next c _ =>
    split
    next => exact h
    next =>
      split
      next => exact h
      next => exact onward_tryClose c (h.recomputed (by simp))

theorem compareValue_blank : compareValue (Vector.replicate 16 .blank) = none := by decide

theorem onward_clearUnit (h : Onward s t) : Onward s (clearUnitRequest t).after := by
  unfold clearUnitRequest
  split
  next =>
    exact h.trans (onward_of_units ⟨rfl, rfl, id⟩ fun _ => compareValue_blank.symm)
  next => exact h

theorem onward_pinKey (slot : Byte) (h : Onward s t) : Onward s (pinKeyRequest slot t).after := by
  have hpinned : ∀ c, Onward s (pinContext c t) := fun c => by
    have hpin : Onward s (updateCtx c (fun x => { x with pin := true }) t) := onward_updateCtx rfl h
    unfold pinContext
    dsimp only
    split <;> exact hpin.unmoved (by simp)
  unfold pinKeyRequest
  dsimp only
  split
  next => exact h
  next c _ =>
    split
    next => exact h
    next =>
      split
      next => exact h
      next =>
        split
        exacts [h, hpinned c]

theorem onward_unpinKey (slot : Byte) (h : Onward s t) : Onward s (unpinKeyRequest slot t).after := by
  have hunpinned : ∀ c, Onward s (unpinContext c t) := fun c => by
    have hpin : Onward s (updateCtx c (fun x => { x with pin := false }) t) := onward_updateCtx rfl h
    unfold unpinContext
    dsimp only
    split
    next => repeat' split
            all_goals exact hpin.unmoved (by simp)
    next => exact h
  unfold unpinKeyRequest
  split
  exacts [h, hunpinned _]

/-- The other requests reach neither the clocks, nor the settings, nor the contexts (R172). -/
theorem onward_executeRequest (r : Request) (h : Onward s t) : Onward s (executeRequest r t).after := by
  cases r <;> simp only [executeRequest]
  case loadContext slot b => exact onward_loadContext slot b h
  case sealContext slot => exact onward_sealContext slot h
  case closeContext slot => exact onward_closeContext slot h
  case clearUnit => exact onward_clearUnit h
  case pinKey slot => exact onward_pinKey slot h
  case unpinKey slot => exact onward_unpinKey slot h
  case writeSettings p => exact onward_writeSettings p h
  case lockSettings => exact onward_lockSettings h
  all_goals refine h.unmoved ?_
  case readContext => unfold readContextRequest; split <;> rfl
  case readReceipt => unfold readReceiptRequest; repeat' split
                      all_goals rfl
  case addRegion p =>
    rcases RingQueues.addRegion_after p t with hr | ⟨e, r, hr⟩ <;> rw [hr]
    unfold enableRegion
    dsimp only
    split <;> rfl
  case removeRegion entry =>
    rcases removeRegion_after entry t with hr | ⟨e, r, -, hr⟩ <;> rw [hr]
    unfold freeRegion
    dsimp only
    split <;> simp
  case readRegions => unfold readRegionsRequest; split <;> rfl
  case setShiftDepth => unfold setShiftDepthRequest; dsimp only; repeat' split
                        all_goals rfl
  case setRightsTime => unfold setRightsTimeRequest; split <;> rfl
  case drain => unfold drainRequest; dsimp only; split <;> rfl
  all_goals rfl

theorem onward_takeRequest (block : Sector) (h : Onward s t) : Onward s (takeRequest block t) := by
  have hanswer : ∀ x : Executed, Onward s x.after → Onward s (answerRequest x) := fun x hx => by
    unfold answerRequest
    split <;> exact hx.unmoved rfl
  unfold takeRequest
  split
  next => exact hanswer _ h
  next r _ => exact hanswer _ (onward_executeRequest r h)

/-! ### The frames of the controller -/

theorem onward_takeDataUp (d : DataFrame) (h : Onward s t) : Onward s (takeDataUp d t) := by
  unfold takeDataUp
  split
  next =>
    unfold strayDataUp
    split
    exacts [h.unmoved rfl, onward_raiseFault _ (h.unmoved rfl)]
  next b _ =>
    split
    next =>
      unfold takeBlock
      split
      next => exact h
      next block _ _ => exact onward_cutExcess _ _ (onward_takeRequest block (h.unmoved rfl))
    next => exact onward_passDown b d h

theorem onward_takeUp (f : Frame) (h : Onward s t) : Onward s (takeUp f t) := by
  unfold takeUp
  split
  next =>
    split
    next c _ => exact onward_takeCommand c h
    next d _ => exact onward_takeDataUp d h
    all_goals exact h
  next => exact onward_raiseFault _ h

theorem onward_ports (s : State) : KeptByPorts (Onward s) where
  links _ _ _ _ h := h.unmoved rfl
  settle _ h := h.unmoved (by simp)
  up f _ h := onward_takeUp f h
  drive f _ h := onward_takeDrive f h

theorem onward_run (h : Onward s t) : Onward s (run t) := (onward_ports s).run h

/-! ### Time (R159 to R167) -/

theorem onward_expiryComparison (h : Onward s t) : Onward s (expiryComparison t) := by
  unfold expiryComparison
  split
  next =>
    split
    next => exact h
    next =>
      split
      exacts [h.recomputed (by simp), h]
  next => exact h

/-- At a tick no clock falls, none passes its maximum, and rights time stands while UNSET (R159 to R161). -/
theorem onward_ticked (h : Onward s t) : Onward s (ticked t) := by
  have hrise : ∀ n, n ≤ maxSeconds → n ≤ satAdd maxSeconds n 1 ∧ satAdd maxSeconds n 1 ≤ maxSeconds := fun n hn => by
    rw [satAdd_eq_min]
    omega
  refine h.trans ⟨id, fun ⟨hcount, hmono, hrights, hunset⟩ => ?_, fun ⟨_, hmono, hrights, _⟩ => ?_, id, id, fun _ => rfl⟩
  · refine ⟨Nat.zero_lt_of_lt hcount, (hrise _ hmono).2, ?_, fun hu => ?_⟩
    · dsimp only [ticked]
      split
      exacts [(hrise _ hrights).2, hrights]
    · exact (if_neg (by simpa [ticked] using hu)).trans (hunset hu)
  · refine ⟨(hrise _ hmono).1, ?_, id⟩
    dsimp only [ticked]
    split
    exacts [(hrise _ hrights).1, le_rfl]

theorem onward_tickEvent (h : Onward s t) : Onward s (tickEvent t) := by
  rw [tickEvent_eq]
  exact onward_expiryComparison (onward_ticked h)

theorem onward_referencePeriod (h : Onward s t) : Onward s (referencePeriod t) := by
  unfold referencePeriod
  split
  next hlt =>
    exact h.trans ⟨id, fun ⟨_, hmono, hrights, hunset⟩ => ⟨hlt, hmono, hrights, hunset⟩, fun _ => ⟨le_rfl, le_rfl, id⟩, id, id,
      fun _ => rfl⟩
  next => exact onward_tickEvent h

/-- Rights time is set to a time in its range and not behind it (R161, R163). -/
theorem onward_setTime {n : Nat} (hn : n ≤ maxSeconds) (hr : ClockLaw t → t.time.rights ≤ n) (h : Onward s t) :
    Onward s (setTime n t) :=
  h.trans ⟨id, fun ⟨hcount, hmono, _, _⟩ => ⟨hcount, hmono, hn, nofun⟩, fun hs => ⟨le_rfl, hr hs, fun _ => rfl⟩, id, id, fun _ => rfl⟩

/-- A token sets rights time only forward, or first from 0 (R161, R163). -/
theorem onward_judgeToken (time : BitVec 32) (check : Block) (h : Onward s t) : Onward s (judgeToken time check t) := by
  have hrange : time.toNat ≤ maxSeconds := Nat.le_of_lt_succ time.isLt
  unfold judgeToken moveTime
  split
  next => exact onward_queueNotice _ _ _ _ _ h
  next =>
    split
    next =>
      split
      next hle => exact onward_setTime hrange (fun _ => hle) h
      next => split <;> exact onward_queueNotice _ _ _ _ _ h
    next hunset =>
      refine onward_setTime hrange (fun ⟨_, _, _, hzero⟩ => ?_) h
      rw [hzero (by simpa using hunset)]
      exact Nat.zero_le _

/-! ### The events that are no frames -/

theorem onward_endRunning (h : Onward s t) : Onward s (endRunning t) := h.unmoved rfl

theorem onward_tokenEvent (h : Onward s t) : Onward s (tokenEvent t) := by
  unfold tokenEvent finishToken
  split
  next => exact onward_expiryComparison (onward_judgeToken _ _ ((onward_endRunning h).unmoved rfl))
  next => exact h

theorem onward_dropReply (h : Onward s t) : Onward s (dropReply t) := h.unmoved rfl

theorem onward_linkReset (h : Onward s t) : Onward s (linkResetEvent t) := by
  have hfreed : Onward s (freeAllSlots (resetPorts t)) := h.unmoved (by simp [resetPorts])
  have hended : Onward s (resetEntries t) := onward_clearAccepts (onward_endEntry .single none (onward_endQueued hfreed))
  rw [linkResetEvent_eq]
  exact onward_rewindRings (onward_dropReply hended)

theorem onward_endLost (h : Onward s t) : Onward s (endLost t) := by
  unfold endLost
  split
  exacts [onward_endEntry _ _ (onward_endQueued h), onward_endQueued h]

theorem onward_lossEvent (h : Onward s t) : Onward s (lossEvent t) := by
  have hports : Onward s (lostPorts t) := h.unmoved (by simp [lostPorts])
  have hanswered : Onward s (answerLoss t (clearAccepts (endLost (lostPorts t)))) :=
    onward_foldl onward_placePart _ (onward_clearAccepts (onward_endLost hports))
  exact onward_rewindRings (onward_raiseFault _ (onward_queueNotice _ _ _ _ _ hanswered))

theorem onward_transmit (h : Onward s t) : Onward s (transmit t) := by
  rcases transmit_cases t with ht | ⟨k, i, -, -, ht⟩ <;> rw [ht]
  · exact h
  · refine onward_run (h.unmoved ?_)
    unfold sendItem sentItem sentReady sentData openUpstream placeReply
    dsimp only
    repeat' split
    all_goals rfl

theorem onward_startJob (h : Onward s t) : Onward s (startJob t) := by
  refine h.unmoved ?_
  unfold startJob startNext
  repeat' split
  all_goals rfl

theorem onward_setupEvent (h : Onward s t) : Onward s (setupEvent t) := by
  unfold setupEvent finishSetup
  dsimp only
  split
  next =>
    split
    next => exact onward_endRunning h
    next =>
      refine onward_tryClose _ (h.unmoved ?_)
      split <;> simp [endRunning]
  next => exact h

theorem onward_streamEvent (h : Onward s t) : Onward s (streamEvent t) := by
  have hdone : Onward s (streamDone t) := by
    refine h.unmoved ?_
    unfold streamDone finishStream
    repeat' split
    all_goals simp [endRunning]
  rcases streamEvent_cases t with ht | ht <;> rw [ht]
  exacts [h, onward_run hdone]

theorem onward_parityEvent (h : Onward s t) : Onward s (parityEvent t) := by
  have hdone : Onward s (parityDone t) := by
    unfold parityDone firstFailure secondFailure requeue
    dsimp only
    split
    next =>
      split
      all_goals
        refine onward_raiseFault _ (h.unmoved ?_)
        split <;> simp [endRunning]
    next => exact h
  rcases parityEvent_cases t with ht | ht <;> rw [ht]
  exacts [h, onward_run hdone]

/-- A loaded context joins the compare set with its E; a rejected one never was of it (R85, R86). -/
theorem onward_finishUnwrap (c : CtxSlot) (b : Blob) (h : Onward s t) : Onward s (finishUnwrap c b t) := by
  unfold finishUnwrap
  split
  next hl =>
    split
    next =>
      refine onward_queueNotice _ _ _ _ _ (h.trans (onward_of_units ?_ fun hs => ?_))
      · split <;> exact ⟨rfl, rfl, id⟩
      · exact (congrArg CompareLaw (opened_compare hl hs)).mpr rfl
    next =>
      refine onward_queueNotice _ _ _ _ _ (onward_setCtx ?_ h)
      rw [compareEntry_loading hl]
      rfl
  next => exact onward_tryClose c h

theorem onward_unwrapEvent (h : Onward s t) : Onward s (unwrapEvent t) := by
  unfold unwrapEvent
  split
  exacts [onward_finishUnwrap _ _ (onward_endRunning h), h]

theorem onward_receiptEvent (h : Onward s t) : Onward s (receiptEvent t) := by
  unfold receiptEvent finishReceipt
  split
  next =>
    refine onward_tryClose _ ?_
    split
    exacts [onward_updateCtx rfl (onward_endRunning h), onward_endRunning h]
  next => exact h

end

/-! ### Every step -/

/-- Every command but POWER_ON goes onward. -/
theorem onward_exec {i : Instr} {s t : State} (hi : i ≠ .powerOn) (h : exec i s = .next t) : Onward s t := by
  have hs := Onward.refl s
  cases i <;> (obtain rfl := Host.Outcome.next.inj h)
  case powerOn => exact absurd rfl hi
  case upstreamLinkUp => exact hs.unmoved rfl
  case linkReset => exact onward_linkReset hs
  case driveLinkUp => exact onward_run (hs.unmoved rfl)
  case driveLinkLost => exact onward_run (onward_lossEvent hs)
  case tick => exact onward_tickEvent hs
  case unexpectedFrame port f =>
    cases port with
    | upstream => exact (onward_ports s).arriveUp f hs
    | drive => exact (onward_ports s).arriveDrive f hs
  case readyFromDrive | dataFromDrive | statusFromDrive | doneFromDrive => exact (onward_ports s).arriveDrive _ hs
  case sendUpstreamFrame => exact onward_transmit hs
  case engineJobStart => exact onward_startJob hs
  case setupComplete => exact onward_setupEvent hs
  case streamComplete => exact onward_streamEvent hs
  case parityFailure => exact onward_parityEvent hs
  case unwrapComplete => exact onward_unwrapEvent hs
  case receiptCheckComplete => exact onward_receiptEvent hs
  case timeTokenCheckComplete => exact onward_tokenEvent hs
  all_goals exact (onward_ports s).arriveUp _ hs

/-- Every step goes onward, unless its command is POWER_ON. -/
theorem onward_step {s t : State} (hp : ¬PowersOn s) (h : step s = .next t) : Onward s t := by
  unfold step at h
  split at h
  next =>
    obtain rfl := Host.Outcome.next.inj h
    exact onward_referencePeriod (.refl s)
  next c rest hc =>
    have hi : c ≠ .powerOn := fun hi => hp (by simp [PowersOn, hc, hi])
    exact Onward.trans (t := { s with pending := rest }) ((Onward.refl s).unmoved rfl) (onward_exec hi h)

theorem step_powerOn {s t : State} (hp : PowersOn s) (h : step s = .next t) : ∃ u, t = powerOnEvent u := by
  obtain ⟨rest, hc⟩ := List.head?_eq_some_iff.1 hp
  rw [step, hc] at h
  exact ⟨_, (Host.Outcome.next.inj h).symm⟩

/-- Settles O53: POWER_ON sets the reset values, which meet the three laws, and every other step keeps each of them. -/
theorem clocksAndCompareKept : Obligations.ClocksAndCompareKept := by
  intro s t hsettings hclocks hcompare h
  by_cases hp : PowersOn s
  · obtain ⟨u, rfl⟩ := step_powerOn hp h
    exact ⟨CommandTracking.settingsLaw_reset, CommandTracking.clockLaw_reset, compareValue_blank.symm⟩
  · have ho := onward_step hp h
    exact ⟨ho.settings hsettings, ho.clocks hclocks, ho.compare hcompare⟩

/-- Settles O54: every step but a POWER_ON goes onward, and under the lock no setting changes. -/
theorem onlyPowerOnUndoes : Obligations.OnlyPowerOnUndoes := by
  intro s t hp h
  have ho := onward_step hp h
  refine ⟨ho.times, ho.lockdown, fun hl => ?_⟩
  have hsame := ho.lock hl
  simp only [settingsOf, Prod.mk.injEq] at hsame
  obtain ⟨hlook, hattention, hseverities, hdivider, hlocked⟩ := hsame
  exact ⟨hlocked.trans hl, hlook, hattention, hseverities, hdivider⟩

end Sys2Proof.RightsTime
end

