-- ==== Sys2Proof/Proofs/SettingsRequests.lean ====
section
namespace Sys2Proof.RightsTime
open Sys2Proof Sys2Proof.Machine Sys2Proof.LinkPassage Sys2Proof.CommandTracking

/-! ### The severity bytes of WRITE_SETTINGS (R176) -/

/-- The severity that a byte of 0 or 1 names (12.2). -/
def severityNamed (b : Byte) : Severity :=
  if b = 0#8 then .notice else .lockdown

theorem severityOperand_named {b : Byte} (h : b.toNat ≤ 1) : severityOperand b = some (severityNamed b) := by
  unfold severityOperand severityNamed
  split
  next => rfl
  next hzero =>
    have hone : b = 1#8 := by bv_omega
    exact if_pos hone

theorem severityOperand_eq_none {b : Byte} (h : ¬b.toNat ≤ 1) : severityOperand b = none := by
  have hzero : b ≠ 0#8 := by bv_omega
  have hone : b ≠ 1#8 := by bv_omega
  rw [severityOperand, if_neg hzero, if_neg hone]

/-- Whether each severity byte names a severity (R176). -/
def Proper (p : SettingsParams) : Prop :=
  p.keyParity.toNat ≤ 1 ∧ p.transform.toNat ≤ 1 ∧ p.protocol.toNat ≤ 1 ∧ p.driveLost.toNat ≤ 1

/-- The severities that a WRITE_SETTINGS names. -/
def severitiesNamed (p : SettingsParams) : Severities :=
  { keyParity := severityNamed p.keyParity, transform := severityNamed p.transform, protocol := severityNamed p.protocol
    driveLost := severityNamed p.driveLost }

theorem severitiesOf_proper {p : SettingsParams} (h : Proper p) : severitiesOf p = some (severitiesNamed p) := by
  obtain ⟨hkey, htransform, hprotocol, hdrive⟩ := h
  rw [severitiesOf, severityOperand_named hkey, severityOperand_named htransform, severityOperand_named hprotocol,
    severityOperand_named hdrive]
  rfl

theorem severitiesOf_improper {p : SettingsParams} (h : ¬Proper p) : severitiesOf p = none := by
  unfold severitiesOf
  split
  next hkey htransform hprotocol hdrive =>
    have hproper : ∀ {b : Byte} {v : Severity}, severityOperand b = some v → b.toNat ≤ 1 := fun hb => by
      by_contra hlarge
      simp [severityOperand_eq_none hlarge] at hb
    exact absurd ⟨hproper hkey, hproper htransform, hproper hprotocol, hproper hdrive⟩ h
  next => rfl

/-! ### WRITE_SETTINGS and LOCK_SETTINGS (R176 to R179) -/

/-- The attention line under the bits 0 to 15 of an attention set, which are those of the sixteen kinds (R186, R188). -/
theorem attentionDue_iff (a : BitVec 32) (lockdown : Bool) (l : List Notice) :
    attentionDue (a.setWidth 16) lockdown l = true ↔
      lockdown = true ∨ ∃ n ∈ l, a.getLsbD (noticeNumber n.kind) = true := by
  have hkind : ∀ k, noticeNumber k < 16 := fun k => by cases k <;> decide
  simp [attentionDue, hkind]

section
variable {p : SettingsParams} {s : State}

theorem exec_writeSettings_locked (ha : AwaitsBlock s) (hl : s.req.locked = true) :
    exec (.writeSettings p) s = .next (answered (errorFrame .locked) s) :=
  exec_refused (r := .writeSettings p) rfl ha (if_pos hl)

theorem exec_writeSettings_improper (ha : AwaitsBlock s) (hl : s.req.locked = false) (hp : ¬Proper p) :
    exec (.writeSettings p) s = .next (answered (errorFrame .outOfRange) s) := by
  have hopen : ¬(closedBurst s).req.locked = true := by simp [closedBurst, hl]
  refine exec_refused (r := .writeSettings p) rfl ha ?_
  rw [executeRequest, writeSettingsRequest, if_neg hopen, severitiesOf_improper hp]

theorem withSettings_req (p : SettingsParams) (v : Severities) (s : State) : (withSettings p v s).req =
    { s.req with
      lookahead := max 1 (min p.lookahead.toNat 16)
      attentionSet := p.attentionSet.extractLsb' 0 16
      severities := v
      divider := max 1000000 (min p.divider.toNat 100000000) } := by
  rw [← clampLookahead_eq, ← clampDivider_eq, ← BitVec.setWidth_eq_extractLsb' (by decide)]
  rfl

/-- Beyond the settings and the line, new settings reach only the Pool and the keys that its slots ask for (R146). -/
theorem applySettings_leaves (p : SettingsParams) (v : Severities) (s : State) :
    (applySettings p v s).req = (withSettings p v s).req ∧ (applySettings p v s).time = { s.time with divideCount := 0 } ∧
      (applySettings p v s).nq = (judgeAttention (withSettings p v s)).nq ∧ (applySettings p v s).faults = s.faults ∧
      (applySettings p v s).up = s.up ∧ (applySettings p v s).trk = s.trk := by
  obtain ⟨hup, -, htrk, -, -, -, htime, hreq, hnq, hfaults, -, -⟩ := refill_keeps (judgeAttention (withSettings p v s))
  exact ⟨hreq, htime, hnq, hfaults, hup, htrk⟩

/-- Without an open burst new settings reach neither the Pool nor the engine (R146). -/
theorem applySettings_idle {v : Severities} (hb : s.drv.burst = none) :
    applySettings p v s = judgeAttention (withSettings p v s) := by
  have hburst : (judgeAttention (withSettings p v s)).drv.burst = none := hb
  rw [applySettings_eq, refill, hburst]

/-- An accepted WRITE_SETTINGS is executed with the request burst closed and answered OK (R173, R176). -/
theorem exec_writeSettings_proper (ha : AwaitsBlock s) (hl : s.req.locked = false) (hp : Proper p) :
    exec (.writeSettings p) s = .next (answered okFrame (applySettings p (severitiesNamed p) (closedBurst s))) :=
  exec_writeSettings ha hl (severitiesOf_proper hp)

end

/-- Settles O49: the refusals of R176 in their order; what is accepted is `withSettings`, the line judged and a waiting burst served. -/
theorem settingsWrittenAndLocked : Obligations.SettingsWrittenAndLocked := by
  intro p s ha severity proper
  refine ⟨exec_accepted (r := .lockSettings) rfl ha rfl, exec_writeSettings_locked ha, exec_writeSettings_improper ha, fun hl hp =>
    ⟨_, exec_writeSettings_proper ha hl hp, ?_⟩⟩
  obtain ⟨hreq, htime, hnq, hfaults, hup, htrk⟩ := applySettings_leaves p (severitiesNamed p) (closedBurst s)
  refine ⟨hreq.trans (withSettings_req p _ _), htime, (congrArg NoticeQueue.notices hnq :), hfaults, ?_, fun hb => ?_, ?_, ?_⟩
  · exact (Bool.eq_iff_iff.1 (congrArg NoticeQueue.attention hnq)).trans (attentionDue_iff p.attentionSet _ _)
  · rw [applySettings_idle (s := closedBurst s) hb]
    exact ⟨rfl, rfl, rfl⟩
  · exact (congrArg (fun u : Upstream => u.sendList ++ [fromPart okFrame]) hup :)
  · exact congrArg (fun k : Tracker => { k with single := none }) htrk

end Sys2Proof.RightsTime
end

