-- ==== Sys2Proof/Proofs/StepFront.lean ====
section
namespace Sys2Proof.RightsTime
open Sys2Proof Sys2Proof.Machine

/-! ### The front of the queue (R159; log 2) -/

theorem step_cons {c : Instr} {rest : List Instr} {s : State} (h : s.pending = c :: rest) :
    step s = exec c { s with pending := rest } := by
  rw [step, h]

theorem step_nil {s : State} (h : s.pending = []) : step s = .next (referencePeriod s) := by
  rw [step, h]

/-- Settles O1: the match of `step` on the queue, and the comparison of `referencePeriod` with the divider. -/
theorem stepRunsFrontCommand : Obligations.StepRunsFrontCommand := by
  refine ⟨fun c rest s h => step_cons h, fun s h => ⟨fun hlt => ?_, fun hge => ?_⟩⟩
  · exact (step_nil h).trans (congrArg _ (if_pos hlt))
  · exact (step_nil h).trans (congrArg _ (if_neg (Nat.not_lt.2 hge)))

end Sys2Proof.RightsTime
end

