-- ==== Sys2Proof/Proofs/ClearedFaults.lean ====
section
namespace Sys2Proof.NoticesAndFaults
open Sys2Proof Sys2Proof.Machine Sys2Proof.LinkPassage Sys2Proof.CommandTracking

/-! ### The Fault Record after CLEAR_FAULTS (R191) -/

/-- A parameter with bits 0 to 3 clear names no kind (R191, R196). -/
theorem namesFault_of_low {set : Byte} (h : set.toNat % 16 = 0) (k : FaultKind) : namesFault set k = false := by
  have hbit : faultBit k < 4 := by cases k <;> decide
  have hlow := Nat.testBit_mod_two_pow set.toNat 4 (faultBit k)
  rw [h, decide_eq_true hbit, Bool.true_and, Nat.zero_testBit] at hlow
  exact hlow.symm

section
variable {set : Byte} (f : FaultRecord)

theorem clearFaultRecord_unnamed (h : ∀ k, namesFault set k = false) : clearFaultRecord set f = f := by
  obtain ⟨held, first, lockdown, cause⟩ := f
  cases first <;> simp [clearFaultRecord, h]

/-- A kind stays in the fault set when it was there and is not named. -/
theorem clearFaultRecord_set :
    let g := (clearFaultRecord set f).set
    (g.keyParity = true ↔ f.set.keyParity = true ∧ set.getLsbD 0 = false) ∧
      (g.transform = true ↔ f.set.transform = true ∧ set.getLsbD 1 = false) ∧
      (g.protocol = true ↔ f.set.protocol = true ∧ set.getLsbD 2 = false) ∧
      (g.driveLost = true ↔ f.set.driveLost = true ∧ set.getLsbD 3 = false) := by
  simp [clearFaultRecord, namesFault, faultBit]

/-- The first fault stays unless it is named. -/
theorem clearFaultRecord_first (k : FaultKind) :
    (clearFaultRecord set f).first = some k ↔ f.first = some k ∧ set.getLsbD (faultBit k) = false := by
  simp [clearFaultRecord, namesFault, Option.filter_eq_some_iff]

end

/-- Settles O50: what CLEAR_FAULTS leaves is `clearFaultRecord`, kind by kind, and a fault raised after it is recorded as any other (R190). -/
theorem clearFaultsRemovesNamed : Obligations.ClearFaultsRemovesNamed := by
  intro set s ha
  obtain ⟨hkey, htransform, hprotocol, hdrive⟩ := clearFaultRecord_set (set := set) s.faults
  refine ⟨_, exec_accepted (r := .clearFaults set) (t := { s with faults := clearFaultRecord set s.faults }) rfl ha rfl,
    hkey, htransform, hprotocol, hdrive, clearFaultRecord_first s.faults, rfl, rfl, rfl, rfl, rfl, rfl, fun hlow => ?_,
    fun k => ⟨raiseFault_set k _, fun hnone => ?_⟩⟩
  · exact clearFaultRecord_unnamed s.faults (namesFault_of_low hlow)
  · rw [raiseFault_first, hnone, Option.none_or]

end Sys2Proof.NoticesAndFaults
end

