-- ==== Sys2Proof/Proofs/NoticesReply.lean ====
section
namespace Sys2Proof.NoticesAndFaults
open Sys2Proof Sys2Proof.Machine Sys2Proof.LinkPassage Sys2Proof.CommandTracking Sys2Proof.RegionTable

/-! ### The reply block of READ_NOTICES (R187, 12.3) -/

theorem recordWriter_putNotice : RecordWriter 16 putNotice where
  before off n b f w hf hw := by
    simp (disch := omega) only [putNotice, putNat_eq, getField_putField_apart]
  past off n b hb := by
    have hwide := hb.mono (Nat.le_add_right off 16)
    have hstamp := hwide.putField (f := off + 8) (BitVec.ofNat 32 n.stamp) (by omega)
    have hvalue := hstamp.putField (f := off + 4) (BitVec.ofNat 32 n.value) (by omega)
    have hdetail := hvalue.putField (f := off + 3) (detailByte n.detail) (by omega)
    have htag := hdetail.putField (f := off + 2) (optByte n.tag) (by omega)
    have hctx := htag.putField (f := off + 1) (optByte n.ctx) (by omega)
    exact hctx.putField (f := off) (BitVec.ofNat 8 (noticeNumber n.kind)) (by omega)

/-- The fields of a notice record read back where nothing stood before (12.3). -/
theorem getField_putNotice {off : Nat} {b : Sector} (n : Notice) (hb : ZeroFrom off b) (ho : off + 16 ≤ 512) :
    let b' := putNotice off n b
    getField off 8 b' = BitVec.ofNat 8 (noticeNumber n.kind) ∧ getField (off + 1) 8 b' = optByte n.ctx ∧
      getField (off + 2) 8 b' = optByte n.tag ∧ getField (off + 3) 8 b' = detailByte n.detail ∧
      getField (off + 4) 32 b' = BitVec.ofNat 32 n.value ∧ getField (off + 8) 32 b' = BitVec.ofNat 32 n.stamp := by
  have hzero : ∀ f w, off ≤ f → getField f w b = 0 := fun f w hf => hb.getField hf
  simp (disch := first | omega | (simp (disch := omega) only [getField_putField_apart, hzero]; done)) only
    [putNotice, putNat_eq, getField_putField_same, getField_putField_apart, and_self]

/-- The fields of a READ_NOTICES reply ahead of its records (12.3; log 40). -/
def noticesHead (q : NoticeQueue) : List BlockField :=
  [numField 4 8 (q.notices.take 15).length, numField 5 8 q.overflow.toNat, numField 6 8 (q.notices.drop 15).length, ⟨0, 16, 18#16⟩]

theorem noticesReply_eq (q : NoticeQueue) :
    noticesReply q = putRecords 16 putNotice 8 (q.notices.take 15) (blockOf (noticesHead q)) := rfl

section
variable {q : NoticeQueue}

theorem noticesReply_head {off width : Nat} (h : 8 * off + width ≤ 64) :
    getField off width (noticesReply q) = getField off width (blockOf (noticesHead q)) :=
  recordWriter_putNotice.putRecords_before _ _ (by omega) (by omega)

/-- The code, the number of notices returned, the overflow flag and the number left read as `noticesHead` says (R187; log 40). -/
theorem noticesReply_counts (hq : q.notices.length ≤ 32) :
    let b := noticesReply q
    getField 0 16 b = 18#16 ∧ (getField 4 8 b).toNat = min 15 q.notices.length ∧
      (getField 5 8 b).toNat = (if q.overflow then 1 else 0) ∧ (getField 6 8 b).toNat = q.notices.length - 15 := by
  have htaken : (q.notices.take 15).length = min 15 q.notices.length := List.length_take
  have hleft : (q.notices.drop 15).length = q.notices.length - 15 := List.length_drop
  refine ⟨(noticesReply_head (by omega)).trans (getField_blockOf rfl rfl), ?_, ?_, ?_⟩
  · rw [noticesReply_head (by omega), getField_blockOf_toNat rfl rfl (by omega), htaken]
  · rw [noticesReply_head (by omega), getField_blockOf_flag rfl rfl]
  · rw [noticesReply_head (by omega), getField_blockOf_toNat rfl rfl (by omega), hleft]

/-- The notice at each of the first fifteen places of the queue has its record in the reply, 16 bytes a place from byte 8 on (R187, 12.3). -/
theorem noticesReply_record {k : Nat} {n : Notice} (hk : k < 15) (hn : q.notices[k]? = some n) :
    let b := noticesReply q
    getField (8 + 16 * k) 8 b = BitVec.ofNat 8 (noticeNumber n.kind) ∧ getField (9 + 16 * k) 8 b = optByte n.ctx ∧
      getField (10 + 16 * k) 8 b = optByte n.tag ∧ getField (11 + 16 * k) 8 b = detailByte n.detail ∧
      getField (12 + 16 * k) 32 b = BitVec.ofNat 32 n.value ∧ getField (16 + 16 * k) 32 b = BitVec.ofNat 32 n.stamp := by
  have htaken : (q.notices.take 15)[k]? = some n := (List.getElem?_take_of_lt hk).trans hn
  obtain ⟨b, hb, hread⟩ := recordWriter_putNotice.putRecords_record (off := 8) (b := blockOf (noticesHead q)) (zeroFrom_blockOf rfl) htaken
  obtain ⟨hkind, hctx, htag, hdetail, hvalue, hstamp⟩ := getField_putNotice n hb (by omega)
  rw [show 9 + 16 * k = 8 + 16 * k + 1 by omega, show 10 + 16 * k = 8 + 16 * k + 2 by omega,
    show 11 + 16 * k = 8 + 16 * k + 3 by omega, show 12 + 16 * k = 8 + 16 * k + 4 by omega,
    show 16 + 16 * k = 8 + 16 * k + 8 by omega]
  exact ⟨(hread _ _ (by omega) (by omega)).trans hkind, (hread _ _ (by omega) (by omega)).trans hctx,
    (hread _ _ (by omega) (by omega)).trans htag, (hread _ _ (by omega) (by omega)).trans hdetail,
    (hread _ _ (by omega) (by omega)).trans hvalue, (hread _ _ (by omega) (by omega)).trans hstamp⟩

end

/-! ### READ_NOTICES (R187, R188) -/

/-- The state that READ_NOTICES leaves beside its reply: the first fifteen notices gone, the flag clear, the line judged (R187, R188). -/
def noticesTaken (s : State) : State :=
  judgeAttention { s with nq := { s.nq with notices := s.nq.notices.drop 15, overflow := false } }

theorem noticesTaken_attention (s : State) :
    (noticesTaken s).nq.attention = true ↔
      s.faults.lockdown = true ∨ ∃ n ∈ s.nq.notices.drop 15, s.req.attentionSet.getLsbD (noticeNumber n.kind) = true := by
  change attentionDue s.req.attentionSet s.faults.lockdown (s.nq.notices.drop 15) = true ↔ _
  rw [attentionDue, Bool.or_eq_true, List.any_eq_true]

theorem exec_readNotices {s : State} (ha : AwaitsBlock s) :
    exec .readNotices s = .next (asked (noticesReply s.nq) (noticesTaken s)) := by
  have hrequest : executeRequest .readNotices (closedBurst s) = replies (noticesReply s.nq) (noticesTaken (closedBurst s)) := rfl
  rw [exec_request (r := .readNotices) rfl ha, hrequest, answerRequest_replies _ _ rfl]
  rfl

theorem toNat_noticeNumber (k : NoticeKind) : (BitVec.ofNat 8 (noticeNumber k)).toNat = noticeNumber k := by
  cases k <;> rfl

/-- Settles O42: the reply's head and its records read back, and what stays of the queue is `noticesTaken`. -/
theorem noticesLeaveQueue : Obligations.NoticesLeaveQueue := by
  intro s ha hlaw
  obtain ⟨hroom, -⟩ := hlaw
  obtain ⟨hcode, hcount, hflag, hleft⟩ := noticesReply_counts hroom
  refine ⟨_, _, exec_readNotices ha, rfl, rfl, noticesTaken_attention s, rfl, congrArg BitVec.toNat hcode, hcount, hflag, hleft,
    fun k n hk hn => ?_⟩
  obtain ⟨hkind, hrest⟩ := noticesReply_record hk hn
  exact ⟨(congrArg BitVec.toNat hkind).trans (toNat_noticeNumber n.kind), hrest⟩

end Sys2Proof.NoticesAndFaults
end
